-- ==== Sys2Proof/Word.lean ====
section
/-! DEFINITION. The words of the machine: bytes, 32-bit and 64-bit words, and keyed stores of plain data. -/

namespace Sys2Proof

/-- A byte (00_scope R2). -/
abbrev Byte := BitVec 8

/-- An instruction word or plain-memory word: 4 bytes (R3). -/
abbrev Word := BitVec 32

/-- A 64-bit register value. -/
abbrev DWord := BitVec 64

/-- Sparse bytes by address: the representation of HBM, a basin, far memory and the cellar. -/
abbrev Mem := List Host.Cell

/-- Sparse data by number: registers, cores, directory entries, tables. -/
abbrev Store (α : Type) := List (Nat × α)

end Sys2Proof
end

