-- ==== Sys2Proof/Config.lean ====
section
/-! DEFINITION. What an implementation fixes and the spec leaves open: constants without a body, so that
nothing can rest on their values, and the few named reset values. -/

namespace Sys2Proof.Config

/-- Whether an engine that finds no outcome at a closing word runs ahead (R90 "may predict"); a free value, numbered by the
core and its own count of such decisions (log 8). -/
opaque runsAhead : Nat → Nat → Bool

/-- Which of the two values R34, R40 and R196 allow a byte at or above COUNT takes: true for the copied one;
a free value, numbered by `freeCount` and the byte's place (log 7). -/
opaque movedPast : Nat → Nat → Bool

/-- Whether a buffered store whose message is at hand is overtaken by those behind it (R160 orders no such pair); a free
value, numbered by `freeCount` (log 6). -/
opaque overtaken : Nat → Bool

/-- Whether a load is performed before that of an earlier word (R160 orders no two loads of different words without a
dependency), and whether that earlier one waits longer; free values, numbered by `freeCount` (log 6). -/
opaque loadsAhead : Nat → Bool

/-- The die junction temperature at a sample of source 0x15 (R21), in °C; a free value, numbered by `freeCount` and the
die (log 41). -/
opaque junction : Nat → Nat → BitVec 32

/-- A value the spec leaves unstated; a free value, numbered by `freeCount` and a place (log 3). -/
opaque freeBits : Nat → Nat → BitVec 64

/-- The module power that the Keystone measures at the end of a period (R12), in watts; numbered by `freeCount`. -/
opaque measuredPower : Nat → Nat

/-- What the fuses hold (R14): the digest of the firmware public key, the minimum version, and the seed of the identity
key, whose size the spec does not give (log 9). -/
opaque fusedKeyDigest : BitVec 256
opaque minVersion : BitVec 64
opaque identitySeed : List Byte

/-- The device serial number, 16 bytes (R17). -/
opaque serial : BitVec 128

/-- The 32-byte public key of the SLH-DSA-SHA2-128f pair that a seed makes, and the 17,088-byte signature of a quote with
its private key (R17). -/
opaque publicKey : List Byte → BitVec 256
opaque signature : List Byte → List Byte → BitVec 136704

/-- SLH-DSA-SHA2-128s verification of an image under a key with a signature (R15). -/
opaque verifies : List Byte → List Byte → List Byte → Bool

/-- The header of a firmware image and its three sections (R15): where they lie in the image is the
firmware's own. Key, version, signed part, signature. -/
opaque headerKey : List Byte → List Byte
opaque headerVersion : List Byte → BitVec 64
opaque headerSignature : List Byte → List Byte
opaque keystoneSection : List Byte → List Byte
opaque deviceSection : List Byte → List Byte
opaque fabricSection : List Byte → List Byte

/-- Outcome of the core self-test and of link training at the n-th start-up (R15, R26). -/
opaque selfTestFails : Nat → Nat → Bool
opaque trainsUe : Nat → Nat → Bool
opaque trainsCxl : Nat → Nat → Bool

/-- The CXL devices that enumeration finds at the n-th start-up below a port, in its order: type, switch levels above the
device, and the static capacity of its memory in bytes (R32). -/
opaque cxlFound : Nat → Nat → List (Nat × Nat × Nat)

/-- The byte that memory never written reads as. The basin is cleared to zero (R62) and a slot never written
reads as zero bytes (R115); HBM after power-on has no stated contents: DESIGN CHOICE 0 (log 5). -/
def unwritten : Byte := 0

end Sys2Proof.Config
end

