-- ==== Sys2Proof/Syntax.lean ====
section
/-! DEFINITION. The instructions of the Tyrak assembly language (14_formats R236-R253) and the device
events of spec/opcode_table.json (95_what_each_step_holds.md), as one inductive type `Instr`. -/

namespace Sys2Proof

/-- The five engine streams of a core (R78), numbered as tstream numbers them (R191). -/
inductive Stream where
  | S | L | M | X | W
  deriving DecidableEq, Repr

/-- Element formats, in the order of the 5-bit type code (R238). -/
inductive Ty where
  | f32 | bf16 | f16 | e4m3 | e5m2 | e2m1 | e8m0 | mx8 | mx6 | mx4
  | i8 | i16 | i32 | i64 | n8 | n16 | n32 | n64
  deriving DecidableEq, Repr

/-- Conditions (R239). -/
inductive Cond where
  | eq | ne | lt | le | gt | ge | ltn | len | gtn | gen
  deriving DecidableEq, Repr

/-- Memory scopes (R6, R239). -/
inductive Scope where
  | core | wing | die | part | dev | sys
  deriving DecidableEq, Repr

/-- Domain levels of `dbar` (R239). -/
inductive Level where
  | core | wing | die | part | dev
  deriving DecidableEq, Repr

/-- Coherence policies (R144). -/
inductive Pol where
  | own | wt | si | wi
  deriving DecidableEq, Repr

/-- Width codes of `ld` and `st` (R239). -/
inductive Wid where
  | i8 | i16 | i32 | i64 | n8 | n16 | n32
  deriving DecidableEq, Repr

/-- Atomic operations (R243). -/
inductive Aop where
  | add | and | or | xor | min | max | minn | maxn | swap
  deriving DecidableEq, Repr

/-- Update operations of `upd` (R291). -/
inductive Uop where
  | axpy | ema | emasq | adam | const
  deriving DecidableEq, Repr

/-- Destination and saturation of `vcvt.sr` (R250). -/
inductive SrTo where
  | bf16 | f16 | e5m2 | e4m3 | e2m1 | e5m2Nsat | e4m3Nsat
  deriving DecidableEq, Repr

/-- Stream register fields and loop registers that `qget` and `qseti` write (R247). -/
inductive Fld where
  | base | fmt | geom | sstride | xpose | adv | l0 | l1
  deriving DecidableEq, Repr

/-- The predicate prefix of an S word: register and sense (R240). -/
structure Pr where
  r : Fin 8
  neg : Bool
  deriving DecidableEq, Repr

/-- The four token bits (R83). -/
structure Tok where
  wp : Bool
  ws : Bool
  gs : Bool
  gp : Bool
  deriving DecidableEq, Repr

/-- Token bits and guard of an L, M or W word (R245). -/
structure EPre where
  tok : Tok
  g : Fin 4
  neg : Bool
  deriving DecidableEq, Repr

/-- Token bits and guard of a VR, VC or VM word (R248). -/
structure XPre where
  tok : Tok
  g : Fin 8
  neg : Bool
  deriving DecidableEq, Repr

/-- The second source of a VC word: a pantry entry c0-c62 or the trailing literal (R250, R253). -/
inductive Sel where
  | pantry (n : Fin 63)
  | lit (w : Word)
  deriving DecidableEq, Repr

/-- A connection over Ultra Ethernet, as the Vestibule sees it (R43). -/
inductive Mode where
  | rod | rud | rudi
  deriving DecidableEq, Repr

/-- A Vestibule message as it arrives: where, how, and the header of R42. `endpoint` is the partition
whose endpoint it is addressed to, or none for the management endpoint (R29). -/
structure Msg where
  port : Nat
  conn : Nat
  mode : Mode
  tc : Nat
  endpoint : Option Nat
  auth : Bool
  typ : Byte
  version : Byte
  tag : Word
  argA : DWord
  argB : DWord
  reserved : DWord
  body : List Byte
  deriving DecidableEq, Repr

/-- A unit of a stream's register file, queues and FIFOs that an error can strike (R202, log 15): a scalar register of S, a
field of a stream register (6 times the register's number and the field's), a word of the pantry of X; the queues from
which the stream takes entries; the FIFOs from which it takes tokens. -/
inductive RegUnit where
  | reg (n : Nat)
  | queues
  | fifos
  deriving DecidableEq, Repr

/-- Where an error strikes (R38, R108, R117, R182, R202): `tensor` names a tile in a page set of the patch pool, `regs` a unit
of a stream's registers, queues and FIFOs, `array` the slice products of a coming matrix step, and `adder` one of the duplicated
adders in a coming addition of a collective. -/
inductive ErrSite where
  | hbm (pa : Nat)
  | hbmBlock (pa : Nat)
  | basin (core off : Nat)
  | imem (core : Nat) (st : Stream) (word : Nat)
  | acc (core k : Nat)
  | far (region off : Nat)
  | cellar (part off : Nat)
  | tensor (part uid tile : Nat)
  | regs (core : Nat) (st : Stream) (u : RegUnit)
  | array (core step : Nat)
  | adder (op hop : Nat)
  deriving DecidableEq, Repr

/-- A message between two ranks of a collective (R36, R38, R39): a chunk with its residue, the acknowledgement of one, the
request to send one again, or the news that the collective has failed; `result` tells a result chunk, or one that is only
passed on, from the partial one of the same number. -/
inductive HopMsg where
  | data (result : Bool) (chunk : Nat) (bytes : List Byte) (residue : Nat)
  | ack (result : Bool) (chunk : Nat)
  | again (result : Bool) (chunk : Nat)
  | fail
  deriving DecidableEq, Repr

/-- A link of the module: an Ultra Ethernet port or a CXL port (R26, R32). -/
inductive Link where
  | ue (port : Nat)
  | cxl (port : Nat)
  deriving DecidableEq, Repr

/-- What a gauge event names: a core gauge or a die gauge (R19). -/
inductive GaugeId where
  | core (core g : Nat)
  | die (die g : Nat)
  deriving DecidableEq, Repr

/-- What a gauge may sample: a value, and the partition whose event it is, if it is one's (R20, R21). -/
structure GaugeEvent where
  value : Nat
  part : Option Nat
  deriving DecidableEq, Repr

/-- Requests of a core, or of an agent that is no core, at a line's home (R151). A store's mask has a bit for each byte
from its word on: one word, or two that are stored together (R146). -/
inductive ReqKind where
  | ldSi | ldWi | ldOwn
  | ldWt (word : Nat) (w64 : Bool)
  | stOwn (word : Nat) (mask : Nat) (data : DWord)
  | amo (word : Nat) (op : Aop) (w64 : Bool) (arg : DWord)
  | cas (word : Nat) (w64 : Bool) (cmp arg : DWord)
  | stHome (word : Nat) (mask : Nat) (data : DWord)
  | red (word : Nat) (op : Aop) (w64 : Bool) (arg : DWord)
  deriving DecidableEq, Repr

/-- A request message: its core (none for an agent that is no core), line and kind (R151); `no` is the number of the
store of an instruction that the core still buffers, and 0 for any other request. -/
structure HomeReq where
  core : Option Nat
  part : Nat
  line : Nat
  kind : ReqKind
  no : Nat := 0
  deriving DecidableEq, Repr

/-- What a home forwards to an owner (R151, R152). -/
inductive FwdKind where
  | read | downgrade | recall
  | update (word : Nat)
  deriving DecidableEq, Repr

/-- One instruction, or one device event, per row of the opcode table. The first 22 events are those that the
machine puts into its own queue of events in flight; they stand before the others. `ccopyComplete` carries the
bytes that a remote device returned to a copy that reads it, and none for any other copy. `collHop` names the sending rank
and, for a message from another device, its port and traffic class. -/
inductive Instr where
  -- integer arithmetic and logic (R255)
  | add (p : Pr) (d a b : Fin 32)
  | sub (p : Pr) (d a b : Fin 32)
  | mul (p : Pr) (d a b : Fin 32)
  | mulh (p : Pr) (d a b : Fin 32)
  | div (p : Pr) (d a b : Fin 32)
  | rem (p : Pr) (d a b : Fin 32)
  | and (p : Pr) (d a b : Fin 32)
  | or (p : Pr) (d a b : Fin 32)
  | xor (p : Pr) (d a b : Fin 32)
  | shl (p : Pr) (d a b : Fin 32)
  | shr (p : Pr) (d a b : Fin 32)
  | sra (p : Pr) (d a b : Fin 32)
  | min (p : Pr) (d a b : Fin 32)
  | max (p : Pr) (d a b : Fin 32)
  | clz (p : Pr) (d a : Fin 32)
  | popc (p : Pr) (d a : Fin 32)
  | mulhN (p : Pr) (d a b : Fin 32)
  | divN (p : Pr) (d a b : Fin 32)
  | remN (p : Pr) (d a b : Fin 32)
  | minN (p : Pr) (d a b : Fin 32)
  | maxN (p : Pr) (d a b : Fin 32)
  -- immediate forms (R256)
  | addi (p : Pr) (d a : Fin 32) (imm : BitVec 12)
  | andi (p : Pr) (d a : Fin 32) (imm : BitVec 12)
  | ori (p : Pr) (d a : Fin 32) (imm : BitVec 12)
  | xori (p : Pr) (d a : Fin 32) (imm : BitVec 12)
  | shli (p : Pr) (d a : Fin 32) (sh : Fin 64)
  | shri (p : Pr) (d a : Fin 32) (sh : Fin 64)
  | srai (p : Pr) (d a : Fin 32) (sh : Fin 64)
  | lui (p : Pr) (d : Fin 32) (imm : BitVec 17)
  -- comparison and predicates (R257, R258)
  | cmp (p : Pr) (pd : Fin 8) (a b : Fin 32) (cc : Cond)
  | cmpi (p : Pr) (pd : Fin 8) (a : Fin 32) (cc : Cond) (imm : BitVec 8)
  | sel (p : Pr) (d a b : Fin 32) (ps : Fin 8)
  | plog (p : Pr) (pd pa pb : Fin 8) (tt : BitVec 4)
  -- FP32 scalar arithmetic (R259, R260)
  | fadd (p : Pr) (d a b : Fin 32)
  | fsub (p : Pr) (d a b : Fin 32)
  | fmul (p : Pr) (d a b : Fin 32)
  | fmin (p : Pr) (d a b : Fin 32)
  | fmax (p : Pr) (d a b : Fin 32)
  | ffma (p : Pr) (d a b e : Fin 32)
  | fcmp (p : Pr) (pd : Fin 8) (a b : Fin 32) (cc : Cond)
  | fcvt (p : Pr) (d a : Fin 32) (dst src : Ty) (nsat : Bool)
  -- branches and loops (R261, R262)
  | b (p : Pr) (disp : BitVec 22)
  | call (p : Pr) (disp : BitVec 22)
  | bc (p : Pr) (cc : Cond) (a : Fin 32) (disp : BitVec 12)
  | jr (p : Pr) (a : Fin 32)
  | ret (p : Pr)
  | loop (p : Pr) (lc : Fin 2) (a : Fin 32) (len : BitVec 12)
  | lend (p : Pr) (lc : Fin 2)
  -- plain memory and atomics (R263-R265)
  | ld (p : Pr) (d b : Fin 32) (pol : Pol) (wid : Wid) (disp : BitVec 7)
  | st (p : Pr) (d b : Fin 32) (pol : Pol) (wid : Wid) (disp : BitVec 7)
  | amo (p : Pr) (d b a : Fin 32) (pol : Pol) (w64 : Bool) (op : Aop)
  | red (p : Pr) (b a : Fin 32) (pol : Pol) (w64 : Bool) (op : Aop)
  | cas (p : Pr) (d b a : Fin 32) (pol : Pol) (w64 : Bool)
  -- semaphores (R266, R267)
  | kset (p : Pr) (a : Fin 32) (k : Fin 64)
  | ksig (p : Pr) (a : Fin 32) (k : Fin 64)
  | kwait (p : Pr) (d a b : Fin 32) (k : Fin 64) (cl : Bool)
  -- queues (R268, R269)
  | qput (p : Pr) (a : Fin 32) (e : Fin 4)
  | outc (p : Pr) (a : Fin 32) (e : Fin 4)
  | qtake (p : Pr) (d : Fin 32) (fromL : Bool)
  -- jobs, events and domains (R270-R275)
  | launch (p : Pr) (d b : Fin 32) (disp : BitVec 7)
  | evsig (p : Pr) (a b : Fin 32) (set : Bool)
  | evwait (p : Pr) (a b : Fin 32)
  | rdv (p : Pr)
  | dbar (p : Pr) (n : Fin 4) (dir : Bool) (lvl : Level)
  | opb (p : Pr) (a : Fin 32)
  | jend (p : Pr)
  -- mailboxes and host messages (R276, R277)
  | mbsend (p : Pr) (a b : Fin 32) (mb : Fin 8)
  | mbrecv (p : Pr) (d : Fin 32) (mb : Fin 8)
  | hmsg (p : Pr) (a : Fin 32) (ch : Fin 64)
  -- patch group (R300-R312)
  | tdef (p : Pr) (d a : Fin 32)
  | tfree (p : Pr) (a : Fin 32)
  | hfork (p : Pr) (d a b : Fin 32)
  | hrel (p : Pr) (a : Fin 32)
  | popenOw (p : Pr) (a : Fin 32)
  | popenAd (p : Pr) (a : Fin 32)
  | pseal (p : Pr) (a : Fin 32)
  | pdrop (p : Pr) (a : Fin 32)
  | pinv (p : Pr) (d a b : Fin 32)
  | pinvX (p : Pr) (d a b : Fin 32)
  | pcomm (p : Pr) (a b : Fin 32)
  | pcommLoose (p : Pr) (a b : Fin 32)
  | pxpl (p : Pr) (a b : Fin 32)
  | psq (p : Pr) (a : Fin 32)
  | pfloor (p : Pr) (a : Fin 32)
  | psnap (p : Pr) (d a b : Fin 32)
  | pqry (p : Pr) (d a b : Fin 32)
  -- Pool group (R313-R317)
  | sxnew (p : Pr) (d a : Fin 32)
  | sxapp (p : Pr) (a b : Fin 32)
  | sxqry (p : Pr) (d a b : Fin 32)
  | sxsave (p : Pr) (d a b : Fin 32)
  | sxload (p : Pr) (d b : Fin 32)
  | sxfree (p : Pr) (a : Fin 32)
  -- system group (R355-R370)
  | csrr (p : Pr) (d : Fin 32) (n : BitVec 12)
  | csrw (p : Pr) (a : Fin 32) (n : BitVec 12)
  | fence (p : Pr) (sc : Scope)
  | trap (p : Pr) (a : Fin 32)
  | rte (p : Pr)
  | ctxsv (p : Pr) (a b : Fin 32)
  | ctxld (p : Pr) (a : Fin 32)
  | tlbinv (p : Pr) (a b : Fin 32)
  | cflush (p : Pr) (a b : Fin 32)
  | cinv (p : Pr) (a b : Fin 32)
  | ggrd (p : Pr) (a b : Fin 32)
  | ggset (p : Pr) (a b : Fin 32)
  -- L words (R281-R288)
  | tld (p : EPre) (qa qb : Fin 16)
  | tldT (p : EPre) (qa qb : Fin 16)
  | pld (p : EPre) (qa qb : Fin 16) (pol : Pol) (ret : Bool) (len : BitVec 8)
  | gath (p : EPre) (qa qb qc : Fin 16)
  | mcast (p : EPre) (qa qb : Fin 16)
  | ccopy (p : EPre) (qa qb : Fin 16) (ch : Fin 64)
  | coll (p : EPre) (qa qb : Fin 16) (ch : Fin 64)
  -- M words (R323-R331)
  | mzero (p : EPre) (a : Fin 8) (sh i32 : Bool)
  | mma (p : EPre) (a : Fin 8) (sh : Bool) (qa qb : Fin 8) (rep : BitVec 8)
  | mcommit (p : EPre) (a : Fin 8)
  | mdiscard (p : EPre) (a : Fin 8)
  | mlda (p : EPre) (a : Fin 8) (sh : Bool) (qa : Fin 16)
  | msta (p : EPre) (a : Fin 8) (sh : Bool) (qa : Fin 16) (ty : Ty)
  | mret (p : EPre) (a : Fin 8) (qa : Fin 16) (ty : Ty)
  | mchk (p : EPre) (qa : Fin 16)
  -- W words (R284, R289-R291)
  | tst (p : EPre) (qa qb : Fin 16) (mk : Bool) (qm : Fin 16)
  | tadd (p : EPre) (qa qb : Fin 16) (mk : Bool) (qm : Fin 16)
  | pst (p : EPre) (qa qb : Fin 16) (pol : Pol) (len : BitVec 8)
  | scat (p : EPre) (qa qb qc : Fin 16)
  | upd (p : EPre) (qa qb qc : Fin 16) (op : Uop)
  -- control words shared by L, M and W (R292-R296, R382)
  | eloop (p : EPre) (ln : Fin 2) (len : BitVec 10) (cnt : BitVec 8)
  | enext (p : EPre) (ln : Fin 2) (q : Bool)
  | ebrq (p : EPre) (disp : BitVec 13)
  | ejmp (p : EPre) (disp : BitVec 13)
  | etok (p : EPre)
  | ehalt (p : EPre)
  | qget (p : EPre) (q : Fin 16) (fld : Fld)
  | qseti (p : EPre) (q : Fin 16) (fld : Fld) (imm : BitVec 12)
  | efence (p : EPre) (sc : Scope)
  | gget (p : EPre) (n : Fin 4)
  | gseti (p : EPre) (n : Fin 4) (b : Bool)
  -- VR words (R338-R347)
  | vadd (p : XPre) (d a b : Fin 32)
  | vsub (p : XPre) (d a b : Fin 32)
  | vmul (p : XPre) (d a b : Fin 32)
  | vmin (p : XPre) (d a b : Fin 32)
  | vmax (p : XPre) (d a b : Fin 32)
  | vfma (p : XPre) (d a b : Fin 32)
  | vfnma (p : XPre) (d a b : Fin 32)
  | vabs (p : XPre) (d a : Fin 32)
  | vneg (p : XPre) (d a : Fin 32)
  | vrcp (p : XPre) (d a : Fin 32)
  | vrsq (p : XPre) (d a : Fin 32)
  | vsqrt (p : XPre) (d a : Fin 32)
  | vexp2 (p : XPre) (d a : Fin 32)
  | vlog2 (p : XPre) (d a : Fin 32)
  | vsig (p : XPre) (d a : Fin 32)
  | viadd (p : XPre) (d a b : Fin 32)
  | visub (p : XPre) (d a b : Fin 32)
  | vimul (p : XPre) (d a b : Fin 32)
  | vand (p : XPre) (d a b : Fin 32)
  | vor (p : XPre) (d a b : Fin 32)
  | vxor (p : XPre) (d a b : Fin 32)
  | vshl (p : XPre) (d a b : Fin 32)
  | vshr (p : XPre) (d a b : Fin 32)
  | vsra (p : XPre) (d a b : Fin 32)
  | vimin (p : XPre) (d a b : Fin 32)
  | vimax (p : XPre) (d a b : Fin 32)
  | vcmp (p : XPre) (cc : Cond) (a b : Fin 32)
  | minv (p : XPre)
  | mpop (p : XPre)
  | vrsum (p : XPre) (d a : Fin 32)
  | vrmax (p : XPre) (d a : Fin 32)
  | vrmin (p : XPre) (d a : Fin 32)
  | vrarg (p : XPre) (d a : Fin 32)
  | vcvt (p : XPre) (d a : Fin 32) (ty : Ty)
  | vpack (p : XPre) (d a : Fin 32) (ty : Ty)
  | vpackSq (p : XPre) (d a : Fin 32) (ty : Ty)
  | vunpk (p : XPre) (d a : Fin 32) (ty : Ty)
  | vcvtNsat (p : XPre) (d a : Fin 32) (ty : Ty)
  | vmov (p : XPre) (d a : Fin 32)
  | vbcast (p : XPre) (d a b : Fin 32)
  | vperm (p : XPre) (d a b : Fin 32)
  | vsel (p : XPre) (d a b : Fin 32)
  | viota (p : XPre) (d : Fin 32)
  -- VC words (R250)
  | vaddVC (p : XPre) (d a : Fin 32) (s : Sel)
  | vsubVC (p : XPre) (d a : Fin 32) (s : Sel)
  | vmulVC (p : XPre) (d a : Fin 32) (s : Sel)
  | vminVC (p : XPre) (d a : Fin 32) (s : Sel)
  | vmaxVC (p : XPre) (d a : Fin 32) (s : Sel)
  | vfmaVC (p : XPre) (d a : Fin 32) (s : Sel)
  | vfnmaVC (p : XPre) (d a : Fin 32) (s : Sel)
  | viaddVC (p : XPre) (d a : Fin 32) (s : Sel)
  | visubVC (p : XPre) (d a : Fin 32) (s : Sel)
  | vimulVC (p : XPre) (d a : Fin 32) (s : Sel)
  | vandVC (p : XPre) (d a : Fin 32) (s : Sel)
  | vorVC (p : XPre) (d a : Fin 32) (s : Sel)
  | vxorVC (p : XPre) (d a : Fin 32) (s : Sel)
  | vshlVC (p : XPre) (d a : Fin 32) (s : Sel)
  | vshrVC (p : XPre) (d a : Fin 32) (s : Sel)
  | vsraVC (p : XPre) (d a : Fin 32) (s : Sel)
  | viminVC (p : XPre) (d a : Fin 32) (s : Sel)
  | vimaxVC (p : XPre) (d a : Fin 32) (s : Sel)
  | vcmpVC (p : XPre) (cc : Cond) (a : Fin 32) (s : Sel)
  | vshape (p : XPre) (s : Sel)
  | vbcastVC (p : XPre) (d : Fin 32) (s : Sel)
  | vcvtSr (p : XPre) (dst : SrTo) (d a : Fin 32) (s : Sel)
  -- VM words (R348-R354, R383)
  | vld (p : XPre) (d a : Fin 32) (k : Fin 64)
  | vst (p : XPre) (d a : Fin 32) (k : Fin 64)
  | vlda (p : XPre) (d : Fin 32) (acc : Fin 8) (row : BitVec 7)
  | vpld (p : XPre) (c : Fin 63) (a : Fin 32)
  | vslist (p : XPre) (d a : Fin 32)
  | vsmass (p : XPre) (d a : Fin 32)
  | vspick (p : XPre) (d a b : Fin 32)
  | vsfull (p : XPre) (d a b : Fin 32)
  | xloop (p : XPre) (ln : Fin 2) (cnt : BitVec 7) (len : BitVec 8)
  | xnext (p : XPre) (ln : Fin 2) (q : Bool)
  | xbrq (p : XPre) (disp : BitVec 15)
  | xjmp (p : XPre) (disp : BitVec 15)
  | xjmpInd (p : XPre) (a : Fin 32)
  | xbrz (p : XPre) (disp : BitVec 15)
  | xtok (p : XPre)
  | xend (p : XPre)
  | xqget (p : XPre) (d : Fin 32) (ln : Fin 2)
  | xqgetL (p : XPre) (ln : Fin 2)
  | xqput (p : XPre) (a : Fin 32)
  | xgget (p : XPre) (n : Fin 8)
  | xgseti (p : XPre) (n : Fin 8) (b : Bool)
  -- the F20 word (R252)
  | vfmai (d a : Fin 32) (imm : BitVec 20)
  -- events that the machine itself puts into the queue of events in flight (95_what_each_step_holds.md)
  | placement (part : Nat)
  | loadComplete (part job : Nat)
  | loadFailure (part job : Nat)
  | sliceEnd (part job : Nat)
  | asyncFault (op : Nat) (va : DWord) (code : Nat)
  | dbarComplete (core : Nat) (n : Fin 4)
  | walkComplete (part : Nat) (va : Nat)
  | cellarFetchComplete (part : Nat) (entryPa : Nat) (va : Nat)
  | conduitEntryStart (die part : Nat)
  | ccopyComplete (op : Nat) (data : List Byte)
  | collHop (op rank : Nat) (via : Option (Nat × Nat)) (m : HopMsg)
  | collComplete (op : Nat)
  | cdelayHoldEnd (op : Nat)
  | lineData (core line : Nat)
  | writeBackAck (core line : Nat)
  | invalidation (core line : Nat)
  | invalidationAck (core line : Nat)
  | forwardedRequest (owner line : Nat) (k : FwdKind)
  | forwardReply (owner line : Nat) (k : FwdKind)
  | homeRequest (r : HomeReq)
  | farZeroingComplete (region : Nat)
  | writeReply (m : Msg)
  -- no operation (R370)
  | nop
  -- module events: start-up, power, links, errors, gauges (R12-R25, R31, R34, R202)
  | powerOn
  | dutyPeriod (watts : Nat)
  | thermalTrip
  | linkDown (port : Nat)
  | linkUp (l : Link)
  | cxlLinkDown (port : Nat)
  | connectionTimeout (conn : Nat)
  | correctableError (core : Nat)
  | freezeEnd (core : Nat)
  | uncorrectableError (site : ErrSite)
  | gaugeSample (g : GaugeId) (v : GaugeEvent)
  | junctionThrottlePoint (die : Nat) (hot : Bool)
  -- Vestibule messages (R42-R51)
  | packetDrop (port : Nat)
  | write (m : Msg)
  | read (m : Msg)
  | cmd (m : Msg)
  | cancel (m : Msg)
  | attest (m : Msg)
  | quote
  | badType (m : Msg)
  | notifyAck (place : Nat)
  -- ADMIN operations (R52-R55)
  | health (m : Msg)
  | idkey (m : Msg)
  | partCreate (m : Msg)
  | partDestroy (m : Msg)
  | setPorts (m : Msg)
  | setWeight (m : Msg)
  | setSluice (m : Msg)
  | setCellar (m : Msg)
  | setFar (m : Msg)
  | setGauge (m : Msg)
  | loadDisp (m : Msg)
  | setPower (m : Msg)
  | fwUpdate (m : Msg)
  | clearHealth (m : Msg)
  | reset (m : Msg)
  | setAuthority (m : Msg)
  | fwPrefer (m : Msg)
  | unlistedOperation (m : Msg)
  -- Hall events (R62-R77)
  | coreRelease (core : Nat)
  | coreLeave (core : Nat)
  | yieldDeadline (core : Nat)
  -- core events (R91, R97, R98, R192, R196, R267)
  | outcomeResolve (core : Nat) (st : Stream)
  | tokenStall (core : Nat) (st : Stream)
  | kwaitTimeout (core : Nat)
  | trapTaken (core : Nat)
  | unassignedWord (w : Word)
  | fetchRange
  -- memory events (R114, R116, R149-R156)
  | writeBack (core line : Nat)
  | evictionNotice (core line : Nat)
  | fenceMarker (cistern core : Nat)
  -- register writes with an effect of their own (R67, R96, R109, R115, R118, R141, R200, R206, R359-R361, R377)
  | evbaseWrite (core : Nat) (v : DWord)
  | ptrootWrite (core : Nat) (v : DWord)
  | clkctlWrite (core : Nat) (v : DWord)
  | ppoolWrite (core : Nat) (v : DWord)
  | sxpoolWrite (core : Nat) (v : DWord)
  | kbaseWrite (core : Nat) (v : DWord)
  | dpaddrWrite (core : Nat) (v : DWord)
  | domWrite (core : Nat) (n : Fin 4) (v : DWord)
  | lkaheadWrite (core : Nat) (v : DWord)
  | cdelayWrite (core : Nat) (v : DWord)
  | cstatWrite (core : Nat) (v : DWord)
  | capbaseWrite (core : Nat) (v : DWord)
  deriving DecidableEq, Repr

end Sys2Proof
end

