-- ==== Sys2Proof/WellFormed.lean ====
section
/-! DEFINITION. Well-formed instructions: the combination rules that 14_formats states for a word to be
assigned (R237), and the ranges of the arguments of device events. -/

namespace Sys2Proof

/-- Types that `fcvt` and `vcvt` take: codes 0x00-0x05 and 0x0A-0x11 (R243, R344). -/
def Ty.convertible : Ty → Bool
  | .e8m0 | .mx8 | .mx6 | .mx4 => false
  | _ => true

/-- Types that `vpack` and `vunpk` take: codes 0x03-0x05 and 0x07-0x09 (R249). -/
def Ty.packable : Ty → Bool
  | .e4m3 | .e5m2 | .e2m1 | .mx8 | .mx6 | .mx4 => true
  | _ => false

/-- Types that admit `.nsat` (R187). -/
def Ty.nsatable : Ty → Bool
  | .e4m3 | .e5m2 => true
  | _ => false

/-- The six conditions that `fcmp` takes (R239). -/
def Cond.floating : Cond → Bool
  | .eq | .ne | .lt | .le | .gt | .ge => true
  | _ => false

/-- Loop registers take Q = 0 (R247). -/
def Fld.isLoop : Fld → Bool
  | .l0 | .l1 => true
  | _ => false

/-- The well-formedness of an instruction or event. -/
def Instr.wf : Instr → Bool
  | .fcmp _ _ _ _ cc => cc.floating
  | .fcvt _ _ _ dst src nsat => dst.convertible && src.convertible && (!nsat || dst.nsatable)
  | .jr _ a => a != 31
  | .loop _ _ _ len => len != 0
  | .red _ _ _ _ _ op => op != .swap
  | .kwait _ _ _ rb _ cl => cl || rb == 0
  | .pld _ _ qb _ retain _ => !retain || qb == 0
  | .mzero _ _ sh i32 => !(sh && i32)
  | .msta _ _ _ _ ty => ty != .e8m0
  | .mret _ _ _ ty => ty != .e8m0
  | .tst _ _ _ mk qm => mk || qm == 0
  | .tadd _ _ _ mk qm => mk || qm == 0
  | .eloop _ _ len _ => len != 0
  | .qget _ q fld => !fld.isLoop || q == 0
  | .qseti _ q fld _ => !fld.isLoop || q == 0
  | .vcvt _ _ _ ty => ty.convertible
  | .vpack _ d _ ty => ty.packable && d != 31
  | .vpackSq _ d _ ty => ty.packable && d != 31
  | .vunpk _ _ a ty => ty.packable && a != 31
  | .vcvtNsat _ _ _ ty => ty.nsatable
  | .vlda _ _ _ row => decide (row.toNat < 96)
  | .xloop _ _ _ len => len != 0
  | .linkDown port => decide (port < 12)
  | .linkUp (.ue port) => decide (port < 12)
  | .linkUp (.cxl port) => decide (port < 2)
  | .cxlLinkDown port => decide (port < 2)
  | .packetDrop port => decide (port < 12)
  | .junctionThrottlePoint die _ => decide (die < 4)
  | .correctableError c => decide (c < 144)
  | .freezeEnd c => decide (c < 144)
  | .coreRelease c => decide (c < 144)
  | .coreLeave c => decide (c < 144)
  | .yieldDeadline c => decide (c < 144)
  | .trapTaken c => decide (c < 144)
  | .kwaitTimeout c => decide (c < 144)
  | .placement p => decide (p < 12)
  | .conduitEntryStart die p => decide (die < 4) && decide (p < 12)
  | _ => true

/-- Whether the row of the opcode table has an encoding (a word), as against a device event. -/
def Instr.isWord : Instr → Bool
  | .powerOn | .dutyPeriod _ | .thermalTrip | .linkDown _ | .linkUp _ | .cxlLinkDown _
  | .connectionTimeout _ | .correctableError _ | .freezeEnd _ | .uncorrectableError _
  | .gaugeSample _ _ | .junctionThrottlePoint _ _ | .packetDrop _ | .write _ | .writeReply _
  | .read _ | .cmd _ | .cancel _ | .attest _ | .quote | .badType _ | .notifyAck _ | .health _
  | .idkey _ | .partCreate _ | .partDestroy _ | .setPorts _ | .setWeight _ | .setSluice _
  | .setCellar _ | .setFar _ | .setGauge _ | .loadDisp _ | .setPower _ | .fwUpdate _
  | .clearHealth _ | .reset _ | .setAuthority _ | .fwPrefer _ | .unlistedOperation _
  | .farZeroingComplete _ | .placement _ | .loadComplete _ _ | .loadFailure _ _ | .coreRelease _
  | .sliceEnd _ _ | .coreLeave _ | .yieldDeadline _ | .outcomeResolve _ _ | .tokenStall _ _
  | .trapTaken _ | .asyncFault _ _ _ | .dbarComplete _ _ | .kwaitTimeout _ | .unassignedWord _
  | .fetchRange | .walkComplete _ _ | .cellarFetchComplete _ _ _ | .homeRequest _ | .lineData _ _
  | .writeBack _ _ | .writeBackAck _ _ | .evictionNotice _ _ | .invalidation _ _
  | .invalidationAck _ _ | .forwardedRequest _ _ _ | .forwardReply _ _ _ | .fenceMarker _ _
  | .conduitEntryStart _ _ | .ccopyComplete _ _ | .collHop _ _ _ _ | .collComplete _
  | .cdelayHoldEnd _ | .evbaseWrite _ _ | .ptrootWrite _ _ | .clkctlWrite _ _ | .ppoolWrite _ _
  | .sxpoolWrite _ _ | .kbaseWrite _ _ | .dpaddrWrite _ _ | .domWrite _ _ _ | .lkaheadWrite _ _
  | .cdelayWrite _ _ | .cstatWrite _ _ | .capbaseWrite _ _ => false
  | _ => true

end Sys2Proof
end

