-- ==== Sys2Proof/Decode.lean ====
section
/-! DEFINITION. Decoding of the 32-bit words of the five streams (14_formats R236-R253), total and
rejecting by name, and after it the encoder, written from the same tables. A word is read as a natural
number; `fld w lo n` is its bits [lo + n - 1 : lo] (R2). -/

namespace Sys2Proof

/-- Why a word is no instruction (R237). -/
inductive DecodeError where
  /-- The opcode, major opcode or function code is marked unassigned. -/
  | unassignedOpcode
  /-- A field required to be zero is not zero. -/
  | nonzeroField
  /-- A code field holds a value its code table leaves unassigned. -/
  | unassignedCode
  /-- A combination rule stated for the instruction is broken. -/
  | badCombination
  /-- The words given are too few or too many for one instruction. -/
  | wordCount
  deriving DecidableEq, Repr

/-- Bits [lo + n - 1 : lo] of a word (R2). -/
def fld (w lo n : Nat) : Nat := w / 2 ^ lo % 2 ^ n

/-- A truth value of one bit. -/
def bit (w lo : Nat) : Bool := fld w lo 1 == 1

/-- Continue when the condition holds, else reject by name. -/
def need (c : Bool) (e : DecodeError) (k : Except DecodeError Instr) : Except DecodeError Instr :=
  if c then k else .error e

/-- Continue with the decoded code field, else reject as an unassigned code (R239). -/
def code {α : Type} (o : Option α) (k : α → Except DecodeError Instr) : Except DecodeError Instr :=
  match o with
  | some x => k x
  | none => .error .unassignedCode

/-- Reject a word that breaks a combination rule of its instruction (R237). -/
def checked (i : Instr) : Except DecodeError Instr :=
  if i.wf then .ok i else .error .badCombination

/-- The 5-bit type code (R238). -/
def Ty.code : Ty → Nat
  | .f32 => 0
  | .bf16 => 1
  | .f16 => 2
  | .e4m3 => 3
  | .e5m2 => 4
  | .e2m1 => 5
  | .e8m0 => 6
  | .mx8 => 7
  | .mx6 => 8
  | .mx4 => 9
  | .i8 => 10
  | .i16 => 11
  | .i32 => 12
  | .i64 => 13
  | .n8 => 14
  | .n16 => 15
  | .n32 => 16
  | .n64 => 17

/-- The inverse of `Ty.code`; none where the table leaves the value unassigned. -/
def tyOf : Nat → Option Ty
  | 0 => some .f32
  | 1 => some .bf16
  | 2 => some .f16
  | 3 => some .e4m3
  | 4 => some .e5m2
  | 5 => some .e2m1
  | 6 => some .e8m0
  | 7 => some .mx8
  | 8 => some .mx6
  | 9 => some .mx4
  | 10 => some .i8
  | 11 => some .i16
  | 12 => some .i32
  | 13 => some .i64
  | 14 => some .n8
  | 15 => some .n16
  | 16 => some .n32
  | 17 => some .n64
  | _ => none

/-- The CC field (R239). -/
def Cond.code : Cond → Nat
  | .eq => 0
  | .ne => 1
  | .lt => 2
  | .le => 3
  | .gt => 4
  | .ge => 5
  | .ltn => 6
  | .len => 7
  | .gtn => 8
  | .gen => 9

/-- The inverse of `Cond.code`; none where the table leaves the value unassigned. -/
def condOf : Nat → Option Cond
  | 0 => some .eq
  | 1 => some .ne
  | 2 => some .lt
  | 3 => some .le
  | 4 => some .gt
  | 5 => some .ge
  | 6 => some .ltn
  | 7 => some .len
  | 8 => some .gtn
  | 9 => some .gen
  | _ => none

/-- The SCOPE field (R239). -/
def Scope.code : Scope → Nat
  | .core => 0
  | .wing => 1
  | .die => 2
  | .part => 3
  | .dev => 4
  | .sys => 5

/-- The inverse of `Scope.code`; none where the table leaves the value unassigned. -/
def scopeOf : Nat → Option Scope
  | 0 => some .core
  | 1 => some .wing
  | 2 => some .die
  | 3 => some .part
  | 4 => some .dev
  | 5 => some .sys
  | _ => none

/-- The LVL field (R239). -/
def Level.code : Level → Nat
  | .core => 0
  | .wing => 1
  | .die => 2
  | .part => 3
  | .dev => 4

/-- The inverse of `Level.code`; none where the table leaves the value unassigned. -/
def levelOf : Nat → Option Level
  | 0 => some .core
  | 1 => some .wing
  | 2 => some .die
  | 3 => some .part
  | 4 => some .dev
  | _ => none

/-- The POL field (R144). -/
def Pol.code : Pol → Nat
  | .own => 0
  | .wt => 1
  | .si => 2
  | .wi => 3

/-- The inverse of `Pol.code`; none where the table leaves the value unassigned. -/
def polOf : Nat → Option Pol
  | 0 => some .own
  | 1 => some .wt
  | 2 => some .si
  | 3 => some .wi
  | _ => none

/-- The WID field (R239). -/
def Wid.code : Wid → Nat
  | .i8 => 0
  | .i16 => 1
  | .i32 => 2
  | .i64 => 3
  | .n8 => 4
  | .n16 => 5
  | .n32 => 6

/-- The inverse of `Wid.code`; none where the table leaves the value unassigned. -/
def widOf : Nat → Option Wid
  | 0 => some .i8
  | 1 => some .i16
  | 2 => some .i32
  | 3 => some .i64
  | 4 => some .n8
  | 5 => some .n16
  | 6 => some .n32
  | _ => none

/-- The AOP field (R243). -/
def Aop.code : Aop → Nat
  | .add => 0
  | .and => 1
  | .or => 2
  | .xor => 3
  | .min => 4
  | .max => 5
  | .minn => 6
  | .maxn => 7
  | .swap => 8

/-- The inverse of `Aop.code`; none where the table leaves the value unassigned. -/
def aopOf : Nat → Option Aop
  | 0 => some .add
  | 1 => some .and
  | 2 => some .or
  | 3 => some .xor
  | 4 => some .min
  | 5 => some .max
  | 6 => some .minn
  | 7 => some .maxn
  | 8 => some .swap
  | _ => none

/-- The UOP field (R291). -/
def Uop.code : Uop → Nat
  | .axpy => 0
  | .ema => 1
  | .emasq => 2
  | .adam => 3
  | .const => 4

/-- The inverse of `Uop.code`; none where the table leaves the value unassigned. -/
def uopOf : Nat → Option Uop
  | 0 => some .axpy
  | 1 => some .ema
  | 2 => some .emasq
  | 3 => some .adam
  | 4 => some .const
  | _ => none

/-- The FLD field (R247). -/
def Fld.code : Fld → Nat
  | .base => 0
  | .fmt => 1
  | .geom => 2
  | .sstride => 3
  | .xpose => 4
  | .adv => 5
  | .l0 => 6
  | .l1 => 7

/-- The inverse of `Fld.code`; none where the table leaves the value unassigned. -/
def fldOf : Nat → Option Fld
  | 0 => some .base
  | 1 => some .fmt
  | 2 => some .geom
  | 3 => some .sstride
  | 4 => some .xpose
  | 5 => some .adv
  | 6 => some .l0
  | 7 => some .l1
  | _ => none

/-- Bits [19:17] of the VC opcodes 0x60-0x6C (R250). -/
def SrTo.code : SrTo → Nat
  | .bf16 => 0
  | .f16 => 1
  | .e5m2 => 2
  | .e4m3 => 3
  | .e2m1 => 4
  | .e5m2Nsat => 5
  | .e4m3Nsat => 6

/-- The inverse of `SrTo.code`; none where the table leaves the value unassigned. -/
def srToOf : Nat → Option SrTo
  | 0 => some .bf16
  | 1 => some .f16
  | 2 => some .e5m2
  | 3 => some .e4m3
  | 4 => some .e2m1
  | 5 => some .e5m2Nsat
  | 6 => some .e4m3Nsat
  | _ => none

/-- The predicate prefix, bits [31:28] of an S word (R240). -/
def prOf (w : Nat) : Pr := ⟨Fin.ofNat 8 (fld w 29 3), bit w 28⟩

/-- Four token bits at `lo` (R83). -/
def tokOf (w lo : Nat) : Tok := ⟨bit w (lo + 3), bit w (lo + 2), bit w (lo + 1), bit w lo⟩

/-- The prefix of a step word (R245). -/
def epreOf (w : Nat) : EPre := ⟨tokOf w 28, Fin.ofNat 4 (fld w 26 2), bit w 19⟩

/-- The prefix of an X word whose guard sense stands at bit `gn` (R248). -/
def xpreOf (w gn : Nat) : XPre := ⟨tokOf w 26, Fin.ofNat 8 (fld w 23 3), bit w gn⟩

/-- The second source of a VC word with SEL at [5:0] and the literal word after it (R250, R253). -/
def selOf (w lit : Nat) : Sel :=
  if h : fld w 0 6 < 63 then .pantry ⟨fld w 0 6, h⟩ else .lit (BitVec.ofNat 32 lit)

/-- The number of a truth value. -/
def num (b : Bool) : Nat := if b then 1 else 0

/-- The ALU group of S: SR words with OP 0x00, by FN (R243). -/
def decodeAlu (w : Nat) : Except DecodeError Instr :=
  match fld w 0 7 with
  | 0x00 => .ok (.add (prOf w) (Fin.ofNat 32 (fld w 17 5)) (Fin.ofNat 32 (fld w 12 5)) (Fin.ofNat 32 (fld w 7 5)))
  | 0x01 => .ok (.sub (prOf w) (Fin.ofNat 32 (fld w 17 5)) (Fin.ofNat 32 (fld w 12 5)) (Fin.ofNat 32 (fld w 7 5)))
  | 0x02 => .ok (.mul (prOf w) (Fin.ofNat 32 (fld w 17 5)) (Fin.ofNat 32 (fld w 12 5)) (Fin.ofNat 32 (fld w 7 5)))
  | 0x03 => .ok (.mulh (prOf w) (Fin.ofNat 32 (fld w 17 5)) (Fin.ofNat 32 (fld w 12 5)) (Fin.ofNat 32 (fld w 7 5)))
  | 0x04 => .ok (.div (prOf w) (Fin.ofNat 32 (fld w 17 5)) (Fin.ofNat 32 (fld w 12 5)) (Fin.ofNat 32 (fld w 7 5)))
  | 0x05 => .ok (.rem (prOf w) (Fin.ofNat 32 (fld w 17 5)) (Fin.ofNat 32 (fld w 12 5)) (Fin.ofNat 32 (fld w 7 5)))
  | 0x06 => .ok (.and (prOf w) (Fin.ofNat 32 (fld w 17 5)) (Fin.ofNat 32 (fld w 12 5)) (Fin.ofNat 32 (fld w 7 5)))
  | 0x07 => .ok (.or (prOf w) (Fin.ofNat 32 (fld w 17 5)) (Fin.ofNat 32 (fld w 12 5)) (Fin.ofNat 32 (fld w 7 5)))
  | 0x08 => .ok (.xor (prOf w) (Fin.ofNat 32 (fld w 17 5)) (Fin.ofNat 32 (fld w 12 5)) (Fin.ofNat 32 (fld w 7 5)))
  | 0x09 => .ok (.shl (prOf w) (Fin.ofNat 32 (fld w 17 5)) (Fin.ofNat 32 (fld w 12 5)) (Fin.ofNat 32 (fld w 7 5)))
  | 0x0A => .ok (.shr (prOf w) (Fin.ofNat 32 (fld w 17 5)) (Fin.ofNat 32 (fld w 12 5)) (Fin.ofNat 32 (fld w 7 5)))
  | 0x0B => .ok (.sra (prOf w) (Fin.ofNat 32 (fld w 17 5)) (Fin.ofNat 32 (fld w 12 5)) (Fin.ofNat 32 (fld w 7 5)))
  | 0x0C => .ok (.min (prOf w) (Fin.ofNat 32 (fld w 17 5)) (Fin.ofNat 32 (fld w 12 5)) (Fin.ofNat 32 (fld w 7 5)))
  | 0x0D => .ok (.max (prOf w) (Fin.ofNat 32 (fld w 17 5)) (Fin.ofNat 32 (fld w 12 5)) (Fin.ofNat 32 (fld w 7 5)))
  | 0x0E => need (fld w 7 5 == 0) .nonzeroField <| .ok (.clz (prOf w) (Fin.ofNat 32 (fld w 17 5)) (Fin.ofNat 32 (fld w 12 5)))
  | 0x0F => need (fld w 7 5 == 0) .nonzeroField <| .ok (.popc (prOf w) (Fin.ofNat 32 (fld w 17 5)) (Fin.ofNat 32 (fld w 12 5)))
  | 0x43 => .ok (.mulhN (prOf w) (Fin.ofNat 32 (fld w 17 5)) (Fin.ofNat 32 (fld w 12 5)) (Fin.ofNat 32 (fld w 7 5)))
  | 0x44 => .ok (.divN (prOf w) (Fin.ofNat 32 (fld w 17 5)) (Fin.ofNat 32 (fld w 12 5)) (Fin.ofNat 32 (fld w 7 5)))
  | 0x45 => .ok (.remN (prOf w) (Fin.ofNat 32 (fld w 17 5)) (Fin.ofNat 32 (fld w 12 5)) (Fin.ofNat 32 (fld w 7 5)))
  | 0x4C => .ok (.minN (prOf w) (Fin.ofNat 32 (fld w 17 5)) (Fin.ofNat 32 (fld w 12 5)) (Fin.ofNat 32 (fld w 7 5)))
  | 0x4D => .ok (.maxN (prOf w) (Fin.ofNat 32 (fld w 17 5)) (Fin.ofNat 32 (fld w 12 5)) (Fin.ofNat 32 (fld w 7 5)))
  | _ => .error .unassignedOpcode

/-- The FP group of S (R243). -/
def decodeFp (w : Nat) : Except DecodeError Instr :=
  match fld w 0 7 with
  | 0x00 => .ok (.fadd (prOf w) (Fin.ofNat 32 (fld w 17 5)) (Fin.ofNat 32 (fld w 12 5)) (Fin.ofNat 32 (fld w 7 5)))
  | 0x01 => .ok (.fsub (prOf w) (Fin.ofNat 32 (fld w 17 5)) (Fin.ofNat 32 (fld w 12 5)) (Fin.ofNat 32 (fld w 7 5)))
  | 0x02 => .ok (.fmul (prOf w) (Fin.ofNat 32 (fld w 17 5)) (Fin.ofNat 32 (fld w 12 5)) (Fin.ofNat 32 (fld w 7 5)))
  | 0x03 => .ok (.fmin (prOf w) (Fin.ofNat 32 (fld w 17 5)) (Fin.ofNat 32 (fld w 12 5)) (Fin.ofNat 32 (fld w 7 5)))
  | 0x04 => .ok (.fmax (prOf w) (Fin.ofNat 32 (fld w 17 5)) (Fin.ofNat 32 (fld w 12 5)) (Fin.ofNat 32 (fld w 7 5)))
  | _ => .error .unassignedOpcode

/-- The patch group of S (R243, R297). -/
def decodePatch (w : Nat) : Except DecodeError Instr :=
  match fld w 0 7 with
  | 0x00 => need (fld w 7 5 == 0) .nonzeroField <| .ok (.tdef (prOf w) (Fin.ofNat 32 (fld w 17 5)) (Fin.ofNat 32 (fld w 12 5)))
  | 0x01 => need (fld w 17 5 == 0 && fld w 7 5 == 0) .nonzeroField <| .ok (.tfree (prOf w) (Fin.ofNat 32 (fld w 12 5)))
  | 0x02 => .ok (.hfork (prOf w) (Fin.ofNat 32 (fld w 17 5)) (Fin.ofNat 32 (fld w 12 5)) (Fin.ofNat 32 (fld w 7 5)))
  | 0x03 => need (fld w 17 5 == 0 && fld w 7 5 == 0) .nonzeroField <| .ok (.hrel (prOf w) (Fin.ofNat 32 (fld w 12 5)))
  | 0x04 => need (fld w 17 5 == 0 && fld w 7 5 == 0) .nonzeroField <| .ok (.popenOw (prOf w) (Fin.ofNat 32 (fld w 12 5)))
  | 0x05 => need (fld w 17 5 == 0 && fld w 7 5 == 0) .nonzeroField <| .ok (.popenAd (prOf w) (Fin.ofNat 32 (fld w 12 5)))
  | 0x06 => need (fld w 17 5 == 0 && fld w 7 5 == 0) .nonzeroField <| .ok (.pseal (prOf w) (Fin.ofNat 32 (fld w 12 5)))
  | 0x07 => need (fld w 17 5 == 0 && fld w 7 5 == 0) .nonzeroField <| .ok (.pdrop (prOf w) (Fin.ofNat 32 (fld w 12 5)))
  | 0x08 => .ok (.pinv (prOf w) (Fin.ofNat 32 (fld w 17 5)) (Fin.ofNat 32 (fld w 12 5)) (Fin.ofNat 32 (fld w 7 5)))
  | 0x09 => .ok (.pinvX (prOf w) (Fin.ofNat 32 (fld w 17 5)) (Fin.ofNat 32 (fld w 12 5)) (Fin.ofNat 32 (fld w 7 5)))
  | 0x0A => need (fld w 17 5 == 0) .nonzeroField <| .ok (.pcomm (prOf w) (Fin.ofNat 32 (fld w 12 5)) (Fin.ofNat 32 (fld w 7 5)))
  | 0x0B => need (fld w 17 5 == 0) .nonzeroField <| .ok (.pcommLoose (prOf w) (Fin.ofNat 32 (fld w 12 5)) (Fin.ofNat 32 (fld w 7 5)))
  | 0x0C => need (fld w 17 5 == 0) .nonzeroField <| .ok (.pxpl (prOf w) (Fin.ofNat 32 (fld w 12 5)) (Fin.ofNat 32 (fld w 7 5)))
  | 0x0D => need (fld w 17 5 == 0 && fld w 7 5 == 0) .nonzeroField <| .ok (.psq (prOf w) (Fin.ofNat 32 (fld w 12 5)))
  | 0x0E => need (fld w 17 5 == 0 && fld w 7 5 == 0) .nonzeroField <| .ok (.pfloor (prOf w) (Fin.ofNat 32 (fld w 12 5)))
  | 0x0F => .ok (.psnap (prOf w) (Fin.ofNat 32 (fld w 17 5)) (Fin.ofNat 32 (fld w 12 5)) (Fin.ofNat 32 (fld w 7 5)))
  | 0x10 => .ok (.pqry (prOf w) (Fin.ofNat 32 (fld w 17 5)) (Fin.ofNat 32 (fld w 12 5)) (Fin.ofNat 32 (fld w 7 5)))
  | _ => .error .unassignedOpcode

/-- The Pool group of S (R243, R297). -/
def decodePool (w : Nat) : Except DecodeError Instr :=
  match fld w 0 7 with
  | 0x00 => need (fld w 7 5 == 0) .nonzeroField <| .ok (.sxnew (prOf w) (Fin.ofNat 32 (fld w 17 5)) (Fin.ofNat 32 (fld w 12 5)))
  | 0x01 => need (fld w 17 5 == 0) .nonzeroField <| .ok (.sxapp (prOf w) (Fin.ofNat 32 (fld w 12 5)) (Fin.ofNat 32 (fld w 7 5)))
  | 0x02 => .ok (.sxqry (prOf w) (Fin.ofNat 32 (fld w 17 5)) (Fin.ofNat 32 (fld w 12 5)) (Fin.ofNat 32 (fld w 7 5)))
  | 0x03 => .ok (.sxsave (prOf w) (Fin.ofNat 32 (fld w 17 5)) (Fin.ofNat 32 (fld w 12 5)) (Fin.ofNat 32 (fld w 7 5)))
  | 0x04 => need (fld w 12 5 == 0) .nonzeroField <| .ok (.sxload (prOf w) (Fin.ofNat 32 (fld w 17 5)) (Fin.ofNat 32 (fld w 7 5)))
  | 0x05 => need (fld w 17 5 == 0 && fld w 7 5 == 0) .nonzeroField <| .ok (.sxfree (prOf w) (Fin.ofNat 32 (fld w 12 5)))
  | _ => .error .unassignedOpcode

/-- The system group of S (R243, R355). `nop` has every field zero but OP and FN. -/
def decodeSys (w : Nat) : Except DecodeError Instr :=
  match fld w 0 7 with
  | 0x00 => need (fld w 12 10 == 0) .nonzeroField <| code (scopeOf (fld w 7 5)) fun x0 => .ok (.fence (prOf w) x0)
  | 0x01 => need (fld w 17 5 == 0 && fld w 7 5 == 0) .nonzeroField <| .ok (.trap (prOf w) (Fin.ofNat 32 (fld w 12 5)))
  | 0x02 => need (fld w 7 15 == 0) .nonzeroField <| .ok (.rte (prOf w))
  | 0x03 => need (fld w 17 5 == 0) .nonzeroField <| .ok (.ctxsv (prOf w) (Fin.ofNat 32 (fld w 12 5)) (Fin.ofNat 32 (fld w 7 5)))
  | 0x04 => need (fld w 17 5 == 0 && fld w 7 5 == 0) .nonzeroField <| .ok (.ctxld (prOf w) (Fin.ofNat 32 (fld w 12 5)))
  | 0x05 => need (fld w 17 5 == 0) .nonzeroField <| .ok (.tlbinv (prOf w) (Fin.ofNat 32 (fld w 12 5)) (Fin.ofNat 32 (fld w 7 5)))
  | 0x06 => need (fld w 17 5 == 0) .nonzeroField <| .ok (.cflush (prOf w) (Fin.ofNat 32 (fld w 12 5)) (Fin.ofNat 32 (fld w 7 5)))
  | 0x07 => need (fld w 17 5 == 0) .nonzeroField <| .ok (.cinv (prOf w) (Fin.ofNat 32 (fld w 12 5)) (Fin.ofNat 32 (fld w 7 5)))
  | 0x08 => need (fld w 17 5 == 0) .nonzeroField <| .ok (.ggrd (prOf w) (Fin.ofNat 32 (fld w 12 5)) (Fin.ofNat 32 (fld w 7 5)))
  | 0x09 => need (fld w 17 5 == 0) .nonzeroField <| .ok (.ggset (prOf w) (Fin.ofNat 32 (fld w 12 5)) (Fin.ofNat 32 (fld w 7 5)))
  | 0x0A => need (fld w 7 15 == 0 && fld w 28 4 == 0) .nonzeroField <| .ok .nop
  | _ => .error .unassignedOpcode

/-- A word of the S stream, by major opcode (R240-R244). -/
def decodeS (w : Nat) : Except DecodeError Instr :=
  match fld w 22 6 with
  | 0x00 => decodeAlu w
  | 0x0D => decodeFp w
  | 0x2C => decodePatch w
  | 0x2D => decodePool w
  | 0x30 => decodeSys w
  | 0x01 => .ok (.addi (prOf w) (Fin.ofNat 32 (fld w 17 5)) (Fin.ofNat 32 (fld w 12 5)) (BitVec.ofNat 12 (fld w 0 12)))
  | 0x02 => .ok (.andi (prOf w) (Fin.ofNat 32 (fld w 17 5)) (Fin.ofNat 32 (fld w 12 5)) (BitVec.ofNat 12 (fld w 0 12)))
  | 0x03 => .ok (.ori (prOf w) (Fin.ofNat 32 (fld w 17 5)) (Fin.ofNat 32 (fld w 12 5)) (BitVec.ofNat 12 (fld w 0 12)))
  | 0x04 => .ok (.xori (prOf w) (Fin.ofNat 32 (fld w 17 5)) (Fin.ofNat 32 (fld w 12 5)) (BitVec.ofNat 12 (fld w 0 12)))
  | 0x05 => need (fld w 6 6 == 0) .nonzeroField <| .ok (.shli (prOf w) (Fin.ofNat 32 (fld w 17 5)) (Fin.ofNat 32 (fld w 12 5)) (Fin.ofNat 64 (fld w 0 6)))
  | 0x06 => need (fld w 6 6 == 0) .nonzeroField <| .ok (.shri (prOf w) (Fin.ofNat 32 (fld w 17 5)) (Fin.ofNat 32 (fld w 12 5)) (Fin.ofNat 64 (fld w 0 6)))
  | 0x07 => need (fld w 6 6 == 0) .nonzeroField <| .ok (.srai (prOf w) (Fin.ofNat 32 (fld w 17 5)) (Fin.ofNat 32 (fld w 12 5)) (Fin.ofNat 64 (fld w 0 6)))
  | 0x08 => .ok (.lui (prOf w) (Fin.ofNat 32 (fld w 17 5)) (BitVec.ofNat 17 (fld w 0 17)))
  | 0x09 => need (fld w 17 2 == 0 && fld w 0 3 == 0) .nonzeroField <| code (condOf (fld w 3 4)) fun x3 => .ok (.cmp (prOf w) (Fin.ofNat 8 (fld w 19 3)) (Fin.ofNat 32 (fld w 12 5)) (Fin.ofNat 32 (fld w 7 5)) x3)
  | 0x0A => need (fld w 17 2 == 0) .nonzeroField <| code (condOf (fld w 8 4)) fun x2 => .ok (.cmpi (prOf w) (Fin.ofNat 8 (fld w 19 3)) (Fin.ofNat 32 (fld w 12 5)) x2 (BitVec.ofNat 8 (fld w 0 8)))
  | 0x0B => need (fld w 0 4 == 0) .nonzeroField <| .ok (.sel (prOf w) (Fin.ofNat 32 (fld w 17 5)) (Fin.ofNat 32 (fld w 12 5)) (Fin.ofNat 32 (fld w 7 5)) (Fin.ofNat 8 (fld w 4 3)))
  | 0x0C => need (fld w 4 9 == 0) .nonzeroField <| .ok (.plog (prOf w) (Fin.ofNat 8 (fld w 19 3)) (Fin.ofNat 8 (fld w 16 3)) (Fin.ofNat 8 (fld w 13 3)) (BitVec.ofNat 4 (fld w 0 4)))
  | 0x0E => need (fld w 0 2 == 0) .nonzeroField <| .ok (.ffma (prOf w) (Fin.ofNat 32 (fld w 17 5)) (Fin.ofNat 32 (fld w 12 5)) (Fin.ofNat 32 (fld w 7 5)) (Fin.ofNat 32 (fld w 2 5)))
  | 0x0F => need (fld w 17 2 == 0 && fld w 0 3 == 0) .nonzeroField <| code (condOf (fld w 3 4)) fun x3 => checked (.fcmp (prOf w) (Fin.ofNat 8 (fld w 19 3)) (Fin.ofNat 32 (fld w 12 5)) (Fin.ofNat 32 (fld w 7 5)) x3)
  | 0x10 => need (fld w 0 1 == 0) .nonzeroField <| code (tyOf (fld w 7 5)) fun x2 => code (tyOf (fld w 2 5)) fun x3 => checked (.fcvt (prOf w) (Fin.ofNat 32 (fld w 17 5)) (Fin.ofNat 32 (fld w 12 5)) x2 x3 (bit w 1))
  | 0x11 => .ok (.b (prOf w) (BitVec.ofNat 22 (fld w 0 22)))
  | 0x12 => .ok (.call (prOf w) (BitVec.ofNat 22 (fld w 0 22)))
  | 0x13 => need (fld w 17 1 == 0) .nonzeroField <| code (condOf (fld w 18 4)) fun x0 => .ok (.bc (prOf w) x0 (Fin.ofNat 32 (fld w 12 5)) (BitVec.ofNat 12 (fld w 0 12)))
  | 0x14 => need (fld w 17 5 == 0 && fld w 0 12 == 0) .nonzeroField <|
      if fld w 12 5 == 31 then .ok (.ret (prOf w)) else .ok (.jr (prOf w) (Fin.ofNat 32 (fld w 12 5)))
  | 0x15 => need (fld w 17 4 == 0) .nonzeroField <| checked (.loop (prOf w) (Fin.ofNat 2 (fld w 21 1)) (Fin.ofNat 32 (fld w 12 5)) (BitVec.ofNat 12 (fld w 0 12)))
  | 0x16 => need (fld w 0 21 == 0) .nonzeroField <| .ok (.lend (prOf w) (Fin.ofNat 2 (fld w 21 1)))
  | 0x17 => code (polOf (fld w 10 2)) fun x2 => code (widOf (fld w 7 3)) fun x3 => .ok (.ld (prOf w) (Fin.ofNat 32 (fld w 17 5)) (Fin.ofNat 32 (fld w 12 5)) x2 x3 (BitVec.ofNat 7 (fld w 0 7)))
  | 0x18 => code (polOf (fld w 10 2)) fun x2 => code (widOf (fld w 7 3)) fun x3 => .ok (.st (prOf w) (Fin.ofNat 32 (fld w 17 5)) (Fin.ofNat 32 (fld w 12 5)) x2 x3 (BitVec.ofNat 7 (fld w 0 7)))
  | 0x19 => code (polOf (fld w 5 2)) fun x3 => code (aopOf (fld w 0 4)) fun x5 => .ok (.amo (prOf w) (Fin.ofNat 32 (fld w 17 5)) (Fin.ofNat 32 (fld w 12 5)) (Fin.ofNat 32 (fld w 7 5)) x3 (bit w 4) x5)
  | 0x1A => need (fld w 17 5 == 0) .nonzeroField <| code (polOf (fld w 5 2)) fun x2 => code (aopOf (fld w 0 4)) fun x4 => checked (.red (prOf w) (Fin.ofNat 32 (fld w 12 5)) (Fin.ofNat 32 (fld w 7 5)) x2 (bit w 4) x4)
  | 0x1B => need (fld w 0 4 == 0) .nonzeroField <| code (polOf (fld w 5 2)) fun x3 => .ok (.cas (prOf w) (Fin.ofNat 32 (fld w 17 5)) (Fin.ofNat 32 (fld w 12 5)) (Fin.ofNat 32 (fld w 7 5)) x3 (bit w 4))
  | 0x1C => need (fld w 17 5 == 0 && fld w 7 5 == 0 && fld w 0 1 == 0) .nonzeroField <| .ok (.kset (prOf w) (Fin.ofNat 32 (fld w 12 5)) (Fin.ofNat 64 (fld w 1 6)))
  | 0x1D => need (fld w 17 5 == 0 && fld w 7 5 == 0 && fld w 0 1 == 0) .nonzeroField <| .ok (.ksig (prOf w) (Fin.ofNat 32 (fld w 12 5)) (Fin.ofNat 64 (fld w 1 6)))
  | 0x1E => checked (.kwait (prOf w) (Fin.ofNat 32 (fld w 17 5)) (Fin.ofNat 32 (fld w 12 5)) (Fin.ofNat 32 (fld w 7 5)) (Fin.ofNat 64 (fld w 1 6)) (bit w 0))
  | 0x1F => need (fld w 17 5 == 0 && fld w 7 5 == 0 && fld w 0 5 == 0) .nonzeroField <| .ok (.qput (prOf w) (Fin.ofNat 32 (fld w 12 5)) (Fin.ofNat 4 (fld w 5 2)))
  | 0x20 => need (fld w 17 5 == 0 && fld w 7 5 == 0 && fld w 0 5 == 0) .nonzeroField <| .ok (.outc (prOf w) (Fin.ofNat 32 (fld w 12 5)) (Fin.ofNat 4 (fld w 5 2)))
  | 0x21 => need (fld w 7 10 == 0 && fld w 0 6 == 0) .nonzeroField <| .ok (.qtake (prOf w) (Fin.ofNat 32 (fld w 17 5)) (bit w 6))
  | 0x22 => need (fld w 7 5 == 0) .nonzeroField <| .ok (.launch (prOf w) (Fin.ofNat 32 (fld w 17 5)) (Fin.ofNat 32 (fld w 12 5)) (BitVec.ofNat 7 (fld w 0 7)))
  | 0x23 => need (fld w 17 5 == 0 && fld w 1 6 == 0) .nonzeroField <| .ok (.evsig (prOf w) (Fin.ofNat 32 (fld w 12 5)) (Fin.ofNat 32 (fld w 7 5)) (bit w 0))
  | 0x24 => need (fld w 17 5 == 0 && fld w 0 7 == 0) .nonzeroField <| .ok (.evwait (prOf w) (Fin.ofNat 32 (fld w 12 5)) (Fin.ofNat 32 (fld w 7 5)))
  | 0x25 => need (fld w 0 22 == 0) .nonzeroField <| .ok (.rdv (prOf w))
  | 0x26 => need (fld w 7 15 == 0 && fld w 3 1 == 0) .nonzeroField <| code (levelOf (fld w 0 3)) fun x2 => .ok (.dbar (prOf w) (Fin.ofNat 4 (fld w 5 2)) (bit w 4) x2)
  | 0x27 => need (fld w 17 5 == 0 && fld w 0 12 == 0) .nonzeroField <| .ok (.opb (prOf w) (Fin.ofNat 32 (fld w 12 5)))
  | 0x28 => need (fld w 0 22 == 0) .nonzeroField <| .ok (.jend (prOf w))
  | 0x29 => need (fld w 17 5 == 0 && fld w 3 4 == 0) .nonzeroField <| .ok (.mbsend (prOf w) (Fin.ofNat 32 (fld w 12 5)) (Fin.ofNat 32 (fld w 7 5)) (Fin.ofNat 8 (fld w 0 3)))
  | 0x2A => need (fld w 3 14 == 0) .nonzeroField <| .ok (.mbrecv (prOf w) (Fin.ofNat 32 (fld w 17 5)) (Fin.ofNat 8 (fld w 0 3)))
  | 0x2B => need (fld w 17 5 == 0 && fld w 6 6 == 0) .nonzeroField <| .ok (.hmsg (prOf w) (Fin.ofNat 32 (fld w 12 5)) (Fin.ofNat 64 (fld w 0 6)))
  | 0x2E => need (fld w 12 5 == 0) .nonzeroField <| .ok (.csrr (prOf w) (Fin.ofNat 32 (fld w 17 5)) (BitVec.ofNat 12 (fld w 0 12)))
  | 0x2F => need (fld w 17 5 == 0) .nonzeroField <| .ok (.csrw (prOf w) (Fin.ofNat 32 (fld w 12 5)) (BitVec.ofNat 12 (fld w 0 12)))
  | _ => .error .unassignedOpcode

/-- The control words shared by L, M and W (R247). -/
def decodeCtl (w : Nat) : Except DecodeError Instr :=
  match fld w 20 6 with
  | 0x30 => checked (.eloop (epreOf w) (Fin.ofNat 2 (fld w 18 1)) (BitVec.ofNat 10 (fld w 8 10)) (BitVec.ofNat 8 (fld w 0 8)))
  | 0x31 => need (fld w 0 17 == 0) .nonzeroField <| .ok (.enext (epreOf w) (Fin.ofNat 2 (fld w 18 1)) (bit w 17))
  | 0x32 => need (fld w 13 6 == 0) .nonzeroField <| .ok (.ebrq (epreOf w) (BitVec.ofNat 13 (fld w 0 13)))
  | 0x33 => need (fld w 13 6 == 0) .nonzeroField <| .ok (.ejmp (epreOf w) (BitVec.ofNat 13 (fld w 0 13)))
  | 0x34 => need (fld w 0 19 == 0) .nonzeroField <| .ok (.etok (epreOf w))
  | 0x35 => need (fld w 0 19 == 0) .nonzeroField <| .ok (.ehalt (epreOf w))
  | 0x36 => need (fld w 0 12 == 0) .nonzeroField <| code (fldOf (fld w 12 3)) fun x1 => checked (.qget (epreOf w) (Fin.ofNat 16 (fld w 15 4)) x1)
  | 0x37 => code (fldOf (fld w 12 3)) fun x1 => checked (.qseti (epreOf w) (Fin.ofNat 16 (fld w 15 4)) x1 (BitVec.ofNat 12 (fld w 0 12)))
  | 0x38 => need (fld w 0 14 == 0) .nonzeroField <| code (scopeOf (fld w 14 5)) fun x0 => .ok (.efence (epreOf w) x0)
  | 0x39 => need (fld w 0 17 == 0) .nonzeroField <| .ok (.gget (epreOf w) (Fin.ofNat 4 (fld w 17 2)))
  | 0x3A => need (fld w 0 16 == 0) .nonzeroField <| .ok (.gseti (epreOf w) (Fin.ofNat 4 (fld w 17 2)) (bit w 16))
  | _ => .error .unassignedOpcode

/-- A word of the L stream (R245-R247). -/
def decodeL (w : Nat) : Except DecodeError Instr :=
  match fld w 20 6 with
  | 0x00 => need (fld w 0 11 == 0) .nonzeroField <| .ok (.tld (epreOf w) (Fin.ofNat 16 (fld w 15 4)) (Fin.ofNat 16 (fld w 11 4)))
  | 0x01 => need (fld w 0 11 == 0) .nonzeroField <| .ok (.tldT (epreOf w) (Fin.ofNat 16 (fld w 15 4)) (Fin.ofNat 16 (fld w 11 4)))
  | 0x02 => code (polOf (fld w 9 2)) fun x2 => checked (.pld (epreOf w) (Fin.ofNat 16 (fld w 15 4)) (Fin.ofNat 16 (fld w 11 4)) x2 (bit w 8) (BitVec.ofNat 8 (fld w 0 8)))
  | 0x03 => need (fld w 0 7 == 0) .nonzeroField <| .ok (.gath (epreOf w) (Fin.ofNat 16 (fld w 15 4)) (Fin.ofNat 16 (fld w 11 4)) (Fin.ofNat 16 (fld w 7 4)))
  | 0x04 => need (fld w 0 11 == 0) .nonzeroField <| .ok (.mcast (epreOf w) (Fin.ofNat 16 (fld w 15 4)) (Fin.ofNat 16 (fld w 11 4)))
  | 0x05 => need (fld w 0 5 == 0) .nonzeroField <| .ok (.ccopy (epreOf w) (Fin.ofNat 16 (fld w 15 4)) (Fin.ofNat 16 (fld w 11 4)) (Fin.ofNat 64 (fld w 5 6)))
  | 0x06 => need (fld w 0 5 == 0) .nonzeroField <| .ok (.coll (epreOf w) (Fin.ofNat 16 (fld w 15 4)) (Fin.ofNat 16 (fld w 11 4)) (Fin.ofNat 64 (fld w 5 6)))
  | _ => decodeCtl w

/-- A word of the M stream (R245-R247). -/
def decodeM (w : Nat) : Except DecodeError Instr :=
  match fld w 20 6 with
  | 0x00 => need (fld w 0 14 == 0) .nonzeroField <| checked (.mzero (epreOf w) (Fin.ofNat 8 (fld w 16 3)) (bit w 15) (bit w 14))
  | 0x01 => need (fld w 0 1 == 0) .nonzeroField <| .ok (.mma (epreOf w) (Fin.ofNat 8 (fld w 16 3)) (bit w 15) (Fin.ofNat 8 (fld w 12 3)) (Fin.ofNat 8 (fld w 9 3)) (BitVec.ofNat 8 (fld w 1 8)))
  | 0x02 => need (fld w 0 16 == 0) .nonzeroField <| .ok (.mcommit (epreOf w) (Fin.ofNat 8 (fld w 16 3)))
  | 0x03 => need (fld w 0 16 == 0) .nonzeroField <| .ok (.mdiscard (epreOf w) (Fin.ofNat 8 (fld w 16 3)))
  | 0x04 => need (fld w 0 11 == 0) .nonzeroField <| .ok (.mlda (epreOf w) (Fin.ofNat 8 (fld w 16 3)) (bit w 15) (Fin.ofNat 16 (fld w 11 4)))
  | 0x05 => need (fld w 0 6 == 0) .nonzeroField <| code (tyOf (fld w 6 5)) fun x3 => checked (.msta (epreOf w) (Fin.ofNat 8 (fld w 16 3)) (bit w 15) (Fin.ofNat 16 (fld w 11 4)) x3)
  | 0x06 => need (fld w 15 1 == 0 && fld w 0 6 == 0) .nonzeroField <| code (tyOf (fld w 6 5)) fun x2 => checked (.mret (epreOf w) (Fin.ofNat 8 (fld w 16 3)) (Fin.ofNat 16 (fld w 11 4)) x2)
  | 0x07 => need (fld w 15 4 == 0 && fld w 0 11 == 0) .nonzeroField <| .ok (.mchk (epreOf w) (Fin.ofNat 16 (fld w 11 4)))
  | _ => decodeCtl w

/-- A word of the W stream (R245-R247). -/
def decodeW (w : Nat) : Except DecodeError Instr :=
  match fld w 20 6 with
  | 0x00 => need (fld w 0 6 == 0) .nonzeroField <| checked (.tst (epreOf w) (Fin.ofNat 16 (fld w 15 4)) (Fin.ofNat 16 (fld w 11 4)) (bit w 10) (Fin.ofNat 16 (fld w 6 4)))
  | 0x01 => need (fld w 0 6 == 0) .nonzeroField <| checked (.tadd (epreOf w) (Fin.ofNat 16 (fld w 15 4)) (Fin.ofNat 16 (fld w 11 4)) (bit w 10) (Fin.ofNat 16 (fld w 6 4)))
  | 0x02 => need (fld w 8 1 == 0) .nonzeroField <| code (polOf (fld w 9 2)) fun x2 => .ok (.pst (epreOf w) (Fin.ofNat 16 (fld w 15 4)) (Fin.ofNat 16 (fld w 11 4)) x2 (BitVec.ofNat 8 (fld w 0 8)))
  | 0x03 => need (fld w 0 7 == 0) .nonzeroField <| .ok (.scat (epreOf w) (Fin.ofNat 16 (fld w 15 4)) (Fin.ofNat 16 (fld w 11 4)) (Fin.ofNat 16 (fld w 7 4)))
  | 0x04 => need (fld w 0 3 == 0) .nonzeroField <| code (uopOf (fld w 3 4)) fun x3 => .ok (.upd (epreOf w) (Fin.ofNat 16 (fld w 15 4)) (Fin.ofNat 16 (fld w 11 4)) (Fin.ofNat 16 (fld w 7 4)) x3)
  | _ => decodeCtl w

/-- The VR class of X, by OPC8 without its sense bit (R248, R249). -/
def decodeVR (w : Nat) : Except DecodeError Instr :=
  match fld w 16 7 with
  | 0x00 => .ok (.vadd (xpreOf w 15) (Fin.ofNat 32 (fld w 10 5)) (Fin.ofNat 32 (fld w 5 5)) (Fin.ofNat 32 (fld w 0 5)))
  | 0x01 => .ok (.vsub (xpreOf w 15) (Fin.ofNat 32 (fld w 10 5)) (Fin.ofNat 32 (fld w 5 5)) (Fin.ofNat 32 (fld w 0 5)))
  | 0x02 => .ok (.vmul (xpreOf w 15) (Fin.ofNat 32 (fld w 10 5)) (Fin.ofNat 32 (fld w 5 5)) (Fin.ofNat 32 (fld w 0 5)))
  | 0x03 => .ok (.vmin (xpreOf w 15) (Fin.ofNat 32 (fld w 10 5)) (Fin.ofNat 32 (fld w 5 5)) (Fin.ofNat 32 (fld w 0 5)))
  | 0x04 => .ok (.vmax (xpreOf w 15) (Fin.ofNat 32 (fld w 10 5)) (Fin.ofNat 32 (fld w 5 5)) (Fin.ofNat 32 (fld w 0 5)))
  | 0x05 => .ok (.vfma (xpreOf w 15) (Fin.ofNat 32 (fld w 10 5)) (Fin.ofNat 32 (fld w 5 5)) (Fin.ofNat 32 (fld w 0 5)))
  | 0x06 => .ok (.vfnma (xpreOf w 15) (Fin.ofNat 32 (fld w 10 5)) (Fin.ofNat 32 (fld w 5 5)) (Fin.ofNat 32 (fld w 0 5)))
  | 0x08 => need (fld w 0 5 == 0) .nonzeroField <| .ok (.vabs (xpreOf w 15) (Fin.ofNat 32 (fld w 10 5)) (Fin.ofNat 32 (fld w 5 5)))
  | 0x09 => need (fld w 0 5 == 0) .nonzeroField <| .ok (.vneg (xpreOf w 15) (Fin.ofNat 32 (fld w 10 5)) (Fin.ofNat 32 (fld w 5 5)))
  | 0x0A => need (fld w 0 5 == 0) .nonzeroField <| .ok (.vrcp (xpreOf w 15) (Fin.ofNat 32 (fld w 10 5)) (Fin.ofNat 32 (fld w 5 5)))
  | 0x0B => need (fld w 0 5 == 0) .nonzeroField <| .ok (.vrsq (xpreOf w 15) (Fin.ofNat 32 (fld w 10 5)) (Fin.ofNat 32 (fld w 5 5)))
  | 0x0C => need (fld w 0 5 == 0) .nonzeroField <| .ok (.vsqrt (xpreOf w 15) (Fin.ofNat 32 (fld w 10 5)) (Fin.ofNat 32 (fld w 5 5)))
  | 0x0D => need (fld w 0 5 == 0) .nonzeroField <| .ok (.vexp2 (xpreOf w 15) (Fin.ofNat 32 (fld w 10 5)) (Fin.ofNat 32 (fld w 5 5)))
  | 0x0E => need (fld w 0 5 == 0) .nonzeroField <| .ok (.vlog2 (xpreOf w 15) (Fin.ofNat 32 (fld w 10 5)) (Fin.ofNat 32 (fld w 5 5)))
  | 0x0F => need (fld w 0 5 == 0) .nonzeroField <| .ok (.vsig (xpreOf w 15) (Fin.ofNat 32 (fld w 10 5)) (Fin.ofNat 32 (fld w 5 5)))
  | 0x10 => .ok (.viadd (xpreOf w 15) (Fin.ofNat 32 (fld w 10 5)) (Fin.ofNat 32 (fld w 5 5)) (Fin.ofNat 32 (fld w 0 5)))
  | 0x11 => .ok (.visub (xpreOf w 15) (Fin.ofNat 32 (fld w 10 5)) (Fin.ofNat 32 (fld w 5 5)) (Fin.ofNat 32 (fld w 0 5)))
  | 0x12 => .ok (.vimul (xpreOf w 15) (Fin.ofNat 32 (fld w 10 5)) (Fin.ofNat 32 (fld w 5 5)) (Fin.ofNat 32 (fld w 0 5)))
  | 0x13 => .ok (.vand (xpreOf w 15) (Fin.ofNat 32 (fld w 10 5)) (Fin.ofNat 32 (fld w 5 5)) (Fin.ofNat 32 (fld w 0 5)))
  | 0x14 => .ok (.vor (xpreOf w 15) (Fin.ofNat 32 (fld w 10 5)) (Fin.ofNat 32 (fld w 5 5)) (Fin.ofNat 32 (fld w 0 5)))
  | 0x15 => .ok (.vxor (xpreOf w 15) (Fin.ofNat 32 (fld w 10 5)) (Fin.ofNat 32 (fld w 5 5)) (Fin.ofNat 32 (fld w 0 5)))
  | 0x16 => .ok (.vshl (xpreOf w 15) (Fin.ofNat 32 (fld w 10 5)) (Fin.ofNat 32 (fld w 5 5)) (Fin.ofNat 32 (fld w 0 5)))
  | 0x17 => .ok (.vshr (xpreOf w 15) (Fin.ofNat 32 (fld w 10 5)) (Fin.ofNat 32 (fld w 5 5)) (Fin.ofNat 32 (fld w 0 5)))
  | 0x18 => .ok (.vsra (xpreOf w 15) (Fin.ofNat 32 (fld w 10 5)) (Fin.ofNat 32 (fld w 5 5)) (Fin.ofNat 32 (fld w 0 5)))
  | 0x19 => .ok (.vimin (xpreOf w 15) (Fin.ofNat 32 (fld w 10 5)) (Fin.ofNat 32 (fld w 5 5)) (Fin.ofNat 32 (fld w 0 5)))
  | 0x1A => .ok (.vimax (xpreOf w 15) (Fin.ofNat 32 (fld w 10 5)) (Fin.ofNat 32 (fld w 5 5)) (Fin.ofNat 32 (fld w 0 5)))
  | 0x20 => need (fld w 14 1 == 0) .nonzeroField <| code (condOf (fld w 10 4)) fun x0 => .ok (.vcmp (xpreOf w 15) x0 (Fin.ofNat 32 (fld w 5 5)) (Fin.ofNat 32 (fld w 0 5)))
  | 0x21 => need (fld w 0 15 == 0) .nonzeroField <| .ok (.minv (xpreOf w 15))
  | 0x22 => need (fld w 0 15 == 0) .nonzeroField <| .ok (.mpop (xpreOf w 15))
  | 0x28 => need (fld w 0 5 == 0) .nonzeroField <| .ok (.vrsum (xpreOf w 15) (Fin.ofNat 32 (fld w 10 5)) (Fin.ofNat 32 (fld w 5 5)))
  | 0x29 => need (fld w 0 5 == 0) .nonzeroField <| .ok (.vrmax (xpreOf w 15) (Fin.ofNat 32 (fld w 10 5)) (Fin.ofNat 32 (fld w 5 5)))
  | 0x2A => need (fld w 0 5 == 0) .nonzeroField <| .ok (.vrmin (xpreOf w 15) (Fin.ofNat 32 (fld w 10 5)) (Fin.ofNat 32 (fld w 5 5)))
  | 0x2B => need (fld w 0 5 == 0) .nonzeroField <| .ok (.vrarg (xpreOf w 15) (Fin.ofNat 32 (fld w 10 5)) (Fin.ofNat 32 (fld w 5 5)))
  | 0x30 => code (tyOf (fld w 0 5)) fun x2 => checked (.vcvt (xpreOf w 15) (Fin.ofNat 32 (fld w 10 5)) (Fin.ofNat 32 (fld w 5 5)) x2)
  | 0x31 => code (tyOf (fld w 0 5)) fun x2 => checked (.vpack (xpreOf w 15) (Fin.ofNat 32 (fld w 10 5)) (Fin.ofNat 32 (fld w 5 5)) x2)
  | 0x32 => code (tyOf (fld w 0 5)) fun x2 => checked (.vpackSq (xpreOf w 15) (Fin.ofNat 32 (fld w 10 5)) (Fin.ofNat 32 (fld w 5 5)) x2)
  | 0x33 => code (tyOf (fld w 0 5)) fun x2 => checked (.vunpk (xpreOf w 15) (Fin.ofNat 32 (fld w 10 5)) (Fin.ofNat 32 (fld w 5 5)) x2)
  | 0x34 => code (tyOf (fld w 0 5)) fun x2 => checked (.vcvtNsat (xpreOf w 15) (Fin.ofNat 32 (fld w 10 5)) (Fin.ofNat 32 (fld w 5 5)) x2)
  | 0x38 => need (fld w 0 5 == 0) .nonzeroField <| .ok (.vmov (xpreOf w 15) (Fin.ofNat 32 (fld w 10 5)) (Fin.ofNat 32 (fld w 5 5)))
  | 0x39 => .ok (.vbcast (xpreOf w 15) (Fin.ofNat 32 (fld w 10 5)) (Fin.ofNat 32 (fld w 5 5)) (Fin.ofNat 32 (fld w 0 5)))
  | 0x3A => .ok (.vperm (xpreOf w 15) (Fin.ofNat 32 (fld w 10 5)) (Fin.ofNat 32 (fld w 5 5)) (Fin.ofNat 32 (fld w 0 5)))
  | 0x3B => .ok (.vsel (xpreOf w 15) (Fin.ofNat 32 (fld w 10 5)) (Fin.ofNat 32 (fld w 5 5)) (Fin.ofNat 32 (fld w 0 5)))
  | 0x3C => need (fld w 0 10 == 0) .nonzeroField <| .ok (.viota (xpreOf w 15) (Fin.ofNat 32 (fld w 10 5)))
  | _ => .error .unassignedOpcode

/-- The VC class of X, by OPC7 without its sense bit (R248, R250); `lit` is the word after it. -/
def decodeVC (w lit : Nat) : Except DecodeError Instr :=
  match fld w 17 6 with
  | 0x00 => .ok (.vaddVC (xpreOf w 16) (Fin.ofNat 32 (fld w 11 5)) (Fin.ofNat 32 (fld w 6 5)) (selOf w lit))
  | 0x01 => .ok (.vsubVC (xpreOf w 16) (Fin.ofNat 32 (fld w 11 5)) (Fin.ofNat 32 (fld w 6 5)) (selOf w lit))
  | 0x02 => .ok (.vmulVC (xpreOf w 16) (Fin.ofNat 32 (fld w 11 5)) (Fin.ofNat 32 (fld w 6 5)) (selOf w lit))
  | 0x03 => .ok (.vminVC (xpreOf w 16) (Fin.ofNat 32 (fld w 11 5)) (Fin.ofNat 32 (fld w 6 5)) (selOf w lit))
  | 0x04 => .ok (.vmaxVC (xpreOf w 16) (Fin.ofNat 32 (fld w 11 5)) (Fin.ofNat 32 (fld w 6 5)) (selOf w lit))
  | 0x05 => .ok (.vfmaVC (xpreOf w 16) (Fin.ofNat 32 (fld w 11 5)) (Fin.ofNat 32 (fld w 6 5)) (selOf w lit))
  | 0x06 => .ok (.vfnmaVC (xpreOf w 16) (Fin.ofNat 32 (fld w 11 5)) (Fin.ofNat 32 (fld w 6 5)) (selOf w lit))
  | 0x10 => .ok (.viaddVC (xpreOf w 16) (Fin.ofNat 32 (fld w 11 5)) (Fin.ofNat 32 (fld w 6 5)) (selOf w lit))
  | 0x11 => .ok (.visubVC (xpreOf w 16) (Fin.ofNat 32 (fld w 11 5)) (Fin.ofNat 32 (fld w 6 5)) (selOf w lit))
  | 0x12 => .ok (.vimulVC (xpreOf w 16) (Fin.ofNat 32 (fld w 11 5)) (Fin.ofNat 32 (fld w 6 5)) (selOf w lit))
  | 0x13 => .ok (.vandVC (xpreOf w 16) (Fin.ofNat 32 (fld w 11 5)) (Fin.ofNat 32 (fld w 6 5)) (selOf w lit))
  | 0x14 => .ok (.vorVC (xpreOf w 16) (Fin.ofNat 32 (fld w 11 5)) (Fin.ofNat 32 (fld w 6 5)) (selOf w lit))
  | 0x15 => .ok (.vxorVC (xpreOf w 16) (Fin.ofNat 32 (fld w 11 5)) (Fin.ofNat 32 (fld w 6 5)) (selOf w lit))
  | 0x16 => .ok (.vshlVC (xpreOf w 16) (Fin.ofNat 32 (fld w 11 5)) (Fin.ofNat 32 (fld w 6 5)) (selOf w lit))
  | 0x17 => .ok (.vshrVC (xpreOf w 16) (Fin.ofNat 32 (fld w 11 5)) (Fin.ofNat 32 (fld w 6 5)) (selOf w lit))
  | 0x18 => .ok (.vsraVC (xpreOf w 16) (Fin.ofNat 32 (fld w 11 5)) (Fin.ofNat 32 (fld w 6 5)) (selOf w lit))
  | 0x19 => .ok (.viminVC (xpreOf w 16) (Fin.ofNat 32 (fld w 11 5)) (Fin.ofNat 32 (fld w 6 5)) (selOf w lit))
  | 0x1A => .ok (.vimaxVC (xpreOf w 16) (Fin.ofNat 32 (fld w 11 5)) (Fin.ofNat 32 (fld w 6 5)) (selOf w lit))
  | 0x20 => need (fld w 15 1 == 0) .nonzeroField <| code (condOf (fld w 11 4)) fun x0 => .ok (.vcmpVC (xpreOf w 16) x0 (Fin.ofNat 32 (fld w 6 5)) (selOf w lit))
  | 0x28 => need (fld w 6 10 == 0) .nonzeroField <| .ok (.vshape (xpreOf w 16) (selOf w lit))
  | 0x29 => need (fld w 6 5 == 0) .nonzeroField <| .ok (.vbcastVC (xpreOf w 16) (Fin.ofNat 32 (fld w 11 5)) (selOf w lit))
  | op =>
    if op / 8 == 6 then
      code (srToOf (op % 8)) fun x => .ok (.vcvtSr (xpreOf w 16) x (Fin.ofNat 32 (fld w 11 5))
        (Fin.ofNat 32 (fld w 6 5)) (selOf w lit))
    else .error .unassignedOpcode

/-- The VM class of X, by OPC6 (R251). -/
def decodeVM (w : Nat) : Except DecodeError Instr :=
  match fld w 16 6 with
  | 0x00 => .ok (.vld (xpreOf w 22) (Fin.ofNat 32 (fld w 11 5)) (Fin.ofNat 32 (fld w 6 5)) (Fin.ofNat 64 (fld w 0 6)))
  | 0x01 => .ok (.vst (xpreOf w 22) (Fin.ofNat 32 (fld w 11 5)) (Fin.ofNat 32 (fld w 6 5)) (Fin.ofNat 64 (fld w 0 6)))
  | 0x02 => need (fld w 0 1 == 0) .nonzeroField <| checked (.vlda (xpreOf w 22) (Fin.ofNat 32 (fld w 11 5)) (Fin.ofNat 8 (fld w 8 3)) (BitVec.ofNat 7 (fld w 1 7)))
  | 0x03 => need (fld w 0 5 == 0) .nonzeroField <|
      if h : fld w 10 6 < 63 then .ok (.vpld (xpreOf w 22) ⟨fld w 10 6, h⟩ (Fin.ofNat 32 (fld w 5 5)))
      else .error .unassignedCode
  | 0x08 => need (fld w 0 6 == 0) .nonzeroField <| .ok (.vslist (xpreOf w 22) (Fin.ofNat 32 (fld w 11 5)) (Fin.ofNat 32 (fld w 6 5)))
  | 0x09 => need (fld w 0 6 == 0) .nonzeroField <| .ok (.vsmass (xpreOf w 22) (Fin.ofNat 32 (fld w 11 5)) (Fin.ofNat 32 (fld w 6 5)))
  | 0x0A => need (fld w 0 1 == 0) .nonzeroField <| .ok (.vspick (xpreOf w 22) (Fin.ofNat 32 (fld w 11 5)) (Fin.ofNat 32 (fld w 6 5)) (Fin.ofNat 32 (fld w 1 5)))
  | 0x0B => need (fld w 0 1 == 0) .nonzeroField <| .ok (.vsfull (xpreOf w 22) (Fin.ofNat 32 (fld w 11 5)) (Fin.ofNat 32 (fld w 6 5)) (Fin.ofNat 32 (fld w 1 5)))
  | 0x10 => checked (.xloop (xpreOf w 22) (Fin.ofNat 2 (fld w 15 1)) (BitVec.ofNat 7 (fld w 8 7)) (BitVec.ofNat 8 (fld w 0 8)))
  | 0x11 => need (fld w 0 14 == 0) .nonzeroField <| .ok (.xnext (xpreOf w 22) (Fin.ofNat 2 (fld w 15 1)) (bit w 14))
  | 0x12 => need (fld w 15 1 == 0) .nonzeroField <| .ok (.xbrq (xpreOf w 22) (BitVec.ofNat 15 (fld w 0 15)))
  | 0x13 =>
      if bit w 15 then need (fld w 11 4 == 0 && fld w 0 6 == 0) .nonzeroField <|
        .ok (.xjmpInd (xpreOf w 22) (Fin.ofNat 32 (fld w 6 5)))
      else .ok (.xjmp (xpreOf w 22) (BitVec.ofNat 15 (fld w 0 15)))
  | 0x14 => need (fld w 15 1 == 0) .nonzeroField <| .ok (.xbrz (xpreOf w 22) (BitVec.ofNat 15 (fld w 0 15)))
  | 0x15 => need (fld w 0 16 == 0) .nonzeroField <| .ok (.xtok (xpreOf w 22))
  | 0x16 => need (fld w 0 16 == 0) .nonzeroField <| .ok (.xend (xpreOf w 22))
  | 0x17 => need (fld w 0 9 == 0) .nonzeroField <|
      if bit w 10 then need (fld w 11 5 == 0) .nonzeroField <|
        .ok (.xqgetL (xpreOf w 22) (Fin.ofNat 2 (fld w 9 1)))
      else .ok (.xqget (xpreOf w 22) (Fin.ofNat 32 (fld w 11 5)) (Fin.ofNat 2 (fld w 9 1)))
  | 0x18 => need (fld w 11 5 == 0 && fld w 0 6 == 0) .nonzeroField <| .ok (.xqput (xpreOf w 22) (Fin.ofNat 32 (fld w 6 5)))
  | 0x19 => need (fld w 0 13 == 0) .nonzeroField <| .ok (.xgget (xpreOf w 22) (Fin.ofNat 8 (fld w 13 3)))
  | 0x1A => need (fld w 0 12 == 0) .nonzeroField <| .ok (.xgseti (xpreOf w 22) (Fin.ofNat 8 (fld w 13 3)) (bit w 12))
  | _ => .error .unassignedOpcode

/-- A word of the X stream with the word after it, by class (R248-R252). -/
def decodeX (w lit : Nat) : Except DecodeError Instr :=
  match fld w 30 2 with
  | 0x00 => decodeVR w
  | 0x01 => decodeVC w lit
  | 0x02 => decodeVM w
  | _ => .ok (.vfmai (Fin.ofNat 32 (fld w 25 5)) (Fin.ofNat 32 (fld w 20 5)) (BitVec.ofNat 20 (fld w 0 20)))

/-- Whether a word of a stream is followed by a literal word: a VC word of X with SEL 63 (R253). -/
def hasLiteral (st : Stream) (w : Nat) : Bool :=
  st == .X && fld w 30 2 == 1 && fld w 0 6 == 63

/-- The word of a stream, with the literal word after it where it has one. -/
def decodeWord (st : Stream) (w lit : Nat) : Except DecodeError Instr :=
  match st with
  | .S => decodeS w
  | .L => decodeL w
  | .M => decodeM w
  | .X => decodeX w lit
  | .W => decodeW w

/-- The instruction that the words given make on a stream; exactly one instruction's words (R236, R253). -/
def decode (st : Stream) (ws : List Word) : Except DecodeError Instr :=
  match ws with
  | [w] => if hasLiteral st w.toNat then .error .wordCount else decodeWord st w.toNat 0
  | [w, lit] => if hasLiteral st w.toNat then decodeWord st w.toNat lit.toNat else .error .wordCount
  | _ => .error .wordCount

/-- The 32-bit little-endian word of four bytes (R2). -/
def wordOfBytes (b0 b1 b2 b3 : Byte) : Word :=
  BitVec.ofNat 32 (b0.toNat + 2 ^ 8 * b1.toNat + 2 ^ 16 * b2.toNat + 2 ^ 24 * b3.toNat)

/-- Decoding of any bytes: the instruction of the stream that they begin with, and the bytes after it. -/
def decodeBytes (st : Stream) : List Byte → Except DecodeError (Instr × List Byte)
  | b0 :: b1 :: b2 :: b3 :: rest =>
    let w := (wordOfBytes b0 b1 b2 b3).toNat
    if hasLiteral st w then
      match rest with
      | c0 :: c1 :: c2 :: c3 :: rest' =>
        match decodeWord st w (wordOfBytes c0 c1 c2 c3).toNat with
        | .ok i => .ok (i, rest')
        | .error e => .error e
      | _ => .error .wordCount
    else
      match decodeWord st w 0 with
      | .ok i => .ok (i, rest)
      | .error e => .error e
  | _ => .error .wordCount

/-! ## The encoder -/

/-- A word with the value `v` of a field added whose lowest bit is `lo`. -/
def place (v lo w : Nat) : Nat := w + v * 2 ^ lo

/-- Bits [31:28] of an S word. -/
def Pr.enc (p : Pr) : Nat := p.r.val * 2 ^ 29 + num p.neg * 2 ^ 28

/-- The four token bits as a number. -/
def Tok.enc (t : Tok) : Nat := num t.wp * 8 + num t.ws * 4 + num t.gs * 2 + num t.gp

/-- The prefix of a step word. -/
def EPre.enc (p : EPre) : Nat := p.tok.enc * 2 ^ 28 + p.g.val * 2 ^ 26 + num p.neg * 2 ^ 19

/-- The prefix of an X word with its guard sense at bit `gn`. -/
def XPre.enc (p : XPre) (gn : Nat) : Nat := p.tok.enc * 2 ^ 26 + p.g.val * 2 ^ 23 + num p.neg * 2 ^ gn

/-- The SEL field. -/
def Sel.enc : Sel → Nat
  | .pantry n => n.val
  | .lit _ => 63

/-- The first word of an instruction, as a number; 0 for a device event, which has no word. -/
def Instr.enc : Instr → Nat
  | .add p x0 x1 x2 => place x0.val 17 (place x1.val 12 (place x2.val 7 p.enc))
  | .sub p x0 x1 x2 => place x0.val 17 (place x1.val 12 (place x2.val 7 (p.enc + 0x1)))
  | .mul p x0 x1 x2 => place x0.val 17 (place x1.val 12 (place x2.val 7 (p.enc + 0x2)))
  | .mulh p x0 x1 x2 => place x0.val 17 (place x1.val 12 (place x2.val 7 (p.enc + 0x3)))
  | .div p x0 x1 x2 => place x0.val 17 (place x1.val 12 (place x2.val 7 (p.enc + 0x4)))
  | .rem p x0 x1 x2 => place x0.val 17 (place x1.val 12 (place x2.val 7 (p.enc + 0x5)))
  | .and p x0 x1 x2 => place x0.val 17 (place x1.val 12 (place x2.val 7 (p.enc + 0x6)))
  | .or p x0 x1 x2 => place x0.val 17 (place x1.val 12 (place x2.val 7 (p.enc + 0x7)))
  | .xor p x0 x1 x2 => place x0.val 17 (place x1.val 12 (place x2.val 7 (p.enc + 0x8)))
  | .shl p x0 x1 x2 => place x0.val 17 (place x1.val 12 (place x2.val 7 (p.enc + 0x9)))
  | .shr p x0 x1 x2 => place x0.val 17 (place x1.val 12 (place x2.val 7 (p.enc + 0xa)))
  | .sra p x0 x1 x2 => place x0.val 17 (place x1.val 12 (place x2.val 7 (p.enc + 0xb)))
  | .min p x0 x1 x2 => place x0.val 17 (place x1.val 12 (place x2.val 7 (p.enc + 0xc)))
  | .max p x0 x1 x2 => place x0.val 17 (place x1.val 12 (place x2.val 7 (p.enc + 0xd)))
  | .clz p x0 x1 => place x0.val 17 (place x1.val 12 (p.enc + 0xe))
  | .popc p x0 x1 => place x0.val 17 (place x1.val 12 (p.enc + 0xf))
  | .mulhN p x0 x1 x2 => place x0.val 17 (place x1.val 12 (place x2.val 7 (p.enc + 0x43)))
  | .divN p x0 x1 x2 => place x0.val 17 (place x1.val 12 (place x2.val 7 (p.enc + 0x44)))
  | .remN p x0 x1 x2 => place x0.val 17 (place x1.val 12 (place x2.val 7 (p.enc + 0x45)))
  | .minN p x0 x1 x2 => place x0.val 17 (place x1.val 12 (place x2.val 7 (p.enc + 0x4c)))
  | .maxN p x0 x1 x2 => place x0.val 17 (place x1.val 12 (place x2.val 7 (p.enc + 0x4d)))
  | .addi p x0 x1 x2 => place x0.val 17 (place x1.val 12 (place x2.toNat 0 (p.enc + 0x400000)))
  | .andi p x0 x1 x2 => place x0.val 17 (place x1.val 12 (place x2.toNat 0 (p.enc + 0x800000)))
  | .ori p x0 x1 x2 => place x0.val 17 (place x1.val 12 (place x2.toNat 0 (p.enc + 0xc00000)))
  | .xori p x0 x1 x2 => place x0.val 17 (place x1.val 12 (place x2.toNat 0 (p.enc + 0x1000000)))
  | .shli p x0 x1 x2 => place x0.val 17 (place x1.val 12 (place x2.val 0 (p.enc + 0x1400000)))
  | .shri p x0 x1 x2 => place x0.val 17 (place x1.val 12 (place x2.val 0 (p.enc + 0x1800000)))
  | .srai p x0 x1 x2 => place x0.val 17 (place x1.val 12 (place x2.val 0 (p.enc + 0x1c00000)))
  | .lui p x0 x1 => place x0.val 17 (place x1.toNat 0 (p.enc + 0x2000000))
  | .cmp p x0 x1 x2 x3 => place x0.val 19 (place x1.val 12 (place x2.val 7 (place x3.code 3 (p.enc + 0x2400000))))
  | .cmpi p x0 x1 x2 x3 => place x0.val 19 (place x1.val 12 (place x2.code 8 (place x3.toNat 0 (p.enc + 0x2800000))))
  | .sel p x0 x1 x2 x3 => place x0.val 17 (place x1.val 12 (place x2.val 7 (place x3.val 4 (p.enc + 0x2c00000))))
  | .plog p x0 x1 x2 x3 => place x0.val 19 (place x1.val 16 (place x2.val 13 (place x3.toNat 0 (p.enc + 0x3000000))))
  | .fadd p x0 x1 x2 => place x0.val 17 (place x1.val 12 (place x2.val 7 (p.enc + 0x3400000)))
  | .fsub p x0 x1 x2 => place x0.val 17 (place x1.val 12 (place x2.val 7 (p.enc + 0x3400001)))
  | .fmul p x0 x1 x2 => place x0.val 17 (place x1.val 12 (place x2.val 7 (p.enc + 0x3400002)))
  | .fmin p x0 x1 x2 => place x0.val 17 (place x1.val 12 (place x2.val 7 (p.enc + 0x3400003)))
  | .fmax p x0 x1 x2 => place x0.val 17 (place x1.val 12 (place x2.val 7 (p.enc + 0x3400004)))
  | .ffma p x0 x1 x2 x3 => place x0.val 17 (place x1.val 12 (place x2.val 7 (place x3.val 2 (p.enc + 0x3800000))))
  | .fcmp p x0 x1 x2 x3 => place x0.val 19 (place x1.val 12 (place x2.val 7 (place x3.code 3 (p.enc + 0x3c00000))))
  | .fcvt p x0 x1 x2 x3 x4 => place x0.val 17 (place x1.val 12 (place x2.code 7 (place x3.code 2 (place (num x4) 1 (p.enc + 0x4000000)))))
  | .b p x0 => place x0.toNat 0 (p.enc + 0x4400000)
  | .call p x0 => place x0.toNat 0 (p.enc + 0x4800000)
  | .bc p x0 x1 x2 => place x0.code 18 (place x1.val 12 (place x2.toNat 0 (p.enc + 0x4c00000)))
  | .jr p a => place a.val 12 (p.enc + 0x5000000)
  | .ret p => p.enc + 0x501f000
  | .loop p x0 x1 x2 => place x0.val 21 (place x1.val 12 (place x2.toNat 0 (p.enc + 0x5400000)))
  | .lend p x0 => place x0.val 21 (p.enc + 0x5800000)
  | .ld p x0 x1 x2 x3 x4 => place x0.val 17 (place x1.val 12 (place x2.code 10 (place x3.code 7 (place x4.toNat 0 (p.enc + 0x5c00000)))))
  | .st p x0 x1 x2 x3 x4 => place x0.val 17 (place x1.val 12 (place x2.code 10 (place x3.code 7 (place x4.toNat 0 (p.enc + 0x6000000)))))
  | .amo p x0 x1 x2 x3 x4 x5 => place x0.val 17 (place x1.val 12 (place x2.val 7 (place x3.code 5 (place (num x4) 4 (place x5.code 0 (p.enc + 0x6400000))))))
  | .red p x0 x1 x2 x3 x4 => place x0.val 12 (place x1.val 7 (place x2.code 5 (place (num x3) 4 (place x4.code 0 (p.enc + 0x6800000)))))
  | .cas p x0 x1 x2 x3 x4 => place x0.val 17 (place x1.val 12 (place x2.val 7 (place x3.code 5 (place (num x4) 4 (p.enc + 0x6c00000)))))
  | .kset p x0 x1 => place x0.val 12 (place x1.val 1 (p.enc + 0x7000000))
  | .ksig p x0 x1 => place x0.val 12 (place x1.val 1 (p.enc + 0x7400000))
  | .kwait p x0 x1 x2 x3 x4 => place x0.val 17 (place x1.val 12 (place x2.val 7 (place x3.val 1 (place (num x4) 0 (p.enc + 0x7800000)))))
  | .qput p x0 x1 => place x0.val 12 (place x1.val 5 (p.enc + 0x7c00000))
  | .outc p x0 x1 => place x0.val 12 (place x1.val 5 (p.enc + 0x8000000))
  | .qtake p x0 x1 => place x0.val 17 (place (num x1) 6 (p.enc + 0x8400000))
  | .launch p x0 x1 x2 => place x0.val 17 (place x1.val 12 (place x2.toNat 0 (p.enc + 0x8800000)))
  | .evsig p x0 x1 x2 => place x0.val 12 (place x1.val 7 (place (num x2) 0 (p.enc + 0x8c00000)))
  | .evwait p x0 x1 => place x0.val 12 (place x1.val 7 (p.enc + 0x9000000))
  | .rdv p => p.enc + 0x9400000
  | .dbar p x0 x1 x2 => place x0.val 5 (place (num x1) 4 (place x2.code 0 (p.enc + 0x9800000)))
  | .opb p x0 => place x0.val 12 (p.enc + 0x9c00000)
  | .jend p => p.enc + 0xa000000
  | .mbsend p x0 x1 x2 => place x0.val 12 (place x1.val 7 (place x2.val 0 (p.enc + 0xa400000)))
  | .mbrecv p x0 x1 => place x0.val 17 (place x1.val 0 (p.enc + 0xa800000))
  | .hmsg p x0 x1 => place x0.val 12 (place x1.val 0 (p.enc + 0xac00000))
  | .tdef p x0 x1 => place x0.val 17 (place x1.val 12 (p.enc + 0xb000000))
  | .tfree p x0 => place x0.val 12 (p.enc + 0xb000001)
  | .hfork p x0 x1 x2 => place x0.val 17 (place x1.val 12 (place x2.val 7 (p.enc + 0xb000002)))
  | .hrel p x0 => place x0.val 12 (p.enc + 0xb000003)
  | .popenOw p x0 => place x0.val 12 (p.enc + 0xb000004)
  | .popenAd p x0 => place x0.val 12 (p.enc + 0xb000005)
  | .pseal p x0 => place x0.val 12 (p.enc + 0xb000006)
  | .pdrop p x0 => place x0.val 12 (p.enc + 0xb000007)
  | .pinv p x0 x1 x2 => place x0.val 17 (place x1.val 12 (place x2.val 7 (p.enc + 0xb000008)))
  | .pinvX p x0 x1 x2 => place x0.val 17 (place x1.val 12 (place x2.val 7 (p.enc + 0xb000009)))
  | .pcomm p x0 x1 => place x0.val 12 (place x1.val 7 (p.enc + 0xb00000a))
  | .pcommLoose p x0 x1 => place x0.val 12 (place x1.val 7 (p.enc + 0xb00000b))
  | .pxpl p x0 x1 => place x0.val 12 (place x1.val 7 (p.enc + 0xb00000c))
  | .psq p x0 => place x0.val 12 (p.enc + 0xb00000d)
  | .pfloor p x0 => place x0.val 12 (p.enc + 0xb00000e)
  | .psnap p x0 x1 x2 => place x0.val 17 (place x1.val 12 (place x2.val 7 (p.enc + 0xb00000f)))
  | .pqry p x0 x1 x2 => place x0.val 17 (place x1.val 12 (place x2.val 7 (p.enc + 0xb000010)))
  | .sxnew p x0 x1 => place x0.val 17 (place x1.val 12 (p.enc + 0xb400000))
  | .sxapp p x0 x1 => place x0.val 12 (place x1.val 7 (p.enc + 0xb400001))
  | .sxqry p x0 x1 x2 => place x0.val 17 (place x1.val 12 (place x2.val 7 (p.enc + 0xb400002)))
  | .sxsave p x0 x1 x2 => place x0.val 17 (place x1.val 12 (place x2.val 7 (p.enc + 0xb400003)))
  | .sxload p x0 x1 => place x0.val 17 (place x1.val 7 (p.enc + 0xb400004))
  | .sxfree p x0 => place x0.val 12 (p.enc + 0xb400005)
  | .csrr p x0 x1 => place x0.val 17 (place x1.toNat 0 (p.enc + 0xb800000))
  | .csrw p x0 x1 => place x0.val 12 (place x1.toNat 0 (p.enc + 0xbc00000))
  | .fence p x0 => place x0.code 7 (p.enc + 0xc000000)
  | .trap p x0 => place x0.val 12 (p.enc + 0xc000001)
  | .rte p => p.enc + 0xc000002
  | .ctxsv p x0 x1 => place x0.val 12 (place x1.val 7 (p.enc + 0xc000003))
  | .ctxld p x0 => place x0.val 12 (p.enc + 0xc000004)
  | .tlbinv p x0 x1 => place x0.val 12 (place x1.val 7 (p.enc + 0xc000005))
  | .cflush p x0 x1 => place x0.val 12 (place x1.val 7 (p.enc + 0xc000006))
  | .cinv p x0 x1 => place x0.val 12 (place x1.val 7 (p.enc + 0xc000007))
  | .ggrd p x0 x1 => place x0.val 12 (place x1.val 7 (p.enc + 0xc000008))
  | .ggset p x0 x1 => place x0.val 12 (place x1.val 7 (p.enc + 0xc000009))
  | .nop => 0xc00000a
  | .tld p x0 x1 => place x0.val 15 (place x1.val 11 p.enc)
  | .tldT p x0 x1 => place x0.val 15 (place x1.val 11 (p.enc + 0x100000))
  | .pld p x0 x1 x2 x3 x4 => place x0.val 15 (place x1.val 11 (place x2.code 9 (place (num x3) 8 (place x4.toNat 0 (p.enc + 0x200000)))))
  | .gath p x0 x1 x2 => place x0.val 15 (place x1.val 11 (place x2.val 7 (p.enc + 0x300000)))
  | .mcast p x0 x1 => place x0.val 15 (place x1.val 11 (p.enc + 0x400000))
  | .ccopy p x0 x1 x2 => place x0.val 15 (place x1.val 11 (place x2.val 5 (p.enc + 0x500000)))
  | .coll p x0 x1 x2 => place x0.val 15 (place x1.val 11 (place x2.val 5 (p.enc + 0x600000)))
  | .mzero p x0 x1 x2 => place x0.val 16 (place (num x1) 15 (place (num x2) 14 p.enc))
  | .mma p x0 x1 x2 x3 x4 => place x0.val 16 (place (num x1) 15 (place x2.val 12 (place x3.val 9 (place x4.toNat 1 (p.enc + 0x100000)))))
  | .mcommit p x0 => place x0.val 16 (p.enc + 0x200000)
  | .mdiscard p x0 => place x0.val 16 (p.enc + 0x300000)
  | .mlda p x0 x1 x2 => place x0.val 16 (place (num x1) 15 (place x2.val 11 (p.enc + 0x400000)))
  | .msta p x0 x1 x2 x3 => place x0.val 16 (place (num x1) 15 (place x2.val 11 (place x3.code 6 (p.enc + 0x500000))))
  | .mret p x0 x1 x2 => place x0.val 16 (place x1.val 11 (place x2.code 6 (p.enc + 0x600000)))
  | .mchk p x0 => place x0.val 11 (p.enc + 0x700000)
  | .tst p x0 x1 x2 x3 => place x0.val 15 (place x1.val 11 (place (num x2) 10 (place x3.val 6 p.enc)))
  | .tadd p x0 x1 x2 x3 => place x0.val 15 (place x1.val 11 (place (num x2) 10 (place x3.val 6 (p.enc + 0x100000))))
  | .pst p x0 x1 x2 x3 => place x0.val 15 (place x1.val 11 (place x2.code 9 (place x3.toNat 0 (p.enc + 0x200000))))
  | .scat p x0 x1 x2 => place x0.val 15 (place x1.val 11 (place x2.val 7 (p.enc + 0x300000)))
  | .upd p x0 x1 x2 x3 => place x0.val 15 (place x1.val 11 (place x2.val 7 (place x3.code 3 (p.enc + 0x400000))))
  | .eloop p x0 x1 x2 => place x0.val 18 (place x1.toNat 8 (place x2.toNat 0 (p.enc + 0x3000000)))
  | .enext p x0 x1 => place x0.val 18 (place (num x1) 17 (p.enc + 0x3100000))
  | .ebrq p x0 => place x0.toNat 0 (p.enc + 0x3200000)
  | .ejmp p x0 => place x0.toNat 0 (p.enc + 0x3300000)
  | .etok p => p.enc + 0x3400000
  | .ehalt p => p.enc + 0x3500000
  | .qget p x0 x1 => place x0.val 15 (place x1.code 12 (p.enc + 0x3600000))
  | .qseti p x0 x1 x2 => place x0.val 15 (place x1.code 12 (place x2.toNat 0 (p.enc + 0x3700000)))
  | .efence p x0 => place x0.code 14 (p.enc + 0x3800000)
  | .gget p x0 => place x0.val 17 (p.enc + 0x3900000)
  | .gseti p x0 x1 => place x0.val 17 (place (num x1) 16 (p.enc + 0x3a00000))
  | .vadd p x0 x1 x2 => place x0.val 10 (place x1.val 5 (place x2.val 0 (p.enc 15)))
  | .vsub p x0 x1 x2 => place x0.val 10 (place x1.val 5 (place x2.val 0 (p.enc 15 + 0x10000)))
  | .vmul p x0 x1 x2 => place x0.val 10 (place x1.val 5 (place x2.val 0 (p.enc 15 + 0x20000)))
  | .vmin p x0 x1 x2 => place x0.val 10 (place x1.val 5 (place x2.val 0 (p.enc 15 + 0x30000)))
  | .vmax p x0 x1 x2 => place x0.val 10 (place x1.val 5 (place x2.val 0 (p.enc 15 + 0x40000)))
  | .vfma p x0 x1 x2 => place x0.val 10 (place x1.val 5 (place x2.val 0 (p.enc 15 + 0x50000)))
  | .vfnma p x0 x1 x2 => place x0.val 10 (place x1.val 5 (place x2.val 0 (p.enc 15 + 0x60000)))
  | .vabs p x0 x1 => place x0.val 10 (place x1.val 5 (p.enc 15 + 0x80000))
  | .vneg p x0 x1 => place x0.val 10 (place x1.val 5 (p.enc 15 + 0x90000))
  | .vrcp p x0 x1 => place x0.val 10 (place x1.val 5 (p.enc 15 + 0xa0000))
  | .vrsq p x0 x1 => place x0.val 10 (place x1.val 5 (p.enc 15 + 0xb0000))
  | .vsqrt p x0 x1 => place x0.val 10 (place x1.val 5 (p.enc 15 + 0xc0000))
  | .vexp2 p x0 x1 => place x0.val 10 (place x1.val 5 (p.enc 15 + 0xd0000))
  | .vlog2 p x0 x1 => place x0.val 10 (place x1.val 5 (p.enc 15 + 0xe0000))
  | .vsig p x0 x1 => place x0.val 10 (place x1.val 5 (p.enc 15 + 0xf0000))
  | .viadd p x0 x1 x2 => place x0.val 10 (place x1.val 5 (place x2.val 0 (p.enc 15 + 0x100000)))
  | .visub p x0 x1 x2 => place x0.val 10 (place x1.val 5 (place x2.val 0 (p.enc 15 + 0x110000)))
  | .vimul p x0 x1 x2 => place x0.val 10 (place x1.val 5 (place x2.val 0 (p.enc 15 + 0x120000)))
  | .vand p x0 x1 x2 => place x0.val 10 (place x1.val 5 (place x2.val 0 (p.enc 15 + 0x130000)))
  | .vor p x0 x1 x2 => place x0.val 10 (place x1.val 5 (place x2.val 0 (p.enc 15 + 0x140000)))
  | .vxor p x0 x1 x2 => place x0.val 10 (place x1.val 5 (place x2.val 0 (p.enc 15 + 0x150000)))
  | .vshl p x0 x1 x2 => place x0.val 10 (place x1.val 5 (place x2.val 0 (p.enc 15 + 0x160000)))
  | .vshr p x0 x1 x2 => place x0.val 10 (place x1.val 5 (place x2.val 0 (p.enc 15 + 0x170000)))
  | .vsra p x0 x1 x2 => place x0.val 10 (place x1.val 5 (place x2.val 0 (p.enc 15 + 0x180000)))
  | .vimin p x0 x1 x2 => place x0.val 10 (place x1.val 5 (place x2.val 0 (p.enc 15 + 0x190000)))
  | .vimax p x0 x1 x2 => place x0.val 10 (place x1.val 5 (place x2.val 0 (p.enc 15 + 0x1a0000)))
  | .vcmp p x0 x1 x2 => place x0.code 10 (place x1.val 5 (place x2.val 0 (p.enc 15 + 0x200000)))
  | .minv p => p.enc 15 + 0x210000
  | .mpop p => p.enc 15 + 0x220000
  | .vrsum p x0 x1 => place x0.val 10 (place x1.val 5 (p.enc 15 + 0x280000))
  | .vrmax p x0 x1 => place x0.val 10 (place x1.val 5 (p.enc 15 + 0x290000))
  | .vrmin p x0 x1 => place x0.val 10 (place x1.val 5 (p.enc 15 + 0x2a0000))
  | .vrarg p x0 x1 => place x0.val 10 (place x1.val 5 (p.enc 15 + 0x2b0000))
  | .vcvt p x0 x1 x2 => place x0.val 10 (place x1.val 5 (place x2.code 0 (p.enc 15 + 0x300000)))
  | .vpack p x0 x1 x2 => place x0.val 10 (place x1.val 5 (place x2.code 0 (p.enc 15 + 0x310000)))
  | .vpackSq p x0 x1 x2 => place x0.val 10 (place x1.val 5 (place x2.code 0 (p.enc 15 + 0x320000)))
  | .vunpk p x0 x1 x2 => place x0.val 10 (place x1.val 5 (place x2.code 0 (p.enc 15 + 0x330000)))
  | .vcvtNsat p x0 x1 x2 => place x0.val 10 (place x1.val 5 (place x2.code 0 (p.enc 15 + 0x340000)))
  | .vmov p x0 x1 => place x0.val 10 (place x1.val 5 (p.enc 15 + 0x380000))
  | .vbcast p x0 x1 x2 => place x0.val 10 (place x1.val 5 (place x2.val 0 (p.enc 15 + 0x390000)))
  | .vperm p x0 x1 x2 => place x0.val 10 (place x1.val 5 (place x2.val 0 (p.enc 15 + 0x3a0000)))
  | .vsel p x0 x1 x2 => place x0.val 10 (place x1.val 5 (place x2.val 0 (p.enc 15 + 0x3b0000)))
  | .viota p x0 => place x0.val 10 (p.enc 15 + 0x3c0000)
  | .vaddVC p x0 x1 x2 => place x0.val 11 (place x1.val 6 (place x2.enc 0 (p.enc 16 + 0x40000000)))
  | .vsubVC p x0 x1 x2 => place x0.val 11 (place x1.val 6 (place x2.enc 0 (p.enc 16 + 0x40020000)))
  | .vmulVC p x0 x1 x2 => place x0.val 11 (place x1.val 6 (place x2.enc 0 (p.enc 16 + 0x40040000)))
  | .vminVC p x0 x1 x2 => place x0.val 11 (place x1.val 6 (place x2.enc 0 (p.enc 16 + 0x40060000)))
  | .vmaxVC p x0 x1 x2 => place x0.val 11 (place x1.val 6 (place x2.enc 0 (p.enc 16 + 0x40080000)))
  | .vfmaVC p x0 x1 x2 => place x0.val 11 (place x1.val 6 (place x2.enc 0 (p.enc 16 + 0x400a0000)))
  | .vfnmaVC p x0 x1 x2 => place x0.val 11 (place x1.val 6 (place x2.enc 0 (p.enc 16 + 0x400c0000)))
  | .viaddVC p x0 x1 x2 => place x0.val 11 (place x1.val 6 (place x2.enc 0 (p.enc 16 + 0x40200000)))
  | .visubVC p x0 x1 x2 => place x0.val 11 (place x1.val 6 (place x2.enc 0 (p.enc 16 + 0x40220000)))
  | .vimulVC p x0 x1 x2 => place x0.val 11 (place x1.val 6 (place x2.enc 0 (p.enc 16 + 0x40240000)))
  | .vandVC p x0 x1 x2 => place x0.val 11 (place x1.val 6 (place x2.enc 0 (p.enc 16 + 0x40260000)))
  | .vorVC p x0 x1 x2 => place x0.val 11 (place x1.val 6 (place x2.enc 0 (p.enc 16 + 0x40280000)))
  | .vxorVC p x0 x1 x2 => place x0.val 11 (place x1.val 6 (place x2.enc 0 (p.enc 16 + 0x402a0000)))
  | .vshlVC p x0 x1 x2 => place x0.val 11 (place x1.val 6 (place x2.enc 0 (p.enc 16 + 0x402c0000)))
  | .vshrVC p x0 x1 x2 => place x0.val 11 (place x1.val 6 (place x2.enc 0 (p.enc 16 + 0x402e0000)))
  | .vsraVC p x0 x1 x2 => place x0.val 11 (place x1.val 6 (place x2.enc 0 (p.enc 16 + 0x40300000)))
  | .viminVC p x0 x1 x2 => place x0.val 11 (place x1.val 6 (place x2.enc 0 (p.enc 16 + 0x40320000)))
  | .vimaxVC p x0 x1 x2 => place x0.val 11 (place x1.val 6 (place x2.enc 0 (p.enc 16 + 0x40340000)))
  | .vcmpVC p x0 x1 x2 => place x0.code 11 (place x1.val 6 (place x2.enc 0 (p.enc 16 + 0x40400000)))
  | .vshape p x0 => place x0.enc 0 (p.enc 16 + 0x40500000)
  | .vbcastVC p x0 x1 => place x0.val 11 (place x1.enc 0 (p.enc 16 + 0x40520000))
  | .vcvtSr p x0 x1 x2 x3 => place x0.code 17 (place x1.val 11 (place x2.val 6 (place x3.enc 0 (p.enc 16 + 0x40600000))))
  | .vld p x0 x1 x2 => place x0.val 11 (place x1.val 6 (place x2.val 0 (p.enc 22 + 0x80000000)))
  | .vst p x0 x1 x2 => place x0.val 11 (place x1.val 6 (place x2.val 0 (p.enc 22 + 0x80010000)))
  | .vlda p x0 x1 x2 => place x0.val 11 (place x1.val 8 (place x2.toNat 1 (p.enc 22 + 0x80020000)))
  | .vpld p c a => place c.val 10 (place a.val 5 (p.enc 22 + 0x80030000))
  | .vslist p x0 x1 => place x0.val 11 (place x1.val 6 (p.enc 22 + 0x80080000))
  | .vsmass p x0 x1 => place x0.val 11 (place x1.val 6 (p.enc 22 + 0x80090000))
  | .vspick p x0 x1 x2 => place x0.val 11 (place x1.val 6 (place x2.val 1 (p.enc 22 + 0x800a0000)))
  | .vsfull p x0 x1 x2 => place x0.val 11 (place x1.val 6 (place x2.val 1 (p.enc 22 + 0x800b0000)))
  | .xloop p x0 x1 x2 => place x0.val 15 (place x1.toNat 8 (place x2.toNat 0 (p.enc 22 + 0x80100000)))
  | .xnext p x0 x1 => place x0.val 15 (place (num x1) 14 (p.enc 22 + 0x80110000))
  | .xbrq p x0 => place x0.toNat 0 (p.enc 22 + 0x80120000)
  | .xjmp p d => place d.toNat 0 (p.enc 22 + 0x80130000)
  | .xjmpInd p a => place a.val 6 (p.enc 22 + 0x80138000)
  | .xbrz p x0 => place x0.toNat 0 (p.enc 22 + 0x80140000)
  | .xtok p => p.enc 22 + 0x80150000
  | .xend p => p.enc 22 + 0x80160000
  | .xqget p d l => place d.val 11 (place l.val 9 (p.enc 22 + 0x80170000))
  | .xqgetL p l => place l.val 9 (p.enc 22 + 0x80170400)
  | .xqput p x0 => place x0.val 6 (p.enc 22 + 0x80180000)
  | .xgget p x0 => place x0.val 13 (p.enc 22 + 0x80190000)
  | .xgseti p x0 x1 => place x0.val 13 (place (num x1) 12 (p.enc 22 + 0x801a0000))
  | .vfmai d a imm => place d.val 25 (place a.val 20 (place imm.toNat 0 0xc0000000))
  | _ => 0

/-- The literal word that an instruction carries, if it carries one (R253). -/
def Instr.literal : Instr → Option Word
  | .vaddVC _ _ _ (.lit w) => some w
  | .vsubVC _ _ _ (.lit w) => some w
  | .vmulVC _ _ _ (.lit w) => some w
  | .vminVC _ _ _ (.lit w) => some w
  | .vmaxVC _ _ _ (.lit w) => some w
  | .vfmaVC _ _ _ (.lit w) => some w
  | .vfnmaVC _ _ _ (.lit w) => some w
  | .viaddVC _ _ _ (.lit w) => some w
  | .visubVC _ _ _ (.lit w) => some w
  | .vimulVC _ _ _ (.lit w) => some w
  | .vandVC _ _ _ (.lit w) => some w
  | .vorVC _ _ _ (.lit w) => some w
  | .vxorVC _ _ _ (.lit w) => some w
  | .vshlVC _ _ _ (.lit w) => some w
  | .vshrVC _ _ _ (.lit w) => some w
  | .vsraVC _ _ _ (.lit w) => some w
  | .viminVC _ _ _ (.lit w) => some w
  | .vimaxVC _ _ _ (.lit w) => some w
  | .vcmpVC _ _ _ (.lit w) => some w
  | .vshape _ (.lit w) => some w
  | .vbcastVC _ _ (.lit w) => some w
  | .vcvtSr _ _ _ _ (.lit w) => some w
  | _ => none

/-- The words of a well-formed instruction, in the order they lie in instruction memory; none for a
device event. -/
def encode (i : Instr) : List Word :=
  if i.isWord then
    match i.literal with
    | some l => [BitVec.ofNat 32 i.enc, l]
    | none => [BitVec.ofNat 32 i.enc]
  else []

/-- The streams whose words include the instruction (R78, R240, R245, R248). -/
def Instr.on : Instr → Stream → Bool
  | .tld _ _ _, sn => sn == .L
  | .tldT _ _ _, sn => sn == .L
  | .pld _ _ _ _ _ _, sn => sn == .L
  | .gath _ _ _ _, sn => sn == .L
  | .mcast _ _ _, sn => sn == .L
  | .ccopy _ _ _ _, sn => sn == .L
  | .coll _ _ _ _, sn => sn == .L
  | .mzero _ _ _ _, sn => sn == .M
  | .mma _ _ _ _ _ _, sn => sn == .M
  | .mcommit _ _, sn => sn == .M
  | .mdiscard _ _, sn => sn == .M
  | .mlda _ _ _ _, sn => sn == .M
  | .msta _ _ _ _ _, sn => sn == .M
  | .mret _ _ _ _, sn => sn == .M
  | .mchk _ _, sn => sn == .M
  | .tst _ _ _ _ _, sn => sn == .W
  | .tadd _ _ _ _ _, sn => sn == .W
  | .pst _ _ _ _ _, sn => sn == .W
  | .scat _ _ _ _, sn => sn == .W
  | .upd _ _ _ _ _, sn => sn == .W
  | .eloop _ _ _ _, sn => sn == .L || sn == .M || sn == .W
  | .enext _ _ _, sn => sn == .L || sn == .M || sn == .W
  | .ebrq _ _, sn => sn == .L || sn == .M || sn == .W
  | .ejmp _ _, sn => sn == .L || sn == .M || sn == .W
  | .etok _, sn => sn == .L || sn == .M || sn == .W
  | .ehalt _, sn => sn == .L || sn == .M || sn == .W
  | .qget _ _ _, sn => sn == .L || sn == .M || sn == .W
  | .qseti _ _ _ _, sn => sn == .L || sn == .M || sn == .W
  | .efence _ _, sn => sn == .L || sn == .M || sn == .W
  | .gget _ _, sn => sn == .L || sn == .M || sn == .W
  | .gseti _ _ _, sn => sn == .L || sn == .M || sn == .W
  | .vadd _ _ _ _, sn => sn == .X
  | .vsub _ _ _ _, sn => sn == .X
  | .vmul _ _ _ _, sn => sn == .X
  | .vmin _ _ _ _, sn => sn == .X
  | .vmax _ _ _ _, sn => sn == .X
  | .vfma _ _ _ _, sn => sn == .X
  | .vfnma _ _ _ _, sn => sn == .X
  | .vabs _ _ _, sn => sn == .X
  | .vneg _ _ _, sn => sn == .X
  | .vrcp _ _ _, sn => sn == .X
  | .vrsq _ _ _, sn => sn == .X
  | .vsqrt _ _ _, sn => sn == .X
  | .vexp2 _ _ _, sn => sn == .X
  | .vlog2 _ _ _, sn => sn == .X
  | .vsig _ _ _, sn => sn == .X
  | .viadd _ _ _ _, sn => sn == .X
  | .visub _ _ _ _, sn => sn == .X
  | .vimul _ _ _ _, sn => sn == .X
  | .vand _ _ _ _, sn => sn == .X
  | .vor _ _ _ _, sn => sn == .X
  | .vxor _ _ _ _, sn => sn == .X
  | .vshl _ _ _ _, sn => sn == .X
  | .vshr _ _ _ _, sn => sn == .X
  | .vsra _ _ _ _, sn => sn == .X
  | .vimin _ _ _ _, sn => sn == .X
  | .vimax _ _ _ _, sn => sn == .X
  | .vcmp _ _ _ _, sn => sn == .X
  | .minv _, sn => sn == .X
  | .mpop _, sn => sn == .X
  | .vrsum _ _ _, sn => sn == .X
  | .vrmax _ _ _, sn => sn == .X
  | .vrmin _ _ _, sn => sn == .X
  | .vrarg _ _ _, sn => sn == .X
  | .vcvt _ _ _ _, sn => sn == .X
  | .vpack _ _ _ _, sn => sn == .X
  | .vpackSq _ _ _ _, sn => sn == .X
  | .vunpk _ _ _ _, sn => sn == .X
  | .vcvtNsat _ _ _ _, sn => sn == .X
  | .vmov _ _ _, sn => sn == .X
  | .vbcast _ _ _ _, sn => sn == .X
  | .vperm _ _ _ _, sn => sn == .X
  | .vsel _ _ _ _, sn => sn == .X
  | .viota _ _, sn => sn == .X
  | .vaddVC _ _ _ _, sn => sn == .X
  | .vsubVC _ _ _ _, sn => sn == .X
  | .vmulVC _ _ _ _, sn => sn == .X
  | .vminVC _ _ _ _, sn => sn == .X
  | .vmaxVC _ _ _ _, sn => sn == .X
  | .vfmaVC _ _ _ _, sn => sn == .X
  | .vfnmaVC _ _ _ _, sn => sn == .X
  | .viaddVC _ _ _ _, sn => sn == .X
  | .visubVC _ _ _ _, sn => sn == .X
  | .vimulVC _ _ _ _, sn => sn == .X
  | .vandVC _ _ _ _, sn => sn == .X
  | .vorVC _ _ _ _, sn => sn == .X
  | .vxorVC _ _ _ _, sn => sn == .X
  | .vshlVC _ _ _ _, sn => sn == .X
  | .vshrVC _ _ _ _, sn => sn == .X
  | .vsraVC _ _ _ _, sn => sn == .X
  | .viminVC _ _ _ _, sn => sn == .X
  | .vimaxVC _ _ _ _, sn => sn == .X
  | .vcmpVC _ _ _ _, sn => sn == .X
  | .vshape _ _, sn => sn == .X
  | .vbcastVC _ _ _, sn => sn == .X
  | .vcvtSr _ _ _ _ _, sn => sn == .X
  | .vld _ _ _ _, sn => sn == .X
  | .vst _ _ _ _, sn => sn == .X
  | .vlda _ _ _ _, sn => sn == .X
  | .vpld _ _ _, sn => sn == .X
  | .vslist _ _ _, sn => sn == .X
  | .vsmass _ _ _, sn => sn == .X
  | .vspick _ _ _ _, sn => sn == .X
  | .vsfull _ _ _ _, sn => sn == .X
  | .xloop _ _ _ _, sn => sn == .X
  | .xnext _ _ _, sn => sn == .X
  | .xbrq _ _, sn => sn == .X
  | .xjmp _ _, sn => sn == .X
  | .xjmpInd _ _, sn => sn == .X
  | .xbrz _ _, sn => sn == .X
  | .xtok _, sn => sn == .X
  | .xend _, sn => sn == .X
  | .xqget _ _ _, sn => sn == .X
  | .xqgetL _ _, sn => sn == .X
  | .xqput _ _, sn => sn == .X
  | .xgget _ _, sn => sn == .X
  | .xgseti _ _ _, sn => sn == .X
  | .vfmai _ _ _, sn => sn == .X
  | i, sn => i.isWord && sn == .S

/-- How many of the bits [lo + n - 1 : lo] of a word are set. -/
def ones (w lo n : Nat) : Nat := (List.range n).foldl (fun k j => k + fld w (lo + j) 1) 0

/-- How many bits of a word are set outside the opcode fields of the stream's format (R240, R245, R248). -/
def operandOnes (st : Stream) (w : Nat) : Nat :=
  match st with
  | .S =>
    ones w 28 4 + ones w 7 15 +
      (if [0x00, 0x0D, 0x2C, 0x2D, 0x30].contains (fld w 22 6) then 0 else ones w 0 7)
  | .X =>
    match fld w 30 2 with
    | 0 => ones w 23 7 + ones w 0 16
    | 1 => ones w 23 7 + ones w 0 17
    | 2 => ones w 22 8 + ones w 0 16
    | _ => ones w 0 30
  | _ => ones w 26 6 + ones w 0 20

/-- The stream on which a bare word of the opcode table is read. The table's rows name no stream, and one
word can be an instruction of several streams (14_formats: each engine has its own formats), so a rule of
the model's own picks one: of the streams for which the word is assigned, the one whose reading has the
fewest operand bits set, and the first of S, M, L, X, W among equals (log 11). -/
def tableStream (w : Nat) : Stream :=
  let weight (st : Stream) : Nat := match decodeWord st w 0 with
    | .ok _ => operandOnes st w
    | .error _ => 64
  [Stream.M, .L, .X, .W].foldl (fun best st => if weight st < weight best then st else best) .S

/-- The instruction that the decoder reads from a word of the opcode table: `nbits` is 32, and a literal
word that the instruction has above those bits is 0. -/
def decodeTableWord (nbits w : Nat) : Option Instr :=
  if nbits = 32 then
    match decodeWord (tableStream (w % 2 ^ 32)) (w % 2 ^ 32) 0 with
    | .ok i => some i
    | .error _ => none
  else none

end Sys2Proof
end

