-- ==== Sys2Proof/Machine/State.lean ====
section
/-! DEFINITION. The state of the module as plain data (00_scope to 12_generation), the reasons a step can
stop, and the state after reset. -/

namespace Sys2Proof.Machine

/-- Why a run stops. No meaning of the model answers with a fault: every error the spec describes is taken
as a trap, a status or a dropped message, which are next states. -/
inductive Fault where
  /-- Raised by nothing: the spec describes every error of the module as a next state (safe). -/
  | none
  deriving DecidableEq, Repr

/-- Why an instruction has no meaning. -/
inductive Refusal where
  /-- Raised by the arms of `exec` whose instruction is not modelled yet; safe, since nothing follows from a
  run that stops. -/
  | notModelled (mnemonic : String)
  deriving DecidableEq, Repr

/-! ## Engine streams (05_streams) -/

/-- A loop register: its count, and the start address its opening recorded (R262, R292, R352). -/
structure Loop where
  count : Word := 0
  start : Nat := 0
  deriving DecidableEq, Repr

/-- A stream register (R278). -/
structure QReg where
  base : DWord := 0
  fmt : DWord := 0
  geom : DWord := 0
  sstride : DWord := 0
  xpose : DWord := 0
  adv : DWord := 0
  deriving DecidableEq, Repr

/-- An unbroken wait: its code of R98 (0 for a wait the watchdog does not count), its first cycle, and the
operand values of the waiting instruction. -/
structure Wait where
  code : Nat
  since : Nat
  ops : List DWord := []
  deriving DecidableEq, Repr

/-- A part of a core whose failure is charged: its matrix array, a row of its basin, a word of an instruction memory
(R23). -/
inductive Fatal where
  | matrix
  | basin (row : Nat)
  | imem (st : Stream) (word : Nat)
  deriving DecidableEq, Repr

/-- A trap to be taken: cause code, the instruction responsible, its operand record and value (R190, R191). -/
structure Trap where
  code : Nat
  val : DWord := 0
  ops : List DWord := []
  held : Bool := false
  async : Bool := false
  stream : Stream := .S
  pc : Nat := 0
  seq : Nat := 0
  /-- The failing parts of the core that the trap reports (R24). -/
  sites : List Fatal := []
  /-- The core in whose in-flight table a trap that is kept holds an entry (R194, R196). -/
  table : Option Nat := none
  deriving DecidableEq, Repr

/-- The contents of a tile: its b bytes as one little-endian number, and its scale byte (R121). -/
structure Tile where
  data : Nat := 0
  scale : Nat := 0
  deriving DecidableEq, Repr

/-- A patch entry of one tile: element mask, values or deltas, and the prior image (R124, R126). -/
structure Entry where
  tile : Nat
  mask : BitVec 1024
  val : Tile
  prior : Tile := {}
  deriving DecidableEq, Repr

/-- What W recorded in a speculative iteration, in recording order (R90, R124). -/
structure Tentative where
  handle : Nat
  hist : Nat
  name : Nat
  entry : Entry
  deriving DecidableEq, Repr

/-- The values of a stream at the closing word of an iteration, to which a discard returns (R91, R279, R382). -/
structure Snap where
  pc : Nat
  seq : Nat
  guards : BitVec 8
  loop0 : Loop
  loop1 : Loop
  q : Store QReg
  deriving DecidableEq, Repr

/-- A speculative iteration (R90): the stream at the closing word before it, the tokens it took, the gives
it holds, its held fault, the accumulators whose twins it wrote, and its tentative entries. -/
structure Iter where
  snap : Snap
  /-- Tokens that the closing word before the iteration took, and the gives it holds until its outcome. -/
  wordF : Nat := 0
  wordB : Nat := 0
  wordGs : Bool := false
  wordGp : Bool := false
  tookF : Nat := 0
  tookB : Nat := 0
  gs : Nat := 0
  gp : Nat := 0
  fault : Option Trap := none
  /-- Tokens that the word of the held fault took. -/
  faultF : Nat := 0
  faultB : Nat := 0
  accs : List Nat := []
  tent : List Tentative := []
  /-- A clamp of a speculative step, which sets ASAT at its commit (R320). -/
  sat : Bool := false
  /-- First cycle of a commit's wait for room for the gives it holds (R98, log 24). -/
  blocked : Option Nat := none
  deriving DecidableEq, Repr

/-- A release that waits (R156, R163): the number from which writes are issued after it, and, once every earlier write
of its core has been accepted, the number of its marker, with the cisterns that have answered it. -/
structure Drain where
  before : Nat
  marker : Option Nat := none
  answers : List Nat := []
  deriving DecidableEq, Repr

/-- A word under way that puts entries into a return queue (R87, R283): the entries still to put, how many of its entries the
queue may still hold, and whether it has issued, so that its tokens are taken (R83). A stop takes the entries back (log 25). -/
structure Returning where
  left : List DWord
  put : Nat := 0
  issued : Bool := false
  deriving DecidableEq, Repr

/-- A stream's access that waits for a page to be fetched (R114, R116); the result of its walk enters no cache where a
`tlbinv` has removed translations since it began (R366). -/
structure Miss where
  core : Nat
  stream : Stream
  va : Nat
  barred : Bool := false
  deriving DecidableEq, Repr

/-- A completed leaf translation: va base and size, frame, permissions, spill entry (R113). -/
structure Xlat where
  va : Nat
  size : Nat
  pa : Nat
  rd : Bool
  wr : Bool
  sup : Bool
  deriving DecidableEq, Repr

/-- What a load of a later word has read, which was performed before that of an earlier word (R160): the address and number of
its word, and the bytes. -/
structure Early where
  pc : Nat
  seq : Nat
  bytes : List Byte
  deriving DecidableEq, Repr

/-- One engine stream of a core (R78). S keeps lc0 and lc1 as its loop registers; `q` is used by L, M, W. -/
structure Engine where
  img : List Word := []
  bad : List Nat := []
  pc : Nat := 0
  seq : Nat := 0
  halted : Bool := true
  ret : Option Returning := none
  /-- Poisoned units of the stream's registers, queues and token FIFOs, but for S's registers and the pantry (R202, log 15). -/
  regsBad : List RegUnit := []
  wait : Option Wait := none
  drain : Option Drain := none
  /-- The walks for which a `tlbinv` that has removed its translations waits (R366). -/
  walks : Option (List Miss) := none
  /-- The stream's word has issued and waits for memory or a history: a stop lets it run to retirement (R194, R298). -/
  issued : Bool := false
  /-- Tokens that the issued word has taken, which return if it does not retire (R83, R193). -/
  wordF : Nat := 0
  wordB : Nat := 0
  /-- Results of walks that a `tlbinv` has kept from the caches, for the access of the stream's word that waits for them
  (R366). -/
  got : List Xlat := []
  /-- The load that the stream has performed ahead of those before it (R160). -/
  early : Option Early := none
  /-- Accumulators whose twins the run-ahead of the loop under way has used (R91, R330). -/
  twins : List Nat := []
  /-- Gives of a retired instruction not yet made, and that instruction's address, number and operands (R84,
  R194). -/
  gs : Bool := false
  gp : Bool := false
  givePc : Nat := 0
  giveSeq : Nat := 0
  giveOps : List DWord := []
  guards : BitVec 8 := 0
  loop0 : Loop := {}
  loop1 : Loop := {}
  q : Store QReg := []
  spec : List Iter := []
  deriving DecidableEq, Repr

/-! ## Core (04_hall to 06_basin, 11_traps, 18_matrix to 20_system) -/

/-- An accumulator or its twin: INT32 or FP32 contents, 96 × 64 cells of 32 bits by rows; the empty list
stands for zeros (R319); and its poison (R202). -/
structure Acc where
  i32 : Bool := false
  cells : List Word := []
  bad : Bool := false
  deriving DecidableEq, Repr

/-- A mailbox (R219). -/
structure Mailbox where
  word : DWord := 0
  full : Bool := false
  deriving DecidableEq, Repr

/-- How a core holds a line (R147). -/
inductive CopyKind where
  | owned | tracked | untracked
  deriving DecidableEq, Repr

/-- A copy of a line: its 128 bytes, dirty word mask, and poison of its two 64-byte units (R147, R153). -/
structure Copy where
  kind : CopyKind
  data : List Byte
  dirty : BitVec 32 := 0
  poison : BitVec 2 := 0
  deriving DecidableEq, Repr

/-- A store or `red` of an instruction that its core has not yet sent (R156, R160): its number, stream and request. -/
structure Buffered where
  no : Nat
  stream : Stream
  req : HomeReq
  deriving DecidableEq, Repr

/-- A gauge (R19, R20, R22). `owner` is the partition a die gauge is assigned to, none for the authority. -/
structure Gauge where
  control : Word := 0x00FF0000
  owner : Option Nat := none
  mn : Nat := 0
  mx : Nat := 0
  count : Nat := 0
  sum : Nat := 0
  hist : Store Nat := []
  deriving DecidableEq, Repr

/-- A pending `kwait`: semaphore, threshold, cycle limit, first cycle, and the physical address of the counter (R200,
R267). -/
structure KWait where
  k : Nat
  thr : Nat
  limit : Option Nat
  since : Nat
  pa : Nat := 0
  deriving DecidableEq, Repr

/-- Where a core stands (R62, R76, R194). -/
inductive Run where
  /-- Free, or reserved while its job is loading. -/
  | idle
  /-- Running a job. -/
  | running
  /-- Past its `opb` or `jend`, waiting only for the job's basin-side copies (R76, R287). -/
  | leaving
  /-- Stopped for a hard pre-emption; M still runs until it may stop, and basin-side copies are awaited
  (R76, R194, R287). -/
  | preempting
  deriving DecidableEq, Repr

/-- A domain register (R96). -/
structure Dom where
  count : Nat := 1
  gen : Nat := 0
  phase : Bool := false
  level : Nat := 0
  deriving DecidableEq, Repr

/-- The trap record (R191). -/
structure Record where
  tcause : DWord := 0
  tstream : DWord := 0
  tpc : DWord := 0
  tseq : DWord := 0
  tcut : Store DWord := []
  top : Store DWord := []
  tval : DWord := 0
  deriving DecidableEq, Repr

/-- One core. -/
structure Core where
  run : Run := .idle
  part : Nat := 0
  job : Nat := 0
  jidx : Nat := 0
  sup : Bool := false
  graph : DWord := 0
  yieldAt : Option Nat := none
  leaveByJend : Bool := false
  /-- First cycle of a hard pre-emption in progress, and whether M has stopped for it (R194). -/
  preemptAt : Nat := 0
  mStop : Bool := false
  /-- The core's context holds an unhandled trap (R192, R197). -/
  trapped : Bool := false
  /-- bnd.v, bnd.s and bnd.p (R60). -/
  bndV : Nat := 8192
  bndS : Nat := 8192
  bndP : Nat := 8192
  basin : Mem := []
  /-- Poisoned 32-byte rows of the basin. -/
  basinBad : List Nat := []
  strS : Engine := {}
  strL : Engine := {}
  strM : Engine := {}
  strX : Engine := {}
  strW : Engine := {}
  sreg : Store DWord := []
  /-- Poisoned scalar registers, and poisoned words of the pantry (R202). -/
  sregBad : List Nat := []
  pantryBad : List Nat := []
  preds : BitVec 8 := 0
  /-- Token FIFO counts by pair: 0 L-M, 1 M-X, 2 X-W, 3 W-L (R82). -/
  fwd : Store Nat := []
  back : Store Nat := []
  /-- Scalar queues from S by engine: 0 L, 1 M, 2 X, 3 W; return queues: 0 X, 1 L (R86, R87). -/
  sq : Store (List DWord) := []
  rq : Store (List DWord) := []
  mail : Store Mailbox := []
  /-- a0-a7 at 0-7 and their twins at 8-15 (R319). -/
  acc : Store Acc := []
  replays : Nat := 0
  asat : Bool := false
  pantry : Store Word := []
  vsh : Word := 0
  /-- The mask stack, top first (R336). -/
  masks : List (BitVec 8192) := []
  rsvdWr : Bool := false
  tokwd : DWord := 0x01000000
  tvecAddr : Nat := 0
  tvecEn : Bool := false
  thnd : Bool := false
  kbase : DWord := 0
  lkahead : DWord := 0
  /-- Place in its list of the next entry of a lookahead pass in progress (R118). -/
  lkAt : Option Nat := none
  dom : Store Dom := []
  cdelay : DWord := 0
  trapRec : Record := {}
  /-- S's cut while the handler runs: program counter, sequence number, broken wait and loop registers (R192, R193). -/
  cutPc : Nat := 0
  cutSeq : Nat := 0
  cutKwait : Option KWait := none
  cutLoop0 : Loop := {}
  cutLoop1 : Loop := {}
  /-- A trap that has stopped the core and waits until its issued words have retired (R194). -/
  stopping : Option Trap := none
  /-- Traps kept until the core next runs outside a handler (R194, R196). -/
  kept : List Trap := []
  kwait : Option KWait := none
  dpaddr : DWord := 0
  dpent0 : DWord := 0
  dpent1 : DWord := 0
  /-- A write to DPADDR whose page is being fetched from the cellar (R361). -/
  probing : Option DWord := none
  gauges : Store Gauge := []
  freezeFrom : Nat := 0
  freezeEnd : Option Nat := none
  /-- Residue mismatches that the coming matrix steps meet, the next step's first (R182). -/
  residue : List Nat := []
  /-- The failure that has retired the core while it runs; its trap is always unhandled (R24). -/
  fatal : Option Fatal := none
  /-- Run-ahead decisions made so far (R90, log 8). -/
  guesses : Nat := 0
  /-- Translation-cache misses since the last sample of source 0x04 (R21). -/
  misses : Nat := 0
  copies : Store Copy := []
  evicting : Store Copy := []
  /-- Stores that have retired and have not reached their homes, oldest first (R156). -/
  stores : List Buffered := []
  /-- Requests of this core that a home has granted and whose line is on its way (R151). -/
  granted : List HomeReq := []
  /-- The translation caches, oldest entry first: L and W; S (R113). -/
  tlbLW : List Xlat := []
  tlbS : List Xlat := []
  deriving DecidableEq, Repr

/-! ## Partition (04_hall, 07_patches, 12_generation) -/

/-- A patch of a chain (R123, R124); `uid` names its pages, which histories share (R138, R142). -/
structure Patch where
  name : Nat
  overwrite : Bool
  entries : List Entry
  uid : Nat
  pages : Nat
  deriving DecidableEq, Repr

/-- An open patch, held by one core (R124). -/
structure OpenPatch where
  core : Nat
  name : Nat
  overwrite : Bool
  entries : List Entry := []
  deriving DecidableEq, Repr

/-- A base: its tiles, and the pages they take (R123, R131). -/
structure Base where
  uid : Nat
  pages : Nat
  tiles : Store Tile
  deriving DecidableEq, Repr

/-- A tile that automatic squash wrote: the fold at position `pos`, its page, and the bytes that it fills of the page with
those before it (R132, R142). -/
structure Squashed where
  tile : Nat
  pos : Nat
  val : Tile
  uid : Nat
  fill : Nat
  deriving DecidableEq, Repr

/-- A history (R123). -/
structure Hist where
  base : Base
  chain : List Patch := []
  floor : Nat := 0
  frozen : Bool := false
  opens : List OpenPatch := []
  squashed : List Squashed := []
  mapPages : Nat := 1
  deriving DecidableEq, Repr

/-- A tensor (R120). -/
structure Tensor where
  ty : Ty
  n0 : Nat
  n1 : Nat
  n2 : Nat
  n3 : Nat
  depth : Nat
  hists : Store Hist
  deriving DecidableEq, Repr

/-- A way of an order table: position and tag (R205). -/
structure Way where
  pos : Nat
  tag : Nat
  deriving DecidableEq, Repr

/-- A Pool context: T, LG, position count, log by slot, and the filled ways by
(order × 2^T + bucket) × 4 + way (R205). -/
structure PoolCtx where
  die : Nat
  t : Nat
  lg : Nat
  n : Nat := 0
  log : Store Nat := []
  ways : Store Way := []
  deriving DecidableEq, Repr

/-- An entry of a core image table (R57): addresses and lengths for S, L, M, X, W. -/
structure Images where
  addr : List Nat
  len : List Nat
  deriving DecidableEq, Repr

/-- A valid resident entry of a launch record (R58). -/
structure Resident where
  sel : Nat
  dest : Nat
  tile : Nat
  hist : Nat
  handle : Nat
  deriving DecidableEq, Repr

/-- What became of a job core index (R76, R77). -/
inductive IdxState where
  | fresh | running | ended
  | yielded (graph : DWord)
  | saved
  deriving DecidableEq, Repr

/-- A job core index, with its core while it has one. -/
structure JobIdx where
  core : Option Nat := none
  st : IdxState := .fresh
  /-- Asynchronous faults kept while the index is away (R196). -/
  kept : List Trap := []
  /-- What the Hall keeps of a saved core beyond its slot (R192, R195, R198, log 16). -/
  rest : Option Core := none
  deriving DecidableEq, Repr

/-- A job: the Hall's private copy of the record (R56, R59) and its progress (R61-R63, R76, R77). -/
structure Job where
  prio : Nat
  n : Nat
  affinity : Nat
  images : List Images
  shared : Bool
  bndV : Nat
  bndS : Nat
  bndP : Nat
  tokens : List Nat
  ctxVa : Nat
  stateVa : Nat
  params : List DWord
  /-- Waits not yet met: event and threshold. -/
  waits : List (Nat × Nat)
  compl : Option Nat
  residents : List Resident
  /-- Level of the stream that issued the launch; translates the state word (R61). -/
  launchSup : Bool
  /-- Level of the job's own streams (R203). -/
  sup : Bool
  capbase : DWord
  /-- 1 WAITING, 2 READY, 3 LOADING, 4 RUNNING, 5 YIELDED, 6 DONE, 7 FAILED (R61). -/
  state : Nat
  cause : Nat := 0
  age : Nat := 0
  readySince : Nat := 0
  sliceStart : Nat := 0
  idx : Store JobIdx
  /-- How the job ends once every core has left: state and cause (R24, R192). -/
  ending : Option (Nat × Nat) := none
  /-- The dispatcher's image, which LOAD_DISP gives as words (R54). -/
  disp : List Word := []
  /-- Waiting `mbsend`s in arrival order: destination index, mailbox and sending core (R99, R219). -/
  senders : List (Nat × Nat × Nat) := []
  /-- Its place in the conduit queues at its placement, and the entries that its loading has still to start, by die (R62,
  R73). -/
  loadFrom : Nat := 0
  loadLeft : Store Nat := []
  deriving DecidableEq, Repr

/-- Who waits on an event (R65): a wait of a job, or a core's `evwait`. -/
inductive Who where
  | job (j : Nat)
  | stream (core : Nat)
  deriving DecidableEq, Repr

/-- A registered waiter, in registration order (R65). -/
structure Waiter where
  ev : Nat
  thr : Nat
  who : Who
  met : Bool := false
  /-- Its record in the chain of the event region; none while it stands in the hardware list of its cached entry (R66). -/
  slot : Option Nat := none
  deriving DecidableEq, Repr

/-- A frame of the cellar clock: entry address, slot, va, reference bit (R116). -/
structure Frame where
  entryPa : Nat
  slot : Nat
  va : Nat
  ref : Bool
  deriving DecidableEq, Repr

/-- A fetch in progress, with the core whose lookahead pass asked for it, if one did (R116, R118). -/
structure Fetch where
  entryPa : Nat
  va : Nat
  ahead : Option Nat
  deriving DecidableEq, Repr

/-- An image that arrives in chunks (R53). -/
structure Chunks where
  bytes : List Byte
  deriving DecidableEq, Repr

/-- An arrival at a barrier generation: core, level, direction, generation, register (R97). -/
structure Arrival where
  job : Nat
  core : Nat
  level : Nat
  dir : Bool
  gen : Nat
  reg : Nat
  deriving DecidableEq, Repr

/-- One partition (R70) and its registers (R358). -/
structure Partition where
  evbase : DWord := 0
  hslice : DWord := 20
  ptroot : DWord := 0
  clkpool : DWord := 0
  clkHand : Nat := 0
  clkEn : Bool := false
  /-- A write of 0 to CLKCTL.EN waits for the fetches in progress (R115). -/
  clkOff : Bool := false
  ppool : DWord := 0
  sxpool : DWord := 0
  capbase : DWord := 0
  vcb : DWord := 0
  vwbase : Store DWord := []
  vwctl : Store DWord := []
  frames : Store Frame := []
  /-- The frame whose page is being spilled, and the table entry whose fetch it makes room for (R116). -/
  spilling : Option (Nat × Nat) := none
  fetches : List Fetch := []
  misses : List Miss := []
  /-- Counts of the cached events (R66). -/
  events : Store Nat := []
  waiters : List Waiter := []
  jobs : Store Job := []
  nextJob : Nat := 1
  placements : Nat := 0
  /-- The candidate of the next placement, once chosen (R69). -/
  chosen : Option Nat := none
  arrivals : List Arrival := []
  tensors : Store Tensor := []
  pools : Store PoolCtx := []
  nextUid : Nat := 1
  /-- Tiles poisoned in a page set of the patch pool: set and tile (R202). -/
  badTiles : List (Nat × Nat) := []
  /-- Pages that conduit copies and resident loads in progress hold: operation, uid and pages (R142). -/
  pins : List (Nat × Nat × Nat) := []
  disp : Option Chunks := none
  /-- Port set, endpoint addresses by port, weights by port (R29, R30). -/
  ports : Nat := 0
  addrs : Store (List Byte) := []
  weights : Store Nat := (List.range 12).map fun k => (k, 1)
  /-- Cellar share in GiB, its contents by byte, and poisoned 64-byte units (R8, R115, R117). -/
  cellarGiB : Nat := 0
  cellar : Mem := []
  cellarBad : List Nat := []
  deriving DecidableEq, Repr

/-! ## Memory directory (08_coherence) -/

/-- MODE of a directory entry with what the mode records (R148). -/
inductive DirMode where
  | none
  | ptr (cores : List Nat)
  | coarse (wings : BitVec 12)
  | owned (core : Nat)
  deriving DecidableEq, Repr

/-- A directory entry with the requests that wait at the home and the one in progress (R148, R150). PEND counts
`awaits`, the cores whose acknowledgement is awaited; FWD is read from `updates` and `replies`. -/
structure DirEntry where
  mode : DirMode := .none
  busy : Option HomeReq := none
  awaits : List Nat := []
  waiting : List HomeReq := []
  /-- Forwarded reads and updates that an owner has not yet answered, with that owner, and words of replies on their way
  to the home (R152). -/
  reads : List (Nat × HomeReq) := []
  updates : List (Nat × HomeReq) := []
  replies : List (Nat × Word) := []
  deriving DecidableEq, Repr

/-- A write that a bank has accepted and that is not yet performed, with the number of its acceptance (R156). -/
structure Pend where
  no : Nat
  req : HomeReq
  deriving DecidableEq, Repr

/-! ## Conduit and confluence (02_links R34-R41, 16_transfer R286-R288) -/

/-- One side of a copy (R286). -/
inductive Side where
  | plain (va : Nat)
  | tiles (handle hist t0 : Nat)
  | scales (handle hist t0 : Nat)
  | far (region off : Nat)
  | host (port conn base : Nat)
  | device (port conn window off : Nat)
  | basin (off : Nat)
  deriving DecidableEq, Repr

/-- A collective's parameters (R288). -/
structure Coll where
  op : Nat
  oper : Nat
  ty : Nat
  n : Nat
  rank : Nat
  root : Nat
  buf : Nat
  elems : Nat
  list : Nat
  tag : Nat
  deriving DecidableEq, Repr

/-- What an operation does. -/
inductive OpKind where
  | copy (src dst : Side) (len : Nat)
  | coll (c : Coll)
  deriving DecidableEq, Repr

/-- A copy or collective in flight, with its entry of the in-flight table (R196, R286, R288). -/
structure Op where
  kind : OpKind
  core : Nat
  part : Nat
  job : Nat
  jidx : Nat
  sup : Bool
  pc : Nat
  seq : Nat
  ops : List DWord
  complPa : Nat
  semPa : Option Nat
  /-- The status of R40, once the operation has ended, and its count. -/
  status : Option Nat := none
  /-- Bytes moved by a copy; result bytes written by a collective. -/
  done : Nat := 0
  /-- The operation faulted after issue (R196). -/
  faulted : Bool := false
  /-- Entry of the virtual queue held (R73). -/
  queued : Bool := true
  started : Bool := false
  /-- Cycles for which CDELAY holds the copy, and the cycle at which a hold in progress ends (R378). -/
  hold : Option Nat := none
  holdUntil : Option Nat := none
  /-- A `READ` of a remote device is out, or the last `WRITE` to a peer is not yet acknowledged (R31, R286). -/
  awaiting : Bool := false
  /-- The capability table of its job; none for the dispatcher, whose uses read CAPBASE as it stands (R41, R201). -/
  capbase : Option DWord := none
  /-- The source tensor and history, fixed when the copy starts, or when they are freed before that; the copy keeps their
  pages (R129, R142, R301). -/
  last : Option (Tensor × Hist) := none
  /-- The operation's own number in the device's tables. -/
  key : Nat := 0
  /-- The end of the last entry of at most 64 KiB that a copy has started (R73). -/
  begun : Nat := 0
  /-- First chunks that a collective has sent, an entry each (R36, R73). -/
  sentFirst : Nat := 0
  /-- Messages that came before a collective started: their sender and message (R36). -/
  early : List (Nat × HopMsg) := []
  /-- Chunks of a collective that this rank has reduced, and that it has gathered (R36). -/
  seen : List Nat := []
  gathered : List Nat := []
  /-- Chunks for which a first residue mismatch or adder disagreement was met (R39). -/
  retried : List Nat := []
  /-- Chunks sent and not yet acknowledged: their rank and message (R38). -/
  kept : List (Nat × HopMsg) := []
  /-- Disagreements that the coming additions of the duplicated adder meet (R38, R39). -/
  adder : List Bool := []
  deriving DecidableEq, Repr

/-- A message to a rank of this device whose collective has not been issued (R36, R38): the rank and its core, the sender and
its core, and how many collectives of the tag the two have shared before it (log 32). -/
structure CollMsg where
  part : Nat
  tag : Nat
  rank : Nat
  core : Nat
  sender : Nat
  senderCore : Nat
  no : Nat
  msg : HopMsg
  deriving DecidableEq, Repr

/-- A chunk that has arrived at a rank whose collective has started, with its place in the queue and its sender (R73). -/
structure QueuedHop where
  no : Nat
  op : Nat
  sender : Nat
  msg : HopMsg
  deriving DecidableEq, Repr

/-- A collective that a rank has issued under a tag while something of the tag was in flight: its operation, and the ranks
of its list that lie on this device, with their cores (R36, log 32). -/
structure Round where
  op : Nat
  tag : Nat
  part : Nat
  rank : Nat
  core : Nat
  mates : List (Nat × Nat)
  deriving DecidableEq, Repr

/-- A memory expander that enumeration has accepted: switch levels above it, and its static capacity (R32). -/
structure Expander where
  levels : Nat
  size : Nat
  deriving DecidableEq, Repr

/-- A far region; one with no partition is withheld until it has been zeroed (R33, R55). -/
structure Far where
  port : Nat
  part : Option Nat
  size : Nat
  mem : Mem := []
  bad : List Nat := []
  deriving DecidableEq, Repr

/-! ## Device (01_package, 03_vestibule) -/

/-- Phase of the module (R13, R15). -/
inductive Phase where
  | off | recovery | ready | stopped
  deriving DecidableEq, Repr

/-- A firmware slot: public key and version of its header, image bytes, and signature (R15); no image: not valid. -/
structure Slot where
  key : List Byte
  version : Nat
  image : List Byte
  sig : List Byte
  deriving DecidableEq, Repr

/-- A message the device sends: a reply on a connection, a `NOTIFY`, a `WRITE` of a copy or a chunk of a
collective. One that a channel sends names the port of its entry by its index within the partition's port set (R201). -/
inductive Sent where
  | reply (conn tc tag status : Nat) (typ : Byte) (value : DWord) (body : List Byte)
  | notify (port conn : Nat) (value : DWord) (ch seq : Nat)
  | hostWrite (port conn tc addr : Nat) (data : List Byte)
  | devWrite (port conn tc window off : Nat) (data : List Byte)
  | devRead (port conn window off len : Nat) (op : Nat)
  | hop (port conn rank sender tag no : Nat) (m : HopMsg)
  deriving DecidableEq, Repr

/-- The Keystone, the links and the state that belongs to no partition. -/
structure Device where
  phase : Phase := .off
  readyAt : Nat := 0
  meas : Store (List Byte) := []
  slotA : Slot := ⟨[], 0, [], []⟩
  slotB : Slot := ⟨[], 0, [], []⟩
  preferB : Bool := false
  selectedB : Bool := false
  fallback : Bool := false
  fwPart : Option Chunks := none
  boots : Nat := 0
  credential : List Byte := []
  /-- Queued `ATTEST` requests, each with the quote as it stood when the request arrived (R17, R18). -/
  quotes : List (Msg × List Byte) := []
  /-- The `PART_DESTROY` under way, and the Keystone's messages that wait behind it (R18, R55). -/
  destroying : Option Msg := none
  keyQueue : List Msg := []
  /-- `WRITE` messages whose reply is due (R46), and connections that have failed (R31). -/
  writesDone : List Msg := []
  lost : List Nat := []
  failures : Store (List Nat) := []
  retired : List Nat := []
  trip : Bool := false
  powerLimit : Nat := 2900
  duty : Nat := 16
  /-- The cycle at which the next period of the duty begins (R12). -/
  dutyNext : Nat := 0
  hotDies : List Nat := []
  uePorts : List Nat := []
  cxlPorts : List Nat := []
  /-- The expanders below each CXL port (R32). -/
  expanders : Store (List Expander) := []
  portErrors : Store Nat := []
  /-- Wing-owner table: an entry per assigned wing (R17). -/
  wings : Store Nat := []
  /-- Sluice table: an entry per owned slot (R71). -/
  sluice : Store Nat := []
  far : Store Far := []
  gauges : Store Gauge := []
  ops : Store Op := []
  nextOp : Nat := 1
  /-- Entries that each partition's queue on a die has started in the arbiter's round, by die × 16 + partition (R73). -/
  served : Store Nat := []
  rounds : List Round := []
  chunks : List CollMsg := []
  /-- Chunk hops that wait in the conduit queues, the oldest first (R73). -/
  hops : List QueuedHop := []
  /-- NOTIFY sequence numbers by the place of the capability entry (R50). -/
  notifySeq : Store Nat := []
  /-- `NOTIFY` messages sent and not yet acknowledged, by the same place (R50). -/
  unitsOut : Store Nat := []
  /-- The event entries that the Halls cache, as partition and event, the one entered first at the head (R66). -/
  evCache : List (Nat × Nat) := []
  sent : List Sent := []
  deriving DecidableEq, Repr

/-- The whole machine, with the fields of the model's own: `evTurn`, `core` and `stream` say whose turn it is (log 2),
`freeCount` numbers the free values (log 3), and `nextWrite` numbers stores and acceptances. -/
structure State where
  now : Nat
  dev : Device
  cores : Store Core
  parts : Store Partition
  mem : Mem
  /-- Poisoned 64-byte units of HBM, by unit number. -/
  poison : List Nat
  /-- Directory entries by line number. -/
  dir : Store DirEntry
  /-- Writes accepted and not yet performed; a bank's counter for a partition counts its own (R156). -/
  pending : List Pend
  nextWrite : Nat
  events : List Instr
  evTurn : Bool
  core : Nat
  stream : Stream
  freeCount : Nat
  deriving DecidableEq, Repr

/-- The module right after reset: at power-on, with the start-up of R15 due and nothing else. -/
def State.reset : State where
  now := 0
  dev := {}
  cores := []
  parts := []
  mem := []
  poison := []
  dir := []
  pending := []
  nextWrite := 1
  events := [.powerOn]
  evTurn := true
  core := 0
  stream := .S
  freeCount := 0

end Sys2Proof.Machine
end

