-- ==== Sys2Proof/Machine/Base.lean ====
section
/-! DEFINITION. Keyed stores, sparse bytes, number helpers and the accessors of State. -/

namespace Sys2Proof.Machine

/-! ## Keyed stores -/

/-- The entry with key `k`. -/
def find {α : Type} : Store α → Nat → Option α
  | [], _ => none
  | (a, x) :: m, k => if a = k then some x else find m k

/-- The entry with key `k`, or a default. -/
def findD {α : Type} (m : Store α) (k : Nat) (d : α) : α := (find m k).getD d

/-- Set the entry with key `k`, keeping rising keys. -/
def put {α : Type} : Store α → Nat → α → Store α
  | [], k, x => [(k, x)]
  | (a, y) :: m, k, x =>
    if a = k then (k, x) :: m else if k < a then (k, x) :: (a, y) :: m else (a, y) :: put m k x

/-- Remove the entry with key `k`. -/
def del {α : Type} (m : Store α) (k : Nat) : Store α := m.filter fun e => e.1 != k

/-- Apply a function to every entry. -/
def mapVals {α : Type} (m : Store α) (f : Nat → α → α) : Store α := m.map fun e => (e.1, f e.1 e.2)

/-! ## Sparse bytes -/

/-- What an address that lists no byte reads as. -/
def unlisted : Byte := Config.unwritten

/-- The byte at an address. -/
def Mem.read (m : Mem) (a : Nat) : Byte := findD m a unlisted

/-- The bytes at [a, a + n). -/
def Mem.readN (m : Mem) (a n : Nat) : List Byte :=
  let w := m.filter fun c => a ≤ c.1 && c.1 < a + n
  (List.range n).map fun i => Mem.read w (a + i)

/-- The cells that hold `bs` from address `a`, none for a byte equal to the unlisted one. -/
def cells : Nat → List Byte → Mem
  | _, [] => []
  | a, b :: bs => if b = unlisted then cells (a + 1) bs else (a, b) :: cells (a + 1) bs

/-- Write bytes from address `a` upward, in the canonical form. -/
def Mem.write (m : Mem) (a : Nat) (bs : List Byte) : Mem :=
  m.filter (fun c => c.1 < a) ++ (cells a bs ++ m.filter fun c => a + bs.length ≤ c.1)

/-- The canonical form: rising addresses, and no byte equal to the unlisted one. -/
def Mem.wf : Mem → Bool
  | [] => true
  | [c] => c.2 != unlisted
  | c :: d :: m => c.2 != unlisted && decide (c.1 < d.1) && Mem.wf (d :: m)

/-- The cells of a list that keep the canonical form from address `lo` on: all of a list that has the form. -/
def rising : Nat → Mem → Mem
  | _, [] => []
  | lo, c :: m => if lo ≤ c.1 ∧ c.2 ≠ unlisted then c :: rising (c.1 + 1) m else rising lo m

/-- Cells of [lo, lo + n) of a memory, keyed from 0. -/
def cut (m : Mem) (lo n : Nat) : Mem :=
  (m.filter fun c => lo ≤ c.1 && c.1 < lo + n).map fun c => (c.1 - lo, c.2)

/-- Replace [lo, lo + n) of a memory by cells keyed from 0. -/
def blit (m : Mem) (lo n : Nat) (src : Mem) : Mem :=
  m.filter (fun c => c.1 < lo) ++ ((rising lo ((src.filter fun c => c.1 < n).map fun c => (c.1 + lo, c.2))) ++
    m.filter fun c => lo + n ≤ c.1)

/-! ## Numbers and bytes -/

/-- The number that bytes make, the lowest address least significant (R2). -/
def leNat : List Byte → Nat
  | [] => 0
  | b :: bs => b.toNat + 256 * leNat bs

/-- The `n` low bytes of a number, least significant first (R2). -/
def toLe : Nat → Nat → List Byte
  | 0, _ => []
  | n + 1, v => BitVec.ofNat 8 v :: toLe n (v / 256)

/-- Words of bytes. -/
def wordsOf : List Byte → List Word
  | b0 :: b1 :: b2 :: b3 :: bs => wordOfBytes b0 b1 b2 b3 :: wordsOf bs
  | _ => []

/-- The signed value of an n-bit number (R2). -/
def signed (n v : Nat) : Int := if v % 2 ^ n < 2 ^ (n - 1) then (v % 2 ^ n : Nat) else (v % 2 ^ n : Nat) - 2 ^ n

/-- A number taken modulo 2^n. -/
def wrap (n : Nat) (z : Int) : Nat := (z % (2 ^ n : Nat)).toNat

/-- Round up to a multiple of 32. -/
def roundup32 (n : Nat) : Nat := (n + 31) / 32 * 32

/-- Division rounded up. -/
def ceilDiv (a b : Nat) : Nat := (a + b - 1) / b

/-- A 64-bit value of a number. -/
def dw (n : Nat) : DWord := BitVec.ofNat 64 n

/-- The bits of a number that are set, lowest first, below `n`. -/
def setBits (n v : Nat) : List Nat := (List.range n).filter fun i => v.testBit i

/-! ## Accessors of State -/

/-- A core; a core that nothing has touched reads as after reset. -/
def State.coreAt (s : State) (c : Nat) : Core := findD s.cores c {}

def State.setCore (s : State) (c : Nat) (k : Core) : State := { s with cores := put s.cores c k }

def State.onCore (s : State) (c : Nat) (f : Core → Core) : State := s.setCore c (f (s.coreAt c))

/-- The partition that owns core `c`'s wing (R4, R70). -/
def State.partOf (s : State) (c : Nat) : Nat := findD s.dev.wings (c / 12) 0xFF

def State.partAt (s : State) (p : Nat) : Partition := findD s.parts p {}

def State.setPart (s : State) (p : Nat) (x : Partition) : State := { s with parts := put s.parts p x }

def State.onPart (s : State) (p : Nat) (f : Partition → Partition) : State := s.setPart p (f (s.partAt p))

def State.onDev (s : State) (f : Device → Device) : State := { s with dev := f s.dev }

/-- Put an event into the queue of events in flight (log 2). -/
def State.post (s : State) (e : Instr) : State := { s with events := s.events ++ [e] }

/-- Record a message that the device sends. -/
def State.send (s : State) (m : Sent) : State := s.onDev fun d => { d with sent := d.sent ++ [m] }

/-- A job of a partition. -/
def State.jobAt (s : State) (p j : Nat) : Option Job := find (s.partAt p).jobs j

def State.setJob (s : State) (p j : Nat) (x : Job) : State :=
  s.onPart p fun q => { q with jobs := put q.jobs j x }

/-- The engine stream of a core. -/
def Core.eng (k : Core) : Stream → Engine
  | .S => k.strS
  | .L => k.strL
  | .M => k.strM
  | .X => k.strX
  | .W => k.strW

def Core.setEng (k : Core) (st : Stream) (e : Engine) : Core :=
  match st with
  | .S => { k with strS := e }
  | .L => { k with strL := e }
  | .M => { k with strM := e }
  | .X => { k with strX := e }
  | .W => { k with strW := e }

def Core.onEng (k : Core) (st : Stream) (f : Engine → Engine) : Core := k.setEng st (f (k.eng st))

def State.eng (s : State) (c : Nat) (st : Stream) : Engine := (s.coreAt c).eng st

def State.onEng (s : State) (c : Nat) (st : Stream) (f : Engine → Engine) : State :=
  s.onCore c fun k => k.onEng st f

/-- The five streams in the order of tstream (R191). -/
def streams : List Stream := [.S, .L, .M, .X, .W]

/-- Stream number of R191. -/
def streamNum : Stream → Nat
  | .S => 0
  | .L => 1
  | .M => 2
  | .X => 3
  | .W => 4

/-- A scalar register; s0 reads zero (R225). -/
def Core.s (k : Core) (n : Fin 32) : DWord := if n = 0 then 0 else findD k.sreg n 0

/-- Write a scalar register, which is clean then (R202, log 15); a write to s0 is discarded (R225). -/
def Core.setS (k : Core) (n : Fin 32) (v : DWord) : Core :=
  if n = 0 then k else { k with sreg := put k.sreg n v, sregBad := k.sregBad.filter (· != n.val) }

/-- A predicate; p0 reads true (R95, R225). -/
def Core.p (k : Core) (n : Fin 8) : Bool := n = 0 || k.preds.getLsbD n

/-- A bit of a vector replaced. -/
def setBit {w : Nat} (v : BitVec w) (n : Nat) (b : Bool) : BitVec w :=
  if b then v ||| BitVec.twoPow w n else v &&& ~~~BitVec.twoPow w n

/-- Write a predicate; a write to p0 is discarded (R225). -/
def Core.setP (k : Core) (n : Fin 8) (b : Bool) : Core :=
  if n = 0 then k else { k with preds := setBit k.preds n b }

/-- A guard of a stream; g0 reads true (R94). -/
def Engine.g (e : Engine) (n : Nat) : Bool := n = 0 || e.guards.getLsbD n

/-- Write a guard; a write to g0 is discarded (R225, R382). -/
def Engine.setG (e : Engine) (n : Nat) (b : Bool) : Engine :=
  if n = 0 then e else { e with guards := setBit e.guards n b }

/-- A stream register (R278). -/
def Engine.qr (e : Engine) (n : Nat) : QReg := findD e.q n {}

def Engine.setQ (e : Engine) (n : Nat) (r : QReg) : Engine := { e with q := put e.q n r }

/-- The loop register of number 0 or 1. -/
def Engine.loop (e : Engine) (n : Nat) : Loop := if n = 0 then e.loop0 else e.loop1

def Engine.setLoop (e : Engine) (n : Nat) (l : Loop) : Engine :=
  if n = 0 then { e with loop0 := l } else { e with loop1 := l }

/-- The job of a core, if it runs one. -/
def State.jobOf (s : State) (c : Nat) : Option Job :=
  let k := s.coreAt c
  if k.run = .idle then none else s.jobAt k.part k.job

/-- Cores that are not retired and belong to a partition, ascending (R69). -/
def State.partCores (s : State) (p : Nat) : List Nat :=
  (List.range 144).filter fun c => s.partOf c = p && !s.dev.retired.contains c

/-- A draw of free values: the counter read, and the state with the counter advanced (log 3). -/
def State.draw (s : State) : Nat × State := (s.freeCount, { s with freeCount := s.freeCount + 1 })

end Sys2Proof.Machine
end

