-- ==== Sys2Proof/Machine/Directory.lean ====
section
/-! DEFINITION. Lines of plain memory: the directory, the copies of cores, and what the messages between cores and homes do
(08_coherence R144-R156). Every message is a record of the state, which its event lets arrive; an access performed whole
in one step lets whatever is under way about its line arrive first (log 6). -/

namespace Sys2Proof.Machine

/-! ## Homes and copies -/

/-- End of HBM: 512 GiB (R106). -/
def hbmEnd : Nat := 2 ^ 39

/-- The home cistern of a line number: the XOR of its eleven 3-bit groups (R106). -/
def home (l : Nat) : Nat := (List.range 11).foldl (fun h k => h ^^^ (l / 2 ^ (3 * k) % 8)) 0

def State.dirAt (s : State) (l : Nat) : DirEntry := findD s.dir l {}

def State.setDir (s : State) (l : Nat) (d : DirEntry) : State := { s with dir := put s.dir l d }

def State.setMode (s : State) (l : Nat) (m : DirMode) : State := s.setDir l { s.dirAt l with mode := m }

/-- Poison of the two 64-byte units of a line in HBM (R117, R202). -/
def State.hbmPoison (s : State) (l : Nat) : BitVec 2 :=
  setBit (setBit 0 0 (s.poison.contains (2 * l))) 1 (s.poison.contains (2 * l + 1))

/-- Replace bytes of a list from an offset; the list keeps its length. -/
def splice (l : List Byte) (off : Nat) (bs : List Byte) : List Byte :=
  (l.take off ++ bs ++ l.drop (off + bs.length)).take l.length

/-- The words that `n` bytes at line offset `off` touch. -/
def wordMask (off n : Nat) : BitVec 32 :=
  (List.range 32).foldl (fun m w => if off / 4 ≤ w && w * 4 < off + n then setBit m w true else m) 0

/-- A line's bytes with the words of replies that are on their way to its home. -/
def overlay (b : List Byte) (rs : List (Nat × Word)) : List Byte :=
  rs.foldl (fun b r => splice b (4 * (r.1 % 32)) (toLe 4 r.2.toNat)) b

/-- A core's copy of a line, where it owns it (R147). -/
def State.ownCopy (s : State) (c l : Nat) : Option Copy :=
  match find (s.coreAt c).copies l with
  | some k => if k.kind = .owned then some k else none
  | none => none

/-- The recorded owner that holds its line, with its copy. -/
def State.owner (s : State) (l : Nat) : Option (Nat × Copy) :=
  match (s.dirAt l).mode with
  | .owned d => (s.ownCopy d l).map fun k => (d, k)
  | _ => none

/-- The line's latest bytes and poison: the owner's where a core owns and holds it, else the home's, with the words that
an owner has merged and whose replies are on their way (R146, R151, R152). -/
def State.lineNow (s : State) (l : Nat) : List Byte × BitVec 2 :=
  match s.owner l with
  | some (_, k) => (k.data, k.poison)
  | none => (overlay (Mem.readN s.mem (128 * l) 128) (s.dirAt l).replies, s.hbmPoison l)

/-- Whether `n` bytes at `pa`, within one line, meet a poisoned unit. -/
def unitPoisoned (p : BitVec 2) (pa n : Nat) : Bool :=
  (p.getLsbD 0 && decide (pa % 128 < 64)) || (p.getLsbD 1 && decide (64 < pa % 128 + n))

/-- A read at the home, within one line (the `.wt` load column of R151): bytes, and whether poisoned. An agent
that must wait at the home has done so before it (`State.calm`). -/
def State.homeRead (s : State) (pa n : Nat) : List Byte × Bool :=
  let (b, p) := s.lineNow (pa / 128)
  ((b.drop (pa % 128)).take n, unitPoisoned p pa n)

/-- Bytes [pa, pa + 4n) read at the home word by word. -/
def State.homeWords (s : State) : Nat → Nat → List Byte × Bool
  | _, 0 => ([], false)
  | pa, n + 1 =>
    let (b, p) := s.homeRead pa 4
    let (bs, q) := s.homeWords (pa + 4) n
    (b ++ bs, p || q)

/-- Write into a copy; an owner marks the words dirty. -/
def Copy.write (k : Copy) (off : Nat) (bs : List Byte) : Copy :=
  { k with
    data := splice k.data off bs
    dirty := if k.kind = .owned then k.dirty ||| wordMask off bs.length else k.dirty }

def Core.dropCopy (k : Core) (l : Nat) : Core := { k with copies := del k.copies l }

/-- A core's tracked or untracked copy goes; a line that it owns stays. -/
def Core.dropShared (k : Core) (l : Nat) : Core :=
  { k with copies := k.copies.filter fun e => e.1 != l || e.2.kind == .owned }

/-- Give core `c` the line as a copy of a kind. -/
def State.install (s : State) (c l : Nat) (kind : CopyKind) : State :=
  let (b, p) := s.lineNow l
  s.onCore c fun k => { k with copies := put k.copies l { kind, data := b, poison := p } }

/-- Write a copy's dirty words, and its poison state, at the home (R153). -/
def State.mergeAtHome (s : State) (l : Nat) (k : Copy) : State :=
  let m := (setBits 32 k.dirty.toNat).foldl
    (fun m w => Mem.write m (128 * l + 4 * w) ((k.data.drop (4 * w)).take 4)) s.mem
  let p := s.poison.filter fun u => u / 2 != l
  { s with
    mem := m
    poison := p ++ (if k.poison.getLsbD 0 then [2 * l] else []) ++ (if k.poison.getLsbD 1 then [2 * l + 1] else []) }

/-- Where a byte of a spill page lies: its physical address, or, while its page is in the cellar, the byte of the partition's
cellar above every physical address (R50, R117). -/
def slotPlace (p off : Nat) : Nat := 2 ^ 48 * (p + 1) + off

/-- What refers to a page follows it from one place to another: the NOTIFY numbers and the units in use of its entries (R50),
and the completion words and semaphores of operations that still move bytes (R117, R200, log 27). -/
def Device.movePlaces (d : Device) (src dst : Nat) : Device :=
  let moved (a : Nat) : Nat := if src ≤ a && a < src + 65536 then dst + (a - src) else a
  let go (m : Store Nat) : Store Nat :=
    (m.filter fun e => src ≤ e.1 && e.1 < src + 65536).foldl (fun m e => put (del m e.1) (dst + (e.1 - src)) e.2)
      (m.filter fun e => !(dst ≤ e.1 && e.1 < dst + 65536))
  { d with
    notifySeq := go d.notifySeq, unitsOut := go d.unitsOut
    ops := mapVals d.ops fun _ o => { o with complPa := moved o.complPa, semPa := o.semPa.map moved } }

/-- A store by a program or the Vestibule to byte 0 of a capability entry clears its NOTIFY number (R50). -/
def State.noteStore (s : State) (pa n : Nat) : State :=
  s.onDev fun d => { d with notifySeq := d.notifySeq.filter fun e => !(pa ≤ e.1 && e.1 < pa + n) }

/-! ## Requests -/

/-- Bytes of an atomic's operand (R265). -/
def atomicBytes (w64 : Bool) : Nat := if w64 then 8 else 4

/-- The low `w` bytes of a register. -/
def lowOf (w : Nat) (v : DWord) : Nat := v.toNat % 2 ^ (8 * w)

/-- The new value of an atomic on `w` bytes (R265). -/
def aopVal (op : Aop) (w old arg : Nat) : Nat :=
  let n := 8 * w
  match op with
  | .add => (old + arg) % 2 ^ n
  | .and => old &&& arg
  | .or => old ||| arg
  | .xor => old ^^^ arg
  | .min => if signed n old ≤ signed n arg then old else arg
  | .max => if signed n old ≤ signed n arg then arg else old
  | .minn => min old arg
  | .maxn => max old arg
  | .swap => arg

/-- Line offset of a word, for an access of `n` bytes aligned to its size. -/
def wordOff (w n : Nat) : Nat := 4 * w / n * n % 128

/-- Bytes that a store's mask spans: one word, or two. -/
def maskBytes (m : Nat) : Nat := if m < 16 then 4 else 8

/-- Line offset and length that a request names; a load with a copy names the whole line. -/
def span : ReqKind → Nat × Nat
  | .ldWt w w64 => (wordOff w (atomicBytes w64), atomicBytes w64)
  | .stOwn w m _ | .stHome w m _ => (wordOff w (maskBytes m), maskBytes m)
  | .amo w _ w64 _ | .red w _ w64 _ | .cas w w64 _ _ => (wordOff w (atomicBytes w64), atomicBytes w64)
  | .ldSi | .ldWi | .ldOwn => (0, 128)

/-- The bytes of its span that a request writes where it writes: those of its mask (R146). -/
def covers : ReqKind → Nat → Bool
  | .stOwn _ m _, i | .stHome _ m _, i => m.testBit i
  | _, _ => true

/-- The words of a line that a request accesses. -/
def touches (k : ReqKind) : BitVec 32 := wordMask (span k).1 (span k).2

/-- Requests that write. -/
def writes : ReqKind → Bool
  | .ldSi | .ldWi | .ldOwn | .ldWt _ _ => false
  | _ => true

/-- Writes that obtain ownership (R145, R151). -/
def obtains : ReqKind → Bool
  | .stOwn _ _ _ | .amo _ _ _ _ | .cas _ _ _ _ => true
  | _ => false

/-- The words that a request reads or writes at the home itself: all of a line that it fetches (R150). -/
def homeNeeds (k : ReqKind) : BitVec 32 :=
  if obtains k then BitVec.allOnes 32 else touches k

/-- The bytes that a request puts in place of those at its offset of a line; none where it writes nothing. -/
def newBytes (k : ReqKind) (line : List Byte) : Option (List Byte) :=
  let (off, n) := span k
  let old := (line.drop off).take n
  match k with
  | .stOwn _ m d | .stHome _ m d =>
    some (((old.zip (toLe n d.toNat)).zipIdx).map fun b => if m.testBit b.2 then b.1.2 else b.1.1)
  | .amo _ op _ arg | .red _ op _ arg => some (toLe n (aopVal op n (leNat old) (lowOf n arg)))
  | .cas _ _ cmp arg => if leNat old = lowOf n cmp then some (toLe n arg.toNat) else none
  | _ => none

/-- Words whose forwarded update awaits its reply (R148, R152). -/
def DirEntry.fwd (d : DirEntry) : BitVec 32 :=
  (d.updates.map fun u => wordMask (span u.2.kind).1 (span u.2.kind).2).foldl (· ||| ·) 0 |||
    (d.replies.map fun x => wordMask (4 * (x.1 % 32)) 4).foldl (· ||| ·) 0

/-- Acknowledgements still awaited (R148). -/
def DirEntry.pend (d : DirEntry) : Nat := d.awaits.length

/-! ## Pending writes (R156) -/

/-- The counter of a cistern for a partition. -/
def State.pendCount (s : State) (cistern p : Nat) : Nat :=
  (s.pending.filter fun x => home x.req.line == cistern && x.req.part == p).length

/-- A bank whose counter is full accepts no write. -/
def State.bankFull (s : State) (r : HomeReq) : Bool := writes r.kind && decide (65535 ≤ s.pendCount (home r.line) r.part)

/-- A write is accepted. -/
def State.accepted (s : State) (r : HomeReq) : State :=
  if writes r.kind then { s with pending := s.pending ++ [⟨s.nextWrite, r⟩], nextWrite := s.nextWrite + 1 } else s

/-- An accepted write is performed. -/
def State.performed (s : State) (r : HomeReq) : State :=
  if writes r.kind then { s with pending := s.pending.eraseP fun x => x.req == r } else s

/-! ## The directory (R149, R151) -/

/-- The target set of an invalidation round for a request from `req` (R149). -/
def State.targets (s : State) (m : DirMode) (req : Option Nat) : List Nat :=
  match m with
  | .ptr cs => cs.filter fun c => some c != req
  | .coarse w => (List.range 144).filter fun c =>
      w.getLsbD (c / 12) && some c != req && !s.dev.retired.contains c
  | _ => []

/-- The mode that a round leaves for a store performed at the home (R151). -/
def afterRound (m : DirMode) (req : Option Nat) : DirMode :=
  match req, m with
  | some c, .ptr cs => if cs.contains c then .ptr [c] else .none
  | some c, .coarse w => if w.getLsbD (c / 12) then .coarse (BitVec.twoPow 12 (c / 12)) else .none
  | _, _ => .none

/-- Record a tracked sharer (R149). -/
def track (m : DirMode) (c : Nat) : DirMode :=
  match m with
  | .ptr cs =>
    if cs.contains c then .ptr cs
    else if cs.length < 4 then .ptr (cs ++ [c])
    else .coarse ((cs ++ [c]).foldl (fun w x => setBit w (x / 12) true) 0)
  | .coarse w => .coarse (setBit w (c / 12) true)
  | _ => .ptr [c]

/-- The replies on their way that carry some words of a line reach the home, which writes the words and clears their FWD bits
(R152, R153). -/
def State.landWords (s : State) (l : Nat) (m : BitVec 32) : State :=
  let d := s.dirAt l
  let now := d.replies.filter fun x => m.getLsbD (x.1 % 32)
  if now.isEmpty then s
  else { s with mem := now.foldl (fun (m : Mem) (x : Nat × Word) =>
      Mem.write m (128 * l + 4 * (x.1 % 32)) (toLe 4 x.2.toNat)) s.mem }.setDir l
        { d with replies := d.replies.filter fun x => !m.getLsbD (x.1 % 32) }

/-- All of them reach the home. -/
def State.landReplies (s : State) (l : Nat) : State := s.landWords l (BitVec.allOnes 32)

/-- The owner gives the line up: its replies and its dirty words are written at the home. A copy that it keeps is tracked, as
is one that it has kept since it answered; an owner that has none is recorded as no sharer (R151, R153). -/
def State.disown (s : State) (l d : Nat) (keep : Bool) : State :=
  let s := s.landReplies l
  match s.ownCopy d l with
  | some k =>
    let s := (s.mergeAtHome l k).onCore d fun x =>
      { x with copies := if keep then put x.copies l { k with kind := .tracked, dirty := 0 } else del x.copies l }
    s.setMode l (if keep then .ptr [d] else .none)
  | none =>
    let kept := (find (s.coreAt d).copies l).map Copy.kind == some .tracked
    s.setMode l (if keep && kept then .ptr [d] else .none)

/-- Downgrade the owner of a line, which keeps a tracked copy (R151). -/
def State.downgrade (s : State) (l d : Nat) : State := s.disown l d true

/-- Recall a line from its owner, which drops it (R151). -/
def State.recall (s : State) (l d : Nat) : State := s.disown l d false

/-- Recall a line from whichever core the home records as its owner. -/
def State.recallOwner (s : State) (l : Nat) : State :=
  match (s.dirAt l).mode with
  | .owned d => s.recall l d
  | _ => s

/-- Downgrade whichever core the home records as a line's owner. -/
def State.downgradeOwner (s : State) (l : Nat) : State :=
  match (s.dirAt l).mode with
  | .owned d => s.downgrade l d
  | _ => s

/-! ## Performing a write -/

/-- The requester's own tracked or untracked copy follows its write (R147). -/
def State.follow (s : State) (r : HomeReq) (bs : List Byte) : State :=
  match r.core with
  | none => s
  | some c => s.onCore c fun x => { x with
      copies := mapVals x.copies fun a k => if a = r.line && k.kind != CopyKind.owned then k.write (span r.kind).1 bs else k }

/-- A store by a program clears the NOTIFY numbers of the entries whose byte 0 it writes (R50). -/
def State.noteRequest (s : State) (r : HomeReq) (n : Nat) : State :=
  let pa := 128 * r.line + (span r.kind).1
  if r.core.isSome then s.onDev fun d => { d with
    notifySeq := d.notifySeq.filter fun e => !(pa ≤ e.1 && e.1 < pa + n && covers r.kind (e.1 - pa)) } else s

/-- A write's bytes reach the copy of the owner `d`. -/
def State.writeCopy (s : State) (d l off : Nat) (k : Copy) (bs : List Byte) : State :=
  s.onCore d fun x => { x with copies := put x.copies l (k.write off bs) }

/-- Perform a write where the line's bytes are: in the copy of the owner, or at the home, behind earlier replies that carry its
own words; those of other words stay on their way (R150). The requester's own tracked or untracked copy follows (R147, R151,
R152). -/
def State.perform (s : State) (r : HomeReq) : State :=
  let l := r.line
  let off := (span r.kind).1
  let done : State := match s.owner l with
    | some (d, k) =>
      match newBytes r.kind k.data with
      | none => s
      | some bs => (s.writeCopy d l off k bs).noteRequest r bs.length
    | none =>
      let s := s.landWords l (touches r.kind)
      match newBytes r.kind (Mem.readN s.mem (128 * l) 128) with
      | none => s
      | some bs => (State.follow { s with mem := Mem.write s.mem (128 * l + off) bs } r bs).noteRequest r bs.length
  done.performed r

/-- Send the line, or ownership, to a core, whose request is performed when it arrives; an acknowledgement that the home
sent the core earlier has then arrived (R150, R153). -/
def State.grant (s : State) (c : Nat) (r : HomeReq) : State :=
  (s.onCore c fun k => { k with granted := k.granted ++ [r], evicting := del k.evicting r.line }).post (.lineData c r.line)

/-- The kind of copy that a granted request brings. -/
def copyKindOf (k : ReqKind) : CopyKind :=
  match k with
  | .ldWi | .ldOwn => .tracked
  | _ => .untracked

/-- A line that is on its way reaches core `c`, which installs the copy and performs the waiting access (R151). -/
def State.deliver (s : State) (c l : Nat) : State :=
  match (s.coreAt c).granted.find? fun r => r.line == l with
  | none => s
  | some r =>
    let s := s.onCore c fun k => { k with granted := k.granted.erase r }
    let s :=
      if (s.ownCopy c l).isSome then s
      else if (s.dirAt l).mode = .owned c then (s.landReplies l).install c l .owned
      else s.install c l (copyKindOf r.kind)
    if writes r.kind then s.perform r else s

/-- Every line on its way to core `c` about line `l` arrives. -/
def State.deliverTo (s : State) (l c : Nat) : State :=
  ((s.coreAt c).granted.filter fun r => r.line == l).foldl (fun s _ => s.deliver c l) s

/-- An invalidation reaches a core: it drops a tracked or untracked copy, behind any line that the home sent earlier
(R149, R150). -/
def State.dropAt (s : State) (l c : Nat) : State := (s.deliverTo l c).onCore c fun k => k.dropShared l

/-- An invalidation round, whole. -/
def State.invalidate (s : State) (l : Nat) (req : Option Nat) : State :=
  (s.targets (s.dirAt l).mode req).foldl (fun s c => s.dropAt l c) s

/-! ## The home (R150-R152) -/

/-- Finish the request for which an entry was BUSY, its last acknowledgement or answer having come. -/
def State.finishBusy (s : State) (l : Nat) : State :=
  match (s.dirAt l).busy with
  | none => s
  | some r =>
    let s := s.recallOwner l
    let m := (s.dirAt l).mode
    let s := s.setDir l { s.dirAt l with busy := none, awaits := [] }
    match r.core with
    | some c =>
      if obtains r.kind then (s.setMode l (.owned c)).grant c r
      else if writes r.kind then (s.setMode l (afterRound m (some c))).perform r
      else (s.setMode l (track m c)).grant c r
    | none => if writes r.kind then (s.setMode l (afterRound m none)).perform r else s

/-- Begin an invalidation round, which ends at once when it has no target. -/
def State.beginRound (s : State) (r : HomeReq) : State :=
  let l := r.line
  let d := s.dirAt l
  let ts := s.targets d.mode r.core
  let s := s.setDir l { d with busy := some r, awaits := ts }
  if ts.isEmpty then s.finishBusy l else ts.foldl (fun s c => s.post (.invalidation c l)) s

/-- Send a request to the owner and mark the entry BUSY. -/
def State.beginForward (s : State) (r : HomeReq) (d : Nat) (k : FwdKind) : State :=
  (s.setDir r.line { s.dirAt r.line with busy := some r, awaits := [] }).post (.forwardedRequest d r.line k)

/-- Serve a request of a core, or of an agent that is no core, by the column of R151 for a line that no core owns. -/
def State.serveAtHome (s : State) (r : HomeReq) : State :=
  let l := r.line
  let m := (s.dirAt l).mode
  match r.core, r.kind with
  | some c, .ldSi => s.grant c r
  | some c, .ldWi => (s.setMode l (track m c)).grant c r
  | some c, .ldOwn => (s.setMode l (if m = .none then .owned c else track m c)).grant c r
  | _, k =>
    if !writes k then s
    else if m ≠ .none then s.beginRound r
    else match r.core with
      | some c => if obtains k then (s.setMode l (.owned c)).grant c r else s.perform r
      | none => s.perform r

/-- Serve a request at its home by the table of R151; the home is not BUSY. A request of the owner goes behind those whose
line is on its way to it (R150). -/
def State.serve (s : State) (r : HomeReq) : State :=
  let l := r.line
  let d := s.dirAt l
  match d.mode with
  | .owned o =>
    if r.core = some o then
      if (s.ownCopy o l).isNone || (s.coreAt o).granted.any (fun x => x.line == l) then s.grant o r else if writes r.kind then s.perform r else s
    else if !writes r.kind then
      if copyKindOf r.kind = .tracked && r.core.isSome then s.beginForward r o .downgrade
      else (s.setDir l { d with reads := d.reads ++ [(o, r)] }).post (.forwardedRequest o l .read)
    else if obtains r.kind && r.core.isSome then s.beginForward r o .recall
    else (s.setDir l { d with updates := d.updates ++ [(o, r)] }).post (.forwardedRequest o l (.update ((span r.kind).1 / 4)))
  | _ => s.serveAtHome r

/-- Whether an access must wait at the home: BUSY, a FWD bit of a word that the home itself would read or write, or an
earlier request for the same word that still waits, behind which it goes in arrival order (R150). -/
def State.mustWait (s : State) (r : HomeReq) : Bool :=
  let d := s.dirAt r.line
  d.busy.isSome || d.waiting.any (fun x => touches x.kind &&& touches r.kind != 0) || (match d.mode with
    | .owned _ => false
    | _ => d.fwd &&& homeNeeds r.kind != 0)

/-- Serve a request, or keep it in arrival order. -/
def State.offer (s : State) (r : HomeReq) : State :=
  if s.mustWait r then s.setDir r.line { s.dirAt r.line with waiting := (s.dirAt r.line).waiting ++ [r] }
  else s.serve r

/-- The requests waiting at a home, in arrival order, each served if it now may be. -/
def State.drainHome (s : State) (l : Nat) : State :=
  let d := s.dirAt l
  d.waiting.foldl State.offer (s.setDir l { d with waiting := [] })

/-! ## Updates and reads at an owner (R152, R153) -/

/-- The bytes that an update meets: those of the owner's copy, or of the evict-pending buffer of the core that it was sent
to. -/
def State.updateBytes (s : State) (d l : Nat) : List Byte :=
  match s.owner l with
  | some (_, k) => k.data
  | none => ((find (s.coreAt d).evicting l).map Copy.data).getD (s.lineNow l).1

/-- An update's bytes reach them. -/
def State.putUpdate (s : State) (d l off : Nat) (bs : List Byte) : State :=
  match s.owner l with
  | some (o, k) => s.writeCopy o l off k bs
  | none => s.onCore d fun k => { k with evicting := mapVals k.evicting fun a x => if a = l then x.write off bs else x }

/-- The words of an update return as replies from the core that merged it. -/
def State.replyWords (s : State) (d l off : Nat) (bs : List Byte) : State :=
  let words := (wordsOf bs).zipIdx.map fun w => (off / 4 + w.2, w.1)
  words.foldl (fun s w => s.post (.forwardReply d l (.update w.1)))
    (s.setDir l { s.dirAt l with replies := (s.dirAt l).replies ++ words })

/-- An update that waits for a core, merged: into the line's copy where a core owns and holds it, else into the
evict-pending buffer of the core that it was sent to; its words return as replies. -/
def State.mergeUpdate (s : State) (u : Nat × HomeReq) : State :=
  let r := u.2
  let l := r.line
  let off := (span r.kind).1
  let s := s.setDir l { s.dirAt l with updates := (s.dirAt l).updates.erase u }
  let at' := ((s.owner l).map Prod.fst).getD u.1
  let done : State := match newBytes r.kind (s.updateBytes u.1 l) with
    | none => s
    | some bs => ((((s.putUpdate u.1 l off bs).noteRequest r bs.length).follow r bs).replyWords at' l off bs)
  done.performed r

/-- Every update of a line is merged, in the order the home sent them. -/
def State.landUpdates (s : State) (l : Nat) : State := (s.dirAt l).updates.foldl State.mergeUpdate s

/-- The answer to the oldest forwarded read: the home passes it on. -/
def State.landRead (s : State) (l : Nat) : State :=
  let d := s.dirAt l
  match d.reads with
  | [] => s
  | (_, r) :: rs =>
    let s := s.setDir l { d with reads := rs }
    match r.core, r.kind with
    | some c, .ldSi => s.grant c r
    | _, _ => s

/-- The request for which a home is BUSY runs to its end: every target that has not acknowledged drops its copy, or the
owner answers. -/
def State.landBusy (s : State) (l : Nat) : State :=
  let d := s.dirAt l
  match d.busy with
  | none => s
  | some r =>
    let s := if !d.awaits.isEmpty then d.awaits.foldl (fun s c => s.dropAt l c) s
      else match d.mode with
        | .owned o => if writes r.kind then s.recall l o else s.downgrade l o
        | _ => s
    s.finishBusy l

/-! ## Everything under way about a line -/

/-- Every line on its way to any core arrives. -/
def State.landGrants (s : State) (l : Nat) : State := (s.cores.map Prod.fst).foldl (fun s c => s.deliverTo l c) s

/-- Whatever is under way about a line arrives, in the order in which it was sent, but for the requests that wait at the
home. -/
def State.land (s : State) (l : Nat) : State :=
  let s := ((s.landGrants l).landUpdates l).landReplies l
  let s := (s.dirAt l).reads.foldl (fun s _ => s.landRead l) s
  let s := ((s.landGrants l).landBusy l).landGrants l
  { s with cores := mapVals s.cores fun _ k => { k with evicting := del k.evicting l } }

/-- Whether nothing is under way about a line. -/
def State.quiet (s : State) (l : Nat) : Bool :=
  let d := s.dirAt l
  d.busy.isNone && d.awaits.isEmpty && d.waiting.isEmpty && d.reads.isEmpty && d.updates.isEmpty && d.replies.isEmpty &&
    s.cores.all fun k => (k.2.granted.all fun r => r.line != l) && (find k.2.evicting l).isNone

/-- Whatever is under way about a line arrives, and the requests that wait at its home are served in arrival order. -/
def State.settle (s : State) (l : Nat) : State :=
  if s.quiet l then s
  else
    let s := s.land l
    let d := s.dirAt l
    d.waiting.foldl (fun s r => (s.serve r).land l) (s.setDir l { d with waiting := [] })

/-- Whether some access to a line waits at its home: the entry is BUSY, or a FWD bit is set (R150). -/
def DirEntry.held (d : DirEntry) : Bool := d.busy.isSome || d.fwd != 0

/-- The reads of an agent that is no core wait at a home for BUSY to clear, and for the FWD bits of their words (R150, R151):
what holds a line comes to its end before the agent reads (log 6). -/
def State.calm (s : State) : State := (s.dir.filter fun e => e.2.held).foldl (fun s e => s.settle e.1) s

/-! ## Stores that a core has not yet sent (R155, R156, R160) -/

/-- Room for a write in the counters of bank `b`: where a partition's is full, its oldest write there is performed first, so
that the count falls (R156). -/
def State.makeRoomAt (s : State) (b : Nat) : State :=
  ((s.pending.map fun x => x.req.part).eraseDups).foldl (fun s p =>
    if s.pendCount b p < 65535 then s
    else match s.pending.find? fun x => home x.req.line == b && x.req.part == p with
      | none => s
      | some x => s.settle x.req.line) s

/-- Room for a write to line `l`. -/
def State.makeRoom (s : State) (l : Nat) : State := s.makeRoomAt (home l)

/-- A buffered store reaches its home. -/
def State.sendStore (s : State) (c : Nat) (x : Buffered) : State :=
  (((s.makeRoom x.req.line).onCore c fun k => { k with stores := k.stores.erase x }).accepted x.req).offer x.req

/-- The buffered stores of a core to a line, up to the last one of a chosen stream: they leave in the order in which they
retired. -/
def Core.storesTo (k : Core) (l : Nat) (sel : Stream → Bool) : List Buffered :=
  ((k.stores.filter fun x => x.req.line == l).reverse.dropWhile fun x => !sel x.stream).reverse

/-- Core `c` sends its buffered stores to a line up to the last one of a chosen stream. -/
def State.sendStores (s : State) (c l : Nat) (sel : Stream → Bool) : State :=
  ((s.coreAt c).storesTo l sel).foldl (fun s x => s.sendStore c x) s

/-- A core's buffered stores of chosen streams to a line, and whatever is under way about the line, come to their end. -/
def State.flush (s : State) (c l : Nat) (sel : Stream → Bool) : State := (s.sendStores c l sel).settle l

/-- Every store of a core is performed: its buffered stores, and what is under way about the lines of its accepted ones. -/
def State.performOwn (s : State) (c : Nat) : State :=
  let ls := (s.coreAt c).stores.map (fun x => x.req.line) ++
    (s.pending.filter fun x => x.req.core == some c).map fun x => x.req.line
  ls.eraseDups.foldl (fun s l => s.flush c l fun _ => true) s

/-- The streams whose stores a stream's own accesses find performed: its own (R160), and W, whose stores are visible at
`.core` when they retire (R79). -/
def seenBy (st x : Stream) : Bool := x == st || x == .W

/-- Whether a store of core `c` to a line is still to be performed. -/
def State.writing (s : State) (c l : Nat) : Bool :=
  ((s.coreAt c).stores.any fun x => x.req.line == l) || s.pending.any fun x => x.req.core == some c && x.req.line == l

/-- A store retires into its core's buffer, and is on its way. -/
def State.buffer (s : State) (c : Nat) (st : Stream) (line : Nat) (kind : ReqKind) : State :=
  let n := s.nextWrite
  let r : HomeReq := { core := some c, part := (s.coreAt c).part, line, kind, no := n }
  let s := s.onCore c fun k => { k with stores := k.stores ++ [⟨n, st, r⟩] }
  { s with nextWrite := n + 1 }.post (.homeRequest r)

/-! ## Accesses of a core -/

/-- Ownership of a line for core `c`, once nothing is under way about it (the `.own` store, `amo` and `cas` row of
R151). -/
def State.acquire (s : State) (c l : Nat) : State :=
  if (s.ownCopy c l).isSome && (s.dirAt l).mode == .owned c then s
  else
    let s := (s.recallOwner l).invalidate l (some c)
    (s.landReplies l).install c l .owned |>.setMode l (.owned c)

/-- Whether a load under a policy finds what it reads in the core's own cache region (R144, R147). -/
def State.hits (s : State) (c : Nat) (pol : Pol) (l : Nat) : Bool :=
  match pol, (find (s.coreAt c).copies l).map Copy.kind with
  | _, none => false
  | .wt, some k => k == .owned
  | .wi, some k => k != .untracked
  | _, some _ => true

/-- The copy that a load which misses brings, once nothing is under way about its line (R151); a `.wt` load brings
none. -/
def State.fetchCopy (s : State) (c : Nat) (pol : Pol) (l : Nat) : State :=
  match pol with
  | .wt => s
  | .si => s.install c l .untracked
  | _ =>
    let s := s.downgradeOwner l
    if pol = .own && (s.dirAt l).mode == .none then ((s.landReplies l).install c l .owned).setMode l (.owned c)
    else (s.install c l .tracked).setMode l (track (s.dirAt l).mode c)

/-- An `.own` load reads an untracked copy that it finds (R147), and R164 and R166 except `.si` loads alone from coherence: the
copy is brought up to date where it stands (DEDUCED, log 6). -/
def State.refresh (s : State) (c : Nat) (pol : Pol) (l : Nat) : State :=
  let loose (s : State) : Bool := (find (s.coreAt c).copies l).map Copy.kind == some .untracked
  if pol = .own && loose s then
    let s := s.flush c l fun _ => true
    if loose s then s.install c l .untracked else s
  else s

/-- A load of `n` bytes by a stream of core `c` within one line under a policy (R144, R147, R151). It finds performed what
its stream sees at home, and every store of its core where it reads a copy of its core (R147). -/
def State.coreLoad (s : State) (c : Nat) (st : Stream) (pol : Pol) (pa n : Nat) : State × List Byte × Bool :=
  let l := pa / 128
  let s := s.refresh c pol l
  let s := if s.hits c pol l then (if s.writing c l then s.flush c l fun _ => true else s) else s.flush c l (seenBy st)
  let s := if s.hits c pol l then s else s.fetchCopy c pol l
  match if s.hits c pol l then find (s.coreAt c).copies l else none with
  | some k => (s, (k.data.drop (pa % 128)).take n, unitPoisoned k.poison pa n)
  | none => (s, s.homeRead pa n)

/-- The mask and the data that a store of bytes at `pa` carries (R146). -/
def storeKind (pol : Pol) (pa : Nat) (bs : List Byte) : ReqKind :=
  let sh := if bs.length = 8 then 0 else pa % 4
  let m := (2 ^ bs.length - 1) * 2 ^ sh
  let d := dw (leNat bs * 2 ^ (8 * sh))
  if pol = .own then .stOwn (pa % 128 / 4) m d else .stHome (pa % 128 / 4) m d

/-- A write by core `c` into the copy that it owns. -/
def State.writeOwn (s : State) (c pa : Nat) (bs : List Byte) : State :=
  (s.onCore c fun k => { k with
    copies := mapVals k.copies fun a x => if a = pa / 128 then x.write (pa % 128) bs else x }).noteStore pa bs.length

/-- Whether a store or `red` of core `c` to a line goes at once into its own copy: the core owns the line, and none of its
earlier stores to it is still to be performed (R147, R164). -/
def State.ownsNow (s : State) (c l : Nat) : Bool := (s.ownCopy c l).isSome && !s.writing c l

/-- Before a store or `red` of the core that owns a line, which its copy serves: the stores that the core sent before it owned
the line come to their end (R147, R164). -/
def State.ownFirst (s : State) (c l : Nat) : State :=
  if (s.ownCopy c l).isSome && s.writing c l then s.flush c l fun _ => true else s

/-- A store of bytes by a stream of core `c` within one line under a policy (R144, R147, R151): into the copy that the core
owns, or on its way to the home behind the core's earlier stores to the line. -/
def State.coreStore (s : State) (c : Nat) (st : Stream) (pol : Pol) (pa : Nat) (bs : List Byte) : State :=
  let l := pa / 128
  let s := s.ownFirst c l
  if s.ownsNow c l then s.writeOwn c pa bs
  else s.buffer c st l (storeKind pol pa bs)

/-- Discard every untracked copy of a core: an acquire at `.wing` or wider (R147). -/
def State.dropUntracked (s : State) (c : Nat) : State :=
  s.onCore c fun k => { k with copies := k.copies.filter fun e => e.2.kind != .untracked }

/-- Evict one line of a core, whole: write-back, notice or drop (R153, R154). -/
def State.evict (s : State) (c l : Nat) : State :=
  let s := (s.flush c l fun _ => true).makeRoom l
  match find (s.coreAt c).copies l with
  | none => s
  | some k =>
    match k.kind with
    | .owned => s.recall l c
    | .tracked =>
      let s := s.onCore c fun x => x.dropCopy l
      match (s.dirAt l).mode with
      | .ptr cs => s.setMode l (if cs.filter (· != c) = [] then .none else .ptr (cs.filter (· != c)))
      | _ => s
    | .untracked => s.onCore c fun x => x.dropCopy l

/-- The lines that a core holds, or has messages under way about. -/
def Core.lines (k : Core) : List Nat :=
  (k.copies.map Prod.fst ++ k.stores.map (fun x => x.req.line) ++ k.granted.map HomeReq.line).eraseDups

/-- Those lines, and the lines of the core's accepted writes that are still to be performed (R156). -/
def State.linesOf (s : State) (c : Nat) : List Nat :=
  ((s.coreAt c).lines ++ (s.pending.filter fun x => x.req.core == some c).map fun x => x.req.line).eraseDups

/-- Write back and discard a core's whole cache region, once its buffered and its accepted stores are performed (R102, R154,
R197). -/
def State.evictAll (s : State) (c : Nat) : State := (s.linesOf c).foldl (fun s l => s.evict c l) s

/-! ## Accesses of the agents that are no core (R151) -/

/-- A write within one line about which nothing is under way: at the home after an invalidation round, or into the owner's
copy (R151, R152). -/
def State.writeLine (s : State) (req : Option Nat) (pa : Nat) (bs : List Byte) : State :=
  let l := pa / 128
  let s := match s.owner l with
    | some (d, k) => s.onCore d fun x => { x with copies := put x.copies l (k.write (pa % 128) bs) }
    | none => (s.invalidate l req).setMode l (afterRound (s.dirAt l).mode req)
  { s with mem := Mem.write s.mem pa (bs.take (128 - pa % 128)) }

/-- Such a write, whole, once whatever is under way about the line has arrived. -/
def State.homeStore (s : State) (req : Option Nat) (pa : Nat) (bs : List Byte) : State :=
  ((s.makeRoom (pa / 128)).settle (pa / 128)).writeLine req pa bs

/-- A `red` of such an agent (R200). -/
def State.redAt (s : State) (pa w : Nat) (f : Nat → Nat) : State :=
  let s := (s.makeRoom (pa / 128)).settle (pa / 128)
  s.writeLine none pa (toLe w (f (leNat (s.homeRead pa w).1)))

/-! ## Whole ranges, for the engines that move blocks -/

/-- The part of line `l` that lies in [pa, pa + len): its first address and the one past its end. -/
def clip (pa len l : Nat) : Nat × Nat := (max pa (128 * l), min (pa + len) (128 * l + 128))

/-- The recorded lines that [pa, pa + len) touches. -/
def State.linesIn (s : State) (pa len : Nat) : List Nat :=
  (s.dir.map Prod.fst).filter fun l => decide ((clip pa len l).1 < (clip pa len l).2)

/-- Bytes [pa, pa + len) as reads at the homes find them, keyed from 0. -/
def State.bulkRead (s : State) (pa len : Nat) : Mem :=
  let base := (s.mem.filter fun c => pa ≤ c.1 && c.1 < pa + len).map fun c => (c.1 - pa, c.2)
  (s.linesIn pa len).foldl (fun m l =>
    let (lo, hi) := clip pa len l
    if (s.owner l).isSome || !(s.dirAt l).replies.isEmpty then
      Mem.write m (lo - pa) (((s.lineNow l).1.drop (lo - 128 * l)).take (hi - lo))
    else m) base

/-- The poisoned 64-byte units of HBM as their owners or homes hold them. -/
def State.poisonNow (s : State) : List Nat :=
  (s.poison.filter fun u => (s.owner (u / 2)).isNone) ++
    s.dir.flatMap fun e => if (s.owner e.1).isSome then (setBits 2 (s.lineNow e.1).2.toNat).map fun h => 2 * e.1 + h else []

/-- Poison of a line's two units after a write of [pa, pa + len) that leaves the units `bad` poisoned: a unit written whole is
clean else (log 15). -/
def poisonAfter (pa len : Nat) (bad : List Nat) (l : Nat) (p : BitVec 2) : BitVec 2 :=
  [0, 1].foldl (fun p h =>
    let u := 2 * l + h
    if bad.contains u then setBit p h true
    else if pa ≤ 64 * u && 64 * u + 64 ≤ pa + len then setBit p h false else p) p

/-- The banks that [pa, pa + len) touches: sixteen lines in a row meet every one (R106). -/
def banksIn (pa len : Nat) : List Nat :=
  if len = 0 then []
  else ((List.range (min 16 ((pa + len - 1) / 128 - pa / 128 + 1))).map fun i => home (pa / 128 + i)).eraseDups

/-- Write bytes given as cells keyed from 0 over [pa, pa + len), with `.wt` at the homes (R151), and the poison of the units
`bad` with them: lines with copies go through their homes, the others straight to HBM. Every bank has room for them (R156), and
a program's stores clear the NOTIFY numbers of the entries whose byte 0 they write (R50). -/
def State.bulkWrite (s : State) (req : Option Nat) (pa len : Nat) (src : Mem) (bad : List Nat) : State :=
  let s := (banksIn pa len).foldl State.makeRoomAt s
  let s := (s.linesIn pa len).foldl State.settle s
  let s := if req.isSome then s.noteStore pa len else s
  let s := ((s.linesIn pa len).filter fun l => (s.dirAt l).mode != .none).foldl (fun s l =>
    let (lo, hi) := clip pa len l
    let s := s.writeLine req lo (Mem.readN src (lo - pa) (hi - lo))
    match s.owner l with
    | some (d, k) => s.onCore d fun x => { x with copies := put x.copies l { k with poison := poisonAfter pa len bad l k.poison } }
    | none => s) s
  { s with
    mem := blit s.mem pa len src
    poison := ((s.poison.filter fun u => !(pa ≤ 64 * u && 64 * u + 64 ≤ pa + len)) ++ bad).eraseDups }

end Sys2Proof.Machine
end

