-- ==== Sys2Proof/Machine/Memory.lean ====
section
/-! DEFINITION. Why an instruction stops, address translation (06_basin R109-R114), plain accesses by virtual address
(08_coherence R146), and basin accesses (R101). -/

namespace Sys2Proof.Machine

/-- Why an instruction does not retire in this step: a precise trap with its value and, where the cause fills
it itself, the operand record; a wait with its code of R98; a release whose writes are still to be performed (R163); a page that
the walk found in the cellar; poison in a range of the basin that it reads; what an issued word acts on is not ready (R298). -/
inductive Stop where
  | trap (code : Nat) (val : DWord) (ops : Option (List DWord))
  | wait (code : Nat)
  | drain (d : Drain)
  | fetch (part entryPa va : Nat)
  | poison (off n : Nat)
  | busy
  deriving DecidableEq, Repr

/-- A result, or the reason to stop. -/
abbrev Res (α : Type) := Except Stop α

/-- A precise trap whose operand record is the instruction's own (R191). -/
def trap {α : Type} (code : Nat) (val : DWord) : Res α := .error (.trap code val none)

/-- A wait of the kind that TOKWD does not count (R98). -/
def waitMem {α : Type} : Res α := .error (.wait 0)

/-- A check that traps when it fails. -/
def check (ok : Bool) (code : Nat) (val : DWord) : Res Unit := if ok then .ok () else trap code val

/-! ## Cause codes (R190) -/

def cIllegal : Nat := 0x01
def cFetch : Nat := 0x02
def cPriv : Nat := 0x03
def cCsr : Nat := 0x04
def cAlign : Nat := 0x05
def cBasin : Nat := 0x06
def cXlate : Nat := 0x07
def cAccess : Nat := 0x08
def cCap : Nat := 0x09
def cFormat : Nat := 0x0A
def cDomain : Nat := 0x0B
def cNoEvents : Nat := 0x0C
def cToken : Nat := 0x0D
def cNoSem : Nat := 0x0E
def cTensor : Nat := 0x10
def cName : Nat := 0x11
def cState : Nat := 0x12
def cOwner : Nat := 0x13
def cFloor : Nat := 0x14
def cKind : Nat := 0x15
def cConflict : Nat := 0x16
def cShape : Nat := 0x17
def cStaging : Nat := 0x18
def cPoolEmpty : Nat := 0x19
def cPoolInvalid : Nat := 0x20
def cPoolLimit : Nat := 0x21
def cSoft : Nat := 0x30
def cPoison : Nat := 0x40
def cSdcMatrix : Nat := 0x41
def cSdcConf : Nat := 0x42

/-! ## Translation -/

/-- What an access needs of a page (R112). -/
structure Need where
  rd : Bool
  wr : Bool
  deriving DecidableEq, Repr

def needRd : Need := ⟨true, false⟩
def needWr : Need := ⟨false, true⟩
def needBoth : Need := ⟨true, true⟩

/-- Outcome of a walk (R112, R116); one that meets a page in the cellar says whether the page allows the access. -/
inductive Walk where
  | ok (x : Xlat) (frame : Option Nat)
  | fault (code : Nat)
  | cel (entryPa slot : Nat) (allowed : Bool)
  deriving DecidableEq, Repr

/-- Bits [63:57] all equal bit 56 (R109). -/
def canonicalVa (va : Nat) : Bool := va / 2 ^ 56 % 2 ^ 8 == 0 || va / 2 ^ 56 % 2 ^ 8 == 0xFF

/-- Levels of the page tables: number, lowest index bit, index bits, alignment of the next table, and leaf
page size (R110). -/
def tableLevels : List (Nat × Nat × Nat × Nat × Nat) :=
  [(1, 39, 18, 4096, 0), (2, 30, 9, 4096, 2 ^ 30), (3, 21, 9, 256, 2 ^ 21), (4, 16, 5, 1, 2 ^ 16)]

/-- The leaf of a walk: spill frame, range and permissions (R112, R116). -/
def State.walkLeaf (s : State) (p : Nat) (sup : Bool) (va lvl size e entryPa : Nat) (nd : Need) : Walk :=
  let q := s.partAt p
  let addr := fld e 8 40
  let barred := (nd.rd && !bit e 2) || (nd.wr && !bit e 3) || (bit e 4 && !sup)
  let perm (a : Nat) (fr : Option Nat) : Walk :=
    if barred then .fault cAccess
    else .ok ⟨va / size * size, size, a, bit e 2, bit e 3, bit e 4⟩ fr
  if bit e 5 then
    if lvl != 4 || !q.clkEn then .fault cXlate
    else if bit e 6 then
      if addr < q.cellarGiB * 16384 then .cel entryPa addr (!barred) else .fault cXlate
    else
      let framePa (f : Nat) : Nat := fld q.clkpool.toNat 16 28 * 65536 + 65536 * f
      match q.frames.find? fun f => f.2.entryPa == entryPa && framePa f.1 == addr * 256 with
      | some f => perm (framePa f.1) (some f.1)
      | none => .fault cXlate
  else if (addr * 256) % size != 0 || hbmEnd < addr * 256 + size then .fault cXlate
  else perm (addr * 256) none

/-- The walk of R112 over the levels left, from the table at `t`. -/
def State.walkFrom (s : State) (p : Nat) (sup : Bool) (va : Nat) (nd : Need) :
    List (Nat × Nat × Nat × Nat × Nat) → Nat → Walk
  | [], _ => .fault cXlate
  | (lvl, lo, n, align, size) :: rest, t =>
    let pa := t + 8 * fld va lo n
    if hbmEnd < pa + 8 then .fault cXlate
    else
      let (b, poisoned) := s.homeRead pa 8
      let e := leNat b
      if poisoned then .fault cPoison
      else if !bit e 0 || fld e 48 16 != 0 || bit e 7 then .fault cXlate
      else if (lvl == 1 && bit e 1) || (lvl == 4 && !bit e 1) then .fault cXlate
      else if bit e 1 then s.walkLeaf p sup va lvl size e pa nd
      else if (fld e 8 40 * 256) % align != 0 then .fault cXlate
      else s.walkFrom p sup va nd rest (fld e 8 40 * 256)

/-- A walk in the tables of partition `p` (R112). -/
def State.walk (s : State) (p : Nat) (sup : Bool) (va : Nat) (nd : Need) : Walk :=
  let root := (s.partAt p).ptroot.toNat
  if !canonicalVa va || !bit root 0 then .fault cXlate
  else s.walkFrom p sup va nd tableLevels (fld root 21 27 * 2 ^ 21)

/-- A translation by the Hall, the conduit, the confluence or the Vestibule, which keep no translation
(R113). -/
def State.xlateFor (s : State) (p : Nat) (sup : Bool) (va : Nat) (nd : Need) : Res Nat :=
  match s.walk p sup va nd with
  | .ok x _ => .ok (x.pa + va % x.size)
  | .fault code => trap code (dw va)
  | .cel entryPa _ _ => .error (.fetch p entryPa va)

/-- Enter a translation into a cache of `cap` entries, the oldest leaving first. -/
def cacheIn (cap : Nat) (t : List Xlat) (x : Xlat) : List Xlat :=
  let t := (t.filter fun y => y.va != x.va || y.size != x.size) ++ [x]
  t.drop (t.length - cap)

/-- Enter a completed leaf into a translation cache of core `c`: S's or L and W's; a spill page's reference
bit is set (R113, R116). -/
def State.enterXlat (s : State) (c : Nat) (st : Stream) (x : Xlat) (fr : Option Nat) : State :=
  let s := s.onCore c fun k =>
    if st = .S then { k with tlbS := cacheIn 64 k.tlbS x } else { k with tlbLW := cacheIn 512 k.tlbLW x }
  match fr with
  | none => s
  | some f => s.onPart (s.partOf c) fun q => { q with
      frames := mapVals q.frames fun a y => if a = f then { y with ref := true } else y }

/-- A translation by a stream of core `c`, through its translation cache (R113), or by the result of a walk that a `tlbinv` has
kept from it (R366); a miss is counted (R21), and its walk waits at the homes (R150). `va` is a 64-bit address. -/
def State.xlate (s : State) (c : Nat) (st : Stream) (va : Nat) (nd : Need) : Res (State × Nat) :=
  let k := s.coreAt c
  let t := if st = .S then k.tlbS else k.tlbLW
  let covers (x : Xlat) : Bool :=
    x.va ≤ va && va < x.va + x.size && (!nd.rd || x.rd) && (!nd.wr || x.wr) && (!x.sup || k.sup)
  match (t ++ (k.eng st).got).find? covers with
  | some x => .ok (s, x.pa + (va - x.va))
  | none =>
    let s := s.calm.onCore c fun k => { k with misses := k.misses + 1 }
    match s.walk (s.partOf c) k.sup va nd with
    | .ok x fr => .ok (s.enterXlat c st x fr, x.pa + va % x.size)
    | .fault code => trap code (dw va)
    | .cel entryPa _ _ => .error (.fetch (s.partOf c) entryPa va)

/-- Every page of [va, va + n), ascending by 64 KiB, translated before any byte is accessed (R280). -/
def State.xlateRange (s : State) (c : Nat) (st : Stream) (va n : Nat) (nd : Need) : Res State :=
  let first := va / 65536
  let count := if n = 0 then 0 else (va + n - 1) / 65536 - first + 1
  (List.range count).foldlM (fun s i => do
    let a := if i = 0 then va else (first + i) * 65536
    let r ← s.xlate c st (a % 2 ^ 64) nd
    pure r.1) s

/-! ## Plain accesses by virtual address -/

/-- A load of `n` bytes, aligned within a line, by a stream of core `c`; poison traps with the address. -/
def State.load (s : State) (c : Nat) (st : Stream) (pol : Pol) (va n : Nat) : Res (State × List Byte) := do
  let (s, pa) ← s.xlate c st va needRd
  let (s, b, bad) := s.coreLoad c st pol pa n
  if bad then trap cPoison (dw va) else pure (s, b)

/-- A store of bytes, aligned within a line, by a stream of core `c`. -/
def State.store (s : State) (c : Nat) (st : Stream) (pol : Pol) (va : Nat) (bs : List Byte) : Res State := do
  let (s, pa) ← s.xlate c st va needWr
  pure (s.coreStore c st pol pa bs)

/-- `n` words loaded from ascending addresses, each under the policy (R146, R283). -/
def State.loadWords (s : State) (c : Nat) (st : Stream) (pol : Pol) : Nat → Nat → Res (State × List Byte)
  | _, 0 => .ok (s, [])
  | va, n + 1 => do
    let (s, b) ← s.load c st pol va 4
    let (s, bs) ← s.loadWords c st pol ((va + 4) % 2 ^ 64) n
    pure (s, b ++ bs)

/-- Words stored to ascending addresses, each under the policy (R146, R284). -/
def State.storeWords (s : State) (c : Nat) (st : Stream) (pol : Pol) : Nat → List Byte → Res State
  | va, b0 :: b1 :: b2 :: b3 :: bs => do
    let s ← s.store c st pol va [b0, b1, b2, b3]
    State.storeWords s c st pol ((va + 4) % 2 ^ 64) bs
  | _, _ => .ok s

/-- `n` words read by an engine that is no core, at the home, at a privilege level. -/
def State.readFor (s : State) (p : Nat) (sup : Bool) : Nat → Nat → Res (List Byte)
  | _, 0 => .ok []
  | va, n + 1 => do
    let pa ← s.xlateFor p sup va needRd
    let (b, bad) := s.homeRead pa 4
    if bad then trap cPoison (dw va)
    else do
      let bs ← s.readFor p sup ((va + 4) % 2 ^ 64) n
      pure (b ++ bs)

/-- Bytes in words, each with its virtual address, from `va` upward; a last word that is not whole is none. -/
def wordsAt : Nat → List Byte → List (Nat × List Byte)
  | va, b0 :: b1 :: b2 :: b3 :: bs => (va, [b0, b1, b2, b3]) :: wordsAt ((va + 4) % 2 ^ 64) bs
  | _, _ => []

/-- Words written by an engine that is no core, at the home, at a privilege level: every address is translated before anything
is written. -/
def State.writeFor (s : State) (p : Nat) (sup : Bool) (va : Nat) (bs : List Byte) : Res State := do
  let ws ← (wordsAt va bs).mapM fun w => do
    let pa ← s.xlateFor p sup w.1 needWr
    pure (pa, w.2)
  pure (ws.foldl (fun s w => s.homeStore none w.1 w.2) s)

/-! ## Pages in the cellar, for agents that no instruction waits for -/

/-- Ask for the fetch of a cellar page, once (R116); `ahead` names the core of a lookahead pass. -/
def State.requestFetch (s : State) (p entryPa va : Nat) (ahead : Option Nat) : State :=
  let q := s.partAt p
  if q.fetches.any fun f => f.entryPa == entryPa then s
  else (s.setPart p { q with fetches := q.fetches ++ [⟨entryPa, va, ahead⟩] }).post (.cellarFetchComplete p entryPa va)

/-- The pieces of [va, va + len) page by page: address, offset from `va`, and length. -/
def pages (va len : Nat) : List (Nat × Nat × Nat) :=
  let first := va / 65536
  let count := if len = 0 then 0 else (va + len - 1) / 65536 - first + 1
  (List.range count).map fun i =>
    let a := if i = 0 then va else (first + i) * 65536
    (a, a - va, min ((first + i + 1) * 65536) (va + len) - a)

/-- Physical address of a frame (R115). -/
def Partition.framePa (q : Partition) (f : Nat) : Nat := fld q.clkpool.toNat 16 28 * 65536 + 65536 * f

/-- Where an address of a page with CEL = 1 lies: in its slot, or in the frame from which it is being spilled (R115, R116). -/
def State.cellarPlace (s : State) (p entryPa va : Nat) : Nat :=
  let q := s.partAt p
  let slot := fld (leNat (s.homeRead entryPa 8).1) 8 40
  match q.spilling with
  | some (f, _) =>
    if (find q.frames f).map Frame.slot == some slot then q.framePa f + va % 65536 else slotPlace p (65536 * slot + va % 65536)
  | none => slotPlace p (65536 * slot + va % 65536)

/-- Bytes at a place, within one 64-byte unit, and whether they are poisoned. -/
def State.placeRead (s : State) (place n : Nat) : List Byte × Bool :=
  if place < slotPlace 0 0 then s.homeRead place n
  else
    let q := s.partAt (place / 2 ^ 48 - 1)
    let off := place % 2 ^ 48
    (Mem.readN q.cellar off n, q.cellarBad.contains (off / 64))

/-- Bytes written at a place: at their home, a store of its own for each aligned access, or in the page's slot. -/
def State.placeWrite (s : State) (place : Nat) (bs : List Byte) : State :=
  if place < slotPlace 0 0 then
    if place % 8 + bs.length ≤ 8 && place % bs.length == 0 then s.homeStore none place bs
    else bs.zipIdx.foldl (fun s b => s.homeStore none (place + b.2) [b.1]) s
  else s.onPart (place / 2 ^ 48 - 1) fun q => { q with cellar := Mem.write q.cellar (place % 2 ^ 48) bs }

/-- An indivisible change of `w` bytes at a place (R200). -/
def State.placeRed (s : State) (place w : Nat) (f : Nat → Nat) : State :=
  if place < slotPlace 0 0 then s.redAt place w f
  else s.placeWrite place (toLe w (f (leNat (s.placeRead place w).1)))

/-- The place of an address for such an agent, with the page's entry where the page must be fetched. -/
def State.placeFor (s : State) (p : Nat) (sup : Bool) (va : Nat) (nd : Need) : Res (Nat × Option Nat) :=
  match s.xlateFor p sup va nd with
  | .ok pa => .ok (pa, none)
  | .error (.fetch q e _) => .ok (s.cellarPlace q e va, some e)
  | .error e => .error e

/-- Ask for the fetch of the page at `va`, where its walk met it in the cellar (R116). -/
def State.askFor (s : State) (p va : Nat) (entry : Option Nat) : State :=
  match entry with
  | none => s
  | some e => s.requestFetch p e va none

/-- Ask for every page of [va, va + len) that an access of such an agent finds in the cellar. -/
def State.askPages (s : State) (p : Nat) (sup : Bool) (nd : Need) (va len : Nat) : State :=
  (pages va len).foldl (fun s e => match s.placeFor p sup (e.1 % 2 ^ 64) nd with
    | .ok x => s.askFor p (e.1 % 2 ^ 64) x.2
    | .error _ => s) s

/-- `n` words read by such an agent, whose page must allow `nd`. A page in the cellar has the values that it would have in HBM
(R117), which its fetch brings: they are read where it lies, and the agent asks for the fetch besides (log 27). -/
def State.readVia (s : State) (p : Nat) (sup : Bool) (nd : Need) : Nat → Nat → Res (List Byte)
  | _, 0 => .ok []
  | va, n + 1 => do
    let x ← s.placeFor p sup va nd
    let r := s.placeRead x.1 4
    if r.2 then trap cPoison (dw va)
    else do
      let bs ← s.readVia p sup nd ((va + 4) % 2 ^ 64) n
      pure (r.1 ++ bs)

/-- Bytes written by such an agent at `va`, within one page: at their home, or in the page's slot, and the page is
then fetched. -/
def State.writeBytesVia (s : State) (p : Nat) (sup : Bool) (va : Nat) (bs : List Byte) : Res State := do
  let x ← s.placeFor p sup va needWr
  pure ((s.placeWrite x.1 bs).askFor p va x.2)

/-- An indivisible change of `w` bytes by such an agent at `va`; poison traps. -/
def State.redVia (s : State) (p : Nat) (sup : Bool) (va w : Nat) (f : Nat → Nat) : Res State := do
  let x ← s.placeFor p sup va needWr
  if (s.placeRead x.1 w).2 then trap cPoison (dw va) else pure ((s.placeRed x.1 w f).askFor p va x.2)

/-- Words written by such an agent: every address is translated before anything is written (R46). -/
def State.writeVia (s : State) (p : Nat) (sup : Bool) (va : Nat) (bs : List Byte) : Res State := do
  let ws ← (wordsAt va bs).mapM fun w => do
    let x ← s.placeFor p sup w.1 needWr
    pure (w, x)
  pure (ws.foldl (fun s e => (s.placeWrite e.2.1 e.1.2).askFor p e.1.1 e.2.2) s)

/-! ## Whole ranges, for the engines that move blocks -/

/-- The parts of units of `u` bytes that lie in [lo, lo + n), from 0. -/
def intervals (u lo n : Nat) (units : List Nat) : List (Nat × Nat) :=
  (units.filter fun x => u * x < lo + n && lo < u * x + u).map fun x =>
    (max lo (u * x) - lo, min (lo + n) (u * x + u) - lo)

/-- Units of `u` bytes that intervals from `lo` touch. -/
def touched (u lo : Nat) (bad : List (Nat × Nat)) : List Nat :=
  bad.flatMap fun b => if b.1 < b.2 then
      (List.range ((lo + b.2 - 1) / u - (lo + b.1) / u + 1)).map fun i => (lo + b.1) / u + i
    else []

/-- Intervals cut to [off, off + n), from 0. -/
def within (off n : Nat) (bad : List (Nat × Nat)) : List (Nat × Nat) :=
  (bad.filter fun b => b.1 < off + n && off < b.2).map fun b => (max off b.1 - off, min (off + n) b.2 - off)

/-- The first poisoned byte of some intervals. -/
def firstBad (bad : List (Nat × Nat)) : Option Nat :=
  (bad.filter fun b => b.1 < b.2).foldl (fun m b => match m with
    | none => some b.1
    | some x => some (min x b.1)) none

/-- Write a range of virtual memory with the poison of some of its bytes, every page translated by `tr` before anything is
written. -/
def State.bulkStore (s : State) (tr : Nat → Res Nat) (req : Option Nat) (va len : Nat) (src : Mem)
    (bad : List (Nat × Nat)) : Res State := do
  let ps ← (pages va len).mapM fun e => do
    let pa ← tr (e.1 % 2 ^ 64)
    pure (pa, e.2.1, e.2.2)
  pure (ps.foldl (fun s e => s.bulkWrite req e.1 e.2.2
    ((src.filter fun c => e.2.1 ≤ c.1).map fun c => (c.1 - e.2.1, c.2)) (touched 64 e.1 (within e.2.1 e.2.2 bad))) s)

/-- Read a range of virtual memory, keyed from 0, with the intervals of it that are poisoned. -/
def State.bulkLoad (s : State) (tr : Nat → Res Nat) (va len : Nat) : Res (Mem × List (Nat × Nat)) := do
  let ps ← (pages va len).mapM fun e => do
    let pa ← tr (e.1 % 2 ^ 64)
    pure (pa, e.2.1, e.2.2)
  let units := s.poisonNow
  pure (ps.flatMap fun e => (s.bulkRead e.1 e.2.2).map fun c => (c.1 + e.2.1, c.2),
    ps.flatMap fun e => (intervals 64 e.1 e.2.2 units).map fun b => (b.1 + e.2.1, b.2 + e.2.1))

/-! ## Basin accesses (R101) -/

/-- End of the basin: 6 MiB (R100). -/
def basinEnd : Nat := 6291456

/-- Whether [off, off + n) lies wholly inside the scratchpad. -/
def Core.inScratch (k : Core) (off n : Nat) : Bool := decide (k.bndV ≤ off) && decide (off + n ≤ k.bndS)

/-- The rows of 32 bytes that [off, off + n) touches. -/
def rowsOf (off n : Nat) : List Nat :=
  if n = 0 then [] else (List.range ((off + n - 1) / 32 - off / 32 + 1)).map fun i => off / 32 + i

/-- The lowest offset of [off, off + n) whose row is poisoned. -/
def Core.basinPoison (k : Core) (off n : Nat) : Option Nat :=
  match (rowsOf off n).find? fun r => k.basinBad.contains r with
  | some r => some (max off (32 * r))
  | none => none

/-- Write basin bytes. A row written whole is clean again (log 15). -/
def Core.putBasin (k : Core) (off : Nat) (bs : List Byte) : Core :=
  { k with
    basin := Mem.write k.basin off bs
    basinBad := k.basinBad.filter fun r => !(off ≤ 32 * r && 32 * r + 32 ≤ off + bs.length) }

def Core.getBasin (k : Core) (off n : Nat) : List Byte := Mem.readN k.basin off n

/-- Mark the rows of [off, off + n) poisoned. -/
def Core.poisonBasin (k : Core) (off n : Nat) : Core :=
  { k with basinBad := (k.basinBad ++ rowsOf off n).eraseDups }

end Sys2Proof.Machine
end

