-- ==== Sys2Proof/Machine/Numbers.lean ====
section
/-! DEFINITION. Number formats and exact arithmetic (10_numbers R174-R189, 07_patches R128, 13_assembly R235). A
finite value is a sign, a magnitude and a power of two; every operation is exact and rounds once at its end. -/

namespace Sys2Proof.Machine

/-- A value of a format: NaN, an infinity, or (-1)^neg × m × 2^e. -/
inductive Val where
  | nan
  | inf (neg : Bool)
  | fin (neg : Bool) (m : Nat) (e : Int)
  deriving DecidableEq, Repr

/-! ## Formats -/

/-- A floating format: exponent and significand bits, bias, and the magnitude of its largest finite code
(R174). -/
structure Fmt where
  eb : Nat
  mb : Nat
  bias : Int
  maxMag : Nat
  deriving DecidableEq, Repr

def fF32 : Fmt := ⟨8, 23, 127, 0x7F7FFFFF⟩
def fBF16 : Fmt := ⟨8, 7, 127, 0x7F7F⟩
def fF16 : Fmt := ⟨5, 10, 15, 0x7BFF⟩
def fE5M2 : Fmt := ⟨5, 2, 15, 0x7B⟩
def fE4M3 : Fmt := ⟨4, 3, 7, 0x7E⟩
def fE2M1 : Fmt := ⟨2, 1, 1, 0x7⟩

/-- The floating format of a type. -/
def fmtOf : Ty → Option Fmt
  | .f32 => some fF32
  | .bf16 => some fBF16
  | .f16 => some fF16
  | .e5m2 => some fE5M2
  | .e4m3 => some fE4M3
  | .e2m1 => some fE2M1
  | _ => none

/-- Width of an element in bits (R174, R175). -/
def width : Ty → Nat
  | .f32 | .i32 | .n32 => 32
  | .bf16 | .f16 | .i16 | .n16 => 16
  | .e4m3 | .e5m2 | .e8m0 | .mx8 | .i8 | .n8 => 8
  | .e2m1 | .mx4 => 4
  | .mx6 => 6
  | .i64 | .n64 => 64

/-- Whether a type is an MX format (R175). -/
def isMx : Ty → Bool
  | .mx8 | .mx6 | .mx4 => true
  | _ => false

/-- Whether a type is an integer format, and whether it is signed. -/
def intSign : Ty → Option Bool
  | .i8 | .i16 | .i32 | .i64 => some true
  | .n8 | .n16 | .n32 | .n64 => some false
  | _ => none

/-- The value of a code of a floating format (R174). -/
def floatVal (f : Fmt) (c : Nat) : Val :=
  let neg := bit c (f.eb + f.mb)
  let x := fld c f.mb f.eb
  let m := fld c 0 f.mb
  let top := x == 2 ^ f.eb - 1
  if f.maxMag < x * 2 ^ f.mb + m then
    if f.mb != 3 && top && m == 0 then .inf neg else .nan
  else if x = 0 then .fin neg m (1 - f.bias - f.mb)
  else .fin neg (2 ^ f.mb + m) (x - f.bias - f.mb)

/-- A value of a signed integer. -/
def intVal (z : Int) (e : Int) : Val := .fin (decide (z < 0)) z.natAbs e

/-- The value of a code of a type, an MX code without its block scale (R174, R175). -/
def valOf (t : Ty) (c : Nat) : Val :=
  match t with
  | .e8m0 => if c % 256 = 255 then .nan else .fin false 1 ((c % 256 : Nat) - 127)
  | .mx8 => intVal (signed 8 c) (-6)
  | .mx6 => intVal (signed 6 c) (-4)
  | .mx4 => intVal (signed 4 c) (-2)
  | _ =>
    match fmtOf t, intSign t with
    | some f, _ => floatVal f c
    | none, some true => intVal (signed (width t) c) 0
    | none, _ => .fin false (c % 2 ^ width t) 0

/-! ## Rounding -/

/-- m × 2^k rounded to an integer, ties to even. -/
def rne (m : Nat) (k : Int) : Nat :=
  match k with
  | .ofNat k => m * 2 ^ k
  | .negSucc n =>
    let s := n + 1
    let q := m / 2 ^ s
    let r := m % 2 ^ s
    if 2 ^ n < r || (r == 2 ^ n && q % 2 == 1) then q + 1 else q

/-- m × 2^k rounded toward zero. -/
def trunc (m : Nat) (k : Int) : Nat :=
  match k with
  | .ofNat k => m * 2 ^ k
  | .negSucc n => m / 2 ^ (n + 1)

/-- Exponent of the unit in the last place of a format at m × 2^e, m not 0. -/
def ulpExp (f : Fmt) (m : Nat) (e : Int) : Int := max (Nat.log2 m + e) (1 - f.bias) - f.mb

/-- The magnitude code of `q` units of 2^u, u the unit of a format at that magnitude; the exponent is
unbounded above. -/
def magCode (f : Fmt) (q : Nat) (u : Int) : Nat := (u + f.mb - (1 - f.bias)).toNat * 2 ^ f.mb + q

/-- The magnitude code of m × 2^e rounded to nearest, ties to even, with an unbounded exponent (R187). -/
def roundMag (f : Fmt) (m : Nat) (e : Int) : Nat :=
  if m = 0 then 0 else magCode f (rne m (e - ulpExp f m e)) (ulpExp f m e)

/-- A code from a sign and a magnitude. -/
def signMag (f : Fmt) (neg : Bool) (mag : Nat) : Nat := num neg * 2 ^ (f.eb + f.mb) + mag

/-- The code of a value, with the magnitudes for finite overflow and infinity and the code of NaN. -/
def packFloat (f : Fmt) (ovf infMag nan : Nat) : Val → Nat
  | .nan => nan
  | .inf s => signMag f s infMag
  | .fin s m e => signMag f s (if f.maxMag < roundMag f m e then ovf else roundMag f m e)

/-- FP32 code of a value: the helper `rne32` (R183). -/
def rne32 (v : Val) : Nat := packFloat fF32 0x7F800000 0x7F800000 0x7FC00000 v

/-- A value rounded to an integer, ties to even; none for NaN and infinities. -/
def rneInt (neg : Bool) (m : Nat) (e : Int) : Int := if neg then -(rne m e : Nat) else (rne m e : Nat)

def clampInt (lo hi z : Int) : Int := if z < lo then lo else if hi < z then hi else z

/-- Range of an integer format. -/
def intRange (t : Ty) (sgn : Bool) : Int × Int :=
  if sgn then (-(2 ^ (width t - 1) : Nat), (2 ^ (width t - 1) : Nat) - 1) else (0, (2 ^ width t : Nat) - 1)

/-- Conversion of R187 to any type but E8M0 and the MX types; `nsat` is accepted with E4M3 and E5M2. -/
def convert (t : Ty) (nsat : Bool) (v : Val) : Nat :=
  match t with
  | .f32 => rne32 v
  | .bf16 => packFloat fBF16 0x7F80 0x7F80 0x7FC0 v
  | .f16 => packFloat fF16 0x7C00 0x7C00 0x7E00 v
  | .e5m2 => packFloat fE5M2 (if nsat then 0x7E else 0x7B) 0x7C 0x7E v
  | .e4m3 => packFloat fE4M3 (if nsat then 0x7F else 0x7E) (if nsat then 0x7F else 0x7E) 0x7F v
  | .e2m1 => packFloat fE2M1 0x7 0x7 0 v
  | _ =>
    match intSign t with
    | none => 0
    | some sgn =>
      let (lo, hi) := intRange t sgn
      match v with
      | .nan => 0
      | .inf s => wrap (width t) (if s then lo else hi)
      | .fin s m e => wrap (width t) (clampInt lo hi (rneInt s m e))

/-! ## Exact operations -/

def Val.neg : Val → Val
  | .nan => .nan
  | .inf s => .inf (!s)
  | .fin s m e => .fin (!s) m e

def Val.abs : Val → Val
  | .nan => .nan
  | .inf _ => .inf false
  | .fin _ m e => .fin false m e

/-- The signed number of units of 2^e0 in a finite value, e0 at most its exponent. -/
def units (s : Bool) (m : Nat) (e e0 : Int) : Int :=
  let z : Int := (m * 2 ^ (e - e0).toNat : Nat)
  if s then -z else z

/-- The exact sum; a zero sum is +0 unless both addends are -0 (R128, R179). -/
def Val.add : Val → Val → Val
  | .nan, _ => .nan
  | _, .nan => .nan
  | .inf s, .inf t => if s = t then .inf s else .nan
  | .inf s, _ => .inf s
  | _, .inf t => .inf t
  | .fin s m e, .fin t n d =>
    let z := units s m e (min e d) + units t n d (min e d)
    if z = 0 then .fin (s && t) 0 0 else intVal z (min e d)

def Val.sub (a b : Val) : Val := a.add b.neg

/-- The exact product. -/
def Val.mul : Val → Val → Val
  | .nan, _ => .nan
  | _, .nan => .nan
  | .inf s, .inf t => .inf (s != t)
  | .inf s, .fin t n _ => if n = 0 then .nan else .inf (s != t)
  | .fin s m _, .inf t => if m = 0 then .nan else .inf (s != t)
  | .fin s m e, .fin t n d => .fin (s != t) (m * n) (e + d)

/-- The quotient, to far more bits than any format keeps, with a sticky last bit (R186, R291). -/
def Val.div : Val → Val → Val
  | .nan, _ => .nan
  | _, .nan => .nan
  | .inf _, .inf _ => .nan
  | .inf s, .fin t _ _ => .inf (s != t)
  | .fin s _ _, .inf t => .fin (s != t) 0 0
  | .fin s m e, .fin t n d =>
    if n = 0 then if m = 0 then .nan else .inf (s != t)
    else
      let k := 128 + Nat.log2 n
      let q := m * 2 ^ k / n
      let r := m * 2 ^ k % n
      .fin (s != t) (2 * q + if r = 0 then 0 else 1) (e - d - k - 1)

/-- The integer square root of a number below 4^bits, bit by bit. -/
def isqrt : Nat → Nat → Nat → Nat
  | 0, _, r => r
  | b + 1, n, r => if (r + 2 ^ b) * (r + 2 ^ b) ≤ n then isqrt b n (r + 2 ^ b) else isqrt b n r

/-- The square root, with a sticky last bit (R186). -/
def Val.sqrt : Val → Val
  | .nan => .nan
  | .inf true => .nan
  | .inf false => .inf false
  | .fin s m e =>
    if m = 0 then .fin s 0 0
    else if s then .nan
    else
      let m' := if e % 2 = 0 then m else 2 * m
      let e' := if e % 2 = 0 then e else e - 1
      let n := m' * 2 ^ 256
      let q := isqrt (Nat.log2 n / 2 + 1) n 0
      .fin false (2 * q + if q * q = n then 0 else 1) (e' / 2 - 129)

/-- The order of R185: -0 below +0 and NaN above +infinity, as a key to compare by. -/
def Val.lt : Val → Val → Bool
  | .nan, _ => false
  | _, .nan => true
  | .inf s, .inf t => s && !t
  | .inf s, _ => s
  | _, .inf t => !t
  | .fin s m e, .fin t n d =>
    let a := units s m e (min e d)
    let b := units t n d (min e d)
    decide (a < b) || (a == b && m == 0 && s && !t)

/-- Maximum of R185. -/
def Val.larger (a b : Val) : Val := if a = .nan || b = .nan then .nan else if a.lt b then b else a

/-- Minimum of R185. -/
def Val.smaller (a b : Val) : Val :=
  if a = .nan then b else if b = .nan then a else if b.lt a then b else a

/-- The exact comparison of two values as numbers (R217, R218): none with a NaN; zeros of either sign are equal. -/
def Val.cmp : Val → Val → Option Ordering
  | .nan, _ => none
  | _, .nan => none
  | .inf s, .inf t => some (if s = t then .eq else if s then .lt else .gt)
  | .inf s, _ => some (if s then .lt else .gt)
  | _, .inf t => some (if t then .gt else .lt)
  | .fin s m e, .fin t n d => some (compare (units s m e (min e d)) (units t n d (min e d)))

/-! ## Transcendentals (R186)

Each is computed in fixed point with 256 fraction bits and a sticky last bit, far beyond what a value of 32
bits needs to be rounded correctly (log 17). -/

/-- ln 2 × 2^256, rounded down. -/
def ln2 : Nat := 0xb17217f7d1cf79abc9e3b39803f2f6af40f343267298b62d8a0d175b8baafa2b

/-- 2^256 ÷ ln 2, rounded down. -/
def log2e : Nat := 0x171547652b82fe1777d0ffda0d23a7d11d6aef551bad2b4b1164a2cd9a3426491

/-- The sum of y^n ÷ n! from term `n` on, `fuel` terms, with 256 fraction bits. -/
def expSeries : Nat → Nat → Nat → Nat → Nat
  | 0, _, _, _ => 0
  | fuel + 1, n, y, t => t + expSeries fuel (n + 1) y (t * y / 2 ^ 256 / (n + 1))

/-- 2^(t ÷ 2^256) as a magnitude of 256 fraction bits and an exponent. -/
def pow2Fix (t : Int) : Nat × Int :=
  let k := t / (2 ^ 256 : Nat)
  let f := (t % (2 ^ 256 : Nat)).toNat
  (expSeries 70 0 (f * ln2 / 2 ^ 256) (2 ^ 256), k)

/-- 2^x for a finite x given as a number of 2^-256 units; exact when x is an integer. -/
def pow2Val (t : Int) : Val :=
  if t < -(2 ^ 268 : Nat) then .fin false 1 (-4096)
  else if (2 ^ 268 : Nat) < t then .fin false 1 4096
  else if t % (2 ^ 256 : Nat) = 0 then .fin false 1 (t / (2 ^ 256 : Nat))
  else
    let (m, k) := pow2Fix t
    .fin false (2 * m + 1) (k - 257)

/-- A finite value as a number of 2^-256 units, clipped far outside every format's range. -/
def fixed (s : Bool) (m : Nat) (e : Int) : Int :=
  if 16 < Nat.log2 m + e then if s then -(2 ^ 272 : Nat) else (2 ^ 272 : Nat)
  else
    let z : Int := (trunc m (e + 256) : Nat)
    if s then -z else z

/-- 2^x. -/
def Val.exp2 : Val → Val
  | .nan => .nan
  | .inf s => if s then .fin false 0 0 else .inf false
  | .fin s m e => if m = 0 then .fin false 1 0 else pow2Val (fixed s m e)

/-- The sum of z^(2n+1) ÷ (2n+1) from term `n` on, with 256 fraction bits; `p` is z^(2n+1). -/
def atanhSeries : Nat → Nat → Nat → Nat → Nat
  | 0, _, _, _ => 0
  | fuel + 1, n, zz, p => p / (2 * n + 1) + atanhSeries fuel (n + 1) zz (p * zz / 2 ^ 256)

/-- log2 x. -/
def Val.log2 : Val → Val
  | .nan => .nan
  | .inf s => if s then .nan else .inf false
  | .fin s m e =>
    if m = 0 then .inf true
    else if s then .nan
    else
      let l := Nat.log2 m
      let k : Int := l + e
      if m = 2 ^ l then if k = 0 then .fin false 0 0 else intVal k 0
      else
        let z := (m - 2 ^ l) * 2 ^ 256 / (m + 2 ^ l)
        let ln := 2 * atanhSeries 90 0 (z * z / 2 ^ 256) z
        let v : Int := k * (2 ^ 256 : Nat) + (ln * 2 ^ 256 / ln2 : Nat)
        .fin (decide (v < 0)) (2 * v.natAbs + 1) (-257)

/-- 1 ÷ x. -/
def Val.rcp (x : Val) : Val := Val.div (.fin false 1 0) x

/-- 1 ÷ √x. -/
def Val.rsq : Val → Val
  | .fin s m e => if m = 0 then .inf s else Val.div (.fin false 1 0) (Val.sqrt (.fin s m e))
  | .inf false => .fin false 0 0
  | x => if x = .nan then .nan else .nan

/-- 1 ÷ (1 + e^-x). -/
def Val.sig : Val → Val
  | .nan => .nan
  | .inf s => if s then .fin false 0 0 else .fin false 1 0
  | .fin s m e =>
    if m = 0 then .fin false 1 (-1)
    else
      let t : Int := (fixed true m e * (log2e : Nat)) / (2 ^ 256 : Nat)
      let y := match pow2Val t with
        | .fin _ a b => Val.fin false a b
        | v => v
      if s then Val.div y (Val.add (.fin false 1 0) y)
      else
        match Val.div (.fin false 1 0) (Val.add (.fin false 1 0) y) with
        | .fin t a b => .fin t (if a % 2 = 0 then a + 1 else a) b
        | v => v

/-! ## addf of R128 -/

/-- The sum of an element and a delta, rounded once to the element format (R128). -/
def addf (t : Ty) (a d : Nat) : Nat :=
  match intSign t with
  | some _ => (a + d) % 2 ^ width t
  | none =>
    let v := (valOf t a).add (valOf t d)
    match t with
    | .e5m2 => packFloat fE5M2 0x7C 0x7C 0x7E v
    | _ => convert t false v

/-! ## Packing (R188) and stochastic rounding (R189) -/

/-- Magnitude exponent floor(log2 |v|) of a finite value that is not zero. -/
def Val.logAbs : Val → Option Int
  | .fin _ m e => if m = 0 then none else some (Nat.log2 m + e)
  | _ => none

def Val.finite : Val → Bool
  | .fin _ _ _ => true
  | _ => false

/-- emax_f of R188. -/
def packEmax : Ty → Int
  | .e4m3 => 8
  | .e5m2 => 15
  | .e2m1 => 2
  | _ => 0

/-- An element of a packed block: R187 for a floating format, the MXINT rule of R188 otherwise. -/
def packElem (t : Ty) (v : Val) : Nat :=
  if isMx t then
    let w := width t
    let hi : Int := (2 ^ (w - 1) : Nat) - 1
    match v with
    | .fin s m e => wrap w (clampInt (-hi) hi (rneInt s m (e + (w - 2 : Nat))))
    | _ => 0
  else convert t false v

/-- A value scaled by a power of two. -/
def Val.scale (v : Val) (k : Int) : Val :=
  match v with
  | .fin s m e => .fin s m (e + k)
  | v => v

/-- The scale and the elements of one block (R188). -/
def mxPack (t : Ty) (xs : List Val) : Nat × List Nat :=
  if xs.any fun x => !x.finite then (0xFF, xs.map fun _ => 0)
  else
    match (xs.filterMap Val.logAbs).foldl (fun (a : Option Int) l => match a with
      | none => some l
      | some b => some (max b l)) none with
    | none => (0x7F, xs.map fun _ => 0)
    | some l =>
      let c := (clampInt 0 254 (l - packEmax t + 127)).toNat
      (c, xs.map fun x => packElem t (x.scale (127 - c)))

/-- The value of a packed element with its block scale (R175). -/
def scaled (t : Ty) (c scale : Nat) : Val :=
  if scale = 0xFF then .nan else (valOf t c).scale ((scale : Int) - 127)

/-- mix32 of R235. -/
def mix32 (x : BitVec 32) : BitVec 32 :=
  let x := x ^^^ (x >>> 16)
  let x := x * 0x7A1C4E35
  let x := x ^^^ (x >>> 15)
  let x := x * 0x2C49B9AD
  x ^^^ (x >>> 16)

/-- mix64 of R235. -/
def mix64 (z : BitVec 64) : BitVec 64 :=
  let z := z ^^^ (z >>> 33)
  let z := z * 0xB7E151628AED2A6B
  let z := z ^^^ (z >>> 31)
  let z := z * 0x94D049BB133111EB
  z ^^^ (z >>> 32)

/-- The discarded fraction d[i] of R189: 2^16 × (|x| - |t|) ÷ ulp, rounded down. -/
def srFrac (f : Fmt) : Val → Nat
  | .fin _ m e =>
    if m = 0 then 0
    else
      let u := ulpExp f m e
      trunc m (e - u + 16) - trunc m (e - u) * 2 ^ 16
  | _ => 0

/-- One element of `vcvt.sr`: the draw `u` against its fraction (R189). -/
def srElem (t : Ty) (f : Fmt) (nsat : Bool) (u : Nat) (v : Val) : Nat :=
  match v with
  | .fin s m e =>
    if m = 0 then convert t nsat v
    else
      let x := ulpExp f m e
      let q := trunc m (e - x) + (if u < srFrac f v then 1 else 0)
      convert t nsat (.fin s q x)
  | v => convert t nsat v

/-- Stochastic rounding of the elements of a vector (R189). -/
def srAll (t : Ty) (f : Fmt) (nsat : Bool) (salt : BitVec 32) (xs : List Val) : List Nat :=
  let d := xs.map (srFrac f)
  (List.range xs.length).map fun i =>
    let dl := if i = 0 then 0 else d.getD (i - 1) 0
    let dn := d.getD (i + 1) 0
    let u := (mix32 (BitVec.ofNat 32 dl ^^^ (BitVec.ofNat 32 dn <<< 16) ^^^ salt)).toNat % 2 ^ 16
    srElem t f nsat u (xs.getD i .nan)

/-! ## Conditions (R239, R257-R259) -/

/-- An integer comparison of 64-bit values. -/
def condInt (cc : Cond) (a b : DWord) : Bool :=
  match cc with
  | .eq => a == b
  | .ne => a != b
  | .lt => decide (a.toInt < b.toInt)
  | .le => decide (a.toInt ≤ b.toInt)
  | .gt => decide (b.toInt < a.toInt)
  | .ge => decide (b.toInt ≤ a.toInt)
  | .ltn => decide (a.toNat < b.toNat)
  | .len => decide (a.toNat ≤ b.toNat)
  | .gtn => decide (b.toNat < a.toNat)
  | .gen => decide (b.toNat ≤ a.toNat)

/-- A floating comparison (R239): the order of R185, in which -0 lies below +0 and so differs from it; with a NaN
every condition but `ne` is false. -/
def condFloat (cc : Cond) (a b : Val) : Bool :=
  if a = .nan || b = .nan then cc == .ne
  else
    match cc with
    | .eq => !a.lt b && !b.lt a
    | .ne => a.lt b || b.lt a
    | .lt => a.lt b
    | .le => !b.lt a
    | .gt => b.lt a
    | .ge => !a.lt b
    | _ => false

/-! ## Elements packed in a number -/

/-- Element `e` of a tile or register whose bytes make the number `d` (R121). -/
def elem (w d e : Nat) : Nat := d / 2 ^ (w * e) % 2 ^ w

/-- The number of elements given in order. -/
def packElems (w : Nat) : List Nat → Nat
  | [] => 0
  | x :: xs => x % 2 ^ w + 2 ^ w * packElems w xs

/-- The first `n` elements of a number. -/
def unpackElems (w : Nat) : Nat → Nat → List Nat
  | 0, _ => []
  | n + 1, d => d % 2 ^ w :: unpackElems w n (d / 2 ^ w)

end Sys2Proof.Machine
end

