-- ==== Sys2Proof/Machine/Patches.lean ====
section
/-! DEFINITION. Tensors, histories, patches and pages (07_patches R120-R143) as operations over the state; the
instructions that name them are in PatchGroup.lean and Store.lean. -/

namespace Sys2Proof.Machine

/-! ## Geometry (R120, R121) -/

def Tensor.cols (t : Tensor) : Nat := ceilDiv t.n0 32
def Tensor.rows (t : Tensor) : Nat := ceilDiv t.n1 32

/-- Tile count (R120). -/
def Tensor.tiles (t : Tensor) : Nat := t.n3 * t.n2 * t.rows * t.cols

/-- Bytes of a tile of a format (R121). -/
def tileBytes (ty : Ty) : Nat := 128 * width ty

/-- Bytes of a tile with its scale: b' of R125. -/
def tileBytes' (ty : Ty) : Nat := tileBytes ty + num (isMx ty)

/-- Coordinates (i3, i2, tile row, tile column) of a tile. -/
def Tensor.coord (t : Tensor) (i : Nat) : Nat × Nat × Nat × Nat :=
  (i / (t.cols * t.rows * t.n2), i / (t.cols * t.rows) % t.n2, i / t.cols % t.rows, i % t.cols)

/-- The tile at coordinates, if they lie in the grid. -/
def Tensor.tileAt (t : Tensor) (x : Nat × Nat × Nat × Nat) : Option Nat :=
  if x.1 < t.n3 && x.2.1 < t.n2 && x.2.2.1 < t.rows && x.2.2.2 < t.cols then
    some (((x.1 * t.n2 + x.2.1) * t.rows + x.2.2.1) * t.cols + x.2.2.2)
  else none

/-- The elements of a tile that are not padding (R121). -/
def Tensor.real (t : Tensor) (i : Nat) : BitVec 1024 :=
  let x := t.coord i
  let r := min 32 (t.n1 - 32 * x.2.2.1)
  let c := min 32 (t.n0 - 32 * x.2.2.2)
  BitVec.ofNat 1024 ((List.range r).foldl (fun v k => v + (2 ^ c - 1) * 2 ^ (32 * k)) 0)

/-! ## The fold (R127) -/

/-- An element-wise choice: where the mask is set, `f` of the two elements. -/
def mergeElems (w : Nat) (f : Nat → Nat → Nat) (mask : BitVec 1024) (a b : Nat) : Nat :=
  packElems w ((List.range 1024).map fun e =>
    if mask.getLsbD e then f (elem w a e) (elem w b e) else elem w a e)

/-- Apply an entry to a tile (R127). -/
def applyEntry (ty : Ty) (overwrite : Bool) (v : Tile) (e : Entry) : Tile :=
  { data := mergeElems (width ty) (if overwrite then fun _ b => b else addf ty) e.mask v.data e.val.data
    scale := if overwrite && isMx ty then e.val.scale else v.scale }

def Patch.entryAt (p : Patch) (i : Nat) : Option Entry := p.entries.find? fun e => e.tile == i

/-- The tile of a base; a tile never written is zeros with scale 0x7F (R123). -/
def Hist.baseTile (h : Hist) (i : Nat) : Tile := findD h.base.tiles i ⟨0, 0x7F⟩

/-- The fold over sealed patches, from a tile. -/
def foldPatches (ty : Ty) (i : Nat) (v : Tile) (ps : List Patch) : Tile :=
  ps.foldl (fun v p => match p.entryAt i with
    | some e => applyEntry ty p.overwrite v e
    | none => v) v

/-- The fold at position `k` (R127). -/
def Hist.foldAt (h : Hist) (ty : Ty) (i k : Nat) : Tile := foldPatches ty i (h.baseTile i) (h.chain.take k)

/-- The fold at the tip as a reader off every core sees it. -/
def Hist.tip (h : Hist) (ty : Ty) (i : Nat) : Tile := h.foldAt ty i h.chain.length

/-- The fold as core `c` reads it: its own open patches applied in `popen` order (R127). -/
def Hist.foldFor (h : Hist) (ty : Ty) (c i : Nat) : Tile :=
  (h.opens.filter fun o => o.core == c).foldl (fun v o =>
    match o.entries.find? fun e => e.tile == i with
    | some e => applyEntry ty o.overwrite v e
    | none => v) (h.tip ty i)

/-- Whether a page that a read of tile `i` uses is poisoned (R202, R281). -/
def Partition.tilePoison (q : Partition) (h : Hist) (i : Nat) : Bool :=
  q.badTiles.contains (h.base.uid, i) ||
    h.chain.any fun p => (p.entryAt i).isSome && q.badTiles.contains (p.uid, i)

/-! ## Pages (R141, R142) -/

/-- Pages that objects of given sizes take, packed in order, each within one 64 KiB page; `room` is what is
left of the page in hand. -/
def packPages : Nat → List Nat → Nat
  | _, [] => 0
  | room, x :: xs => if x ≤ room then packPages (room - x) xs else 1 + packPages (65536 - x) xs

/-- Size of a patch entry in pages storage (R142). -/
def entrySize (ty : Ty) (overwrite : Bool) : Nat := roundup32 (128 + (if overwrite then 2 else 1) * tileBytes' ty)

def patchPages (ty : Ty) (overwrite : Bool) (n : Nat) : Nat := packPages 0 (List.replicate n (entrySize ty overwrite))

/-- The page sets that a history holds: its base, its patches and its squashed tiles. A reader holds the same ones; the spec does
not say whether it holds tile-map and descriptor pages too, and those count as free at once when their history or tensor is
released (R142; DESIGN CHOICE, log 67). -/
def Hist.pageSets (h : Hist) : List (Nat × Nat) :=
  (h.base.uid, h.base.pages) :: (h.chain.map fun p => (p.uid, p.pages)) ++ (h.squashed.map fun q => (q.uid, 1))

/-- Pages in use: descriptors, tile maps, and each page set that a history or a reader holds, once. -/
def Partition.usedPages (q : Partition) : Nat :=
  let sets := (q.tensors.flatMap fun t => t.2.hists.flatMap fun h => h.2.pageSets) ++ q.pins.map Prod.snd
  q.tensors.foldl (fun n t => n + 1 + t.2.hists.foldl (fun m h => m + h.2.mapPages) 0) 0 +
    (sets.eraseDups.foldl (fun n x => n + x.2) 0)

/-- PPFREE (R141). What it reads while EN is 0 the spec does not say: 0 (DESIGN CHOICE, log 68). -/
def Partition.ppfree (q : Partition) : Nat :=
  if bit q.ppool.toNat 0 then fld q.ppool.toNat 44 20 - q.usedPages else 0

/-- Whether `n` pages can be supplied; a request for none always can. -/
def Partition.canPage (q : Partition) (n : Nat) : Bool := n == 0 || (bit q.ppool.toNat 0 && decide (n ≤ q.ppfree))

/-! ## References and faults (R122, R143) -/

def refHandle (r : DWord) : Nat := fld r.toNat 0 20
def refHist (r : DWord) : Nat := fld r.toNat 20 8
def refName (r : DWord) : Nat := fld r.toNat 28 16
def refValid (r : DWord) : Bool := fld r.toNat 44 20 == 0

def refOf (handle hist name : Nat) : DWord := dw (name % 2 ^ 16 * 2 ^ 28 + hist % 2 ^ 8 * 2 ^ 20 + handle % 2 ^ 20)

/-- A patch fault: its two references, first tile and element, and sub-cause (R143). -/
def pfault {α : Type} (code : Nat) (r1 r2 : DWord) (sub : Nat := 0) (tile : Nat := 0xFFFFFFFF) (el : Nat := 0x3FF) :
    Res α :=
  .error (.trap code (dw sub) (some [r1, r2, dw tile, dw el]))

/-- The tensor and history of a valid reference (R299). -/
def Partition.look (q : Partition) (r r1 r2 : DWord) : Res (Tensor × Hist) :=
  match find q.tensors (refHandle r) with
  | some t =>
    match find t.hists (refHist r) with
    | some h => if refValid r then .ok (t, h) else pfault cTensor r1 r2
    | none => pfault cTensor r1 r2
  | none => pfault cTensor r1 r2

def Hist.pos (h : Hist) (name : Nat) : Option Nat := (h.chain.findIdx? fun p => p.name == name).map (· + 1)

def Hist.openAt (h : Hist) (name : Nat) : Option OpenPatch := h.opens.find? fun o => o.name == name

def Hist.inUse (h : Hist) (name : Nat) : Bool := (h.pos name).isSome || (h.openAt name).isSome

def Partition.setHist (q : Partition) (handle hist : Nat) (h : Hist) : Partition :=
  match find q.tensors handle with
  | some t => { q with tensors := put q.tensors handle { t with hists := put t.hists hist h } }
  | none => q

/-! ## Appending a sealed patch (R126) -/

/-- The entries of a patch in ascending tile order. -/
def sortEntries (es : List Entry) : List Entry := es.mergeSort fun a b => decide (a.tile ≤ b.tile)

/-- Append a sealed patch at the tip, taking its prior image and its pages; none when the pool cannot supply
the pages. `bad` names tiles whose entry was copied from a poisoned one. -/
def Partition.append (q : Partition) (handle hist : Nat) (t : Tensor) (h : Hist) (name : Nat) (overwrite : Bool)
    (entries : List Entry) (bad : List Nat := []) : Option Partition :=
  let n := patchPages t.ty overwrite entries.length
  if q.canPage n then
    let es := (sortEntries entries).map fun e =>
      if overwrite then { e with prior := h.tip t.ty e.tile } else { e with prior := {} }
    let p : Patch := { name, overwrite, entries := es, uid := q.nextUid, pages := n }
    some { q.setHist handle hist { h with chain := h.chain ++ [p] } with
      nextUid := q.nextUid + 1, badTiles := q.badTiles ++ bad.map fun i => (q.nextUid, i) }
  else none

/-! ## Recording into open patches (R124, R125) -/

/-- Merge a recorded entry into the entries of an open patch (R124). -/
def mergeEntry (ty : Ty) (overwrite : Bool) (es : List Entry) (e : Entry) : List Entry :=
  match es.find? fun x => x.tile == e.tile with
  | none => es ++ [e]
  | some o =>
    let both := o.mask &&& e.mask
    let data := (List.range 1024).map fun i =>
      if e.mask.getLsbD i then
        if !overwrite && both.getLsbD i then addf ty (elem (width ty) o.val.data i) (elem (width ty) e.val.data i)
        else elem (width ty) e.val.data i
      else elem (width ty) o.val.data i
    let m : Entry := { o with
      mask := o.mask ||| e.mask
      val := ⟨packElems (width ty) data, if overwrite then e.val.scale else o.val.scale⟩ }
    es.map fun x => if x.tile == e.tile then m else x

/-- Merge one recorded entry into its open patch. -/
def Partition.mergeInto (q : Partition) (x : Tentative) : Partition :=
  match find q.tensors x.handle with
  | none => q
  | some t =>
    match find t.hists x.hist with
    | none => q
    | some h => q.setHist x.handle x.hist { h with opens := h.opens.map fun o =>
        if o.name == x.name then { o with entries := mergeEntry t.ty o.overwrite o.entries x.entry } else o }

/-- The tile entries that occupy a core's staging area: patch and tile, with the format (R125). -/
def State.staged (s : State) (c : Nat) : List ((Nat × Nat × Nat × Nat) × Ty) :=
  let q := s.partAt (s.partOf c)
  let opens := q.tensors.flatMap fun t => t.2.hists.flatMap fun h => h.2.opens.flatMap fun o =>
    if o.core == c then o.entries.map fun e => ((t.1, h.1, o.name, e.tile), t.2.ty) else []
  let tent := (s.coreAt c).strW.spec.flatMap fun it => it.tent.filterMap fun x =>
    (find q.tensors x.handle).map fun t => ((x.handle, x.hist, x.name, x.entry.tile), t.ty)
  (opens ++ tent).eraseDups

def stageSize (ty : Ty) : Nat := roundup32 (128 + tileBytes' ty)

/-- Bytes of the staging area in use. -/
def State.stagedBytes (s : State) (c : Nat) : Nat := (s.staged c).foldl (fun n x => n + stageSize x.2) 0

/-! ## Automatic squash (R132) -/

/-- Patches below the floor that touch a tile and that no earlier squash of the tile covers: the spec does not say whether those
that one covers, which stay in the chain, still count towards D (R132; DESIGN CHOICE, log 65). -/
def Hist.below (h : Hist) (i : Nat) : Nat :=
  let p0 := ((h.squashed.find? fun x => x.tile == i).map Squashed.pos).getD 0
  (((h.chain.take h.floor).drop p0).filter fun p => (p.entryAt i).isSome).length

/-- Whether a page of squashed tiles is open to one history alone: no other history and no reader holds it (R142). -/
def Partition.ownPage (q : Partition) (uid : Nat) : Bool :=
  ((q.tensors.flatMap fun t => t.2.hists.filter fun h => h.2.squashed.any fun x => x.uid == uid).length ≤ 1) &&
    !q.pins.any fun x => x.2.1 == uid

/-- The squash that a read of a tile starts: skipped when the pool has no page; no value changes. A frozen history's tiles are
squashed too: R142 calls it immutable, and the spec does not say whether that keeps its storage as it is (DESIGN CHOICE, log
66). -/
def Partition.autoSquash (q : Partition) (handle hist : Nat) (i : Nat) : Partition :=
  match find q.tensors handle with
  | none => q
  | some t =>
    match find t.hists hist with
    | none => q
    | some h =>
      if h.below i ≤ t.depth then q
      else
        let n := tileBytes' t.ty
        let page := h.squashed.getLast?.filter fun x => decide (x.fill + n ≤ 65536) && q.ownPage x.uid
        if !q.canPage 1 then q
        else
          let x : Squashed := ⟨i, h.floor, h.foldAt t.ty i h.floor, (page.map Squashed.uid).getD q.nextUid,
            (page.map Squashed.fill).getD 0 + n⟩
          let h := { h with squashed := (h.squashed.filter fun y => y.tile != i) ++ [x] }
          { q.setHist handle hist h with nextUid := if page.isSome then q.nextUid else q.nextUid + 1 }

end Sys2Proof.Machine
end

