-- ==== Sys2Proof/Machine/Gauges.lean ====
section
/-! DEFINITION. Gauges and their samples (01_package R19-R22). -/

namespace Sys2Proof.Machine

/-- A gauge, by its name. -/
def State.gauge (s : State) : GaugeId → Gauge
  | .core c n => findD (s.coreAt c).gauges n {}
  | .die d n => findD s.dev.gauges (32 * d + n) {}

/-- Set a gauge. -/
def State.setGauge (s : State) (i : GaugeId) (g : Gauge) : State :=
  match i with
  | .core c n => s.onCore c fun k => { k with gauges := put k.gauges n g }
  | .die d n => s.onDev fun v => { v with gauges := put v.gauges (32 * d + n) g }

/-- The source that a gauge watches, and its PART byte (R20). -/
def Gauge.src (g : Gauge) : Nat := g.control.toNat % 256
def Gauge.partByte (g : Gauge) : Nat := fld g.control.toNat 16 8

/-- Whether a source is one of the catalogue's for a core gauge, or for a die gauge (R21). -/
def sourceFits (i : GaugeId) (src : Nat) : Bool :=
  match i with
  | .core _ _ => 1 ≤ src && decide (src ≤ 5)
  | .die _ _ => 0x10 ≤ src && decide (src ≤ 0x15)

/-- Whether a die gauge samples events of a partition: PART names it, or is 0xFF; and the gauge's owner is that partition,
or the authority, which may see every partition (R19, R20). An event of no partition passes only a PART of 0xFF. -/
def Gauge.sees (g : Gauge) (part : Option Nat) : Bool :=
  match part with
  | none => g.partByte == 0xFF
  | some p => (g.partByte == 0xFF || g.partByte == p) && (g.owner.isNone || g.owner == some p)

/-- Whether a gauge takes a sample of an event of a partition now. -/
def Gauge.takes (g : Gauge) (i : GaugeId) (part : Option Nat) : Bool :=
  g.control.getLsbD 31 && sourceFits i g.src && match i with
    | .core _ _ => true
    | .die _ _ => g.sees part

/-- A gauge after a sample (R22). The rule gives `min` and `max` 32 bits and the sample no width: the model takes a sample modulo
2^32 before every value (DESIGN CHOICE, log 41). -/
def Gauge.sample (g : Gauge) (cycles : Nat) : Gauge :=
  let v := cycles % 2 ^ 32
  let b := if v = 0 then 0 else min 15 (Nat.log2 v + 1)
  let h := findD g.hist b 0
  let sat := decide (2 ^ 48 ≤ g.count + 1) || decide (2 ^ 64 ≤ g.sum + v) || decide (2 ^ 32 ≤ h + 1)
  { g with
    mn := if g.count = 0 then v else min g.mn v
    mx := if g.count = 0 then v else max g.mx v
    count := min (g.count + 1) (2 ^ 48 - 1)
    sum := min (g.sum + v) (2 ^ 64 - 1)
    hist := put g.hist b (min (h + 1) (2 ^ 32 - 1))
    control := if sat then setBit g.control 30 true else g.control }

/-- Every gauge of core `c` that watches a source takes a sample. -/
def State.sampleCore (s : State) (c src v : Nat) : State :=
  (List.range 4).foldl (fun s n =>
    let g := s.gauge (.core c n)
    if g.src = src && g.takes (.core c n) none then s.setGauge (.core c n) (g.sample v) else s) s

/-- Every gauge of a die that watches a source and sees a partition takes a sample of an event of it. -/
def State.sampleDie (s : State) (d src p v : Nat) : State :=
  (List.range 32).foldl (fun s n =>
    let g := s.gauge (.die d n)
    if g.src = src && g.takes (.die d n) (some p) then s.setGauge (.die d n) (g.sample v) else s) s

/-- The gauges of core `c` sample the occupancy of its staging area in KiB, whole ones (source 0x05 of R21; log 41). -/
def State.sampleStaging (s : State) (c : Nat) : State := s.sampleCore c 0x05 (s.stagedBytes c / 1024)

end Sys2Proof.Machine
end

