-- ==== Sys2Proof/Machine/Context.lean ====
section
/-! DEFINITION. The context slot of R197 to R199, the register values it holds, and the discard of unresolved
iterations that every stop begins with (05_streams R91, R93). -/

namespace Sys2Proof.Machine

/-! ## Values of the control registers -/

/-- A domain register (R96). -/
def Dom.value (d : Dom) : Nat :=
  d.count % 256 * 2 ^ 32 + d.gen % 2 ^ 24 * 2 ^ 8 + num d.phase * 2 ^ 7 + d.level % 8

def Core.domAt (k : Core) (n : Nat) : Dom := findD k.dom n {}

/-- TVEC (R192). -/
def Core.tvec (k : Core) : Nat := k.tvecAddr % 2 ^ 14 * 4 + num k.thnd * 2 + num k.tvecEn

def Core.accAt (k : Core) (n : Nat) : Acc := findD k.acc n {}

/-- A mode byte of MSTAT: bit K for accumulator `base + K`. -/
def Core.modes (k : Core) (base : Nat) : Nat :=
  (List.range 8).foldl (fun v i => v + num (k.accAt (base + i)).i32 * 2 ^ i) 0

/-- MSTAT (R320). -/
def Core.mstat (k : Core) : Nat :=
  k.replays % 2 ^ 16 * 2 ^ 24 + num k.asat * 2 ^ 16 + k.modes 8 * 2 ^ 8 + k.modes 0

/-! ## Unresolved iterations -/

/-- The token pair an engine takes forward tokens from, and the pair it takes backward tokens from (R82). -/
def inPair : Stream → Nat
  | .L => 3
  | .M => 0
  | .X => 1
  | _ => 2

def outPair : Stream → Nat
  | .L => 0
  | .M => 1
  | .X => 2
  | _ => 3

def Core.fwdAt (k : Core) (i : Nat) : Nat := findD k.fwd i 0
def Core.backAt (k : Core) (i : Nat) : Nat := findD k.back i 0

/-- Return tokens to the FIFOs that a stream took them from (R91). Their places were kept for them, so no count passes the
depth (R82, log 24). -/
def Core.untake (k : Core) (st : Stream) (f b : Nat) : Core :=
  { k with
    fwd := if f = 0 then k.fwd else put k.fwd (inPair st) (k.fwdAt (inPair st) + f)
    back := if b = 0 then k.back else put k.back (outPair st) (k.backAt (outPair st) + b) }

/-- A stream's word that does not retire is not issued any more, and the tokens that it took return (R83, R193). -/
def Core.unissue (k : Core) (st : Stream) : Core :=
  (k.untake st (k.eng st).wordF (k.eng st).wordB).onEng st fun e => { e with issued := false, wordF := 0, wordB := 0 }

/-- The twin of each accumulator that run-ahead used takes its accumulator's value (R91). -/
def Core.syncTwins (k : Core) (as : List Nat) : Core :=
  { k with acc := as.foldl (fun m a => put m (8 + a) (findD k.acc a {})) k.acc }

/-- Discard every unresolved iteration of a stream. The stream stands at the closing word of the last
resolved iteration, which takes its outcome again (R93). -/
def Core.discard (k : Core) (st : Stream) : Core :=
  let e := k.eng st
  match e.spec with
  | [] => k
  | it :: _ =>
    let f := e.spec.foldl (fun n i => n + i.tookF + i.wordF) e.wordF
    let b := e.spec.foldl (fun n i => n + i.tookB + i.wordB) e.wordB
    let k := (k.untake st f b).syncTwins (e.spec.flatMap Iter.accs)
    k.setEng st { e with
      pc := it.snap.pc, seq := it.snap.seq, guards := it.snap.guards, loop0 := it.snap.loop0
      loop1 := it.snap.loop1, q := it.snap.q, spec := [], wait := none, issued := false, wordF := 0, wordB := 0, got := []
      early := none }

/-- The return queue of a stream that puts into one: X's or L's (R87). -/
def returnQueue (st : Stream) : Nat := if st = .L then 1 else 0

/-- A word that puts into a return queue and has not retired is taken back: its entries leave the queue, but for those that S
has taken, and its tokens return (R83, R193, R280, log 25). -/
def Core.takeBackRet (k : Core) (st : Stream) : Core :=
  match (k.eng st).ret with
  | none => k
  | some r =>
    if !r.issued then k
    else
      let q := findD k.rq (returnQueue st) []
      let n := min r.put q.length
      let back := q.drop (q.length - n)
      let k := { k with rq := put k.rq (returnQueue st) (q.take (q.length - n)) }.unissue st
      k.onEng st fun e => { e with ret := some { left := back ++ r.left } }

/-- A stream stops: its unresolved iterations are discarded, a word that still puts into a return queue is taken back, and so is
a load performed ahead of others (R93, R160, R194). -/
def Core.stopStream (k : Core) (st : Stream) : Core :=
  ((k.discard st).takeBackRet st).onEng st fun e => { e with early := none, got := [] }

/-- Every stream of a core, stopped. -/
def Core.discardAll (k : Core) : Core := streams.foldl Core.stopStream k

/-! ## The slot -/

/-- Place bytes in a slot image. -/
def slotPut (m : Mem) (off n v : Nat) : Mem := Mem.write m off (toLe n v)

/-- Values of `n` bytes each, from an offset. -/
def slotPuts (m : Mem) (off n : Nat) : List Nat → Mem
  | [] => m
  | v :: vs => slotPuts (slotPut m off n v) (off + n) n vs

/-- The trap record that a slot saves: outside a handler its cuts are those at which the streams stand, where a
restore starts them again (R197, R198, log 16). -/
def Core.savedRecord (k : Core) : Record :=
  if k.thnd then k.trapRec
  else { k.trapRec with tcut := streams.map fun st => (streamNum st, dw (k.eng st).seq) }

/-- The trap record in the order of the slot (R197). -/
def Record.words (r : Record) : List Nat :=
  [r.tcause.toNat, r.tstream.toNat, r.tpc.toNat, r.tseq.toNat] ++
    ((List.range 5).map fun i => (findD r.tcut i 0).toNat) ++
    ((List.range 4).map fun i => (findD r.top i 0).toNat) ++ [r.tval.toNat]

def QReg.words (q : QReg) : List Nat :=
  [q.base.toNat, q.fmt.toNat, q.geom.toNat, q.sstride.toNat, q.xpose.toNat, q.adv.toNat]

/-- The cycles that a limited `kwait` has left (R200). -/
def KWait.left (w : KWait) (now : Nat) : Option Nat := w.limit.map fun l => l - (now - w.since)

/-- A wait that is broken off keeps the cycles it has left, and counts again from a later cycle. -/
def KWait.stopped (w : KWait) (now : Nat) : KWait := { w with limit := w.left now, since := now }
def KWait.rearmed (w : KWait) (now : Nat) : KWait := { w with since := now }

/-- A pending `kwait` that stands still, in a slot (R200). -/
def KWait.words : Option KWait → List Nat
  | none => [0, 0, 0]
  | some w => [w.k + 2 ^ 8 + num w.limit.isSome * 2 ^ 9, w.thr, w.limit.getD 0]

/-- The guards of an engine in a slot, `n` of them; g0 reads true (R94, R197). -/
def Engine.guardBits (e : Engine) (n : Nat) : Nat := (setBit e.guards 0 true).toNat % 2 ^ n

/-- The slot of a core whose streams stand at their cuts (R197). -/
def Core.slot (k : Core) (now graph : Nat) (basin trapped thnd : Bool) (pcS : Nat) : Mem :=
  let es := [k.strL, k.strM, k.strX, k.strW]
  let m := slotPut [] 0 8 (1 + num basin * 2 ^ 32 + num trapped * 2 ^ 33 + num thnd * 2 ^ 34)
  let m := slotPuts m 8 8 k.savedRecord.words
  let m := slotPut m 120 8 (num k.strL.gs * 2 ^ 2 + num k.strL.gp * 2 ^ 3 + num k.strM.gs * 2 ^ 4 +
    num k.strM.gp * 2 ^ 5 + num k.strX.gs * 2 ^ 6 + num k.strX.gp * 2 ^ 7 + num k.strW.gs * 2 ^ 8 + num k.strW.gp * 2 ^ 9)
  let m := slotPuts m 128 8 (pcS :: es.map Engine.pc)
  let m := slotPuts m 168 8 (((List.range 4).map fun i => (k.domAt i).value) ++
    [k.tokwd.toNat, k.lkahead.toNat, k.tvecAddr % 2 ^ 14 * 4 + num thnd * 2 + num k.tvecEn, k.kbase.toNat, k.vsh.toNat])
  let m := slotPut m 240 8 graph
  let m := slotPut m 248 8 k.mstat
  let m := slotPuts m 256 1 ((List.range 4).flatMap fun i => [k.fwdAt i, k.backAt i])
  let m := slotPuts m 264 8 (KWait.words ((k.kwait.map fun w => w.stopped now).or k.cutKwait))
  let m := slotPuts m 288 8 ((k.strS :: es).flatMap fun e =>
    [e.loop0.count.toNat, e.loop0.start, e.loop1.count.toNat, e.loop1.start])
  let m := slotPuts m 1024 8 ((List.range 32).map fun i => (k.s (Fin.ofNat 32 i)).toNat)
  let m := slotPut m 1280 8 (setBit k.preds 0 true).toNat
  let m := slotPut m 1288 8 (k.strL.guardBits 4 + k.strM.guardBits 4 * 2 ^ 4 + k.strW.guardBits 4 * 2 ^ 8 +
    k.strX.guardBits 8 * 2 ^ 12)
  let m := slotPut m 1296 8 k.masks.length
  let m := slotPuts m 1312 8 ([k.strL, k.strM, k.strW].flatMap fun e => (List.range 16).flatMap fun i => (e.qr i).words)
  let m := (List.range 4).foldl (fun m i =>
    let q := findD k.sq i []
    slotPuts m (4096 + 520 * i) 8 (q.length :: q.map BitVec.toNat)) m
  let m := (List.range 2).foldl (fun m i =>
    let q := findD k.rq i []
    slotPuts m (6176 + 136 * i) 8 (q.length :: q.map BitVec.toNat)) m
  let m := slotPuts m 8192 4 ((List.range 63).map fun i => (findD k.pantry i 0).toNat)
  let m := slotPuts m 8448 8 ((List.range 8).map fun i => (findD k.mail i {}).word.toNat)
  let m := slotPut m 8512 1 ((List.range 8).foldl (fun v i => v + num (findD k.mail i {}).full * 2 ^ i) 0)
  let m := slotPuts m 16384 1024 (k.masks.reverse.map BitVec.toNat)
  let m := (List.range 16).foldl (fun m i => slotPuts m (32768 + 24576 * i) 4 ((k.accAt i).cells.map BitVec.toNat)) m
  if basin then m ++ k.basin.map fun c => (c.1 + 524288, c.2) else m

/-- The bytes of a slot that hold a unit of a stream's registers, queues and FIFOs (R197, R202). -/
def unitBytes (st : Stream) (u : RegUnit) : List (Nat × Nat) :=
  let q (j n : Nat) : Nat × Nat := (1312 + 768 * j + 8 * n, 1320 + 768 * j + 8 * n)
  match st, u with
  | .S, .reg n => [(1024 + 8 * n, 1032 + 8 * n)]
  | .L, .reg n => [q 0 n]
  | .M, .reg n => [q 1 n]
  | .W, .reg n => [q 2 n]
  | .X, .reg n => [(8192 + 4 * n, 8196 + 4 * n)]
  | .S, .queues => [(6176, 6448)]
  | st, .queues => [(3576 + 520 * streamNum st, 4096 + 520 * streamNum st)]
  | .S, .fifos => []
  | st, .fifos => [(256 + 2 * inPair st, 257 + 2 * inPair st), (257 + 2 * outPair st, 258 + 2 * outPair st)]

/-- The poisoned units of a stream's registers, queues and FIFOs. -/
def Core.badUnits (k : Core) (st : Stream) : List RegUnit :=
  (match st with
    | .S => k.sregBad.map .reg
    | .X => k.pantryBad.map .reg
    | _ => []) ++ (k.eng st).regsBad

/-- The bytes of a slot that hold poisoned data: registers, queues and FIFOs, an accumulator, a basin row (R202). -/
def Core.slotBad (k : Core) (basin : Bool) : List (Nat × Nat) :=
  (streams.flatMap fun st => (k.badUnits st).flatMap (unitBytes st)) ++
  ((List.range 16).filter fun i => (k.accAt i).bad).map (fun i => (32768 + 24576 * i, 32768 + 24576 * (i + 1))) ++
  if basin then k.basinBad.map fun r => (524288 + 32 * r, 524288 + 32 * r + 32) else []

/-- Whether poison of a slot lies where a restore moves it along, and reads none of it (R202, log 16). -/
def slotMoves (b : Nat × Nat) : Bool :=
  decide (524288 ≤ b.1) || (decide (32768 ≤ b.1) && decide (b.2 ≤ 425984)) || (decide (1024 ≤ b.1) && decide (b.2 ≤ 1280)) ||
    (decide (1312 ≤ b.1) && decide (b.2 ≤ 3648)) || (decide (4096 ≤ b.1) && decide (b.2 ≤ 6464)) ||
    (decide (8192 ≤ b.1) && decide (b.2 ≤ 8448))

/-- Whether some intervals meet [lo, hi). -/
def meets (bad : List (Nat × Nat)) (lo hi : Nat) : Bool := bad.any fun b => b.1 < hi && decide (lo < b.2)

/-- A field of a slot as a number. -/
def slotGet (m : Mem) (off n : Nat) : Nat := leNat (Mem.readN m off n)

/-- Whether a value keeps the map of `vsh` (R333): its reset value, or a lane count and a format. -/
def shapeMap (v : Nat) : Bool :=
  v == 0 || (decide (v < 2 ^ 32) && fld v 22 10 == 0 && fld v 5 3 == 0 && 1 ≤ fld v 8 14 && decide (fld v 8 14 ≤ 8192) &&
    decide (fld v 0 5 < 0x12) && fld v 0 5 != 6)

/-- The bits that each word of the trap record may hold, in the order of the slot (R191). -/
def recordBits : List Nat := [11, 3, 16, 48] ++ List.replicate 5 48 ++ List.replicate 5 64

/-- The offset at which a slot is invalid, if it is (R199, and the wider list of R365 for `ctxld`). -/
def slotFault (m : Mem) (ctxld : Bool) : Option Nat :=
  let dom (i : Nat) : Nat := slotGet m (168 + 8 * i) 8
  let checks : List (Nat × Bool) :=
    [(0, slotGet m 0 4 != 1), (4, ctxld && 8 ≤ slotGet m 4 4)] ++
    (recordBits.zipIdx.map fun b => (8 + 8 * b.2, ctxld && decide (2 ^ b.1 ≤ slotGet m (8 + 8 * b.2) 8))) ++
    [(120, slotGet m 120 8 &&& 0x3FC != slotGet m 120 8)] ++
    ((List.range 4).map fun i => (168 + 8 * i, ctxld && (2 ^ 40 ≤ dom i || fld (dom i) 3 4 != 0 || 4 < dom i % 8))) ++
    [(200, ctxld && 2 ^ 32 ≤ slotGet m 200 8), (208, ctxld && (fld (slotGet m 208 8) 10 2 != 0 || 512 < slotGet m 208 8 % 1024)),
      (216, ctxld && 2 ^ 16 ≤ slotGet m 216 8), (224, ctxld && fld (slotGet m 224 8) 1 7 != 0),
      (232, ctxld && !shapeMap (slotGet m 232 8)),
      (248, ctxld && (2 ^ 40 ≤ slotGet m 248 8 || fld (slotGet m 248 8) 17 7 != 0))] ++
    ((List.range 8).map fun i => (256 + i, decide (32 < slotGet m (256 + i) 1))) ++
    [(1296, decide (16 < slotGet m 1296 8 % 32) || (ctxld && 32 ≤ slotGet m 1296 8))] ++
    ((List.range 4).map fun i => (4096 + 520 * i, decide (64 < slotGet m (4096 + 520 * i) 8))) ++
    ((List.range 2).map fun i => (6176 + 136 * i, decide (16 < slotGet m (6176 + 136 * i) 8)))
  (checks.find? Prod.snd).map Prod.fst

/-- A loop register from a slot. -/
def slotLoop (m : Mem) (i : Nat) : Loop :=
  ⟨BitVec.ofNat 32 (slotGet m (288 + 16 * i) 4), slotGet m (296 + 16 * i) 8⟩

/-- The stream registers of an engine from a slot. -/
def slotQs (m : Mem) (j : Nat) : Store QReg :=
  (List.range 16).map fun i =>
    let o := 1312 + 768 * j + 48 * i
    (i, ⟨dw (slotGet m o 8), dw (slotGet m (o + 8) 8), dw (slotGet m (o + 16) 8), dw (slotGet m (o + 24) 8),
      dw (slotGet m (o + 32) 8), dw (slotGet m (o + 40) 8)⟩)

/-- A queue from a slot. -/
def slotQueue (m : Mem) (o : Nat) : List DWord :=
  (List.range (slotGet m o 8)).map fun i => dw (slotGet m (o + 8 + 8 * i) 8)

def Dom.ofValue (v : Nat) : Dom := ⟨fld v 32 8, fld v 8 24, bit v 7, v % 8⟩

/-- A register of at most `n` bits from a slot; bits that its map reserves read zero (R5). -/
def slotReg (m : Mem) (off n : Nat) : DWord := dw (slotGet m off 8 % 2 ^ n)

/-- The trap record from a slot (R191, R197). -/
def slotRecord (m : Mem) : Record :=
  let r (i : Nat) : DWord := slotReg m (8 + 8 * i) (recordBits.getD i 64)
  { tcause := r 0, tstream := r 1, tpc := r 2, tseq := r 3, tcut := (List.range 5).map fun i => (i, r (4 + i))
    top := (List.range 4).map fun i => (i, r (9 + i)), tval := r 13 }

/-- The units of a list that a slot's poisoned bytes meet. -/
def slotUnits (bad : List (Nat × Nat)) (st : Stream) (us : List RegUnit) : List RegUnit :=
  us.filter fun u => (unitBytes st u).any fun b => meets bad b.1 b.2

/-- An engine as a slot restores it: its image, program counter, sequence number, pending gives and guards. Whether it stands
halted, and which word made its pending gives, is what the Hall kept; with nothing kept it starts, and the gives are of the
word before the cut (log 16). -/
def slotEngine (m : Mem) (img : List Word) (j : Nat) (guards : Nat) (q : Store QReg) (bad : List RegUnit) (old : Option Engine) :
    Engine :=
  let pc := slotGet m (128 + 8 * j) 8 % 2 ^ 16
  let seq := slotGet m (40 + 8 * j) 8 % 2 ^ 48
  let base : Engine := match old with
    | some e => { e with img := img }
    | none => { img := img, halted := img.isEmpty, givePc := pc - 4, giveSeq := (seq + 2 ^ 48 - 1) % 2 ^ 48 }
  { base with
    pc := pc, seq := seq, gs := bit (slotGet m 120 8) (2 * j), gp := bit (slotGet m 120 8) (2 * j + 1)
    guards := BitVec.ofNat 8 guards, loop0 := slotLoop m (2 * j), loop1 := slotLoop m (2 * j + 1), q := q
    regsBad := bad, bad := [], wait := none, drain := none, walks := none, issued := false, wordF := 0, wordB := 0
    got := [], early := none, twins := [], spec := [] }

/-- The wait that a slot records (R200). -/
def slotWait (m : Mem) (now : Nat) : Option KWait :=
  let kw := slotGet m 264 8
  if bit kw 8 then
    some { k := kw % 64, thr := slotGet m 272 8, limit := if bit kw 9 then some (slotGet m 280 8) else none, since := now }
  else none

/-- A valid slot restored onto a core, whose job, boundaries and level stay (R198, R365), with the intervals of it that are
poisoned and what the Hall kept beyond it. The pending semaphore wait is re-armed, untracked copies are gone, and CDELAY
reads zero (R377). A lookahead pass does not go on (log 59). -/
def Core.restore (k : Core) (m : Mem) (bad : List (Nat × Nat)) (imgs : List (List Word)) (now : Nat) (free : DWord)
    (rest : Option Core) : Core :=
  let img (j : Nat) : List Word := imgs.getD j []
  let old (st : Stream) : Option Engine := rest.map fun r => r.eng st
  let g := slotGet m 1288 8
  let tvec := slotGet m 216 8
  let thnd := bit (slotGet m 4 4) 2
  let mode := slotGet m 248 8
  let units (st : Stream) : List RegUnit :=
    slotUnits bad st ((if st = .S || st = .X then [] else (List.range 96).map .reg) ++ [.queues, .fifos])
  let s := slotEngine m (img 0) 0 0 [] (units .S) (old .S)
  -- a handler's own wait and the one that its trap broke share the slot's place
  let broken := thnd && (rest.map fun r => r.kwait.isNone && r.cutKwait.isSome) == some true
  { k with
    trapRec := slotRecord m
    -- under a handler the slot's number of S is that of its cut, and the handler's own goes on
    strS := if thnd then { s with seq := ((old .S).map Engine.seq).getD s.seq } else s
    strL := slotEngine m (img 1) 1 (fld g 0 4) (slotQs m 0) (units .L) (old .L)
    strM := slotEngine m (img 2) 2 (fld g 4 4) (slotQs m 1) (units .M) (old .M)
    strX := slotEngine m (img 3) 3 (fld g 12 8) [] (units .X) (old .X)
    strW := slotEngine m (img 4) 4 (fld g 8 4) (slotQs m 2) (units .W) (old .W)
    dom := (List.range 4).map fun i => (i, Dom.ofValue (slotGet m (168 + 8 * i) 8))
    tokwd := slotReg m 200 32, lkahead := slotReg m 208 64 &&& ~~~0xC00, lkAt := none
    tvecAddr := fld tvec 2 14, tvecEn := bit tvec 0, thnd := thnd
    cutPc := if thnd then (rest.map Core.cutPc).getD (4 * (free.toNat % 2 ^ 14)) else 0
    cutSeq := slotGet m 40 8 % 2 ^ 48
    cutKwait := if broken then slotWait m now else (rest.bind Core.cutKwait).map fun w => w.rearmed now
    cutLoop0 := (rest.map Core.cutLoop0).getD (slotLoop m 0)
    cutLoop1 := (rest.map Core.cutLoop1).getD (slotLoop m 1)
    kbase := slotReg m 224 64 &&& ~~~0xFE, vsh := BitVec.ofNat 32 (slotGet m 232 8) &&& 0x3FFF1F
    graph := dw (slotGet m 240 8)
    replays := fld mode 24 16, asat := bit mode 16
    fwd := (List.range 4).map fun i => (i, slotGet m (256 + 2 * i) 1)
    back := (List.range 4).map fun i => (i, slotGet m (257 + 2 * i) 1)
    kwait := if broken then none else slotWait m now
    sreg := (List.range 32).map fun i => (i, if i = 0 then 0 else dw (slotGet m (1024 + 8 * i) 8))
    sregBad := (List.range 32).filter fun i => meets bad (1024 + 8 * i) (1032 + 8 * i)
    pantryBad := (List.range 63).filter fun i => meets bad (8192 + 4 * i) (8196 + 4 * i)
    preds := BitVec.ofNat 8 (slotGet m 1280 8)
    masks := ((List.range (slotGet m 1296 8 % 32)).map fun i => BitVec.ofNat 8192 (slotGet m (16384 + 1024 * i) 1024)).reverse
    sq := (List.range 4).map fun i => (i, slotQueue m (4096 + 520 * i))
    rq := (List.range 2).map fun i => (i, slotQueue m (6176 + 136 * i))
    pantry := (List.range 63).map fun i => (i, BitVec.ofNat 32 (slotGet m (8192 + 4 * i) 4))
    mail := (List.range 8).map fun i => (i, { word := dw (slotGet m (8448 + 8 * i) 8), full := bit (slotGet m 8512 1) i })
    acc := (List.range 16).map fun i => (i, ⟨bit mode i,
      (List.range 6144).map (fun j => BitVec.ofNat 32 (slotGet m (32768 + 24576 * i + 4 * j) 4)),
      meets bad (32768 + 24576 * i) (32768 + 24576 * (i + 1))⟩)
    basin := if bit (slotGet m 4 4) 0 then
        rising 0 (cut m 524288 basinEnd) else []
    basinBad := if bit (slotGet m 4 4) 0 then
        ((touched 32 0 (within 524288 basinEnd bad)).eraseDups) else []
    copies := k.copies.filter fun e => e.2.kind != .untracked
    cdelay := 0, stopping := none }

end Sys2Proof.Machine
end

