-- ==== Sys2Proof/Machine/Hall.lean ====
section
/-! DEFINITION. The Hall's operations: events and waiters (04_hall R64-R67), job states (R61-R63), placement
(R68, R69), loading (R62), and how cores leave a job (R76, R77, 11_traps R192, R197). -/

namespace Sys2Proof.Machine

/-! ## Events (R64-R67) -/

/-- Address of an event's entry in the event region (R67). -/
def eventVa (q : Partition) (e : Nat) : Nat := fld q.evbase.toNat 21 43 * 2 ^ 21 + 16 * e

def Partition.hasEvents (q : Partition) : Bool := bit q.evbase.toNat 0

/-- A write by the Hall in the event region; one whose page no longer translates is not made (log 19). -/
def State.hallWrite (s : State) (p va : Nat) (bs : List Byte) : State :=
  match s.writeVia p true (va % 2 ^ 64) bs with
  | .ok s => s
  | .error _ => s

/-- Waiters in the hardware list of a cached entry (R66). -/
def listCap : Nat := 4

/-- Waiters with the places that R66 gives them, behind those before: the first four of a cached event that are not met stand
in its hardware list, and every other one in the chain, in a record of its own of the 4,096 of the event region. -/
def Partition.place (q : Partition) : List Waiter → List Waiter → List Waiter
  | _, [] => []
  | before, w :: ws =>
    let ahead := before.filter fun v => v.ev == w.ev && !v.met
    let w := if w.met || ((find q.events w.ev).isSome && decide (ahead.length < listCap)) then { w with slot := none }
      else
        let used := (before ++ ws).filterMap Waiter.slot
        { w with slot := w.slot.or ((List.range 4096).find? fun n => !used.contains n) }
    w :: q.place (before ++ [w]) ws

/-- The records of an event's chain, the oldest waiter's first. -/
def chainOf (ws : List Waiter) (e : Nat) : List Nat := (ws.filter fun w => w.ev == e).filterMap Waiter.slot

/-- Write the chain of an event into the event region: its head, and its records of 16 bytes. The spec gives places and sizes,
and no contents: they are free values (R66, R67, log 19). -/
def State.writeChain (s : State) (p e : Nat) (chain : List Nat) : State :=
  let q := s.partAt p
  let (n, s) := s.draw
  let free (i : Nat) : List Byte := toLe 8 (Config.freeBits n i).toNat
  chain.zipIdx.foldl (fun s x => s.hallWrite p (eventVa q 0 + 2 ^ 20 + 16 * x.1) (free (2 * x.2 + 1) ++ free (2 * x.2 + 2)))
    (s.hallWrite p (eventVa q e + 8) (free 0))

/-- Replace a partition's waiters: each has its place, and every chain that changes is written (R66). -/
def State.setWaiters (s : State) (p : Nat) (ws : List Waiter) : State :=
  let q := s.partAt p
  let new := q.place [] ws
  let changed := ((q.waiters ++ new).map Waiter.ev).eraseDups.filter fun e => chainOf q.waiters e != chainOf new e
  changed.foldl (fun s e => s.writeChain p e (chainOf new e)) (s.setPart p { q with waiters := new })

/-- The die of a partition's lead Hall: the lowest-numbered one that holds one of its wings (04_hall). -/
def State.leadDie (s : State) (p : Nat) : Nat := ((List.range 12).find? fun w => findD s.dev.wings w 0xFF == p).getD 0 / 3

/-- The event entries that the lead Hall of a partition caches, of every partition that it serves. -/
def State.hallCache (s : State) (p : Nat) : List (Nat × Nat) := s.dev.evCache.filter fun x => s.leadDie x.1 == s.leadDie p

/-- Entries that a Hall's event cache holds (R66). -/
def eventCap : Nat := 8192

/-- A cached entry leaves: its count is written back, and its waiters move to the head of its chain (R66). -/
def State.writeBackEvent (s : State) (p e : Nat) : State :=
  let q := s.partAt p
  let s := (s.hallWrite p (eventVa q e) (toLe 4 (findD q.events e 0))).onPart p fun q => { q with events := del q.events e }
  (s.onDev fun d => { d with evCache := d.evCache.erase (p, e) }).setWaiters p (s.partAt p).waiters

/-- A free entry in the event cache of a Hall: when it is full, the entry that came first is written back and leaves (R66,
log 19). -/
def State.roomForEvent (s : State) (p : Nat) : State :=
  match s.hallCache p with
  | [] => s
  | (v, e) :: rest => if rest.length + 1 < eventCap then s else s.writeBackEvent v e

/-- Bring an event's entry into the cache: a miss fetches it from the event region (R66). What a count reads as when its
page does not translate is not stated: a free value (log 3). A program's store to an entry that is not cached stands there until
the entry is written back, and R67 has it without effect on events: the fetch by R66 of an entry so stored to reads the stored
count (DESIGN CHOICE, log 19). -/
def State.touchEvent (s : State) (p e : Nat) : State :=
  if (find (s.partAt p).events e).isSome then s
  else
    let va := eventVa (s.partAt p) e
    let (n, s) : Nat × State := match s.readVia p true needRd va 1 with
      | .ok b => (leNat b, s.askPages p true needRd va 4)
      | .error _ => ((Config.freeBits s.freeCount e).toNat % 2 ^ 32, s.draw.2)
    let s := ((s.roomForEvent p).onPart p fun q => { q with events := put q.events e n }).onDev fun d =>
      { d with evCache := d.evCache ++ [(p, e)] }
    s.setWaiters p (s.partAt p).waiters

/-- The count of a cached event. -/
def State.eventCount (s : State) (p e : Nat) : Nat := findD (s.partAt p).events e 0

/-- Write a job's state word at its home (R61); a write whose page no longer translates is not made (log 19). -/
def State.writeStateWord (s : State) (p j : Nat) : State :=
  match s.jobAt p j with
  | none => s
  | some b =>
    if !b.disp.isEmpty then s
    else match s.writeBytesVia p b.launchSup b.stateVa (toLe 8 (b.state * 2 ^ 56 + b.cause * 2 ^ 48 + j % 2 ^ 32)) with
      | .ok s => s
      | .error _ => s

def State.setJobState (s : State) (p j st cause : Nat) : State :=
  match s.jobAt p j with
  | none => s
  | some b => (s.setJob p j { b with state := st, cause := cause }).writeStateWord p j

/-- A job whose waits are all met becomes READY (R62, R65). -/
def State.readyJob (s : State) (p j : Nat) : State :=
  match s.jobAt p j with
  | none => s
  | some b =>
    ((s.setJob p j { b with age := s.now, readySince := s.now }).setJobState p j 2 0).post (.placement p)

/-- Test an event's waiters in registration order after a change (R65). -/
def State.testWaiters (s : State) (p e n : Nat) : State :=
  let met (w : Waiter) : Bool := w.ev == e && decide (w.thr ≤ n) && !w.met
  let q := s.partAt p
  let hit := q.waiters.filter met
  let rest := q.waiters.filterMap fun w =>
    if met w then (match w.who with
      | .job _ => none
      | .stream _ => some { w with met := true }) else some w
  let s := s.setWaiters p rest
  hit.foldl (fun s w => match w.who with
    | .stream _ => s
    | .job j => if (s.partAt p).waiters.any fun v => v.who == .job j then s else s.readyJob p j) s

/-- Replace an event's count (R64). -/
def State.setEvent (s : State) (p e n : Nat) : State :=
  if (s.partAt p).hasEvents then
    ((s.touchEvent p e).onPart p fun q => { q with events := put q.events e n }).testWaiters p e n
  else s

/-- Add to an event's count, with saturation (R64). -/
def State.addEvent (s : State) (p e n : Nat) : State :=
  let s := if (s.partAt p).hasEvents then s.touchEvent p e else s
  s.setEvent p e (min (s.eventCount p e + n) 0xFFFFFFFF)

/-- Write back every cached event entry to the event region, the waiters of each to its chain (R66, R67). -/
def State.flushEvents (s : State) (p : Nat) : State :=
  (s.partAt p).events.foldl (fun s e => s.writeBackEvent p e.1) s

/-! ## Jobs that end -/

/-- The registered core of a job core index that is on a core. -/
def Job.onCores (b : Job) : List Nat := b.idx.filterMap fun e => e.2.core

/-- The slot address of a job core index (R197). -/
def slotVa (b : Job) (j : Nat) : Nat := (b.ctxVa + 8388608 * j) % 2 ^ 64

/-- Record an asynchronous fault of a job that has ended in the context save area of its core (R196). -/
def State.recordLate (s : State) (p jidx : Nat) (b : Job) (t : Trap) : State :=
  if b.ctxVa = 0 then s
  else
    let va := slotVa b jidx
    let put' (s : State) (off : Nat) (bs : List Byte) : State :=
      match s.writeVia p b.sup ((va + off) % 2 ^ 64) bs with
      | .ok s => s
      | .error _ => s
    let flags := match s.readVia p b.sup needRd ((va + 4) % 2 ^ 64) 1 with
      | .ok x => leNat x
      | .error _ => 0
    let s := put' s 4 (toLe 4 (flags ||| 2))
    let s := put' s 8 ([t.code + 2 ^ 8, streamNum t.stream, t.pc, t.seq].flatMap (toLe 8))
    put' s 80 (((List.range 4).map fun i => (t.ops.getD i 0).toNat).flatMap (toLe 8) ++ toLe 8 t.val.toNat)

/-- The faults that an ended job's indices still keep are recorded (R196). -/
def State.recordKept (s : State) (p : Nat) (b : Job) : State :=
  b.idx.foldl (fun s x => x.2.kept.foldl (fun s t => if t.async then s.recordLate p x.1 b t else s) s) s

/-- End a job: its state word, its completion event, and room for others (R61-R63). -/
def State.endJob (s : State) (p j st cause : Nat) : State :=
  match s.jobAt p j with
  | none => s
  | some b =>
    let s := b.onCores.foldl (fun s c => s.onCore c fun k => { k with run := .idle, yieldAt := none }) s
    let s := s.recordKept p b
    let s := s.setJob p j { b with idx := mapVals b.idx fun _ x => { x with core := none, kept := [], rest := none } }
    let s := s.onPart p fun q => { q with arrivals := q.arrivals.filter fun a => a.job != j }
    let s := s.setWaiters p ((s.partAt p).waiters.filter fun w => match w.who with
      | .job k => k != j
      | .stream c => !b.onCores.contains c)
    let s := s.setJobState p j st cause
    let s := match b.compl with
      | some e => s.addEvent p e 1
      | none => s
    s.post (.placement p)

/-- A copy with a basin side that has not completed: its completion word and signal are still to come, or, where it faulted,
it still moves bytes (R196, R287). -/
def Op.holdsBasin (o : Op) (c : Nat) : Bool :=
  o.core == c && !o.faulted && (match o.kind with
    | .copy (.basin _) _ _ => true
    | .copy _ (.basin _) _ => true
    | _ => false)

def State.basinBusy (s : State) (c : Nat) : Bool := s.dev.ops.any fun o => o.2.holdsBasin c

/-- What core `c` waits for is given up: its event waiter, its barrier arrival and its place among the senders
of a mailbox (R65, R97, R219). -/
def State.leaveQueues (s : State) (c : Nat) : State :=
  let p := (s.coreAt c).part
  let s := if (s.partAt p).waiters.any fun w => w.who == .stream c then
      s.setWaiters p ((s.partAt p).waiters.filter fun w => w.who != .stream c)
    else s
  s.onPart p fun q => { q with
    arrivals := q.arrivals.filter fun a => a.core != c
    jobs := mapVals q.jobs fun _ b =>
      if b.senders.any fun x => x.2.2 == c then { b with senders := b.senders.filter fun x => x.2.2 != c } else b }

/-- What the Hall keeps of a core that it saves, beyond the slot: which streams stand halted, the words that made pending
gives, S's own cut under a handler, and a wait that the trap broke (R192, R194, R195, R198; log 16). -/
def Core.beyondSlot (k : Core) (now : Nat) : Core :=
  { strS := { k.strS with img := [] }, strL := { k.strL with img := [] }, strM := { k.strM with img := [] }
    strX := { k.strX with img := [] }, strW := { k.strW with img := [] }
    cutPc := k.cutPc, cutSeq := k.cutSeq, cutLoop0 := k.cutLoop0, cutLoop1 := k.cutLoop1
    kwait := k.kwait.map fun w => w.stopped now, cutKwait := k.cutKwait }

/-- Take a core from its job: the core is free, and the index keeps a state. -/
def State.vacate (s : State) (c : Nat) (st : IdxState) : State :=
  let k := s.coreAt c
  let s := (s.evictAll c).leaveQueues c
  let s := s.onCore c fun k => { k with run := .idle, yieldAt := none, trapped := false, kept := [], kwait := none }
  match s.jobAt k.part k.job with
  | none => s
  | some b => s.setJob k.part k.job { b with idx := put b.idx k.jidx {
      core := none, st := st, kept := k.kept, rest := if st = .saved then some (k.beyondSlot s.now) else none } }

/-- After a core has left: the job ends, or is YIELDED and at once READY, when every core whose index has not
ended has left (R63, R76). -/
def State.afterLeave (s : State) (p j : Nat) : State :=
  match s.jobAt p j with
  | none => s
  | some b =>
    if !b.onCores.isEmpty then s.post (.placement p)
    else match b.ending with
      | some (st, cause) => s.endJob p j st cause
      | none =>
        if b.idx.all fun e => e.2.st == .ended then s.endJob p j 6 0
        else
          let s := s.setJobState p j 5 0
          let s := s.setJobState p j 2 0
          match s.jobAt p j with
          | none => s
          | some b => (s.setJob p j { b with readySince := s.now }).post (.placement p)

/-! ## Hard pre-emption and context saving (R76, R194, R197) -/

/-- A trap of core `c` that is kept in its in-flight table (R194, R196). -/
def Trap.keptBy (t : Trap) (c : Nat) : Trap := { t with async := true, table := t.table.or (some c) }

/-- Stop a core for a hard pre-emption. M runs on under R194, unless a trap has stopped it or is stopping it; the other streams
stop at once (R192). -/
def State.preempt (s : State) (c : Nat) : State :=
  s.onCore c fun k =>
    let k := [Stream.S, .L, .X, .W].foldl Core.stopStream k
    { k with
      run := .preempting, preemptAt := s.now, mStop := k.thnd || k.stopping.isSome, yieldAt := none, stopping := none
      kept := k.kept ++ (k.stopping.map fun t => t.keptBy c).toList }

/-- Whether M issues nothing more on a core being pre-empted: an `mret` or `msta` has retired, a trap has stopped it, or 65,536
cycles have passed (R194). -/
def Core.mStopped (k : Core) (now : Nat) : Bool := k.mStop || decide (k.preemptAt + 65536 ≤ now)

/-- Whether a core being pre-empted has stopped: M issues nothing more, or is halted, and every issued word has retired. -/
def State.preemptDone (s : State) (c : Nat) : Bool :=
  let k := s.coreAt c
  (k.mStopped s.now || k.strM.halted) && !s.basinBusy c && streams.all fun st => !(k.eng st).issued

/-- Bytes of a slot, with and without the basin image (R364). -/
def slotLen (basin : Bool) : Nat := if basin then 6815744 else 524288

/-- Stop every core of a job, which then ends with a state and cause (R24, R192). -/
def State.stopJob (s : State) (p j st cause : Nat) : State :=
  match s.jobAt p j with
  | none => s
  | some b =>
    let s := s.setJob p j { b with ending := some (st, cause) }
    b.onCores.foldl (fun s c => if (s.coreAt c).run = .running then s.preempt c else s) s

/-- Save a stopped core's context and free the core. Without a save area, or when the slot faults, the job
ends FAILED with OVERRUN, unless it is ending in a way of its own (R76, R192, R197). -/
def State.savePreempted (s : State) (c : Nat) : State :=
  let s := s.onCore c fun k => k.discardAll
  let s := (s.evictAll c).calm
  let k := s.coreAt c
  match s.jobAt k.part k.job with
  | none => s.vacate c .saved
  | some b =>
    let away (s : State) : State := (s.vacate c .saved).afterLeave k.part k.job
    let overrun (s : State) : State := match b.ending with
      | some (7, _) => s
      | _ => s.stopJob k.part k.job 7 3
    if b.ctxVa = 0 then away (if b.ending.isSome then s else overrun s)
    else match s.bulkStore (fun va => s.xlateFor k.part b.sup va needWr) none (slotVa b k.jidx) (slotLen true)
        (k.slot s.now k.graph.toNat true k.trapped k.thnd k.strS.pc) (k.slotBad true) with
      | .ok s => away s
      | .error (.fetch p e va) => s.requestFetch p e va none
      | .error _ => away (overrun s)

/-! ## Placement (R68, R69, R77) -/

/-- The cores of a partition on which the Hall may place: none while the dies have no power (R13). -/
def State.freeCores (s : State) (p : Nat) : List Nat :=
  let used := (s.partAt p).jobs.flatMap fun b => b.2.onCores
  if s.dev.phase = .stopped then []
  else (s.partCores p).filter fun c => (s.coreAt c).run == .idle && !used.contains c

/-- Job core indices that have not ended (R77). -/
def Job.live (b : Job) : List Nat := (b.idx.filter fun e => e.2.st != .ended).map Prod.fst

/-- Whether a job is older than another READY job: age, then job number (R68). -/
def older (a b : Nat × Job) : Bool := decide (a.2.age < b.2.age) || (a.2.age == b.2.age && decide (a.1 < b.1))

/-- The first of a list under an order. -/
def bestOf {α : Type} (lt : α → α → Bool) : List α → Option α
  | [] => none
  | x :: xs => match bestOf lt xs with
    | none => some x
    | some y => if lt y x then some y else some x

/-- The candidate of the next placement (R68): once chosen, it stays until it fits (R69). -/
def State.candidate (s : State) (p : Nat) : Option (Nat × Job) :=
  let q := s.partAt p
  let ready := q.jobs.filter fun b => b.2.state == 2
  match ready.find? fun b => some b.1 == q.chosen with
  | some b => some b
  | none =>
  if (q.placements + 1) % 16 = 0 then bestOf older ready
  else bestOf (fun a b => decide (a.2.prio < b.2.prio) || (a.2.prio == b.2.prio && older a b)) ready

/-- Cores in first-fit order: preferred wings of the partition, then its other wings (R69). -/
def firstFit (affinity : Nat) (cs : List Nat) : List Nat :=
  (cs.filter fun c => affinity.testBit (c / 12)) ++ cs.filter fun c => !affinity.testBit (c / 12)

/-! ## Loading and starting (R62, R77, R198) -/

/-- The image entry of a job core index (R57). -/
def Job.imagesOf (b : Job) (j : Nat) : Images := b.images.getD (if b.shared then 0 else j) ⟨[], []⟩

/-- The five images of a job core index, read at job level (R62). -/
def State.readImages (s : State) (p : Nat) (b : Job) (j : Nat) : Res (List (List Word)) :=
  if !b.disp.isEmpty then .ok [b.disp, [], [], [], []]
  else
    let e := b.imagesOf j
    (List.range 5).mapM fun i => do
      let bs ← s.readFor p b.sup (e.addr.getD i 0) (e.len.getD i 0)
      pure (wordsOf bs)

/-- The resident tiles of a job core index, as basin writes; none when a tensor is gone or a tile poisoned (R58,
R62). -/
def State.readResidents (s : State) (p : Nat) (b : Job) (j : Nat) : Option (List (Nat × List Byte)) :=
  let q := s.partAt p
  (b.residents.filter fun r => r.sel == 0x7FFF || r.sel == j).mapM fun r =>
    match find q.tensors r.handle with
    | none => none
    | some t =>
      match find t.hists r.hist with
      | none => none
      | some h =>
        let v := h.tip t.ty r.tile
        if q.tilePoison h r.tile then none
        else some (r.dest, toLe (tileBytes t.ty) v.data ++ if isMx t.ty then toLe 1 v.scale else [])

/-- The resident tiles that an index reads count as reads for automatic squash (R132). -/
def State.noteResidents (s : State) (p : Nat) (b : Job) (j : Nat) : State :=
  s.onPart p fun q => (b.residents.filter fun r => r.sel == 0x7FFF || r.sel == j).foldl
    (fun q r => q.autoSquash r.handle r.hist r.tile) q

/-- A core as the Hall sets it up for a job core index (R62, R77). -/
def State.startCore (s : State) (p j c i : Nat) (b : Job) (imgs : List (List Word)) (tiles : List (Nat × List Byte)) :
    State :=
  let st := ((find b.idx i).map JobIdx.st).getD .fresh
  let graph := match st with
    | .yielded g => g
    | _ => 0
  let resumed := match st with
    | .yielded _ => true
    | _ => false
  let stream (n : Nat) : Engine := { img := imgs.getD n [], halted := (imgs.getD n []).isEmpty }
  let params := (List.range 8).map fun n => (n + 1, b.params.getD n 0)
  let old := s.coreAt c
  let k : Core := {
    run := .running, part := p, job := j, jidx := i, sup := b.sup, graph := graph
    bndV := b.bndV, bndS := b.bndS, bndP := b.bndP
    strS := stream 0, strL := stream 1, strM := stream 2, strX := stream 3, strW := stream 4
    sreg := params ++ [(9, dw i), (10, graph), (11, if resumed then 1 else 0)]
    back := (List.range 4).map fun n => (n, b.tokens.getD n 0)
    rsvdWr := false, gauges := old.gauges, freezeFrom := old.freezeFrom, freezeEnd := old.freezeEnd
    residue := old.residue, guesses := old.guesses, misses := old.misses
    kept := ((find b.idx i).map JobIdx.kept).getD [] }
  let k := tiles.foldl (fun k t => k.putBasin t.1 t.2) k
  s.setCore c k

end Sys2Proof.Machine
end

