-- ==== Sys2Proof/Machine/Ops.lean ====
section
/-! DEFINITION. Taking an exception and returning from it (11_traps R190-R196), tokens and queues (05_streams
R82-R88), and the frames in which the words of each stream issue and retire (R79, R94, R95, R193). -/

namespace Sys2Proof.Machine

/-- The outcome of a meaning. -/
abbrev Out := Host.Outcome State Fault Refusal

/-! ## Failures and retirement (R23, R24) -/

/-- Charge a core with a failure of one of its parts now; a third failure less than 2^40 cycles after the first of the
three retires the core, which the trap of that failure then stops (R23, R24). -/
def State.charge (s : State) (c : Nat) (f : Fatal) : State :=
  let fs := (findD s.dev.failures c []) ++ [s.now]
  let last := fs.drop (fs.length - 3)
  let gone := last.length == 3 && decide (s.now - last.headD 0 < 2 ^ 40) && !s.dev.retired.contains c
  let s := s.onDev fun d => { d with
    failures := put d.failures c fs
    retired := if gone then d.retired ++ [c] else d.retired }
  if gone then s.onCore c fun k => { k with fatal := some f } else s

/-- Whether a trap is that of the failure that has retired its core (R24). -/
def Core.ownFailure (k : Core) (t : Trap) : Bool :=
  match k.fatal with
  | some f => t.sites.contains f
  | none => false

/-! ## Taking a trap (R191-R194) -/

/-- The record of R191 for a trap taken by a core whose streams stand at their cuts. -/
def Core.fillRecord (k : Core) (t : Trap) : Core :=
  { k with trapRec :=
    { tcause := dw (t.code % 256 + num t.async * 2 ^ 8 + num t.held * 2 ^ 9 + num k.thnd * 2 ^ 10)
      tstream := dw (streamNum t.stream)
      tpc := dw (t.pc % 2 ^ 16)
      tseq := dw (t.seq % 2 ^ 48)
      tcut := streams.map fun st => (streamNum st, dw (k.eng st).seq)
      top := (List.range 4).map fun i => (i, t.ops.getD i 0)
      tval := t.val } }

/-- Every stream's wait is broken when it stops. -/
def Core.breakWaits (k : Core) : Core :=
  streams.foldl (fun k st => k.onEng st fun e =>
    { e with wait := none, drain := none, walks := none, issued := false, got := [] }) k

/-- S enters the handler (R192 step 2); what it holds at its cut is kept (R193). -/
def Core.enterHandler (k : Core) (now : Nat) : Core :=
  { k with
    thnd := true, cutPc := k.strS.pc, cutSeq := k.strS.seq, cutLoop0 := k.strS.loop0, cutLoop1 := k.strS.loop1
    cutKwait := k.kwait.map fun w => w.stopped now, kwait := none
    strS := { k.strS with pc := 4 * (k.tvecAddr % 2 ^ 14) } }

/-- An unhandled trap: the Hall stops every core of the job, saves their contexts where there is a save
area, and ends the job: FAILED with CORE_RETIRED where the trap is that of the failure that retired the core, DONE else
(R24, R192 step 5). -/
def State.unhandled (s : State) (c : Nat) (own : Bool) : State :=
  let k := s.coreAt c
  let s := s.preempt c
  let s := s.onCore c fun x => { x with trapped := true, mStop := true }
  if own then s.stopJob k.part k.job 7 4 else s.stopJob k.part k.job 6 0

/-- A trap is taken by a core whose issued words have retired (R192). A failure that retires its core and whose trap never
comes, because its poison is overwritten or its iteration discarded, leaves the core running until its job ends: the spec
does not say (DESIGN CHOICE, log 14). -/
def State.trapNow (s : State) (c : Nat) (t : Trap) : State :=
  let k := ((s.coreAt c).discardAll).fillRecord t
  let s := s.setCore c k.breakWaits
  let s := s.leaveQueues c
  if k.tvecEn && !k.thnd && !k.ownFailure t then s.onCore c fun k => k.enterHandler s.now
  else s.unhandled c (k.ownFailure t)

/-- Whether a word that a trap does not name has issued and still runs to its retirement (R194). -/
def Core.unretired (k : Core) (t : Trap) : Bool := streams.any fun st => (t.async || st != t.stream) && (k.eng st).issued

/-- The word that a precise trap names does not retire: it is not issued any more, and its tokens return (R193). -/
def Core.dropWord (k : Core) (t : Trap) : Core := if t.async then k else k.unissue t.stream

/-- Keep a trap in the in-flight table of its core (R194, R196); M, under a hard pre-emption, stops for a trap of its core's
words. -/
def State.keepTrap (s : State) (c : Nat) (t : Trap) : State :=
  s.onCore c fun k => { k.dropWord t with kept := k.kept ++ [t.keptBy c], mStop := k.mStop || !t.async }

/-- The trap of a failure that retires its core, met while the core is being pre-empted: it is unhandled whatever TVEC holds,
so the core's slot carries it and the job ends FAILED with CORE_RETIRED (R24, R192). -/
def State.retireStopped (s : State) (c : Nat) (t : Trap) : State :=
  let k := s.coreAt c
  (s.setCore c { (k.dropWord t).fillRecord t with trapped := true, mStop := true }).stopJob k.part k.job 7 4

/-- Take a trap: the one entry that every cause uses. Its core's iterations are discarded, and it waits for the words that
have issued. A core that is not running or is already stopping, and a handler or a frozen core that meets an asynchronous
fault, keep it in the in-flight table, from which it is raised later (R194, R196). The trap of a failure that retires its core
goes before another for which the core is stopping: the spec gives such two no order (DESIGN CHOICE, log 14). -/
def State.takeTrap (s : State) (c : Nat) (t : Trap) : State :=
  let k := s.coreAt c
  if k.ownFailure t && k.run == .preempting then s.retireStopped c t
  else if k.run ≠ .running || (k.stopping.isSome && !k.ownFailure t) || ((k.thnd || k.freezeEnd.isSome) && t.async) then
    s.keepTrap c t
  else
    let k := { (k.dropWord t).discardAll with
      stopping := none, kept := k.kept ++ (k.stopping.map fun (x : Trap) => x.keptBy c).toList }
    if k.unretired t then s.setCore c { k with stopping := some t } else (s.setCore c k).trapNow c t

/-- A core that is stopping takes its trap once its issued words have retired. -/
def State.endStop (s : State) (c : Nat) : State :=
  match (s.coreAt c).stopping with
  | none => s
  | some t => if (s.coreAt c).unretired t then s else (s.onCore c fun k => { k with stopping := none }).trapNow c t

/-- Return from the handler: S resumes at its cut; the other streams, which kept theirs, restart (R192 step 3,
R363). -/
def State.returnFromTrap (s : State) (c : Nat) : State :=
  s.onCore c fun k => { k with
    thnd := false, kwait := k.cutKwait.map fun w => w.rearmed s.now, cutKwait := none
    strS := { k.strS with pc := k.cutPc, seq := k.cutSeq, loop0 := k.cutLoop0, loop1 := k.cutLoop1, wait := none } }

/-! ## Waits and stops of an instruction -/

/-- The watchdog limit of a core (R98). -/
def Core.limit (k : Core) : Nat := fld k.tokwd.toNat 0 32

/-- Whether two wait codes are one wait: the two takes of one word are (R98). -/
def sameWait (a b : Nat) : Bool := a == b || ((a == 1 || a == 2) && (b == 1 || b == 2))

/-- The trap of an instruction of a stream at its address and number. -/
def trapOf (st : Stream) (e : Engine) (code : Nat) (val : DWord) (ops : List DWord) : Trap :=
  { code, val, ops, stream := st, pc := e.pc, seq := e.seq, sites := if code = cSdcMatrix then [.matrix] else [] }

/-- The issued word of a stream keeps the tokens it took: it retires, or its iteration holds its fault; a speculative iteration
remembers them (R84, R91). -/
def Engine.keepTokens (e : Engine) : Engine :=
  { e with
    wordF := 0, wordB := 0, issued := false, got := []
    spec := match e.spec.getLast? with
      | none => e.spec
      | some it => e.spec.dropLast ++ [{ it with tookF := it.tookF + e.wordF, tookB := it.tookB + e.wordB }] }

/-- Hold a fault of a speculative instruction in its iteration, with the tokens that the word took (R91, R92). -/
def Engine.hold (e : Engine) (t : Trap) : Engine :=
  match e.keepTokens.spec.getLast? with
  | none => e
  | some it => { e.keepTokens with spec := e.spec.dropLast ++
      [{ it with fault := some { t with held := true }, faultF := e.wordF, faultB := e.wordB }] }

/-- Raise a precise trap of a stream's instruction, or hold it during run-ahead (R92). -/
def State.raise (s : State) (c : Nat) (st : Stream) (t : Trap) : State :=
  if (s.eng c st).spec.isEmpty then s.takeTrap c t else s.onEng c st fun e => e.hold t

/-- A wait that goes on: the watchdog traps it with TOKEN_STALL when its count reaches LIMIT (R98). -/
def State.noteWait (s : State) (c : Nat) (st : Stream) (code : Nat) (ops : List DWord) : State :=
  let k := s.coreAt c
  let e := k.eng st
  match e.wait with
  | some w =>
    if sameWait w.code code then
      if code ≠ 0 && k.limit ≠ 0 && decide (k.limit ≤ s.now - w.since) then
        let t := trapOf st e cToken (dw code) ops
        if code = 4 then s.takeTrap c t else s.raise c st t
      else s.onEng c st fun e => { e with wait := some ⟨code, w.since, ops⟩ }
    else s.onEng c st fun e => { e with wait := some ⟨code, s.now, ops⟩ }
  | none => s.onEng c st fun e => { e with wait := some ⟨code, s.now, ops⟩ }

/-- A word waits that has not issued, and holds no tokens. -/
def State.waitOn (s : State) (c : Nat) (st : Stream) (code : Nat) (ops : List DWord) : State :=
  (s.onCore c fun k => k.unissue st).noteWait c st code ops

/-- A word that has issued waits, uncounted, for memory or a history; it keeps its tokens (R83). -/
def State.waitIssued (s : State) (c : Nat) (st : Stream) (ops : List DWord) : State :=
  (s.noteWait c st 0 ops).onEng c st fun e => { e with issued := true }

/-- A wait to give that goes on: its trap names the giving instruction, which has retired (R98, R194). -/
def State.waitGive (s : State) (c : Nat) (st : Stream) : State :=
  let k := s.coreAt c
  let e := k.eng st
  match e.wait with
  | some w =>
    if w.code ≠ 3 then s.onEng c st fun e => { e with wait := some ⟨3, s.now, e.giveOps⟩ }
    else if k.limit ≠ 0 && decide (k.limit ≤ s.now - w.since) then
      s.takeTrap c { trapOf st e cToken 3 e.giveOps with pc := e.givePc, seq := e.giveSeq }
    else s
  | none => s.onEng c st fun e => { e with wait := some ⟨3, s.now, e.giveOps⟩ }

/-- An access that waits for a fetch; its miss, which is counted (R21), is answered when the walk completes (R114). -/
def State.missOn (s : State) (c : Nat) (st : Stream) (p entryPa va : Nat) : State :=
  if (s.partAt p).misses.any fun m => m.core == c && m.stream == st && m.va == va then s.requestFetch p entryPa va none
  else ((s.onCore c fun k => { k with misses := k.misses + 1 }).onPart p fun q =>
    { q with misses := q.misses ++ [⟨c, st, va, false⟩] }).requestFetch p entryPa va none

/-- What stopping does to the state, which holds no other effect of the instruction. -/
def State.stopAt (s : State) (c : Nat) (st : Stream) (ops : List DWord) : Stop → State
  | .trap code val own => s.raise c st (trapOf st (s.eng c st) code val (own.getD ops))
  | .wait code => s.waitOn c st code ops
  | .drain d => (s.onEng c st fun e => { e with drain := some d }).waitIssued c st ops
  | .busy => s.waitIssued c st ops
  | .poison off n => s.raise c st { trapOf st (s.eng c st) cPoison (dw off) ops with
      sites := ((rowsOf off n).filter fun r => (s.coreAt c).basinBad.contains r).map .basin }
  | .fetch p entryPa va => (s.missOn c st p entryPa va).waitIssued c st ops

/-! ## Releases (R156, R161, R163) -/

/-- Scopes whose release sends markers. -/
def wideScope : Scope → Bool
  | .part | .dev | .sys => true
  | _ => false

/-- Whether a cistern answers a marker of a partition: it holds no write that it accepted before. -/
def State.answers (s : State) (cistern p marker : Nat) : Bool :=
  !s.pending.any fun x => home x.req.line == cistern && x.req.part == p && decide (x.no < marker)

/-- Whether the writes before a release's marker are performed: every bank has answered it, or, at `.wing` and `.die`, the
core's own writes before it are. -/
def State.drained (s : State) (c : Nat) (sc : Scope) (d : Drain) (marker : Nat) : Bool :=
  if wideScope sc then (List.range 8).all fun b => d.answers.contains b || s.answers b (s.coreAt c).part marker
  else !s.pending.any fun x => x.req.core == some c && decide (x.no < marker)

/-- A release by a stream of core `c`: it waits until every earlier write of the core has been accepted, and then until
every bank has answered its marker, or, at `.wing` and `.die`, until the core's own writes have been performed. At `.core`
they are performed with it. -/
def State.released (s : State) (c : Nat) (st : Stream) (sc : Scope) : Res State :=
  if sc = .core then .ok (s.performOwn c)
  else
  let k := s.coreAt c
  let d := (k.eng st).drain.getD { before := s.nextWrite }
  let m := d.marker.getD s.nextWrite
  if k.stores.any fun x => decide (x.no < d.before) then .error (.drain d)
  else if s.drained c sc d m then
    .ok (if (k.eng st).drain.isNone then s else s.onEng c st fun e => { e with drain := none })
  else .error (.drain { d with marker := some m })

/-! ## Issue and retirement -/

/-- A stream past one word of `n` bytes, which took one sequence number (R193, R236). -/
def Engine.past (e : Engine) (n : Nat) : Engine :=
  { e.keepTokens with pc := e.pc + n, seq := (e.seq + 1) % 2 ^ 48, wait := none }

def State.past (s : State) (c : Nat) (st : Stream) (n : Nat) : State := s.onEng c st fun e => e.past n

/-- A result: the instruction has retired, or it has stopped with no other effect. -/
def finish (s : State) (c : Nat) (st : Stream) (ops : List DWord) : Res State → Out
  | .ok s' => .next s'
  | .error x => .next (s.stopAt c st ops x)

/-- An S word: a false predicate has no effect of any kind (R95); the body acts on the state past the word. -/
def runS (p : Pr) (ops : Core → List DWord) (body : Nat → State → Res State) (s : State) : Out :=
  let c := s.core
  let k := s.coreAt c
  if k.p p.r != p.neg then finish s c .S (ops k) (body c (s.past c .S 4))
  else .next (s.past c .S 4)

/-! ## Tokens (R82-R85) -/

/-- The stop for tokens that a word takes, if it must wait (R84, R98). -/
def Core.tokenStop (k : Core) (st : Stream) (t : Tok) : Option Nat :=
  if t.wp && k.fwdAt (inPair st) == 0 then some 1
  else if t.ws && k.backAt (outPair st) == 0 then some 2 else none

/-- A word takes its tokens, both in one cycle, before it issues (R83, R84); one that has issued has them. -/
def Core.takeTokens (k : Core) (st : Stream) (t : Tok) : Core :=
  if (k.eng st).issued then k
  else
    let k := if t.wp then { k with fwd := put k.fwd (inPair st) (k.fwdAt (inPair st) - 1) } else k
    let k := if t.ws then { k with back := put k.back (outPair st) (k.backAt (outPair st) - 1) } else k
    k.onEng st fun e => { e with wordF := num t.wp, wordB := num t.ws }

/-- What keeps a word from taking its tokens: it waits for them, or their FIFOs are poisoned, which traps it whatever its guard
says (R84, R98, R202; the spec does not say whether a false guard, which has no faults, reads a poisoned FIFO: DESIGN CHOICE, log
15). -/
def Core.takeStop (k : Core) (st : Stream) (t : Tok) : Option Stop :=
  if (k.eng st).issued then none
  else match k.tokenStop st t with
    | some code => some (.wait code)
    | none => if (t.wp || t.ws) && (k.eng st).regsBad.contains .fifos then some (.trap cPoison 0 none) else none

/-- Tokens that a stream has taken and may still return: those of its unresolved iterations, and of its issued word (R91,
R193). -/
def Engine.held (e : Engine) : Nat × Nat :=
  e.spec.foldl (fun n it => (n.1 + it.tookF + it.wordF, n.2 + it.tookB + it.wordB)) (e.wordF, e.wordB)

/-- The stream that takes from the forward FIFO of a pair, and the one that takes from the backward FIFO (R82). -/
def taker (pair : Nat) : Stream × Stream :=
  match pair with
  | 0 => (.M, .L)
  | 1 => (.X, .M)
  | 2 => (.W, .X)
  | _ => (.L, .W)

/-- Whether `n` tokens fit into the forward FIFO of a pair: the places of tokens that its taker may still return are kept
(R82, R91, log 24). -/
def Core.roomF (k : Core) (pair n : Nat) : Bool :=
  decide (k.fwdAt pair + (k.eng (taker pair).1).held.1 + n ≤ 32)

/-- The same for the backward FIFO. -/
def Core.roomB (k : Core) (pair n : Nat) : Bool :=
  decide (k.backAt pair + (k.eng (taker pair).2).held.2 + n ≤ 32)

/-- Make gives that are due, forward before backward; what meets a full FIFO stays pending (R84, R194). -/
def Core.makeGives (k : Core) (st : Stream) : Core :=
  let e := k.eng st
  let k := if e.gs && k.roomF (outPair st) 1 then
      { k with fwd := put k.fwd (outPair st) (k.fwdAt (outPair st) + 1) }.setEng st { e with gs := false } else k
  let e := k.eng st
  if !e.gs && e.gp && k.roomB (inPair st) 1 then
    { k with back := put k.back (inPair st) (k.backAt (inPair st) + 1) }.setEng st { e with gp := false } else k

/-- Give a retiring word's tokens, or hold them in its speculative iteration (R84, R91). -/
def Core.giveTokens (k : Core) (st : Stream) (t : Tok) (pc seq : Nat) (ops : List DWord) : Core :=
  let e := k.eng st
  match e.spec.getLast? with
  | some it => k.setEng st { e with spec := e.spec.dropLast ++
      [{ it with gs := it.gs + num t.gs, gp := it.gp + num t.gp }] }
  | none => (k.setEng st { e with
      gs := t.gs, gp := t.gp, givePc := pc, giveSeq := seq, giveOps := if t.gs || t.gp then ops else [] }).makeGives st

/-- A speculative iteration already holds as many gives of a kind as their FIFO can take (log 24). -/
def Engine.heldFull (e : Engine) (t : Tok) : Bool :=
  match e.spec.getLast? with
  | none => false
  | some it => (t.gs && decide (31 ≤ it.gs)) || (t.gp && decide (31 ≤ it.gp))

/-- How a word waits in an unresolved iteration: with the code given where it waits until the iteration is resolved, uncounted
where the iteration can hold no more gives; none where it runs ahead (R90, R98). -/
def Engine.aheadStop (e : Engine) (ahead : Option Nat) (t : Tok) : Option Nat :=
  if e.spec.isEmpty then none else if e.heldFull t then ahead.or (some 0) else ahead

/-- A word of an engine stream of `n` bytes: tokens are taken and given whatever the guard; a true guard waits for its
iteration to be resolved where the word says with which code, and runs the body on the state past the word (R84, R90,
R94). -/
def runToken (st : Stream) (t : Tok) (guard : Bool) (n : Nat) (ahead : Option Nat) (ops : List DWord)
    (body : Nat → State → Res State) (s : State) : Out :=
  let c := s.core
  let k := s.coreAt c
  let e := k.eng st
  match k.takeStop st t with
  | some x => .next (s.stopAt c st ops x)
  | none =>
    match e.aheadStop (if guard then ahead else none) t with
    | some code => .next (s.waitOn c st code ops)
    | none =>
      let s := s.setCore c (k.takeTokens st t)
      let give (s : State) : State := s.onCore c fun k => k.giveTokens st t e.pc e.seq ops
      if guard then
        match body c (s.past c st n) with
        | .ok s' => .next (give s')
        | .error x => .next (s.stopAt c st ops x)
      else .next (give (s.past c st n))

/-- The code with which a word waits until its iteration is resolved: none where it runs ahead, 0 where its wait is not
counted (R90, R98). -/
def resolvedOnly : Option Nat := some 0

/-- A queue get waits until its iteration is resolved, for a queue that is empty, since an outcome in it would resolve the
iteration (R90, R98). -/
def queueGet : Option Nat := some 4

/-- A word of L, M or W. -/
def runE (st : Stream) (p : EPre) (ahead : Option Nat) (ops : List DWord) (body : Nat → State → Res State)
    (s : State) : Out :=
  runToken st p.tok ((s.eng s.core st).g p.g != p.neg) 4 ahead ops body s

/-- A word of X of `n` bytes. -/
def runX (p : XPre) (n : Nat) (ops : List DWord) (body : Nat → State → Res State) (s : State) : Out :=
  runToken .X p.tok ((s.eng s.core .X).g p.g != p.neg) n none ops body s

/-- Only core state changes: a body that always retires. -/
def pure' (f : Core → Core) : Nat → State → Res State := fun c s => .ok (s.onCore c f)

/-! ## Queues (R86-R88) -/

/-- The scalar queue of an engine. -/
def queueOf : Stream → Nat
  | .L => 0
  | .M => 1
  | .X => 2
  | _ => 3

def Core.sqAt (k : Core) (i : Nat) : List DWord := findD k.sq i []
def Core.rqAt (k : Core) (i : Nat) : List DWord := findD k.rq i []

/-- Put an entry into a scalar queue; a full queue waits (R86). -/
def State.putScalar (s : State) (c i : Nat) (v : DWord) : Res State :=
  let k := s.coreAt c
  if 64 ≤ (k.sqAt i).length then .error (.wait 5)
  else .ok (s.setCore c { k with sq := put k.sq i (k.sqAt i ++ [v]) })

/-- The trap of a word that takes an entry of a poisoned queue of a stream (R202). -/
def Core.queueClean (k : Core) (st : Stream) : Res Unit := check (!(k.eng st).regsBad.contains .queues) cPoison 0

/-- Take the oldest entry of an engine's scalar queue; an empty queue waits (R86). -/
def State.takeScalar (s : State) (c : Nat) (st : Stream) : Res (State × DWord) :=
  let k := s.coreAt c
  match k.sqAt (queueOf st) with
  | [] => .error (.wait 4)
  | v :: vs => do
    k.queueClean st
    pure (s.setCore c { k with sq := put k.sq (queueOf st) vs }, v)

/-! ## Return queues (R83, R87) -/

/-- Put what fits of some entries into the return queue of a stream, which holds 16. -/
def State.putSome (s : State) (c : Nat) (st : Stream) (vs : List DWord) : State × List DWord :=
  let k := s.coreAt c
  let q := k.rqAt (returnQueue st)
  (s.setCore c { k with rq := put k.rq (returnQueue st) (q ++ vs.take (16 - q.length)) }, vs.drop (16 - q.length))

/-- A word that has issued puts what fits of its entries; it retires when its last entry is in the queue, and waits for room
else (R87, R283). -/
def State.returnPut (s : State) (c : Nat) (st : Stream) (t : Tok) (ops : List DWord) (after : State → State) (r : Returning) :
    State :=
  let e := s.eng c st
  let (s, left) := s.putSome c st r.left
  if left.isEmpty then
    (after ((s.onEng c st fun e => { e with ret := none }).past c st 4)).onCore c fun k => k.giveTokens st t e.pc e.seq ops
  else
    (s.onEng c st fun e => { e with ret := some { r with left, put := r.put + (r.left.length - left.length) } }).noteWait
      c st 5 ops

/-- A word with a true guard whose entries go to a return queue: it takes its tokens and so issues, brings its entries, and goes
on until they are put (R83, R87). A stop takes it back (`Core.takeBackRet`). -/
def runReturn (st : Stream) (t : Tok) (ops : List DWord) (bring : Nat → State → Res (State × List DWord))
    (after : State → State) (s : State) : Out :=
  let c := s.core
  let k := s.coreAt c
  match (k.eng st).ret.filter Returning.issued with
  | some r => .next (s.returnPut c st t ops after r)
  | none => match k.takeStop st t with
    | some x => .next (s.stopAt c st ops x)
    | none =>
      let s := s.setCore c (k.takeTokens st t)
      match bring c s with
      | .error x => .next (s.stopAt c st ops x)
      | .ok (s, vs) => .next (s.returnPut c st t ops after { left := vs, issued := true })

/-! ## Branches (R236) -/

/-- A branch target checked on the branching word itself. -/
def branchTo (c : Nat) (st : Stream) (target : Int) (s : State) : Res State :=
  if 0 ≤ target && decide (target < 65536) then .ok (s.onEng c st fun e => { e with pc := target.toNat })
  else trap cFetch (BitVec.ofInt 64 target)

/-- A displacement in words from the branching word at `pc`. -/
def branchBy {w : Nat} (c : Nat) (st : Stream) (pc : Nat) (disp : BitVec w) (s : State) : Res State :=
  branchTo c st ((pc : Int) + 4 * disp.toInt) s

/-- The effect of a memory acquire at a scope: at `.wing` or wider every untracked copy goes (R147, R161). -/
def State.acquireAt (s : State) (c : Nat) (sc : Scope) : State :=
  if sc = .core then s else s.dropUntracked c

end Sys2Proof.Machine
end

