-- ==== Sys2Proof/Machine/Scalar.lean ====
section
/-! DEFINITION. The S stream's registers: integer arithmetic, immediates, comparison, FP32 arithmetic, branches
and loops (15_sequencer R254-R262), and `nop` (R370). -/

namespace Sys2Proof.Machine

/-- The operand record of source registers in written order (R191). -/
def srcs (rs : List (Fin 32)) (k : Core) : List DWord := rs.map k.s

/-- A two-source register form. -/
def alu2 (f : DWord → DWord → DWord) (p : Pr) (d a b : Fin 32) : State → Out :=
  runS p (srcs [a, b]) (pure' fun k => k.setS d (f (k.s a) (k.s b)))

/-- A one-source register form. -/
def alu1 (f : DWord → DWord) (p : Pr) (d a : Fin 32) : State → Out :=
  runS p (srcs [a]) (pure' fun k => k.setS d (f (k.s a)))

/-! ## Integer operations (R255) -/

def mulHigh (a b : DWord) : DWord := BitVec.ofInt 64 (a.toInt * b.toInt / 2 ^ 64)
def mulHighN (a b : DWord) : DWord := dw (a.toNat * b.toNat / 2 ^ 64)
def divSigned (a b : DWord) : DWord := if b = 0 then -1 else a.sdiv b
def divNat (a b : DWord) : DWord := if b = 0 then -1 else a / b
def remSigned (a b : DWord) : DWord := if b = 0 then a else a.srem b
def remNat (a b : DWord) : DWord := if b = 0 then a else a % b
def shiftL (a b : DWord) : DWord := a <<< (b.toNat % 64)
def shiftR (a b : DWord) : DWord := a >>> (b.toNat % 64)
def shiftRA (a b : DWord) : DWord := a.sshiftRight (b.toNat % 64)
def minSigned (a b : DWord) : DWord := if a.toInt ≤ b.toInt then a else b
def maxSigned (a b : DWord) : DWord := if a.toInt ≤ b.toInt then b else a
def minNat (a b : DWord) : DWord := if a.toNat ≤ b.toNat then a else b
def maxNat (a b : DWord) : DWord := if a.toNat ≤ b.toNat then b else a
def leadingZeros (a : DWord) : DWord := dw (if a = 0 then 64 else 63 - Nat.log2 a.toNat)
def popCount (a : DWord) : DWord := dw (setBits 64 a.toNat).length

def execAdd (p : Pr) (d a b : Fin 32) (s : State) : Out := alu2 (· + ·) p d a b s
def execSub (p : Pr) (d a b : Fin 32) (s : State) : Out := alu2 (· - ·) p d a b s
def execMul (p : Pr) (d a b : Fin 32) (s : State) : Out := alu2 (· * ·) p d a b s
def execMulh (p : Pr) (d a b : Fin 32) (s : State) : Out := alu2 mulHigh p d a b s
def execMulhN (p : Pr) (d a b : Fin 32) (s : State) : Out := alu2 mulHighN p d a b s
def execDiv (p : Pr) (d a b : Fin 32) (s : State) : Out := alu2 divSigned p d a b s
def execDivN (p : Pr) (d a b : Fin 32) (s : State) : Out := alu2 divNat p d a b s
def execRem (p : Pr) (d a b : Fin 32) (s : State) : Out := alu2 remSigned p d a b s
def execRemN (p : Pr) (d a b : Fin 32) (s : State) : Out := alu2 remNat p d a b s
def execAnd (p : Pr) (d a b : Fin 32) (s : State) : Out := alu2 (· &&& ·) p d a b s
def execOr (p : Pr) (d a b : Fin 32) (s : State) : Out := alu2 (· ||| ·) p d a b s
def execXor (p : Pr) (d a b : Fin 32) (s : State) : Out := alu2 (· ^^^ ·) p d a b s
def execShl (p : Pr) (d a b : Fin 32) (s : State) : Out := alu2 shiftL p d a b s
def execShr (p : Pr) (d a b : Fin 32) (s : State) : Out := alu2 shiftR p d a b s
def execSra (p : Pr) (d a b : Fin 32) (s : State) : Out := alu2 shiftRA p d a b s
def execMin (p : Pr) (d a b : Fin 32) (s : State) : Out := alu2 minSigned p d a b s
def execMinN (p : Pr) (d a b : Fin 32) (s : State) : Out := alu2 minNat p d a b s
def execMax (p : Pr) (d a b : Fin 32) (s : State) : Out := alu2 maxSigned p d a b s
def execMaxN (p : Pr) (d a b : Fin 32) (s : State) : Out := alu2 maxNat p d a b s
def execClz (p : Pr) (d a : Fin 32) (s : State) : Out := alu1 leadingZeros p d a s
def execPopc (p : Pr) (d a : Fin 32) (s : State) : Out := alu1 popCount p d a s

/-! ## Immediates (R256) -/

def execAddi (p : Pr) (d a : Fin 32) (imm : BitVec 12) (s : State) : Out := alu1 (· + imm.signExtend 64) p d a s
def execAndi (p : Pr) (d a : Fin 32) (imm : BitVec 12) (s : State) : Out := alu1 (· &&& imm.setWidth 64) p d a s
def execOri (p : Pr) (d a : Fin 32) (imm : BitVec 12) (s : State) : Out := alu1 (· ||| imm.setWidth 64) p d a s
def execXori (p : Pr) (d a : Fin 32) (imm : BitVec 12) (s : State) : Out := alu1 (· ^^^ imm.setWidth 64) p d a s
def execShli (p : Pr) (d a : Fin 32) (sh : Fin 64) (s : State) : Out := alu1 (shiftL · (dw sh)) p d a s
def execShri (p : Pr) (d a : Fin 32) (sh : Fin 64) (s : State) : Out := alu1 (shiftR · (dw sh)) p d a s
def execSrai (p : Pr) (d a : Fin 32) (sh : Fin 64) (s : State) : Out := alu1 (shiftRA · (dw sh)) p d a s
def execLui (p : Pr) (d : Fin 32) (imm : BitVec 17) (s : State) : Out :=
  runS p (srcs []) (pure' fun k => k.setS d (imm.signExtend 64 <<< 12)) s

/-! ## Comparison and predicates (R257, R258) -/

/-- Whether a condition compares natural numbers (R239). -/
def naturalCond : Cond → Bool
  | .ltn | .len | .gtn | .gen => true
  | _ => false

/-- The immediate of `cmpi`: signed with a signed condition, natural with a natural one. -/
def cmpImm (cc : Cond) (imm : BitVec 8) : DWord := if naturalCond cc then imm.setWidth 64 else imm.signExtend 64

def execCmp (p : Pr) (pd : Fin 8) (a b : Fin 32) (cc : Cond) (s : State) : Out :=
  runS p (srcs [a, b]) (pure' fun k => k.setP pd (condInt cc (k.s a) (k.s b))) s

def execCmpi (p : Pr) (pd : Fin 8) (a : Fin 32) (cc : Cond) (imm : BitVec 8) (s : State) : Out :=
  runS p (srcs [a]) (pure' fun k => k.setP pd (condInt cc (k.s a) (cmpImm cc imm))) s

def execSel (p : Pr) (d a b : Fin 32) (ps : Fin 8) (s : State) : Out :=
  runS p (srcs [a, b]) (pure' fun k => k.setS d (if k.p ps then k.s a else k.s b)) s

def execPlog (p : Pr) (pd pa pb : Fin 8) (tt : BitVec 4) (s : State) : Out :=
  runS p (srcs []) (pure' fun k => k.setP pd (tt.getLsbD (2 * num (k.p pa) + num (k.p pb)))) s

/-! ## FP32 arithmetic (R259, R260) -/

/-- The low 32 bits of a register read as FP32. -/
def fpOf (v : DWord) : Val := floatVal fF32 (v.toNat % 2 ^ 32)

/-- An FP32 operation of two registers. -/
def fpu2 (f : Val → Val → Val) (p : Pr) (d a b : Fin 32) : State → Out :=
  alu2 (fun x y => dw (rne32 (f (fpOf x) (fpOf y)))) p d a b

def execFadd (p : Pr) (d a b : Fin 32) (s : State) : Out := fpu2 Val.add p d a b s
def execFsub (p : Pr) (d a b : Fin 32) (s : State) : Out := fpu2 Val.sub p d a b s
def execFmul (p : Pr) (d a b : Fin 32) (s : State) : Out := fpu2 Val.mul p d a b s
def execFmin (p : Pr) (d a b : Fin 32) (s : State) : Out := fpu2 Val.smaller p d a b s
def execFmax (p : Pr) (d a b : Fin 32) (s : State) : Out := fpu2 Val.larger p d a b s

def execFfma (p : Pr) (d a b e : Fin 32) (s : State) : Out :=
  runS p (srcs [a, b, e])
    (pure' fun k => k.setS d (dw (rne32 (((fpOf (k.s a)).mul (fpOf (k.s b))).add (fpOf (k.s e)))))) s

def execFcmp (p : Pr) (pd : Fin 8) (a b : Fin 32) (cc : Cond) (s : State) : Out :=
  runS p (srcs [a, b]) (pure' fun k => k.setP pd (condFloat cc (fpOf (k.s a)) (fpOf (k.s b)))) s

/-- A code of a type as a register value: an I result is sign-extended, any other zero-extended. -/
def extend (t : Ty) (v : Nat) : DWord :=
  if intSign t = some true then BitVec.ofInt 64 (signed (width t) v) else dw (v % 2 ^ width t)

/-- `fcvt` of a register value. -/
def fcvtOf (dst src : Ty) (nsat : Bool) (v : DWord) : DWord :=
  extend dst (convert dst nsat (valOf src (v.toNat % 2 ^ width src)))

def execFcvt (p : Pr) (d a : Fin 32) (dst src : Ty) (nsat : Bool) (s : State) : Out :=
  alu1 (fcvtOf dst src nsat) p d a s

/-! ## Branches and loops (R261, R262) -/

/-- Address of the word of a stream whose body runs: the word before where the stream stands. -/
def State.wordPc (s : State) (c : Nat) (st : Stream) : Nat := (s.eng c st).pc - 4

def execB (p : Pr) (disp : BitVec 22) (s : State) : Out :=
  runS p (srcs []) (fun c s => branchBy c .S (s.wordPc c .S) disp s) s

def execCall (p : Pr) (disp : BitVec 22) (s : State) : Out :=
  runS p (srcs []) (fun c s => do
    let t ← branchBy c .S (s.wordPc c .S) disp s
    pure (t.onCore c fun k => k.setS 31 (dw (s.wordPc c .S + 4)))) s

def execBc (p : Pr) (cc : Cond) (a : Fin 32) (disp : BitVec 12) (s : State) : Out :=
  runS p (srcs [a]) (fun c s =>
    if condInt cc ((s.coreAt c).s a) 0 then branchBy c .S (s.wordPc c .S) disp s else .ok s) s

/-- A jump to a register's value: alignment, then range, on the jump itself. -/
def jumpReg (a : Fin 32) (c : Nat) (s : State) : Res State := do
  let v := (s.coreAt c).s a
  check (v.toNat % 4 == 0) cAlign v
  branchTo c .S v.toNat s

def execJr (p : Pr) (a : Fin 32) (s : State) : Out := runS p (srcs [a]) (jumpReg a) s
def execRet (p : Pr) (s : State) : Out := runS p (srcs [31]) (jumpReg 31) s

def execLoop (p : Pr) (lc : Fin 2) (a : Fin 32) (len : BitVec 12) (s : State) : Out :=
  runS p (srcs [a]) (fun c s =>
    let n := (s.coreAt c).s a |>.setWidth 32
    let pc := s.wordPc c .S
    let s := s.onEng c .S fun e => e.setLoop lc ⟨n, pc + 4⟩
    if n = 0 then branchTo c .S (pc + 4 * (len.toNat + 1)) s else .ok s) s

/-- The closing word of a counted loop: back to the start that its opening recorded, or on (R262, R292). -/
def closeLoop (c : Nat) (st : Stream) (n : Nat) (s : State) : Res State :=
  let l := (s.eng c st).loop n
  if l.count = 0 then .ok s
  else
    let s := s.onEng c st fun e => e.setLoop n { l with count := l.count - 1 }
    if l.count = 1 then .ok s else branchTo c st l.start s

def execLend (p : Pr) (lc : Fin 2) (s : State) : Out :=
  runS p (srcs []) (fun c s => closeLoop c .S lc s) s

/-- `nop` does nothing (R370). -/
def execNop (s : State) : Out := .next (s.past s.core .S 4)

end Sys2Proof.Machine
end

