-- ==== Sys2Proof/Machine/Plain.lean ====
section
/-! DEFINITION. Plain memory and atomics of S (15_sequencer R263-R265, 08_coherence R144-R155) and the semaphores
(R200, R266, R267). -/

namespace Sys2Proof.Machine

/-! ## Loads and stores (R263, R264) -/

/-- Access size of a WID code in bytes, and its element type (R239). -/
def widTy : Wid → Ty
  | .i8 => .i8
  | .i16 => .i16
  | .i32 => .i32
  | .i64 => .i64
  | .n8 => .n8
  | .n16 => .n16
  | .n32 => .n32

def widBytes (w : Wid) : Nat := width (widTy w) / 8

/-- Virtual address of a base register and a displacement in units of `u` bytes. -/
def addrOf (base : DWord) (disp : BitVec 7) (u : Nat) : DWord := base + BitVec.ofInt 64 (disp.toInt * u)

/-- The first check of R264. -/
def aligned (va : DWord) (u : Nat) : Res Unit := check (va.toNat % u == 0) cAlign va

/-- What the word before which a stream stands has read already, if its load was performed ahead of others (R160). -/
def Engine.earlyRead (e : Engine) : Option (List Byte) :=
  (e.early.filter fun x => x.pc == e.pc && x.seq == e.seq).map Early.bytes

/-- The bytes of a word's load, read when the word's turn comes, or ahead of it: `read` is what the engine had at the word. -/
def State.loadOnce (s : State) (c : Nat) (st : Stream) (read : Option (List Byte)) (now : State → Res (State × List Byte)) :
    Res (State × List Byte) :=
  match read with
  | some bs => .ok (s.onEng c st fun e => { e with early := none }, bs)
  | none => now s

/-- The body of `ld`. -/
def loadBody (d b : Fin 32) (pol : Pol) (wid : Wid) (disp : BitVec 7) (read : Option (List Byte)) (c : Nat) (s : State) :
    Res State := do
  let u := widBytes wid
  let va := addrOf ((s.coreAt c).s b) disp u
  aligned va u
  let (s, bs) ← s.loadOnce c .S read fun s => s.load c .S pol va.toNat u
  pure (s.onCore c fun k => k.setS d (extend (widTy wid) (leNat bs)))

/-- The register that a word of S writes which has no other effect, s0 where it writes none: a load may pass such a word. -/
def passable : Instr → Option (Fin 32)
  | .add _ d _ _ | .sub _ d _ _ | .mul _ d _ _ | .mulh _ d _ _ | .div _ d _ _ | .rem _ d _ _ | .and _ d _ _ | .or _ d _ _
  | .xor _ d _ _ | .shl _ d _ _ | .shr _ d _ _ | .sra _ d _ _ | .min _ d _ _ | .max _ d _ _ | .mulhN _ d _ _
  | .divN _ d _ _ | .remN _ d _ _ | .minN _ d _ _ | .maxN _ d _ _ | .clz _ d _ | .popc _ d _ | .addi _ d _ _
  | .andi _ d _ _ | .ori _ d _ _ | .xori _ d _ _ | .shli _ d _ _ | .shri _ d _ _ | .srai _ d _ _ | .lui _ d _
  | .sel _ d _ _ _ | .fadd _ d _ _ | .fsub _ d _ _ | .fmul _ d _ _ | .fmin _ d _ _ | .fmax _ d _ _ | .ffma _ d _ _ _
  | .fcvt _ d _ _ _ _ => some d
  | .cmp _ _ _ _ _ | .cmpi _ _ _ _ _ | .plog _ _ _ _ _ | .fcmp _ _ _ _ _ | .nop => some 0
  | _ => none

/-- A load of S that no word between it and the one before which S stands keeps back: how many words before it, and its
operands. The words passed write neither its base nor its predicate, and access nothing. -/
structure LaterLoad where
  n : Nat
  b : Fin 32
  pol : Pol
  wid : Wid
  disp : BitVec 7
  deriving DecidableEq, Repr

/-- The next load of S behind `n` words, at most `fuel` further ones, that write the registers given. -/
def Engine.laterLoad (e : Engine) : Nat → Nat → List (Fin 32) → Option LaterLoad
  | 0, _, _ => none
  | fuel + 1, n, ws =>
    let at' := e.pc / 4 + n
    match if e.bad.contains at' then none else e.img[at']? with
    | none => none
    | some w => match decodeS w.toNat with
      | .ok (.ld p _ b pol wid disp) =>
        if p.r = 0 && !p.neg && !ws.contains b then some ⟨n, b, pol, wid, disp⟩ else none
      | .ok i => (passable i).bind fun d => e.laterLoad fuel (n + 1) (d :: ws)
      | .error _ => none

/-- Whether two ranges of physical memory share a word. -/
def shareWord (pa n pb m : Nat) : Bool := decide (pa / 4 ≤ (pb + m - 1) / 4) && decide (pb / 4 ≤ (pa + n - 1) / 4)

/-- A later load of S performed while the `ld` before which S stands waits: the loads depend on each other by no register,
access different words, and the later one meets no fault (R160). -/
def State.loadAhead (s : State) (c : Nat) (d b : Fin 32) (wid : Wid) (disp : BitVec 7) : Option State :=
  let k := s.coreAt c
  let e := k.strS
  let va (b : Fin 32) (disp : BitVec 7) (wid : Wid) : Nat := (addrOf (k.s b) disp (widBytes wid)).toNat
  match e.laterLoad 8 1 [d] with
  | none => none
  | some x =>
    let u := widBytes x.wid
    if va x.b x.disp x.wid % u ≠ 0 || k.sregBad.contains x.b.val then none
    else match s.xlate c .S (va b disp wid) needRd, s.xlate c .S (va x.b x.disp x.wid) needRd with
      | .ok (_, pa), .ok (t, pb) =>
        let (t, bs, bad) := t.coreLoad c .S x.pol pb u
        if bad || shareWord pa (widBytes wid) pb u then none
        else some (t.onEng c .S fun e => { e with early := some ⟨e.pc + 4 * x.n, (e.seq + x.n) % 2 ^ 48, bs⟩ })
      | _, _ => none

/-- Whether a load whose turn has come waits behind a later one that `later` performs, with the state in which it waits or goes
on (R160): the choice is a free value, drawn where there is one to make (log 6). -/
def State.loadOrder (s : State) (c : Nat) (st : Stream) (later : State → Option State) : Bool × State :=
  let e := s.eng c st
  if e.earlyRead.isSome || (e.early.isNone && (later s).isNone) then (false, s)
  else
    let (n, s) := s.draw
    if Config.loadsAhead n then (true, if e.early.isSome then s else (later s).getD s) else (false, s)

def execLd (p : Pr) (d b : Fin 32) (pol : Pol) (wid : Wid) (disp : BitVec 7) (s : State) : Out :=
  let c := s.core
  let k := s.coreAt c
  let (waits, s) := if k.p p.r != p.neg then s.loadOrder c .S fun s => s.loadAhead c d b wid disp else (false, s)
  if waits then .next (s.waitOn c .S 0 (srcs [b] k))
  else runS p (srcs [b]) (loadBody d b pol wid disp k.strS.earlyRead) s

/-- The body of `st`: SD names the source. -/
def storeBody (d b : Fin 32) (pol : Pol) (wid : Wid) (disp : BitVec 7) (c : Nat) (s : State) : Res State := do
  let u := widBytes wid
  let va := addrOf ((s.coreAt c).s b) disp u
  aligned va u
  s.store c .S pol va.toNat (toLe u ((s.coreAt c).s d).toNat)

def execSt (p : Pr) (d b : Fin 32) (pol : Pol) (wid : Wid) (disp : BitVec 7) (s : State) : Out :=
  runS p (srcs [d, b]) (storeBody d b pol wid disp) s

/-! ## Atomics (R265, R155) -/

/-- An atomic of `w` bytes on the owned copy of core `c`: its stream's earlier stores to the line, ownership, the poison
check, then the read and, where `f` gives a value, the write, indivisibly. A bank that accepts no write keeps it waiting
(R156). -/
def State.atomic (s : State) (c : Nat) (va w : Nat) (f : Nat → Option Nat) : Res (State × Nat) := do
  let (s, pa) ← s.xlate c .S va needBoth
  let l := pa / 128
  let held := (s.ownCopy c l).isSome && !s.writing c l
  let s := if held then s else (s.flush c l (seenBy .S)).acquire c l
  if !held && decide (65535 ≤ s.pendCount (home l) (s.coreAt c).part) then waitMem
  else
    let k := (s.ownCopy c l).getD ⟨.owned, [], 0, 0⟩
    let old := leNat ((k.data.drop (pa % 128)).take w)
    if unitPoisoned k.poison pa w then trap cPoison (dw va)
    else match f old with
      | none => pure (s, old)
      | some v => pure (s.writeOwn c pa (toLe w v), old)

/-- A `red` by a stream of core `c`: on the copy that the core owns, or on its way to the home (R152, R155). -/
def State.coreRed (s : State) (c : Nat) (st : Stream) (pa : Nat) (w64 : Bool) (op : Aop) (arg : DWord) : State :=
  let l := pa / 128
  let w := atomicBytes w64
  let s := s.ownFirst c l
  if s.ownsNow c l then
    s.writeOwn c pa (toLe w (aopVal op w (leNat (s.homeRead pa w).1) (lowOf w arg)))
  else s.buffer c st l (.red (pa % 128 / 4) op w64 arg)

def amoBody (d b a : Fin 32) (w64 : Bool) (op : Aop) (c : Nat) (s : State) : Res State := do
  let w := atomicBytes w64
  let va := (s.coreAt c).s b
  aligned va w
  let arg := lowOf w ((s.coreAt c).s a)
  let (s, old) ← s.atomic c va.toNat w fun old => some (aopVal op w old arg)
  pure (s.onCore c fun k => k.setS d (dw old))

def execAmo (p : Pr) (d b a : Fin 32) (_pol : Pol) (w64 : Bool) (op : Aop) (s : State) : Out :=
  runS p (srcs [b, a]) (amoBody d b a w64 op) s

def redBody (b a : Fin 32) (w64 : Bool) (op : Aop) (c : Nat) (s : State) : Res State := do
  let w := atomicBytes w64
  let va := (s.coreAt c).s b
  aligned va w
  let arg := (s.coreAt c).s a
  let (s, pa) ← s.xlate c .S va.toNat needWr
  pure (s.coreRed c .S pa w64 op arg)

def execRed (p : Pr) (b a : Fin 32) (_pol : Pol) (w64 : Bool) (op : Aop) (s : State) : Out :=
  runS p (srcs [b, a]) (redBody b a w64 op) s

def casBody (d b a : Fin 32) (w64 : Bool) (c : Nat) (s : State) : Res State := do
  let w := atomicBytes w64
  let va := (s.coreAt c).s b
  aligned va w
  let cmp := lowOf w ((s.coreAt c).s d)
  let arg := lowOf w ((s.coreAt c).s a)
  let (s, old) ← s.atomic c va.toNat w fun old => if old = cmp then some arg else none
  pure (s.onCore c fun k => k.setS d (dw old))

def execCas (p : Pr) (d b a : Fin 32) (_pol : Pol) (w64 : Bool) (s : State) : Out :=
  runS p (srcs [d, b, a]) (casBody d b a w64) s

/-! ## Semaphores (R200, R266, R267) -/

/-- The virtual address of a semaphore's backing word; a trap while semaphores are out of service. -/
def Core.semVa (k : Core) (n : Nat) : Res Nat :=
  if bit k.kbase.toNat 0 then .ok ((k.kbase.toNat / 256 * 256 + 4 * n) % 2 ^ 64) else trap cNoSem 0

/-- An indivisible change of a semaphore. -/
def State.semaphore (s : State) (c n : Nat) (f : Nat → Option Nat) : Res (State × Nat) := do
  let va ← (s.coreAt c).semVa n
  s.atomic c va 4 f

def execKset (p : Pr) (a : Fin 32) (k : Fin 64) (s : State) : Out :=
  runS p (srcs [a]) (fun c s => do
    let va ← (s.coreAt c).semVa k
    s.store c .S .own va (toLe 4 ((s.coreAt c).s a).toNat)) s

def execKsig (p : Pr) (a : Fin 32) (k : Fin 64) (s : State) : Out :=
  runS p (srcs [a]) (fun c s => do
    let s ← s.released c .S .part
    let (s, _) ← s.semaphore c k fun old => some ((old + ((s.coreAt c).s a).toNat) % 2 ^ 32)
    pure s) s

/-- Whether a pending wait's cycles have run out (R267). -/
def KWait.expired (w : KWait) (now : Nat) : Bool :=
  match w.limit with
  | some l => decide (l ≤ now - w.since)
  | none => false

/-- One test of a `kwait`. -/
def kwaitTest (d : Fin 32) (n : Nat) (w : KWait) (c : Nat) (s : State) : Res State := do
  let (t, old) ← s.semaphore c n fun old => if w.thr ≤ old then some (old - w.thr) else none
  if w.thr ≤ old then
    pure ((t.dropUntracked c).onCore c fun k => { k.setS d 1 with kwait := none })
  else if w.expired s.now then
    pure ((t.dropUntracked c).onCore c fun k => { k.setS d 0 with kwait := none })
  else .error (.wait 0)

/-- The pending wait of a `kwait` that is tested now: the one under way, or a new one from this cycle. -/
def Core.kwaitFor (k : Core) (a b : Fin 32) (n : Nat) (cl : Bool) (now : Nat) : KWait :=
  let w : KWait := { k := n, thr := lowOf 4 (k.s a), limit := if cl then some (lowOf 4 (k.s b)) else none, since := now }
  match k.kwait with
  | some v => if v.k = n && v.thr = w.thr && v.limit.isSome == cl then v else w
  | none => w

/-- The physical address of a semaphore's word for core `c`; 0 where it has none, and where its page is not in HBM. -/
def State.semPa (s : State) (c n : Nat) : Nat :=
  match (s.coreAt c).semVa n with
  | .ok va => match s.xlate c .S va needBoth with
    | .ok (_, pa) => pa
    | .error _ => 0
  | .error _ => 0

/-- `kwait`: a wait stays recorded with its first cycle until a test ends it, and a trap of its own drops it. -/
def execKwait (p : Pr) (d a b : Fin 32) (k : Fin 64) (cl : Bool) (s : State) : Out :=
  let c := s.core
  let x := s.coreAt c
  let w := { x.kwaitFor a b k cl s.now with pa := s.semPa c k }
  let waiting (v : Option KWait) : State := s.setCore c { x with kwait := v }
  if x.p p.r != p.neg then
    let r := kwaitTest d k w c ((waiting (some w)).past c .S 4)
    let keep := match r with
      | .error (.trap _ _ _) => none
      | _ => some w
    finish (waiting keep) c .S (srcs (if cl then [a, b] else [a]) x) r
  else .next (s.past c .S 4)

/-- A test of a core's pending `kwait`, whichever stream's turn it is: the word at which its S stands, once more. -/
def State.testWait (s : State) (core : Nat) : Out :=
  let k := s.coreAt core
  let e := k.strS
  match k.kwait, decodeS (e.img.getD (e.pc / 4) 0).toNat with
  | some w, .ok (.kwait p d a b n cl) =>
    if w.k == n.val && k.run == .running && k.freezeEnd.isNone && k.stopping.isNone then
      match execKwait p d a b n cl { s with core := core, stream := .S } with
      | .next t => .next { t with core := s.core, stream := s.stream }
      | o => o
    else .next s
  | _, _ => .next s

/-- The cycle limit of a core's pending `kwait` is reached: the wait is tested in that cycle, and ends with 0 in its register
where the semaphore does not meet it (R267). Not due, it does nothing (log 12). -/
def execKwaitTimeout (core : Nat) (s : State) : Out :=
  if (s.coreAt core).kwait.any fun w => w.expired s.now then s.testWait core else .next s

/-- Whether a test of a pending `kwait` would end it: its limit is reached, or the counter has reached its threshold. -/
def State.waitEnds (s : State) (w : KWait) : Bool := w.expired s.now || decide (w.thr ≤ leNat (s.homeRead w.pa 4).1)

/-- A first cycle and a core, put in their place among others: waiters on one semaphore are released in arrival order, and
those of one cycle in order of core number (R99). -/
def inOrder (x : Nat × Nat) : List (Nat × Nat) → List (Nat × Nat)
  | [] => [x]
  | y :: l => if x.1 < y.1 then x :: y :: l else y :: inOrder x l

/-- The cores with a pending `kwait`, the oldest wait first. -/
def State.waitingCores (s : State) : List Nat :=
  ((s.cores.filterMap fun x => x.2.kwait.map fun w => (w.since, x.1)).foldl (fun l x => inOrder x l) []).map Prod.snd

/-- Every pending `kwait` is tested in every cycle, and sees every change made in the cycles before (R267). A wait that the test
would not end stays as it is. -/
def State.dueWaits (s : State) : State :=
  s.waitingCores.foldl (fun s c =>
    if (s.coreAt c).kwait.any s.waitEnds then
      match s.testWait c with
      | .next t => t
      | _ => s
    else s) s

end Sys2Proof.Machine
end

