-- ==== Sys2Proof/Machine/Caps.lean ====
section
/-! DEFINITION. Capability entries (11_traps R201) and `NOTIFY` messages (03_vestibule R50, 15_sequencer R277). -/

namespace Sys2Proof.Machine

/-- A capability entry as one use reads it, at its home, whose port it names within the partition's port set (R201). -/
structure Cap where
  pa : Nat
  port : Nat
  kind : Nat
  rd : Bool
  wr : Bool
  nt : Bool
  allow : Nat
  number : Nat
  base : Nat
  len : Nat
  deriving DecidableEq, Repr

/-- The trap of R201 for a channel and a sub-cause. -/
def capFault {α : Type} (ch sub : Nat) : Res α := trap cCap (dw (sub * 256 + ch))

/-- CAPBASE as a use by core `c` finds it: the value at the launch, or as it stands for the dispatcher. -/
def State.capBase (s : State) (c : Nat) : Nat :=
  match s.jobOf c with
  | none => 0
  | some b => if b.disp.isEmpty then b.capbase.toNat else (s.partAt (s.coreAt c).part).capbase.toNat

/-- The address of entry `ch` of a capability table; sub-cause 1 is for EN. -/
def capVa (b ch : Nat) : Res Nat := if !bit b 0 then capFault ch 1 else .ok ((b / 2048 * 2048 + 32 * ch) % 2 ^ 64)

/-- An entry that lies at a place, from its 32 bytes; sub-cause 1 is for its valid bit, and its user checks the kind (R201). -/
def capOf (ch pa : Nat) (bs : List Byte) : Res Cap :=
  let e := leNat bs
  if !bit e 0 then capFault ch 1
  else .ok { pa, port := fld e 8 8, kind := fld e 1 3, rd := bit e 4, wr := bit e 5, nt := bit e 6, allow := fld e 16 16
             number := fld e 64 64, base := fld e 128 64, len := fld e 192 64 }

/-- Read entry `ch` of a capability table at its home with supervisor rights (R201). -/
def State.capEntry (s : State) (p b ch : Nat) : Res Cap := do
  let va ← capVa b ch
  let pa ← s.xlateFor p true va needRd
  let (bs, bad) := s.homeWords pa 8
  if bad then trap cPoison (dw va) else capOf ch pa bs

/-- The same for an agent that no instruction waits for, wherever the entry's page lies. -/
def State.capVia (s : State) (p b ch : Nat) : Res Cap := do
  let va ← capVa b ch
  let x ← s.placeFor p true va needRd
  let bs ← s.readVia p true needRd va 8
  capOf ch x.1 bs

/-- Read entry `ch` for a stream of core `c`. -/
def State.capAt (s : State) (c ch : Nat) : Res Cap := s.capEntry (s.coreAt c).part (s.capBase c) ch

/-- Record the units in use of an entry, and write them into it where it lies: at its home, or in its page's slot (R50). -/
def State.setUnits (s : State) (place n : Nat) : State :=
  let s := s.onDev fun d => { d with unitsOut := put d.unitsOut place n }
  s.placeWrite (place + 4) (toLe 4 n)

/-- Send one `NOTIFY` on a channel (R50, R277). -/
def hmsgBody (a : Fin 32) (ch : Fin 64) (c : Nat) (s : State) : Res State := do
  let s ← s.released c .S .sys
  let s := s.calm
  let k ← s.capAt c ch
  if k.kind ≠ 1 then capFault ch 2
  else if !k.nt then capFault ch 3
  else
    let used := findD s.dev.unitsOut k.pa 0
    if k.allow ≤ used then .error (.wait 7)
    else
      let seq := findD s.dev.notifySeq k.pa 0
      let s := s.send (.notify k.port k.number ((s.coreAt c).s a) ch seq)
      let s := s.onDev fun d => { d with notifySeq := put d.notifySeq k.pa ((seq + 1) % 2 ^ 58) }
      pure (s.setUnits k.pa (used + 1))

def execHmsg (p : Pr) (a : Fin 32) (ch : Fin 64) (s : State) : Out := runS p (srcs [a]) (hmsgBody a ch) s

/-- The host's transport acknowledges a `NOTIFY` of the entry that lies at a place: a unit of its allowance returns (R50). -/
def execNotifyAck (place : Nat) (s : State) : Out :=
  let used := findD s.dev.unitsOut place 0
  .next (if used = 0 then s else s.setUnits place (used - 1))

end Sys2Proof.Machine
end

