-- ==== Sys2Proof/Machine/Jobs.lean ====
section
/-! DEFINITION. Queues, launches, events, rendezvous, barriers, graph positions, job end and mailboxes
(15_sequencer R268-R276, 04_hall R56-R67, R76, 05_streams R80-R97, 12_generation R219). -/

namespace Sys2Proof.Machine

/-! ## Queues (R268, R269) -/

/-- S puts an entry: its earlier stores are visible to the engine that takes it (R86, R88). -/
def State.putFromS (s : State) (c : Nat) (e : Fin 4) (v : DWord) : Res State := (s.performOwn c).putScalar c e v

def execQput (p : Pr) (a : Fin 32) (e : Fin 4) (s : State) : Out :=
  runS p (srcs [a]) (fun c s => s.putFromS c e ((s.coreAt c).s a)) s

/-- The outcome word of a value. -/
def outcomeWord (v : DWord) : DWord := setBit (v >>> 1 <<< 1) 0 (v != 0)

def execOutc (p : Pr) (a : Fin 32) (e : Fin 4) (s : State) : Out :=
  runS p (srcs [a]) (fun c s => s.putFromS c e (outcomeWord ((s.coreAt c).s a))) s

def qtakeBody (d : Fin 32) (fromL : Bool) (c : Nat) (s : State) : Res State :=
  let k := s.coreAt c
  match k.rqAt (num fromL) with
  | [] => .error (.wait 4)
  | v :: vs => do
    k.queueClean .S
    pure (s.setCore c ({ k with rq := put k.rq (num fromL) vs }.setS d v))

def execQtake (p : Pr) (d : Fin 32) (fromL : Bool) (s : State) : Out := runS p (srcs []) (qtakeBody d fromL) s

/-! ## Launch (R56-R61, R270) -/

/-- A field of a launch record. -/
def recGet (r : List Byte) (off n : Nat) : Nat := leNat ((r.drop off).take n)

/-- The waits of a record: event, valid, reserved bits clear, threshold (R56). -/
def recWaits (r : List Byte) : List (Nat × Bool × Bool × Nat) :=
  (List.range 4).map fun i =>
    let w := recGet r (128 + 8 * i) 8
    (fld w 0 16, bit w 16, fld w 17 15 == 0, fld w 32 32)

/-- The resident entries of a record (R58): valid, reserved bits clear, and the entry. -/
def recResidents (r : List Byte) : List (Bool × Bool × Resident) :=
  (List.range 8).map fun i =>
    let w := recGet r (192 + 16 * i) 16
    (bit w 127, fld w 96 16 == 0 && fld w 28 4 == 0, ⟨fld w 112 15, fld w 64 32, fld w 32 32, fld w 20 8, fld w 0 20⟩)

/-- The boundary rules of R60. -/
def boundsOk (v sc p : Nat) : Bool :=
  v % 8192 == 0 && decide (8192 ≤ v) && decide (v ≤ 131072) && decide (v ≤ sc) && decide (sc ≤ p) &&
    decide (p ≤ 5767168) && sc % 4096 == 0 && p % 4096 == 0

/-- Whether a record breaks a rule of `BAD_RECORD` (R59). -/
def badRecord (q : Partition) (r : List Byte) : Bool :=
  let n := recGet r 5 1
  let compl := recGet r 160 8
  recGet r 0 4 != 1 || n == 0 || decide (144 < n) ||
  fld (recGet r 4 1) 2 5 != 0 || fld (recGet r 6 2) 12 4 != 0 || recGet r 40 8 != 0 || recGet r 56 8 != 0 ||
  (recWaits r).any (fun w => !w.2.2.1) || fld compl 17 47 != 0 || recGet r 168 24 != 0 ||
  (recResidents r).any (fun e => !e.2.1) ||
  (List.range 4).any (fun i => decide (32 < recGet r (28 + i) 1)) ||
  recGet r 8 8 % 64 != 0 || recGet r 32 8 % 4096 != 0 ||
  (!q.hasEvents && ((recWaits r).any (fun w => w.2.1) || bit compl 16)) ||
  !boundsOk (recGet r 16 4) (recGet r 20 4) (recGet r 24 4)

/-- Instruction memory of each stream in words (R78). -/
def memWords (i : Nat) : Nat := if i = 0 || i = 3 then 16384 else 4096

/-- An image table entry, or none where it is a cause of `BAD_IMAGE` (R57). -/
def imagesIn (b : List Byte) : Option Images :=
  let addr := (List.range 5).map fun i => recGet b (8 * i) 8
  let len := (List.range 5).map fun i => recGet b (40 + 2 * i) 2
  if addr.all (· % 4 == 0) && (List.range 5).all (fun i => decide (len.getD i 0 ≤ memWords i)) && recGet b 50 14 == 0
  then some ⟨addr, len⟩ else none

/-- Whether a valid resident entry is good for a job of `n` cores (R59). -/
def residentOk (q : Partition) (n v sc : Nat) (e : Resident) : Bool :=
  match find q.tensors e.handle with
  | none => false
  | some t =>
    (find t.hists e.hist).isSome && decide (e.tile < t.tiles) && decide (v ≤ e.dest) &&
      decide (e.dest + tileBytes' t.ty ≤ sc) && e.dest % 32 == 0 && (e.sel == 0x7FFF || decide (e.sel < n))

/-- Jobs of a partition that are neither `DONE` nor `FAILED`. -/
def Partition.openJobs (q : Partition) : Nat := (q.jobs.filter fun b => decide (b.2.state < 6)).length

/-- The next job number after `j`, skipping 0 (R59). -/
def nextNumber (j : Nat) : Nat := if (j + 1) % 2 ^ 32 = 0 then 1 else (j + 1) % 2 ^ 32

/-- The Hall's private copy of the record at `va`, whose bytes 48 to 55 are the state word. -/
def jobOfRecord (q : Partition) (va : Nat) (r : List Byte) (imgs : List Images) (sup : Bool) : Job :=
  let compl := recGet r 160 8
  let n := recGet r 5 1
  { prio := fld (recGet r 4 1) 0 2, n := n, affinity := fld (recGet r 6 2) 0 12, images := imgs
    shared := bit (recGet r 4 1) 7, bndV := recGet r 16 4, bndS := recGet r 20 4, bndP := recGet r 24 4
    tokens := (List.range 4).map fun i => recGet r (28 + i) 1
    ctxVa := recGet r 32 8, stateVa := (va + 48) % 2 ^ 64
    params := (List.range 8).map fun i => dw (recGet r (64 + 8 * i) 8)
    waits := (recWaits r).filterMap fun w => if w.2.1 then some (w.1, w.2.2.2) else none
    compl := if bit compl 16 then some (fld compl 0 16) else none
    residents := (recResidents r).filterMap fun e => if e.1 then some e.2.2 else none
    launchSup := sup, sup := false, capbase := q.capbase, state := 1
    idx := (List.range n).map fun i => (i, {}) }

/-- Register a job's waits; those whose event already stands at the threshold are met at once (R65). -/
def State.registerWaits (s : State) (p j : Nat) (ws : List (Nat × Nat)) : State :=
  let (s, pending) := ws.foldl (fun (x : State × List (Nat × Nat)) w =>
    let s := x.1.touchEvent p w.1
    (s, if s.eventCount p w.1 < w.2 then x.2 ++ [w] else x.2)) (s, [])
  if pending.isEmpty then s.readyJob p j
  else s.setWaiters p ((s.partAt p).waiters ++ pending.map fun w => { ev := w.1, thr := w.2, who := .job j })

/-- Create a job: its number and the state with the job `WAITING`, or already `READY`. -/
def State.createJob (s : State) (p : Nat) (b : Job) : Nat × State :=
  let q := s.partAt p
  let j := q.nextJob
  let s := s.setPart p { q with nextJob := nextNumber j, jobs := put q.jobs j b }
  let s := s.writeStateWord p j
  (j, s.registerWaits p j b.waits)

/-- Steps 2 to 6 of R59 for the record at `va`: the launch word and the state. -/
def State.launchAt (s : State) (p : Nat) (sup : Bool) (va : Nat) : Res (State × DWord) := do
  let r ← s.readFor p sup va 80
  let _ ← s.xlateFor p sup ((va + 48) % 2 ^ 64) needWr
  let q := s.partAt p
  let n := recGet r 5 1
  let refuse (code : Nat) : Res (State × DWord) := .ok (s, dw (code * 2 ^ 56))
  if (s.partCores p).length < n then refuse 1
  else if badRecord q r then refuse 2
  else
    let shared := bit (recGet r 4 1) 7
    let table ← (List.range (if shared then 1 else n)).mapM fun j =>
      s.readFor p sup ((recGet r 8 8 + 64 * j) % 2 ^ 64) 16
    match table.mapM imagesIn with
    | none => refuse 3
    | some imgs =>
      let b := jobOfRecord q va r imgs sup
      if b.residents.any fun e => !residentOk q n b.bndV b.bndS e then refuse 4
      else if 512 ≤ q.openJobs then refuse 5
      else
        let (j, s) := s.createJob p b
        pure (s, dw j)

def launchBody (d b : Fin 32) (disp : BitVec 7) (c : Nat) (s : State) : Res State := do
  let k := s.coreAt c
  let va := addrOf (k.s b) disp 64
  aligned va 64
  let s ← s.released c .S .part
  let (s, w) ← s.calm.launchAt k.part k.sup va.toNat
  pure (s.onCore c fun k => k.setS d w)

def execLaunch (p : Pr) (d b : Fin 32) (disp : BitVec 7) (s : State) : Out :=
  runS p (srcs [b]) (launchBody d b disp) s

/-! ## Events (R271, R272) -/

def execEvsig (p : Pr) (a b : Fin 32) (set : Bool) (s : State) : Out :=
  runS p (srcs [a, b]) (fun c s => do
    let s ← s.released c .S .part
    let k := s.coreAt c
    let e := (k.s a).toNat % 2 ^ 16
    let n := lowOf 4 (k.s b)
    if !(s.partAt k.part).hasEvents then pure s
    else
      let s := s.calm
      pure (if set then s.setEvent k.part e n else s.addEvent k.part e n)) s

/-- One look of `evwait` at its event. -/
def evwaitBody (a b : Fin 32) (c : Nat) (s : State) : Res State :=
  let k := s.coreAt c
  let q := s.partAt k.part
  let e := (k.s a).toNat % 2 ^ 16
  match q.waiters.find? fun w => w.who == .stream c with
  | some w =>
    if w.met then
      .ok ((s.setPart k.part { q with waiters := q.waiters.filter fun v => v.who != .stream c }).dropUntracked c)
    else if q.hasEvents then .error (.wait 0)
    else trap cNoEvents 0
  | none =>
    if !q.hasEvents then trap cNoEvents 0
    else
      let s := s.calm.touchEvent k.part e
      if lowOf 4 (k.s b) ≤ s.eventCount k.part e then .ok (s.dropUntracked c) else .error (.wait 0)

/-- Register the waiter of an `evwait` that is to wait (R65). -/
def State.registerStream (s : State) (c : Nat) (a b : Fin 32) : State :=
  let k := s.coreAt c
  let e := (k.s a).toNat % 2 ^ 16
  if (s.partAt k.part).waiters.any fun w => w.who == .stream c then s
  else
    let s := s.calm.touchEvent k.part e
    s.setWaiters k.part ((s.partAt k.part).waiters ++ [{ ev := e, thr := lowOf 4 (k.s b), who := .stream c }])

def execEvwait (p : Pr) (a b : Fin 32) (s : State) : Out :=
  let c := s.core
  let k := s.coreAt c
  if k.p p.r != p.neg then
    let r := evwaitBody a b c (s.past c .S 4)
    let s' := match r with
      | .error (.wait _) => s.registerStream c a b
      | _ => s
    finish s' c .S (srcs [a, b] k) r
  else .next (s.past c .S 4)

/-! ## Rendezvous and job end (R80, R81, R273) -/

/-- Every engine has halted and made its gives. -/
def Core.enginesHalted (k : Core) : Bool := [k.strL, k.strM, k.strX, k.strW].all fun e => e.halted && !e.gs && !e.gp

/-- Restart every engine that a halt word halted. -/
def Core.restartEngines (k : Core) : Core :=
  [Stream.L, .M, .X, .W].foldl (fun k st => k.onEng st fun e => { e with halted := e.img.isEmpty }) k

def execRdv (p : Pr) (s : State) : Out :=
  runS p (srcs []) (fun c s =>
    let k := s.coreAt c
    if k.thnd then .ok (s.performOwn c)
    else if k.enginesHalted then .ok ((s.performOwn c).onCore c Core.restartEngines)
    else .error (.wait 0)) s

/-- Release a core that has ended, once its basin-side copies have completed (R63, R81, R287). -/
def State.releaseCore (s : State) (c : Nat) : State :=
  let k := s.coreAt c
  (s.vacate c .ended).afterLeave k.part k.job

/-- A core leaves at its `opb` with a graph position (R76). -/
def State.leaveCore (s : State) (c : Nat) (graph : DWord) : State :=
  let k := s.coreAt c
  (s.vacate c (.yielded graph)).afterLeave k.part k.job

/-- Stop a core for good: at once, or when its copies are done. -/
def State.depart (s : State) (c : Nat) (byJend : Bool) (graph : DWord) : State :=
  let s := s.onCore c fun k =>
    { k.discardAll with run := .leaving, leaveByJend := byJend, graph := graph, yieldAt := none }
  if s.basinBusy c then s
  else if byJend then s.releaseCore c else s.leaveCore c graph

def execJend (p : Pr) (s : State) : Out :=
  runS p (srcs []) (fun c s =>
    let k := s.coreAt c
    if k.thnd || k.enginesHalted then .ok ((s.performOwn c).depart c true 0) else .error (.wait 0)) s

/-- Every issued entry of the core has retired: no stream still has a give to make, no engine has an issued word, and no word of
an engine that has issued still has entries to put into a return queue (R76, R79, R87, R97). The words of unresolved iterations
are not among them: the spec does not say whether they are, and their stop would undo them (DESIGN CHOICE, log 21). -/
def Core.allRetired (k : Core) : Bool :=
  streams.all fun st =>
    let e := k.eng st
    !e.gs && !e.gp && (st == .S || !e.issued) && !((e.ret.map Returning.issued) == some true)

def execOpb (p : Pr) (a : Fin 32) (s : State) : Out :=
  runS p (srcs [a]) (fun c s =>
    let k := s.coreAt c
    if k.yieldAt.isNone || k.thnd then .ok s
    else if k.allRetired then .ok (s.depart c false (k.s a))
    else .error (.wait 0)) s

/-! ## Barriers (R97, R274) -/

def levelNum : Level → Nat
  | .core => 0
  | .wing => 1
  | .die => 2
  | .part => 3
  | .dev => 4

/-- The scope of a level (R97). -/
def levelScope : Level → Scope
  | .core => .core
  | .wing => .wing
  | .die => .die
  | .part => .part
  | .dev => .dev

/-- Whether two cores lie in one place of a level (R96). -/
def together (lvl a b : Nat) : Bool :=
  match lvl with
  | 0 => a == b
  | 1 => a / 12 == b / 12
  | 2 => a / 36 == b / 36
  | _ => true

/-- The unit of a core at a level: cores of its job (R96). -/
def Job.unit (b : Job) (c lvl : Nat) : List Nat := b.onCores.filter fun d => together lvl c d

/-- Arrivals meet at one unit: one job, and the same set of cores, whichever level and register names it (R97, log 21). -/
def Partition.sameBarrier (q : Partition) (x y : Arrival) : Bool :=
  x.job == y.job && match find q.jobs x.job with
    | some b => b.unit x.core x.level == b.unit y.core y.level
    | none => false

/-- Steps 1 to 3 of R97: a core that need not trap arrives once, when its entries have retired and its release is complete;
the arrival that makes the count brings the completion about. -/
def State.arrive (n : Fin 4) (dir : Bool) (lvl : Level) (c : Nat) (s : State) : Res State :=
  let k := s.coreAt c
  let d := k.domAt n
  if (s.partAt k.part).arrivals.any fun a => a.core == c then .ok s
  else if d.level ≠ levelNum lvl || d.phase != dir then trap cDomain 0
  else if !k.thnd && !k.allRetired then .error (.wait 0)
  else do
    let s ← s.released c .S (levelScope lvl)
    let q := s.partAt k.part
    let me : Arrival := { job := k.job, core := c, level := levelNum lvl, dir, gen := d.gen, reg := n }
    let others := q.arrivals.filter (q.sameBarrier me)
    if others.any fun f => f.level != me.level || f.dir != dir || f.gen != d.gen then trap cDomain 0
    else
      let s := s.setPart k.part { q with arrivals := q.arrivals ++ [me] }
      pure (if d.count ≤ others.length + 1 then s.post (.dbarComplete c n) else s)

/-- `dbar`: the core arrives, and stays at the word until its generation completes. -/
def execDbar (p : Pr) (n : Fin 4) (dir : Bool) (lvl : Level) (s : State) : Out :=
  let c := s.core
  let k := s.coreAt c
  if k.p p.r != p.neg then
    match s.arrive n dir lvl c with
    | .ok t => finish t c .S [] waitMem
    | .error x => finish s c .S [] (.error x)
  else .next (s.past c .S 4)

/-- One member passes its barrier: its generation and phase change, and its `dbar` retires as an acquire. -/
def State.passBarrier (s : State) (a : Arrival) : State :=
  let s := s.onCore a.core fun k => { k with
    dom := put k.dom a.reg { k.domAt a.reg with gen := (a.gen + 1) % 2 ^ 24, phase := !(k.domAt a.reg).phase } }
  let s := s.past a.core .S 4
  if 1 ≤ a.level then s.dropUntracked a.core else s

/-- A barrier generation completes when COUNT cores have arrived: every member goes on (R97). -/
def execDbarComplete (core : Nat) (n : Fin 4) (s : State) : Out :=
  let p := (s.coreAt core).part
  let q := s.partAt p
  match q.arrivals.find? fun a => a.core == core && a.reg == n.val with
  | none => .next s
  | some me =>
    let members := q.arrivals.filter (q.sameBarrier me)
    if members.length < ((s.coreAt core).domAt n).count then .next s
    else .next (members.foldl State.passBarrier
      (s.setPart p { q with arrivals := q.arrivals.filter fun a => !q.sameBarrier me a }))

/-! ## Mailboxes (R219, R276) -/

def Core.mbox (k : Core) (m : Nat) : Mailbox := findD k.mail m {}

/-- Where `mbsend` sends: the core of a job core index, none while it is away, or its end by `jend`. -/
inductive Dest where
  | core (c : Nat)
  | away
  | ended
  deriving DecidableEq, Repr

def State.destOf (s : State) (b : Job) (i : Nat) : Dest :=
  match find b.idx i with
  | some x =>
    if x.st == .ended then .ended
    else match x.core with
      | some d => if (s.coreAt d).run = .running || (s.coreAt d).run = .leaving then .core d else .away
      | none => .away
  | none => .ended

/-- The first sender that waits for a mailbox of an index (R99). -/
def Job.nextSender (b : Job) (i m : Nat) : Option Nat :=
  (b.senders.find? fun x => x.1 == i && x.2.1 == m).map fun x => x.2.2

def mbsendBody (a b : Fin 32) (m : Fin 8) (c : Nat) (s : State) : Res State := do
  let s ← s.released c .S .part
  let k := s.coreAt c
  match s.jobOf c with
  | none => .error (.wait 0)
  | some j =>
    let i := (k.s b).toNat % j.n
    match s.destOf j i with
    | .away => .error (.wait 0)
    | .ended => .error (.wait 6)
    | .core d =>
      if ((s.coreAt d).mbox m).full || (j.nextSender i m).any (· != c) then .error (.wait 6)
      else .ok ((s.setJob k.part k.job { j with senders := j.senders.filter fun x => x.2.2 != c }).onCore d fun y =>
        { y with mail := put y.mail m { word := k.s a, full := true } })

/-- A sender that must wait for a mailbox, or for its index to be placed again, takes its place among the senders (R99,
R276). -/
def State.queueSender (s : State) (c : Nat) (b : Fin 32) (m : Fin 8) : State :=
  match s.jobOf c with
  | none => s
  | some j =>
    let k := s.coreAt c
    if j.senders.any fun x => x.2.2 == c then s
    else s.setJob k.part k.job { j with senders := j.senders ++ [((k.s b).toNat % j.n, m.val, c)] }

def execMbsend (p : Pr) (a b : Fin 32) (mb : Fin 8) (s : State) : Out :=
  let c := s.core
  let k := s.coreAt c
  if k.p p.r != p.neg then
    let r := mbsendBody a b mb c (s.past c .S 4)
    let s' := match r with
      | .error (.wait _) => s.queueSender c b mb
      | _ => s
    finish s' c .S (srcs [b, a] k) r
  else .next (s.past c .S 4)

def execMbrecv (p : Pr) (d : Fin 32) (mb : Fin 8) (s : State) : Out :=
  runS p (srcs []) (fun c s =>
    let x := (s.coreAt c).mbox mb
    if x.full then
      .ok ((s.onCore c fun k => { k with mail := put k.mail mb { x with full := false } }.setS d x.word).dropUntracked c)
    else .error (.wait 6)) s

end Sys2Proof.Machine
end

