-- ==== Sys2Proof/Machine/Operands.lean ====
section
/-! DEFINITION. Stream registers by role, their advance and the checks of basin operands (16_transfer R278-R280),
and the control words that L, M and W share (R292-R296, R382) with run-ahead (05_streams R89-R93). -/

namespace Sys2Proof.Machine

/-! ## Roles and advances (R278, R279) -/

inductive Role where
  | basin | descriptor | tensor | plain | multicast
  deriving DecidableEq, Repr

/-- The fields of a stream register that a role reads, by their numbers: those that it gives a meaning, and ADV. FMT and XPOSE are
read by the instructions that use them. -/
def Role.fields : Role → List Nat
  | .basin => [0, 2, 3, 5]
  | .descriptor | .tensor | .multicast => [0, 2, 5]
  | .plain => [0, 5]

def QReg.off (q : QReg) : Nat := q.base.toNat % 2 ^ 32
def QReg.geomLo (q : QReg) : Nat := q.geom.toNat % 2 ^ 32
def QReg.geomHi (q : QReg) : Nat := q.geom.toNat / 2 ^ 32
def QReg.scaleOff (q : QReg) : Nat := q.sstride.toNat % 2 ^ 32

/-- Replace the low 32 bits of a field. -/
def setLow (v : DWord) (n : Nat) : DWord := dw (v.toNat / 2 ^ 32 * 2 ^ 32 + n % 2 ^ 32)

/-- The advance of R279 under a role. -/
def QReg.advance (q : QReg) (r : Role) : QReg :=
  let a := signed 32 q.adv.toNat
  if r = .tensor then { q with geom := setLow q.geom (wrap 32 (q.geomLo + a)) }
  else
    let q := { q with base := q.base + BitVec.ofInt 64 a }
    let q := if (r = .basin || r = .descriptor) && q.geomHi != 0 && decide (q.geomLo + q.geomHi ≤ q.off) then
        { q with base := setLow q.base (q.off - q.geomHi) } else q
    if r = .basin then
      { q with sstride := setLow q.sstride (wrap 32 (q.scaleOff + signed 32 (q.sstride.toNat / 2 ^ 32))) }
    else q

/-- Advance a word's operands in the order of its fields. -/
def State.advances (s : State) (c : Nat) (st : Stream) (l : List (Fin 16 × Role)) : State :=
  s.onEng c st fun e => l.foldl (fun e x => e.setQ x.1 ((e.qr x.1).advance x.2)) e

/-- The operand record of stream registers: their BASE fields in the order of the word's fields (log 22). -/
def qsrcs (s : State) (st : Stream) (l : List (Fin 16)) : List DWord := l.map fun q => ((s.eng s.core st).qr q.val).base

/-! ## Checks (R280) -/

/-- The type of an FMT field; `FORMAT_INVALID` for a code that names none. -/
def fmtTy (q : QReg) : Res Ty :=
  match tyOf (fld q.fmt.toNat 0 5) with
  | some t => .ok t
  | none => trap cFormat 0

def alignCheck (off n : Nat) : Res Unit := check (off % n == 0) cAlign (dw off)

/-- A basin range must lie inside the scratchpad (R101). -/
def Core.rangeCheck (k : Core) (off n : Nat) : Res Unit := check (k.inScratch off n) cBasin (dw off)

/-- A basin range that is read must hold no poison; tval is the start of the range (log 23). -/
def Core.poisonCheck (k : Core) (off n : Nat) : Res Unit :=
  if (k.basinPoison off n).isNone then .ok () else .error (.poison off n)

/-- Whether run-ahead, on a stream's behalf, is under way. -/
def Engine.ahead (e : Engine) : Bool := !e.spec.isEmpty

/-- Change the iteration in which a stream is. -/
def Engine.onIter (e : Engine) (f : Iter → Iter) : Engine :=
  match e.spec.getLast? with
  | none => e
  | some it => { e with spec := e.spec.dropLast ++ [f it] }

/-! ## Counted loops and branches (R292, R293) -/

def execEloop (p : EPre) (ln : Fin 2) (len : BitVec 10) (cnt : BitVec 8) (s : State) : Out :=
  let st := s.stream
  let guard := (s.eng s.core st).g p.g != p.neg
  runToken st p.tok true 4 none [] (fun c s =>
    let pc := s.wordPc c st
    let skip := pc + 4 * (len.toNat + 1)
    if !guard then .ok (s.onEng c st fun e => { e with pc := skip })
    else
      let l := (s.eng c st).loop ln
      let n : Word := if cnt = 0 then l.count else cnt.setWidth 32
      let s := s.onEng c st fun e => e.setLoop ln ⟨n, pc + 4⟩
      if n = 0 then branchTo c st skip s else .ok s) s

def execEjmp (p : EPre) (disp : BitVec 13) (s : State) : Out :=
  runE s.stream p none [] (fun c t => branchBy c s.stream (t.wordPc c s.stream) disp t) s

def execEbrq (p : EPre) (disp : BitVec 13) (s : State) : Out :=
  runE s.stream p queueGet [] (fun c t => do
    let (t, v) ← t.takeScalar c s.stream
    if v.getLsbD 0 then branchBy c s.stream (t.wordPc c s.stream) disp t else pure t) s

def execEtok (p : EPre) (s : State) : Out := runE s.stream p none [] (fun _ t => .ok t) s

def execEhalt (p : EPre) (s : State) : Out :=
  runE s.stream p resolvedOnly [] (fun c t => .ok (t.onEng c s.stream fun e => { e with halted := true })) s

/-! ## Register words (R295, R382) -/

/-- The number of a field of a stream register in the order of the slot (R197). -/
def fldNum : Fld → Nat
  | .base => 0
  | .fmt => 1
  | .geom => 2
  | .sstride => 3
  | .xpose => 4
  | .adv => 5
  | .l0 | .l1 => 6

/-- The unit of a field of a stream register is clean once it is written (R202, log 15). -/
def Engine.cleanField (e : Engine) (q : Nat) (f : Fld) : Engine :=
  if fldNum f < 6 then { e with regsBad := e.regsBad.filter (· != .reg (6 * q + fldNum f)) } else e

/-- Write a field of a stream register, or a loop register. -/
def Engine.setField (e : Engine) (q : Nat) (f : Fld) (v : DWord) : Engine :=
  let e := e.cleanField q f
  let r := e.qr q
  match f with
  | .base => e.setQ q { r with base := v }
  | .fmt => e.setQ q { r with fmt := v }
  | .geom => e.setQ q { r with geom := v }
  | .sstride => e.setQ q { r with sstride := v }
  | .xpose => e.setQ q { r with xpose := v }
  | .adv => e.setQ q { r with adv := v }
  | .l0 => { e with loop0 := { e.loop0 with count := v.setWidth 32 } }
  | .l1 => { e with loop1 := { e.loop1 with count := v.setWidth 32 } }

def execQget (p : EPre) (q : Fin 16) (fld : Fld) (s : State) : Out :=
  runE s.stream p queueGet [] (fun c t => do
    let (t, v) ← t.takeScalar c s.stream
    pure (t.onEng c s.stream fun e => e.setField q fld v)) s

def execQseti (p : EPre) (q : Fin 16) (fld : Fld) (imm : BitVec 12) (s : State) : Out :=
  runE s.stream p none [] (fun c t => .ok (t.onEng c s.stream fun e => e.setField q fld (imm.setWidth 64))) s

def execGget (p : EPre) (n : Fin 4) (s : State) : Out :=
  runE s.stream p queueGet [] (fun c t => do
    let (t, v) ← t.takeScalar c s.stream
    pure (t.onEng c s.stream fun e => e.setG n (v.getLsbD 0))) s

def execGseti (p : EPre) (n : Fin 4) (b : Bool) (s : State) : Out :=
  runE s.stream p none [] (fun c t => .ok (t.onEng c s.stream fun e => e.setG n b)) s

/-- `efence` acts as `fence.sc` (R296). -/
def execEfence (p : EPre) (sc : Scope) (s : State) : Out :=
  runE s.stream p resolvedOnly [] (fun c t => do
    let t ← t.released c s.stream sc
    pure (t.acquireAt c sc)) s

/-! ## Run-ahead (R89-R92) -/

/-- Whether a word of an M loop names a shadow: by SH, or as `mcommit` and `mdiscard` do explicitly (R90, R330). -/
def namesShadow (w : Word) : Bool :=
  match decodeM w.toNat with
  | .ok (.mzero _ _ sh _) => sh
  | .ok (.mma _ _ sh _ _ _) => sh
  | .ok (.mlda _ _ sh _) => sh
  | .ok (.msta _ _ sh _ _) => sh
  | .ok (.mcommit ..) => true
  | .ok (.mdiscard ..) => true
  | _ => false

/-- Whether the body from `start` to the closing word at `pc` names a shadow (R90). -/
def Engine.bodyShadow (e : Engine) (start pc : Nat) : Bool :=
  ((e.img.drop (start / 4)).take ((pc - start) / 4)).any namesShadow

/-- Whether the stream's rules let it run ahead at the closing word it stands at (R90). -/
def Engine.mayRunAhead (e : Engine) (st : Stream) (start : Nat) : Bool :=
  st != .X && decide (e.spec.length < 4) && decide (start < 65536) &&
    !(st == .M && e.bodyShadow start e.pc) &&
    (match e.spec with
      | [] => true
      | it :: _ => it.snap.pc == e.pc)

/-- Begin a speculative iteration: the closing word's tokens are taken, its gives wait for its outcome. -/
def Core.predict (k : Core) (st : Stream) (t : Tok) (start : Nat) : Core :=
  let e := k.eng st
  let it : Iter :=
    { snap := ⟨e.pc, e.seq, e.guards, e.loop0, e.loop1, e.q⟩
      wordF := num t.wp, wordB := num t.ws, wordGs := t.gs, wordGp := t.gp }
  (k.takeTokens st t).setEng st { e with
    pc := start, seq := (e.seq + 1) % 2 ^ 48, wait := none, issued := false, spec := e.spec ++ [it] }

/-- The queue form of a closing word whose outcome has not arrived: it may predict, or it waits (R90). -/
def closeAhead (st : Stream) (p : EPre) (ln : Fin 2) (s : State) : Out :=
  let c := s.core
  let k := s.coreAt c
  let e := k.eng st
  let start := (e.loop ln).start
  match k.takeStop st p.tok with
  | some x => .next (s.stopAt c st [] x)
  | none =>
    if e.mayRunAhead st start then
      let guessed : Core := { k with guesses := k.guesses + 1 }
      if Config.runsAhead c k.guesses then .next (s.setCore c (guessed.predict st p.tok start))
      else .next ((s.setCore c guessed).waitOn c st 4 [])
    else .next (s.waitOn c st 4 [])

/-- A loop that ran ahead is left, and nothing of it is unresolved: the twins that it used hold their accumulators' values
(R91, R330). -/
def State.endLoop (s : State) (c : Nat) (st : Stream) : State :=
  s.onCore c fun k => (k.syncTwins (k.eng st).twins).onEng st fun e => { e with twins := [] }

/-- The closing word of a loop (R292). -/
def execEnext (p : EPre) (ln : Fin 2) (q : Bool) (s : State) : Out :=
  let st := s.stream
  let e := s.eng s.core st
  if !q then runE st p none [] (fun c t => closeLoop c st ln t) s
  else if (e.g p.g != p.neg) && (e.ahead || ((s.coreAt s.core).sqAt (queueOf st)).isEmpty) then closeAhead st p ln s
  else
    let t := if (e.g p.g != p.neg) || e.ahead || ((s.coreAt s.core).takeStop st p.tok).isSome then s else s.endLoop s.core st
    runE st p none [] (fun c t => do
      let (t, v) ← t.takeScalar c st
      if v.getLsbD 0 then branchTo c st (e.loop ln).start t else pure (t.endLoop c st)) t

/-! ## Outcomes that arrive (R91) -/

/-- The tokens that committing an iteration gives, forward and backward. -/
def Iter.gives (it : Iter) : Nat × Nat := (it.gs + num it.wordGs, it.gp + num it.wordGp)

/-- Continue: the oldest unresolved iteration is committed. -/
def State.commitIter (s : State) (c : Nat) (st : Stream) (it : Iter) (rest : List Iter) : State :=
  let s := s.onCore c fun k =>
    let k := { k with
      fwd := put k.fwd (outPair st) (k.fwdAt (outPair st) + it.gives.1)
      back := put k.back (inPair st) (k.backAt (inPair st) + it.gives.2)
      acc := it.accs.foldl (fun m a => put m a (findD k.acc (8 + a) {})) k.acc
      asat := k.asat || it.sat }
    let used := (rest.flatMap Iter.accs)
    (k.syncTwins ((k.eng st).twins.filter fun a => !used.contains a)).onEng st fun e =>
      { e with spec := rest, twins := (e.twins ++ it.accs).eraseDups }
  let s := s.onPart (s.coreAt c).part fun q => it.tent.foldl Partition.mergeInto q
  match it.fault with
  | some t => (s.onCore c fun k => { k with
      fwd := put k.fwd (inPair st) (k.fwdAt (inPair st) + it.faultF)
      back := put k.back (outPair st) (k.backAt (outPair st) + it.faultB) }).takeTrap c t
  | none => s

/-- Stop: every unresolved iteration is discarded, and the stream goes on after the closing word. -/
def State.leaveLoop (s : State) (c : Nat) (st : Stream) (it : Iter) : State :=
  s.onCore c fun k =>
    let k := k.discard st
    let k := (k.syncTwins (k.eng st).twins).onEng st fun e => { e.past 4 with twins := [] }
    let k := { k with
      fwd := put k.fwd (inPair st) (k.fwdAt (inPair st) - it.wordF)
      back := put k.back (outPair st) (k.backAt (outPair st) - it.wordB) }
    k.giveTokens st ⟨false, false, it.wordGs, it.wordGp⟩ it.snap.pc it.snap.seq []

/-- Whether the gives that an iteration holds fit into their FIFOs. -/
def Core.givesFit (k : Core) (st : Stream) (it : Iter) : Bool :=
  (it.gives.1 == 0 || k.roomF (outPair st) it.gives.1) && (it.gives.2 == 0 || k.roomB (inPair st) it.gives.2)

/-- A commit waits for room for the gives it holds, a wait to give that the watchdog counts; its trap names the closing
word (R98, log 24). -/
def State.waitCommit (s : State) (c : Nat) (st : Stream) (it : Iter) (rest : List Iter) : State :=
  let k := s.coreAt c
  match it.blocked with
  | none => s.onEng c st fun e => { e with spec := { it with blocked := some s.now } :: rest }
  | some t =>
    if k.limit ≠ 0 && decide (k.limit ≤ s.now - t) then
      s.takeTrap c { code := cToken, val := 3, stream := st, pc := it.snap.pc, seq := it.snap.seq }
    else s

/-- An outcome word arrives at a stream that ran ahead. The gives of a committed iteration need room in their
FIFOs (log 24). -/
def execOutcomeResolve (core : Nat) (st : Stream) (s : State) : Out :=
  let k := s.coreAt core
  match (k.eng st).spec, k.sqAt (queueOf st) with
  | it :: rest, v :: vs =>
    let t := s.setCore core { k with sq := put k.sq (queueOf st) vs }
    if v.getLsbD 0 then
      if k.givesFit st it then .next (t.commitIter core st it rest) else .next (s.waitCommit core st it rest)
    else .next (t.leaveLoop core st it)
  | _, _ => .next s

/-- The word of the stream at which it stands, as it is decoded there. -/
def Engine.wordHere (e : Engine) : Nat := (e.img.getD (e.pc / 4) 0).toNat

/-- Whether a stop is a wait of a code. -/
def waitsWith {α : Type} (r : Res α) (code : Nat) : Bool :=
  match r with
  | .error (.wait n) => n == code
  | _ => false

/-- Whether S's word still waits, at this moment, for what it puts, takes or sends, with a code of R98. -/
def State.sequencerWaits (s : State) (c code : Nat) : Bool :=
  let k := s.coreAt c
  match decodeS k.strS.wordHere with
  | .ok (.qtake _ _ fromL) => code == 4 && (k.rqAt (num fromL)).isEmpty
  | .ok (.qput _ _ e) | .ok (.outc _ _ e) => code == 5 && decide (64 ≤ (k.sqAt e.val).length)
  | .ok (.mbrecv _ _ m) => code == 6 && !(k.mbox m.val).full
  | .ok (.mbsend _ a b m) => code == 6 && waitsWith (mbsendBody a b m c s) 6
  | .ok (.hmsg _ a ch) => code == 7 && waitsWith (hmsgBody a ch c s) 7
  | _ => false

/-- The code of a stream's wait as it stands at this moment; none where what the word waits for has come (R98). -/
def State.waitNow (s : State) (c : Nat) (st : Stream) (code : Nat) : Option Nat :=
  let k := s.coreAt c
  let e := k.eng st
  if code = 1 || code = 2 then k.tokenStop st (tokOf e.wordHere (if st = .X then 26 else 28))
  else if st = .S then (if s.sequencerWaits c code then some code else none)
  else if code = 4 then (if (k.sqAt (queueOf st)).isEmpty then some 4 else none)
  else if code = 5 then (if 16 ≤ (k.rqAt (returnQueue st)).length then some 5 else none)
  else some code

/-- The watchdog looks at a stream's wait: one that still stands, and whose count has reached LIMIT, traps with the code that the
wait has at that moment; a freeze stops the count (R98). -/
def execTokenStall (core : Nat) (st : Stream) (s : State) : Out :=
  match (s.eng core st).wait with
  | some w => .next (
      if w.code = 0 || (s.coreAt core).freezeEnd.isSome then s
      else if w.code = 3 then
        (if (((s.coreAt core).makeGives st).eng st).gs || (((s.coreAt core).makeGives st).eng st).gp then s.waitGive core st else s)
      else match s.waitNow core st w.code with
        | some code => s.noteWait core st code w.ops
        | none => s)
  | none => .next s

end Sys2Proof.Machine
end

