-- ==== Sys2Proof/Machine/Load.lean ====
section
/-! DEFINITION. The L stream's loads and multicast (16_transfer R281-R285). -/

namespace Sys2Proof.Machine

/-! ## Tensor operands -/

/-- A patch reference with NAME 0xFFFF, as a record names a history alone (R143). -/
def nameless (r : DWord) : DWord := r ||| (0xFFFF <<< 28)

/-- The tensor and history of a stream register in the tensor role, with the record of R143. -/
def State.lookTile (s : State) (c : Nat) (r : DWord) (tile : Nat) (r1 : DWord) : Res (Tensor × Hist) := do
  let q := s.partAt (s.coreAt c).part
  let (t, h) ← q.look r r1 0
  if tile < t.tiles then pure (t, h) else pfault cTensor r1 0 0 tile

/-- Elements of a tile in order. -/
def tileElems (ty : Ty) (v : Tile) : List Nat := unpackElems (width ty) 1024 v.data

/-- The bytes of a tile's elements. -/
def tileOfElems (ty : Ty) (xs : List Nat) : List Byte := toLe (tileBytes ty) (packElems (width ty) xs)

/-- Elements transposed within the tile (R281). -/
def transposed (xs : List Nat) : List Nat :=
  let a := xs.toArray
  (List.range 1024).map fun e => a.getD (e % 32 * 32 + e / 32) 0

/-- Note the read of a tile for automatic squash (R132). -/
def State.noteRead (s : State) (c : Nat) (r : DWord) (tile : Nat) : State :=
  s.onPart (s.coreAt c).part fun q => q.autoSquash (refHandle r) (refHist r) tile

/-- The format of the tensor whose handle a reference names, whatever its history (R280, R281). -/
def State.refTy (s : State) (c : Nat) (r : DWord) : Option Ty :=
  (find (s.partAt (s.coreAt c).part).tensors (refHandle r)).map Tensor.ty

/-- The format check of an operand against a tensor's format, where the reference names a tensor. -/
def State.formatCheck (s : State) (c : Nat) (q : QReg) (r : DWord) : Res Ty := do
  let f ← fmtTy q
  match s.refTy c r with
  | some t => if t = f then pure f else trap cFormat 0
  | none => pure f

/-- Range check of a basin tile and, for an MX format, of its scale byte. -/
def Core.tileRange (k : Core) (q : QReg) (f : Ty) : Res Unit := do
  k.rangeCheck q.off (tileBytes f)
  if isMx f then k.rangeCheck q.scaleOff 1 else pure ()

/-- Poison check of a basin tile and its scale byte. -/
def Core.tilePoison (k : Core) (q : QReg) (f : Ty) : Res Unit := do
  k.poisonCheck q.off (tileBytes f)
  if isMx f then k.poisonCheck q.scaleOff 1 else pure ()

/-- Write a tile and its scale into the basin. -/
def Core.putTile (k : Core) (q : QReg) (f : Ty) (bs : List Byte) (scale : Nat) : Core :=
  let k := k.putBasin q.off bs
  if isMx f then k.putBasin q.scaleOff (toLe 1 scale) else k

/-! ## Tile loads (R281, R282) -/

/-- `tld` and `tld.t`. -/
def tldBody (tr : Bool) (qa qb : Fin 16) (c : Nat) (s : State) : Res State := do
  let k := s.coreAt c
  let qd := k.strL.qr qa
  let qs := k.strL.qr qb
  let f ← s.formatCheck c qd qs.base
  alignCheck qd.off 32
  k.tileRange qd f
  let (t, h) ← s.lookTile c qs.base qs.geomLo (nameless qs.base)
  if (s.partAt k.part).tilePoison h qs.geomLo then trap cPoison 0
  else
    let v := h.foldFor t.ty c qs.geomLo
    let xs := tileElems f v
    let s := s.onCore c fun k => k.putTile qd f (tileOfElems f (if tr then transposed xs else xs)) v.scale
    pure ((s.noteRead c qs.base qs.geomLo).advances c .L [(qa, .basin), (qb, .tensor)])

def execTld (p : EPre) (qa qb : Fin 16) (s : State) : Out :=
  runE .L p none (qsrcs s .L [qa, qb]) (tldBody false qa qb) s

def execTldT (p : EPre) (qa qb : Fin 16) (s : State) : Out :=
  runE .L p none (qsrcs s .L [qa, qb]) (tldBody true qa qb) s

/-- The 32 index words at a basin offset. -/
def Core.indexWords (k : Core) (off : Nat) : List Nat :=
  (List.range 32).map fun i => leNat (k.getBasin (off + 4 * i) 4)

/-- The index word that gathers no row and scatters none. -/
def noRow : Nat := 0xFFFFFFFF

def gathBody (qa qb qc : Fin 16) (c : Nat) (s : State) : Res State := do
  let k := s.coreAt c
  let qd := k.strL.qr qa
  let qs := k.strL.qr qb
  let qi := k.strL.qr qc
  let f ← s.formatCheck c qd qs.base
  check (!((s.refTy c qs.base).map isMx).getD false) cFormat 0
  alignCheck qd.off 32
  alignCheck qi.off 32
  k.rangeCheck qd.off (tileBytes f)
  k.rangeCheck qi.off 128
  let (t, h) ← s.lookTile c qs.base 0 (nameless qs.base)
  let ws := k.indexWords qi.off
  match ws.find? fun x => x != noRow && decide (t.tiles ≤ x / 32) with
  | some x => pfault cTensor (nameless qs.base) 0 0 (x / 32) (x % 32 * 32)
  | none =>
    let named := ws.filter (· != noRow)
    if named.any fun x => (s.partAt k.part).tilePoison h (x / 32) then trap cPoison 0
    else
      k.poisonCheck qi.off 128
      let rows := ws.map fun x =>
        if x = noRow then List.replicate 32 0
        else ((tileElems f (h.foldFor t.ty c (x / 32))).drop (x % 32 * 32)).take 32
      let s := s.onCore c fun k => k.putBasin qd.off (tileOfElems f rows.flatten)
      let s := named.foldl (fun s x => s.noteRead c qs.base (x / 32)) s
      pure (s.advances c .L [(qa, .basin), (qb, .tensor), (qc, .basin)])

def execGath (p : EPre) (qa qb qc : Fin 16) (s : State) : Out :=
  runE .L p none (qsrcs s .L [qa, qb, qc]) (gathBody qa qb qc) s

/-! ## Plain blocks (R283) -/

/-- A poison trap of a block names the start of the block (log 23). -/
def atStart {α : Type} (va : DWord) (r : Res α) : Res α :=
  match r with
  | .error (.trap code v ops) => .error (.trap code (if code = cPoison then va else v) ops)
  | r => r

/-- The words of a block, every page checked first. -/
def State.loadBlock (s : State) (c : Nat) (pol : Pol) (va : DWord) (n : Nat) : Res (State × List Byte) := do
  let s ← s.xlateRange c .L va.toNat (4 * n) needRd
  atStart va (s.loadWords c .L pol va.toNat n)

/-- The body of `pld` to the basin; `read` is its block where it was read ahead. -/
def pldBody (qa qb : Fin 16) (pol : Pol) (n : Nat) (read : Option (List Byte)) (c : Nat) (s : State) : Res State := do
  let k := s.coreAt c
  let qd := k.strL.qr qa
  let qs := k.strL.qr qb
  alignCheck qd.off 4
  check (qs.base.toNat % 4 == 0) cAlign qs.base
  k.rangeCheck qd.off (4 * n)
  let (s, bs) ← s.loadOnce c .L read fun s => s.loadBlock c pol qs.base n
  let s := s.onCore c fun k => k.putBasin qd.off bs
  pure (s.advances c .L [(qa, .basin), (qb, .plain)])

/-- The physical pieces of the block at `va` that a stream of core `c` reads. -/
def State.blockPieces (s : State) (c va n : Nat) : Res (List (Nat × Nat)) :=
  (pages va (4 * n)).mapM fun e => do
    let r ← s.xlate c .L (e.1 % 2 ^ 64) needRd
    pure (r.2, e.2.2)

/-- The block of the next word of L, performed while the `pld` before which L stands waits: the next word is a `pld` to the basin
with a true guard and no tokens to take, of other stream registers, and of a block of other words that meets no fault (R160). -/
def State.blockAhead (s : State) (c : Nat) (qa qb : Fin 16) (n : Nat) : Option State :=
  let k := s.coreAt c
  let e := k.strL
  let at' := e.pc / 4 + 1
  match (if e.bad.contains at' then none else e.img[at']?).map fun w => decodeL w.toNat with
  | some (.ok (.pld p qc qd pol false len)) =>
    let va := (e.qr qd).base
    let m := len.toNat + 1
    let apart := [qa, qb].all fun q => q != qc && q != qd
    let struck := (List.range 6).any fun f => e.regsBad.contains (.reg (6 * qd.val + f))
    if p.tok.wp || p.tok.ws || e.g p.g == p.neg || !apart || struck || va.toNat % 4 ≠ 0 then none
    else match s.blockPieces c (e.qr qb).base.toNat n, s.blockPieces c va.toNat m with
      | .ok xs, .ok ys =>
        if xs.any fun x => ys.any fun y => shareWord x.1 x.2 y.1 y.2 then none
        else match s.loadBlock c pol va m with
          | .ok (t, bs) => some (t.onEng c .L fun e => { e with early := some ⟨e.pc + 4, (e.seq + 1) % 2 ^ 48, bs⟩ })
          | .error _ => none
      | _, _ => none
  | _ => none

/-- Entries of the return form: two words each, the last one padded with a zero word. -/
def returnEntries : List Byte → List DWord
  | b0 :: b1 :: b2 :: b3 :: b4 :: b5 :: b6 :: b7 :: bs => dw (leNat [b0, b1, b2, b3, b4, b5, b6, b7]) :: returnEntries bs
  | [] => []
  | bs => [dw (leNat bs)]

/-- The entries that the return form has still to put: its block's, loaded once, but for those that S took before a stop
(log 25). -/
def State.returnLoad (qa : Fin 16) (pol : Pol) (n c : Nat) (s : State) : Res (State × List DWord) := do
  let e := s.eng c .L
  match e.ret with
  | some r => pure (s, r.left)
  | none =>
    let qs := e.qr qa
    check (qs.base.toNat % 4 == 0) cAlign qs.base
    let (s, bs) ← s.loadBlock c pol qs.base n
    pure (s, returnEntries bs)

/-- The return form of a word whose guard is true and whose iteration is resolved (R83, R283). -/
def execPldRet (p : EPre) (qa : Fin 16) (pol : Pol) (n : Nat) (s : State) : Out :=
  runReturn .L p.tok (qsrcs s .L [qa]) (State.returnLoad qa pol n) (fun t => t.advances s.core .L [(qa, .plain)]) s

/-- The form of `pld` to the basin, which may wait behind a later one (R160). -/
def execPldBasin (p : EPre) (qa qb : Fin 16) (pol : Pol) (n : Nat) (s : State) : Out :=
  let c := s.core
  let k := s.coreAt c
  let e := k.strL
  let ops := qsrcs s .L [qa, qb]
  let goes := (e.g p.g != p.neg) && e.spec.isEmpty && !e.issued && (k.takeStop .L p.tok).isNone
  let (waits, s) := if goes then s.loadOrder c .L fun s => s.blockAhead c qa qb n else (false, s)
  if waits then .next (s.waitOn c .L 0 ops)
  else runE .L p none ops (pldBody qa qb pol n e.earlyRead) s

def execPld (p : EPre) (qa qb : Fin 16) (pol : Pol) (ret : Bool) (len : BitVec 8) (s : State) : Out :=
  let n := len.toNat + 1
  let e := s.eng s.core .L
  if !ret then execPldBasin p qa qb pol n s
  else if (e.g p.g != p.neg) && e.spec.isEmpty then execPldRet p qa pol n s
  else runE .L p resolvedOnly (qsrcs s .L [qa]) (fun _ s => .ok s) s

/-! ## Multicast (R285) -/

/-- The cores that a mask names from job core index `j0`, ascending, that run for the job now. -/
def State.namedCores (s : State) (b : Job) (mask j0 : Nat) : List Nat :=
  (setBits 32 mask).filterMap fun i =>
    if b.n ≤ j0 + i then none
    else match (find b.idx (j0 + i)).bind JobIdx.core with
      | some d => if (s.coreAt d).run = .running then some d else none
      | none => none

/-- Write bytes into a basin with the poison of the bytes they were copied from. -/
def Core.copyIn (k src : Core) (off from' n : Nat) : Core :=
  let bad := (List.range n).filter fun i => src.basinBad.contains ((from' + i) / 32)
  let k := k.putBasin off (src.getBasin from' n)
  { k with basinBad := (k.basinBad ++ bad.map fun i => (off + i) / 32).eraseDups }

def mcastBody (qa qb : Fin 16) (c : Nat) (s : State) : Res State := do
  let k := s.coreAt c
  let qd := k.strL.qr qa
  let qs := k.strL.qr qb
  let f ← fmtTy qs
  alignCheck qd.off 32
  alignCheck qs.off 32
  k.rangeCheck qd.off (tileBytes f)
  if isMx f then k.rangeCheck qs.scaleOff 1 else pure ()
  k.rangeCheck qs.off (tileBytes f)
  match s.jobOf c with
  | none => pure s
  | some b =>
    let dests := s.namedCores b qd.geomLo (qd.geomHi % 2 ^ 16)
    let s := dests.foldl (fun s d => s.onCore d fun x =>
      let x := x.copyIn k qd.off qs.off (tileBytes f)
      if isMx f then x.copyIn k qs.scaleOff qs.scaleOff 1 else x) s
    pure (s.advances c .L [(qa, .multicast), (qb, .basin)])

def execMcast (p : EPre) (qa qb : Fin 16) (s : State) : Out :=
  runE .L p resolvedOnly (qsrcs s .L [qa, qb]) (mcastBody qa qb) s

end Sys2Proof.Machine
end

