-- ==== Sys2Proof/Machine/Store.lean ====
section
/-! DEFINITION. The W stream's patch stores, block stores and update stage (16_transfer R284, R289-R291; 07_patches
R124, R125, R143). -/

namespace Sys2Proof.Machine

/-! ## Recording -/

/-- The open patch that a store names, after the patch causes of R143 that concern it. `add` is the store's kind,
none where the patch's own kind is followed. -/
def openFor (c : Nat) (r : DWord) (h : Hist) (add : Option Bool) (mx partial' : Bool) :
    Res OpenPatch :=
  if refName r = 0xFFFF then pfault cName r 0
  else match h.openAt (refName r) with
    | none => pfault cState r 0 2
    | some o =>
      if o.core ≠ c then pfault cOwner r 0
      else if (match add with
        | some a => o.overwrite == a || (a && mx)
        | none => mx) || partial' then pfault cKind r 0
      else pure o

/-- Whether the staging area has room for new entries of the tiles given (R125). -/
def State.stageRoom (s : State) (c : Nat) (r : DWord) (ty : Ty) (tiles : List Nat) : Bool :=
  let k := s.coreAt c
  let have' := (s.staged c).map Prod.fst
  let new := (tiles.filter fun i => !have'.contains (refHandle r, refHist r, refName r, i)).eraseDups
  decide (s.stagedBytes c + new.length * stageSize ty ≤ k.bndP - k.bndS)

/-- Record one entry: into the open patch, or as a tentative entry during run-ahead (R90, R124). -/
def State.recordEntry (s : State) (c : Nat) (r : DWord) (e : Entry) : State :=
  let x : Tentative := ⟨refHandle r, refHist r, refName r, e⟩
  if e.mask = 0 then s
  else if (s.eng c .W).ahead then s.onEng c .W fun w => w.onIter fun it => { it with tent := it.tent ++ [x] }
  else s.onPart (s.coreAt c).part fun q => q.mergeInto x

/-- The elements that a mask chooses, the others zero. -/
def maskData (ty : Ty) (m : BitVec 1024) (data : Nat) : Nat :=
  mergeElems (width ty) (fun _ b => b) m 0 data

/-! ## `tst` and `tadd` (R289) -/

/-- The mask operand: all ones without one; the lowest element is the lowest bit. -/
def Core.maskAt (k : Core) (mk : Bool) (qm : QReg) : BitVec 1024 :=
  if mk then BitVec.ofNat 1024 (leNat (k.getBasin qm.off 128)) else -1

def recordBody (add : Bool) (qa qb : Fin 16) (mk : Bool) (qm : Fin 16) (c : Nat) (s : State) : Res State := do
  let k := s.coreAt c
  let qt := k.strW.qr qa
  let qs := k.strW.qr qb
  let m := k.strW.qr qm
  let f ← s.formatCheck c qs qt.base
  alignCheck qs.off 32
  if mk then alignCheck m.off 32 else pure ()
  k.rangeCheck qs.off (tileBytes f)
  if isMx f && !add then k.rangeCheck qs.scaleOff 1 else pure ()
  if mk then k.rangeCheck m.off 128 else pure ()
  let tile := qt.geomLo
  let (t, h) ← s.lookTile c qt.base tile qt.base
  let mask := k.maskAt mk m &&& t.real tile
  let _ ← openFor c qt.base h (some add) (isMx t.ty) (isMx t.ty && !add && mask != t.real tile)
  if mask = 0 || s.stageRoom c qt.base t.ty [tile] then pure () else pfault cStaging qt.base 0
  k.poisonCheck qs.off (tileBytes f)
  if isMx f && !add then k.poisonCheck qs.scaleOff 1 else pure ()
  if mk then k.poisonCheck m.off 128 else pure ()
  let data := leNat (k.getBasin qs.off (tileBytes f))
  let scale := if isMx f then leNat (k.getBasin qs.scaleOff 1) else 0
  let s := s.recordEntry c qt.base { tile, mask, val := ⟨maskData t.ty mask data, scale⟩ }
  pure (s.advances c .W ([(qa, .tensor), (qb, .basin)] ++ if mk then [(qm, .basin)] else []))

def execTst (p : EPre) (qa qb : Fin 16) (mk : Bool) (qm : Fin 16) (s : State) : Out :=
  runE .W p none (qsrcs s .W ([qa, qb] ++ if mk then [qm] else [])) (recordBody false qa qb mk qm) s

def execTadd (p : EPre) (qa qb : Fin 16) (mk : Bool) (qm : Fin 16) (s : State) : Out :=
  runE .W p none (qsrcs s .W ([qa, qb] ++ if mk then [qm] else [])) (recordBody true qa qb mk qm) s

/-! ## Block stores (R284) -/

def pstBody (qa qb : Fin 16) (pol : Pol) (n : Nat) (c : Nat) (s : State) : Res State := do
  let k := s.coreAt c
  let qd := k.strW.qr qa
  let qs := k.strW.qr qb
  check (qd.base.toNat % 4 == 0) cAlign qd.base
  alignCheck qs.off 4
  k.rangeCheck qs.off (4 * n)
  let s ← s.xlateRange c .W qd.base.toNat (4 * n) needWr
  k.poisonCheck qs.off (4 * n)
  let s ← s.storeWords c .W pol qd.base.toNat (k.getBasin qs.off (4 * n))
  pure (s.advances c .W [(qa, .plain), (qb, .basin)])

def execPst (p : EPre) (qa qb : Fin 16) (pol : Pol) (len : BitVec 8) (s : State) : Out :=
  runE .W p resolvedOnly (qsrcs s .W [qa, qb]) (pstBody qa qb pol (len.toNat + 1)) s

/-! ## Scattered rows (R290) -/

/-- The mask of row `r` of a tile. -/
def rowMask (r : Nat) : BitVec 1024 := BitVec.ofNat 1024 ((2 ^ 32 - 1) * 2 ^ (32 * r))

/-- One word of `scat`: its tile, its mask without padding, and the row of the source at its place. -/
def scatEntry (t : Tensor) (xs : List Nat) (k x : Nat) : Entry :=
  let row := (xs.drop (32 * k)).take 32
  { tile := x / 32, mask := rowMask (x % 32) &&& t.real (x / 32)
    val := ⟨packElems (width t.ty) (List.replicate (32 * (x % 32)) 0 ++ row), 0⟩ }

def scatBody (qa qb qc : Fin 16) (c : Nat) (s : State) : Res State := do
  let k := s.coreAt c
  let qt := k.strW.qr qa
  let qs := k.strW.qr qb
  let qi := k.strW.qr qc
  let f ← s.formatCheck c qs qt.base
  alignCheck qs.off 32
  alignCheck qi.off 32
  k.rangeCheck qs.off (tileBytes f)
  k.rangeCheck qi.off 128
  let (t, h) ← s.lookTile c qt.base 0 qt.base
  let ws := k.indexWords qi.off
  match ws.find? fun x => x != noRow && decide (t.tiles ≤ x / 32) with
  | some x => pfault cTensor qt.base 0 0 (x / 32) (x % 32 * 32)
  | none =>
    let _ ← openFor c qt.base h none (isMx t.ty) false
    let xs := unpackElems (width f) 1024 (leNat (k.getBasin qs.off (tileBytes f)))
    let es := ((ws.zipIdx.filter fun x => x.1 != noRow).map fun x => scatEntry t xs x.2 x.1).filter fun e => e.mask != 0
    if s.stageRoom c qt.base t.ty (es.map Entry.tile) then pure () else pfault cStaging qt.base 0
    k.poisonCheck qs.off (tileBytes f)
    k.poisonCheck qi.off 128
    let s := es.foldl (fun s e => s.recordEntry c qt.base
      { e with val := { e.val with data := maskData t.ty e.mask e.val.data } }) s
    pure (s.advances c .W [(qa, .tensor), (qb, .basin), (qc, .basin)])

def execScat (p : EPre) (qa qb qc : Fin 16) (s : State) : Out :=
  runE .W p none (qsrcs s .W [qa, qb, qc]) (scatBody qa qb qc) s

/-! ## The update stage (R291) -/

/-- The value of an FP32 code. -/
def fv (c : Nat) : Val := valOf .f32 c

/-- One delta in FP32, from κ0 to κ3, the elements x and y, and the fold c32. -/
def updDelta (op : Uop) (kap : Nat → Nat) (x y c32 : Nat) : Nat :=
  match op with
  | .axpy =>
    let w := rne32 ((fv (kap 1)).mul (fv y))
    rne32 (((fv (kap 0)).mul (fv x)).add (fv w))
  | .ema =>
    let d := rne32 ((fv x).sub (fv c32))
    rne32 ((fv (kap 0)).mul (fv d))
  | .emasq =>
    let d := rne32 (((fv x).mul (fv x)).sub (fv c32))
    rne32 ((fv (kap 0)).mul (fv d))
  | .adam =>
    let q := rne32 ((fv (kap 3)).mul (fv y))
    let r := rne32 (fv q).sqrt
    let den := rne32 ((fv r).add (fv (kap 1)))
    let u := rne32 ((fv x).div (fv den))
    let w := rne32 ((fv (kap 2)).mul (fv c32))
    rne32 (((fv (kap 0)).neg.mul (fv u)).sub (fv w))
  | .const => kap 0

/-- Words of the basin. -/
def Core.wordsAt (k : Core) (off n : Nat) : List Nat := unpackElems 32 n (leNat (k.getBasin off (4 * n)))

/-- The deltas of a tile in the tensor's format. -/
def updTile (op : Uop) (ty : Ty) (kap : List Nat) (xs ys cs : List Nat) : List Nat :=
  let one (x y c : Nat) : Nat := convert ty false (fv (updDelta op (fun i => kap.getD i 0) x y (rne32 (valOf ty c))))
  (xs.zip (ys.zip cs)).map fun e => one e.1 e.2.1 e.2.2

def updBody (op : Uop) (qa qb qc : Fin 16) (c : Nat) (s : State) : Res State := do
  let k := s.coreAt c
  let qt := k.strW.qr qa
  let qs := k.strW.qr qb
  let qk := k.strW.qr qc
  let f ← fmtTy qs
  let g ← fmtTy qk
  check (f == .f32 && g == .f32) cFormat 0
  alignCheck qs.off 32
  alignCheck qk.off 32
  k.rangeCheck qs.off 4096
  k.rangeCheck qk.off 4128
  let tile := qt.geomLo
  let (t, h) ← s.lookTile c qt.base tile qt.base
  let _ ← openFor c qt.base h (some true) (isMx t.ty) false
  if s.stageRoom c qt.base t.ty [tile] then pure () else pfault cStaging qt.base 0
  if (s.partAt k.part).tilePoison h tile then trap cPoison 0
  else
    k.poisonCheck qs.off 4096
    k.poisonCheck qk.off 4128
    let cs := tileElems t.ty (h.foldFor t.ty c tile)
    let ds := updTile op t.ty (k.wordsAt qk.off 8) (k.wordsAt qs.off 1024) (k.wordsAt (qk.off + 32) 1024) cs
    let mask := t.real tile
    let s := s.recordEntry c qt.base { tile, mask, val := ⟨maskData t.ty mask (packElems (width t.ty) ds), 0⟩ }
    let s := s.noteRead c qt.base tile
    pure (s.advances c .W [(qa, .tensor), (qb, .basin), (qc, .basin)])

def execUpd (p : EPre) (qa qb qc : Fin 16) (op : Uop) (s : State) : Out :=
  runE .W p none (qsrcs s .W [qa, qb, qc]) (updBody op qa qb qc) s

end Sys2Proof.Machine
end

