-- ==== Sys2Proof/Machine/PatchGroup.lean ====
section
/-! DEFINITION. The patch group of S (17_patch R297-R312, 07_patches R120-R143). -/

namespace Sys2Proof.Machine

/-- The body of a patch instruction on the partition of its core; a result goes to SD. -/
abbrev PatchOp := Nat → Core → Partition → Res (Partition × Option DWord)

/-- Run a patch operation for core `c`, writing its result to a register. -/
def patchBody (d : Fin 32) (f : PatchOp) (c : Nat) (s : State) : Res State := do
  let k := s.coreAt c
  let (q, r) ← f c k (s.partAt k.part)
  let s := s.setPart k.part q
  match r with
  | some v => pure (s.onCore c fun k => k.setS d v)
  | none => pure s

/-- An option, or a patch fault. -/
def orFault {α : Type} (o : Option α) (e : Res α) : Res α :=
  match o with
  | some x => .ok x
  | none => e

/-- A check that raises a patch fault when it fails. -/
def must (ok : Bool) (e : Res Unit) : Res Unit := if ok then .ok () else e

/-! ## Sources of copies (R142, R301) -/

/-- The tensor and history that a side reads. -/
def State.sideHist (s : State) (p : Nat) : Side → Option (Tensor × Hist)
  | .tiles h i _ | .scales h i _ =>
    match find (s.partAt p).tensors h with
    | none => none
    | some t => (find t.hists i).map fun x => (t, x)
  | _ => none

/-- The source of a copy. -/
def Op.src? (o : Op) : Option Side :=
  match o.kind with
  | .copy src _ _ => some src
  | .coll _ => none

/-- The pages of a history that operation `i` holds while it runs (R142). -/
def State.pinHist (s : State) (p i : Nat) (x : Option (Tensor × Hist)) : State :=
  match x with
  | none => s
  | some (_, h) => s.onPart p fun q => { q with pins := q.pins ++ h.pageSets.map fun x => (i, x.1, x.2) }

/-- Fix the version of its source that a copy reads, once; the copy then holds its pages, and no others (R129, R142). -/
def State.fixSource (s : State) (i : Nat) (o : Op) (src : Side) : State × Op :=
  if o.last.isSome then (s, o)
  else
    let x := s.sideHist o.part src
    let s := s.onPart o.part fun q => { q with pins := q.pins.filter fun y => y.1 != i }
    (s.pinHist o.part i x, { o with last := x })

/-- Before a history goes, the copies that are to read it and have not started take it as it stands, with its pages (R301,
R303). -/
def State.keepSources (s : State) (p : Nat) (gone : Side → Bool) : State :=
  s.dev.ops.foldl (fun s x => match x.2.src? with
    | some src =>
      if x.2.part == p && gone src then
        let r := s.fixSource x.1 x.2 src
        r.1.onDev fun d => { d with ops := put d.ops x.1 r.2 }
      else s
    | none => s) s

/-- Whether a side reads a tensor, or one history of it. -/
def readsOf (handle : Nat) (hist : Option Nat) : Side → Bool
  | .tiles h i _ | .scales h i _ => h == handle && (hist.isNone || hist == some i)
  | _ => false

/-! ## Tensors (R300, R301) -/

/-- Tile-map pages of a history (R142). -/
def mapPagesOf (tiles : Nat) : Nat := ceilDiv tiles 8192

/-- The lowest free handle (R300). -/
def freeHandle (q : Partition) : Option Nat :=
  let n := q.tensors.length
  (List.range (n + 1)).findSome? fun i =>
    if i + 1 < 2 ^ 20 && (find q.tensors (i + 1)).isNone then some (i + 1) else none

/-- The tensor that a definition block describes, with no history yet, unless the block breaks a rule of R300. -/
def tensorOf (b : List Byte) : Option Tensor :=
  match tyOf (recGet b 0 1 % 32) with
  | none => none
  | some ty =>
    let dim (i : Nat) : Nat := recGet b (8 + 4 * i) 4
    let t : Tensor := { ty, n0 := dim 0, n1 := dim 1, n2 := dim 2, n3 := dim 3, depth := recGet b 1 1, hists := [] }
    let dimsOk := (List.range 4).all fun i => decide (1 ≤ dim i) && decide (dim i ≤ 2 ^ 24)
    if ty == .e8m0 || fld (recGet b 0 1) 5 3 != 0 || recGet b 1 1 == 0 || recGet b 2 6 != 0 || recGet b 24 8 != 0 ||
        !dimsOk || decide (0xFFFFFFFF < t.tiles) then none
    else some t

/-- `tdef` from a block already read. -/
def tdefOp (b : List Byte) : PatchOp := fun _ _ q => do
  let none' := refOf 0 0 0xFFFF
  let t ← orFault (tensorOf b) (pfault cTensor none' 0)
  let h ← orFault (freeHandle q) (pfault cTensor none' 0)
  let m := mapPagesOf t.tiles
  must (q.canPage (1 + m)) (pfault cPoolEmpty none' 0)
  let hist : Hist := { base := ⟨q.nextUid, 0, []⟩, mapPages := m }
  pure ({ q with tensors := put q.tensors h { t with hists := [(0, hist)] }, nextUid := q.nextUid + 1 },
    some (refOf h 0 0xFFFF))

def tdefBody (d a : Fin 32) (c : Nat) (s : State) : Res State := do
  let va := (s.coreAt c).s a
  aligned va 32
  let (s, b) ← s.load c .S .wt va.toNat 32
  patchBody d (tdefOp b) c s

def execTdef (p : Pr) (d a : Fin 32) (s : State) : Out := runS p (srcs [a]) (tdefBody d a) s

/-- The tensor of a reference whose HIST is ignored (R299). -/
def Partition.lookTensor (q : Partition) (r r1 : DWord) : Res Tensor :=
  match find q.tensors (refHandle r), refValid r with
  | some t, true => .ok t
  | _, _ => pfault cTensor r1 0

def tfreeOp (r : DWord) : PatchOp := fun _ _ q => do
  let t ← q.lookTensor r (nameless r)
  must (t.hists.all fun h => h.2.opens.isEmpty) (pfault cState (nameless r) 0 7)
  pure ({ q with tensors := del q.tensors (refHandle r) }, none)

def execTfree (p : Pr) (a : Fin 32) (s : State) : Out :=
  runS p (srcs [a]) (fun c s =>
    let r := (s.coreAt c).s a
    patchBody 0 (tfreeOp r) c (s.keepSources (s.coreAt c).part (readsOf (refHandle r) none))) s

/-! ## Histories (R302, R303) -/

/-- `hfork` and `psnap`. -/
def forkOp (frozen : Bool) (r : DWord) (k : Nat) : PatchOp := fun _ _ q => do
  let (t, h) ← q.look r r 0
  let pos ← orFault (if refName r = 0xFFFF then some h.chain.length else h.pos (refName r)) (pfault cName r 0)
  must (find t.hists k).isNone (pfault cState r 0 5)
  let m := mapPagesOf t.tiles
  must (q.canPage m) (pfault cPoolEmpty r 0)
  let fl := min h.floor pos
  let new : Hist := { base := h.base, chain := h.chain.take pos, floor := fl, frozen := frozen
                      squashed := h.squashed.filter fun x => decide (x.pos ≤ fl), mapPages := m }
  pure (q.setHist (refHandle r) k new, some (refOf (refHandle r) k 0xFFFF))

def execHfork (p : Pr) (d a b : Fin 32) (s : State) : Out :=
  runS p (srcs [a, b]) (fun c s =>
    let k := s.coreAt c
    patchBody d (forkOp false (k.s a) ((k.s b).toNat % 256)) c s) s

def execPsnap (p : Pr) (d a b : Fin 32) (s : State) : Out :=
  runS p (srcs [a, b]) (fun c s =>
    let k := s.coreAt c
    patchBody d (forkOp true (k.s a) ((k.s b).toNat % 256)) c s) s

def hrelOp (r : DWord) : PatchOp := fun _ _ q => do
  let (t, h) ← q.look r (nameless r) 0
  must h.opens.isEmpty (pfault cState (nameless r) 0 7)
  pure ({ q with tensors := put q.tensors (refHandle r) { t with hists := del t.hists (refHist r) } }, none)

def execHrel (p : Pr) (a : Fin 32) (s : State) : Out :=
  runS p (srcs [a]) (fun c s =>
    let r := (s.coreAt c).s a
    patchBody 0 (hrelOp r) c (s.keepSources (s.coreAt c).part (readsOf (refHandle r) (some (refHist r))))) s

/-! ## Recording (R304, R305) -/

/-- Open patches of a core in a partition (R124). -/
def Partition.opensOf (q : Partition) (c : Nat) : Nat :=
  q.tensors.foldl (fun n t => t.2.hists.foldl (fun n h => n + (h.2.opens.filter fun o => o.core == c).length) n) 0

def popenOp (overwrite : Bool) (r : DWord) : PatchOp := fun c _ q => do
  let (_, h) ← q.look r r 0
  must (refName r != 0xFFFF && !h.inUse (refName r)) (pfault cName r 0)
  must (!h.frozen) (pfault cState r 0 3)
  must (decide (q.opensOf c < 8) && decide (h.opens.length < 16)) (pfault cState r 0 4)
  pure (q.setHist (refHandle r) (refHist r) { h with opens := h.opens ++ [⟨c, refName r, overwrite, []⟩] }, none)

def execPopenOw (p : Pr) (a : Fin 32) (s : State) : Out :=
  runS p (srcs [a]) (fun c s => patchBody 0 (popenOp true ((s.coreAt c).s a)) c s) s

def execPopenAd (p : Pr) (a : Fin 32) (s : State) : Out :=
  runS p (srcs [a]) (fun c s => patchBody 0 (popenOp false ((s.coreAt c).s a)) c s) s

/-- Whether a tentative entry names the patch of a reference. -/
def sameRef (r : DWord) (x : Tentative) : Bool :=
  x.handle == refHandle r && x.hist == refHist r && x.name == refName r

def psealOp (r : DWord) : PatchOp := fun c k q => do
  let (t, h) ← q.look r r 0
  must (refName r != 0xFFFF) (pfault cName r 0)
  let o ← orFault (h.openAt (refName r)) (pfault cState r 0 2)
  must (o.core == c) (pfault cOwner r 0)
  if k.strW.spec.any fun it => it.tent.any (sameRef r) then .error .busy
  else
    let h := { h with opens := h.opens.filter fun x => x.name != refName r }
    let q ← orFault (q.append (refHandle r) (refHist r) t h o.name o.overwrite o.entries) (pfault cPoolEmpty r 0)
    pure (q, none)

/-- `pseal`. Its gauge samples the staging area as it stands before the seal. -/
def execPseal (p : Pr) (a : Fin 32) (s : State) : Out :=
  runS p (srcs [a]) (fun c s => patchBody 0 (psealOp ((s.coreAt c).s a)) c (s.sampleStaging c)) s

/-! ## Reshaping a chain (R306-R311) -/

/-- Remove the patch at a position; the patches above it move down (R134). -/
def Hist.removeAt (h : Hist) (pos : Nat) : Hist := { h with chain := h.chain.eraseIdx (pos - 1) }

def pdropOp (r : DWord) : PatchOp := fun c _ q => do
  let (_, h) ← q.look r r 0
  must (refName r != 0xFFFF && h.inUse (refName r)) (pfault cName r 0)
  must (!h.frozen) (pfault cState r 0 3)
  match h.openAt (refName r), h.pos (refName r) with
  | some o, _ =>
    must (o.core == c) (pfault cOwner r 0)
    pure (q.setHist (refHandle r) (refHist r) { h with opens := h.opens.filter fun x => x.name != refName r }, none)
  | none, some pos =>
    must (decide (h.floor < pos)) (pfault cFloor r 0)
    pure (q.setHist (refHandle r) (refHist r) (h.removeAt pos), none)
  | none, none => pfault cName r 0

/-- Tentative entries of a dropped patch go with it (R134). -/
def Engine.dropTentative (e : Engine) (r : DWord) : Engine :=
  { e with spec := e.spec.map fun it => { it with tent := it.tent.filter fun x => !sameRef r x } }

def execPdrop (p : Pr) (a : Fin 32) (s : State) : Out :=
  runS p (srcs [a]) (fun c s => do
    let r := (s.coreAt c).s a
    let s ← patchBody 0 (pdropOp r) c s
    pure (s.onEng c .W fun e => e.dropTentative r)) s

/-- A sealed patch above the floor, with its position, after the causes that `pinv`, `pcomm` and `pxpl` share. -/
def Hist.sealed (h : Hist) (r r1 r2 : DWord) : Res Unit :=
  must (refName r != 0xFFFF && h.inUse (refName r)) (pfault cName r1 r2)

/-- The negated delta (R135). -/
def negElem (ty : Ty) (x : Nat) : Nat :=
  let w := width ty
  if (intSign ty).isSome then (2 ^ w - x % 2 ^ w) % 2 ^ w else x ^^^ 2 ^ (w - 1)

/-- The entry of Q that `pinv` or `pinv.x` makes from an entry of P. -/
def invEntry (exact : Bool) (t : Tensor) (h : Hist) (pos : Nat) (p : Patch) (e : Entry) : Entry :=
  let val : Tile :=
    if exact then foldPatches t.ty e.tile (h.baseTile e.tile) (h.chain.eraseIdx (pos - 1))
    else if p.overwrite then e.prior
    else ⟨packElems (width t.ty) ((tileElems t.ty e.val).map (negElem t.ty)), 0⟩
  { tile := e.tile, mask := e.mask, val := { val with data := maskData t.ty e.mask val.data } }

/-- Tiles of a patch whose entry is poisoned. -/
def Partition.badOf (q : Partition) (p : Patch) : List Nat :=
  (p.entries.filter fun e => q.badTiles.contains (p.uid, e.tile)).map Entry.tile

def pinvOp (exact : Bool) (r : DWord) (n : Nat) : PatchOp := fun _ _ q => do
  let r2 := refOf (refHandle r) (refHist r) n
  let (t, h) ← q.look r r r2
  h.sealed r r r2
  must (n != 0xFFFF && !h.inUse n) (pfault cName r r2)
  let pos ← orFault (h.pos (refName r)) (pfault cState r r2 1)
  must (!h.frozen) (pfault cState r r2 3)
  must (decide (h.floor < pos)) (pfault cFloor r r2)
  let p ← orFault h.chain[pos - 1]? (pfault cName r r2)
  let overwrite := p.overwrite || exact
  let es := p.entries.map (invEntry exact t h pos p)
  let q ← orFault (q.append (refHandle r) (refHist r) t h n overwrite es (if exact then [] else q.badOf p))
    (pfault cPoolEmpty r r2)
  pure (q, some r2)

def execPinv (p : Pr) (d a b : Fin 32) (s : State) : Out :=
  runS p (srcs [a, b]) (fun c s =>
    let k := s.coreAt c
    patchBody d (pinvOp false (k.s a) ((k.s b).toNat % 2 ^ 16)) c s) s

/-- The reads of the fold that `pinv.x` makes, of each tile of its patch, count for automatic squash (R132). -/
def State.noteInverse (s : State) (c : Nat) (r : DWord) : State :=
  match (s.partAt (s.coreAt c).part).look r r 0 with
  | .ok (_, h) => match (h.pos (refName r)).bind fun pos => h.chain[pos - 1]? with
    | some p => p.entries.foldl (fun s e => s.noteRead c r e.tile) s
    | none => s
  | .error _ => s

def execPinvX (p : Pr) (d a b : Fin 32) (s : State) : Out :=
  runS p (srcs [a, b]) (fun c s => do
    let k := s.coreAt c
    let t ← patchBody d (pinvOp true (k.s a) ((k.s b).toNat % 2 ^ 16)) c s
    pure (t.noteInverse c (k.s a))) s

/-- The lowest set bit of a mask. -/
def lowestBit (m : BitVec 1024) : Nat := ((List.range 1024).find? fun i => m.getLsbD i).getD 0x3FF

/-- The first clash of two patches (R133): tile and element. -/
def clash (ty : Ty) (loose : Bool) (a b : Patch) : Option (Nat × Nat) :=
  if !a.overwrite && !b.overwrite && ((intSign ty).isSome || loose) then none
  else (sortEntries a.entries).findSome? fun e =>
    match b.entryAt e.tile with
    | none => none
    | some f => if e.mask &&& f.mask = 0 then none else some (e.tile, lowestBit (e.mask &&& f.mask))

def pcommOp (loose : Bool) (ra rb : DWord) : PatchOp := fun _ _ q => do
  let (t, h) ← q.look ra ra rb
  let (_, g) ← q.look rb ra rb
  h.sealed ra ra rb
  g.sealed rb ra rb
  must ((h.openAt (refName ra)).isNone && (g.openAt (refName rb)).isNone) (pfault cState ra rb 1)
  must (!h.frozen && !g.frozen) (pfault cState ra rb 3)
  let same := refHandle ra == refHandle rb && refHist ra == refHist rb
  let pa := (h.pos (refName ra)).getD 0
  let pb := (g.pos (refName rb)).getD 0
  must (same && pb == pa + 1) (pfault cState ra rb 6)
  must (decide (h.floor < pa)) (pfault cFloor ra rb)
  match h.chain[pa - 1]?, h.chain[pa]? with
  | some x, some y =>
    match clash t.ty loose x y with
    | some (i, e) => pfault cConflict ra rb 0 i e
    | none =>
      let chain := (h.chain.set (pa - 1) y).set pa x
      pure (q.setHist (refHandle ra) (refHist ra) { h with chain := chain }, none)
  | _, _ => pfault cName ra rb

def execPcomm (p : Pr) (a b : Fin 32) (s : State) : Out :=
  runS p (srcs [a, b]) (fun c s =>
    let k := s.coreAt c
    patchBody 0 (pcommOp false (k.s a) (k.s b)) c s) s

def execPcommLoose (p : Pr) (a b : Fin 32) (s : State) : Out :=
  runS p (srcs [a, b]) (fun c s =>
    let k := s.coreAt c
    patchBody 0 (pcommOp true (k.s a) (k.s b)) c s) s

/-- An entry carried over to the same coordinates of another tensor, or the element at which it fails (R137). -/
def carry (ta tb : Tensor) (e : Entry) : Except (Nat × Nat) Entry :=
  if ta.ty ≠ tb.ty then .error (e.tile, lowestBit e.mask)
  else match tb.tileAt (ta.coord e.tile) with
    | none => .error (e.tile, lowestBit e.mask)
    | some u =>
      let pad := e.mask &&& ~~~tb.real u
      if pad = 0 then .ok { e with tile := u, prior := {} } else .error (e.tile, lowestBit pad)

def pxplOp (ra rb : DWord) : PatchOp := fun _ _ q => do
  let (ta, h) ← q.look ra ra rb
  let (tb, g) ← q.look rb ra rb
  h.sealed ra ra rb
  must (refName rb != 0xFFFF && !g.inUse (refName rb)) (pfault cName ra rb)
  let pos ← orFault (h.pos (refName ra)) (pfault cState ra rb 1)
  must (!g.frozen) (pfault cState ra rb 3)
  must (decide (h.floor < pos)) (pfault cFloor ra rb)
  let p ← orFault h.chain[pos - 1]? (pfault cName ra rb)
  must (!(p.entries.isEmpty && ta.ty != tb.ty)) (pfault cShape ra rb)
  match (sortEntries p.entries).mapM (carry ta tb) with
  | .error (i, e) => pfault cShape ra rb 0 i e
  | .ok es =>
    let bad := (q.badOf p).filterMap fun i => tb.tileAt (ta.coord i)
    let q ← orFault (q.append (refHandle rb) (refHist rb) tb g (refName rb) p.overwrite es bad) (pfault cPoolEmpty ra rb)
    pure (q, none)

def execPxpl (p : Pr) (a b : Fin 32) (s : State) : Out :=
  runS p (srcs [a, b]) (fun c s =>
    let k := s.coreAt c
    patchBody 0 (pxplOp (k.s a) (k.s b)) c s) s

/-- Fold every patch below the floor into a new base (R131). The new base takes pages for the tiles that the old base holds and
those that a folded patch touches, and a tile of neither reads zero without a page: the spec does not say which tiles take pages
(DESIGN CHOICE, log 35). -/
def psqOp (r : DWord) : PatchOp := fun _ _ q => do
  let r1 := nameless r
  let (t, h) ← q.look r r1 0
  must (!h.frozen) (pfault cState r1 0 3)
  if h.floor = 0 then pure (q, none)
  else
    let below := h.chain.take h.floor
    let tiles := (h.base.tiles.map Prod.fst ++ below.flatMap fun p => p.entries.map Entry.tile).eraseDups
    let n := packPages 0 (tiles.map fun _ => tileBytes' t.ty)
    must (q.canPage n) (pfault cPoolEmpty r1 0)
    let base : Base := ⟨q.nextUid, n, tiles.foldl (fun m i => put m i (h.foldAt t.ty i h.floor)) []⟩
    let bad := tiles.filter fun i => q.badTiles.contains (h.base.uid, i) ||
      below.any fun p => (p.entryAt i).isSome && q.badTiles.contains (p.uid, i)
    let h := { h with base := base, chain := h.chain.drop h.floor, floor := 0, squashed := [] }
    pure ({ q.setHist (refHandle r) (refHist r) h with
      nextUid := q.nextUid + 1, badTiles := q.badTiles ++ bad.map fun i => (q.nextUid, i) }, none)

def execPsq (p : Pr) (a : Fin 32) (s : State) : Out :=
  runS p (srcs [a]) (fun c s => patchBody 0 (psqOp ((s.coreAt c).s a)) c s) s

def pfloorOp (r : DWord) : PatchOp := fun _ _ q => do
  let (_, h) ← q.look r r 0
  let tip := refName r == 0xFFFF
  must (tip || h.inUse (refName r)) (pfault cName r 0)
  must (tip || (h.openAt (refName r)).isNone) (pfault cState r 0 1)
  must (!h.frozen) (pfault cState r 0 3)
  let f := if tip then h.chain.length else (h.pos (refName r)).getD 1 - 1
  must (decide (h.floor ≤ f)) (pfault cFloor r 0)
  pure (q.setHist (refHandle r) (refHist r) { h with floor := f }, none)

def execPfloor (p : Pr) (a : Fin 32) (s : State) : Out :=
  runS p (srcs [a]) (fun c s => patchBody 0 (pfloorOp ((s.coreAt c).s a)) c s) s

/-! ## Queries (R312) -/

/-- Items 2 and 3 of a patch that exists. -/
def patchItem (h : Hist) (item name : Nat) : DWord :=
  match h.openAt name, h.pos name with
  | some o, _ =>
    if item = 2 then dw (num (!o.overwrite) * 2 ^ 32 + 2 ^ 33 + o.core % 256 * 2 ^ 40) else dw o.entries.length
  | none, some pos =>
    match h.chain[pos - 1]? with
    | some p =>
      if item = 2 then dw (pos + num (!p.overwrite) * 2 ^ 32 + num (decide (pos ≤ h.floor)) * 2 ^ 34)
      else dw p.entries.length
    | none => -1
  | none, none => -1

/-- One item of a history, a patch or a tensor. -/
def pqryOp (r : DWord) (item : Nat) : PatchOp := fun _ _ q => do
  let named := item == 2 || item == 3
  let r1 := if named then r else nameless r
  if item = 4 then
    let t ← q.lookTensor r r1
    pure (q, some (dw (t.tiles + t.ty.code * 2 ^ 32 + t.depth * 2 ^ 40)))
  else
    let (_, h) ← q.look r r1 0
    let v : DWord := match item with
      | 0 => dw (h.chain.length + h.floor * 2 ^ 32)
      | 1 => dw (h.opens.length + num h.frozen * 2 ^ 8)
      | 2 | 3 => if refName r = 0xFFFF then -1 else patchItem h item (refName r)
      | _ => 0
    pure (q, some v)

def execPqry (p : Pr) (d a b : Fin 32) (s : State) : Out :=
  runS p (srcs [a, b]) (fun c s =>
    let k := s.coreAt c
    patchBody d (pqryOp (k.s a) ((k.s b).toNat % 16)) c s) s

end Sys2Proof.Machine
end

