-- ==== Sys2Proof/Machine/Pool.lean ====
section
/-! DEFINITION. The Pool and its instructions (12_generation R204-R213, 17_patch R313-R318). -/

namespace Sys2Proof.Machine

/-! ## Contexts (R205, R206) -/

/-- The orders of the eight tables, by number. -/
def orders : List Nat := [1, 2, 3, 4, 6, 8, 12, 16]

/-- Bytes of a context's image. -/
def poolBytes (t lg : Nat) : Nat := 64 + 4 * 2 ^ lg + 256 * 2 ^ t

/-- Pages of a context. -/
def poolPages (t lg : Nat) : Nat := ceilDiv (poolBytes t lg) 65536

/-- SXFREE (R206). -/
def Partition.sxfree (q : Partition) : Nat :=
  if bit q.sxpool.toNat 0 then fld q.sxpool.toNat 44 20 - q.pools.foldl (fun n x => n + poolPages x.2.t x.2.lg) 0 else 0

/-- The lowest free context identifier (R204). -/
def freeContext (q : Partition) : Option Nat :=
  (List.range (q.pools.length + 1)).findSome? fun i =>
    if i + 1 < 4096 && (find q.pools (i + 1)).isNone then some (i + 1) else none

def PoolCtx.cap (x : PoolCtx) : Nat := 2 ^ x.lg

/-- The token at a position of the log. -/
def PoolCtx.tok (x : PoolCtx) (p : Nat) : Nat := findD x.log (p % x.cap) 0

/-- The log's start. -/
def PoolCtx.start (x : PoolCtx) : Nat := x.n - x.cap

/-! ## Append (R207, R208) -/

/-- Bucket and tag of order `k` at position `i`. -/
def PoolCtx.key (x : PoolCtx) (k i : Nat) : Nat × Nat :=
  let z := (List.range k).foldl (fun z j => (z + x.tok (i - j) * 0x9E3779B97F4A7C15 ^ j) % 2 ^ 64) 0
  let z := (mix64 (BitVec.ofNat 64 z)).toNat
  (z / 2 ^ (64 - x.t), z / 2 ^ (48 - x.t) % 2 ^ 16)

/-- The keys of the four ways of a bucket of table `o`. -/
def PoolCtx.wayKeys (x : PoolCtx) (o b : Nat) : List Nat := (List.range 4).map fun w => (o * 2 ^ x.t + b) * 4 + w

/-- The way that an append takes: the lowest empty one, else the one of the smallest position. -/
def PoolCtx.victim (x : PoolCtx) (ks : List Nat) : Nat :=
  match ks.find? fun k => (find x.ways k).isNone with
  | some k => k
  | none =>
    let pos (k : Nat) : Nat := ((find x.ways k).map Way.pos).getD 0
    (bestOf (fun a b => decide (pos a < pos b)) ks).getD 0

/-- Append one token. -/
def PoolCtx.append (x : PoolCtx) (token : Nat) : PoolCtx :=
  let i := x.n
  let x := { x with log := put x.log (i % x.cap) token, n := i + 1 }
  orders.zipIdx.foldl (fun x e =>
    if i + 1 < e.1 then x
    else
      let (b, g) := x.key e.1 i
      { x with ways := put x.ways (x.victim (x.wayKeys e.2 b)) ⟨i, g⟩ }) x

/-! ## Query (R209, R210) -/

/-- A candidate: order, match length and position. -/
structure Cand where
  k : Nat
  len : Nat
  pos : Nat
  deriving DecidableEq, Repr

/-- How many tokens going back from `i` equal those going back from the newest, at most `fuel`. -/
def PoolCtx.matchLen (x : PoolCtx) (i : Nat) : Nat → Nat → Nat
  | 0, _ => 0
  | fuel + 1, j =>
    if x.start + j ≤ i && x.tok (i - j) == x.tok (x.n - 1 - j) then 1 + x.matchLen i fuel (j + 1) else 0

/-- The candidates of table `o`. -/
def PoolCtx.cands (x : PoolCtx) (o k : Nat) : List Cand :=
  if x.n < k then []
  else
    let (b, g) := x.key k (x.n - 1)
    (x.wayKeys o b).filterMap fun w =>
      match find x.ways w with
      | none => none
      | some y =>
        let l := x.matchLen y.pos 255 0
        if y.tag = g && decide (y.pos + 1 < x.n) && decide (x.start + k ≤ y.pos + 1) && decide (k ≤ l)
        then some ⟨k, l, y.pos⟩ else none

/-- The order in which candidates are walked. -/
def Cand.before (a b : Cand) : Bool :=
  decide (b.k < a.k) || (a.k == b.k && (decide (b.len < a.len) || (a.len == b.len && decide (b.pos ≤ a.pos))))

/-- The branches: candidates in order, each position once, whose first continuation tokens all differ. -/
def PoolCtx.branches (x : PoolCtx) (nb : Nat) : List Cand :=
  let all := (orders.zipIdx.flatMap fun e => x.cands e.2 e.1).mergeSort Cand.before
  let once := all.foldl (fun l c => if l.any fun d => d.pos == c.pos then l else l ++ [c]) []
  once.foldl (fun l c =>
    if l.length < nb && !(l.any fun d => x.tok (d.pos + 1) == x.tok (c.pos + 1)) then l ++ [c] else l) []

/-- The drafted tokens of a branch. -/
def PoolCtx.draft (x : PoolCtx) (d : Nat) (c : Cand) : List Nat :=
  (List.range (min d (x.n - 1 - c.pos))).map fun j => x.tok (c.pos + 1 + j)

/-- The buffer's 64 words and the result word. -/
def PoolCtx.query (x : PoolCtx) (d nb : Nat) : List Nat × Nat :=
  let bs := x.branches nb
  let drafts := bs.map (x.draft d)
  let words := (List.range 4).flatMap fun b => (List.range 16).map fun j => (drafts.getD b []).getD j 0xFFFFF
  let cnt (i : Nat) : Nat := (drafts.getD i []).length
  (words, ((bs.head?.map Cand.len).getD 0) + cnt 0 * 2 ^ 8 + bs.length * 2 ^ 13 + cnt 1 * 2 ^ 16 + cnt 2 * 2 ^ 21 +
    cnt 3 * 2 ^ 26)

/-! ## Images (R212) -/

/-- The canonical image, as cells from 0. -/
def PoolCtx.image (x : PoolCtx) : Mem :=
  let c := x.cap
  let m := slotPut [] 0 8 (1 + x.t * 2 ^ 32 + x.lg * 2 ^ 40)
  let m := slotPut m 8 4 x.n
  let m := x.log.foldl (fun m e => slotPut m (64 + 4 * e.1) 4 e.2) m
  x.ways.foldl (fun m e => slotPut m (64 + 4 * c + 8 * e.1) 8 (e.2.pos + e.2.tag * 2 ^ 32 + 2 ^ 48)) m

/-- Whether a header breaks R212. -/
def badHeader (h : List Byte) : Bool :=
  recGet h 0 4 != 1 || decide (recGet h 4 1 < 8) || decide (20 < recGet h 4 1) || decide (recGet h 5 1 < 10) ||
    decide (20 < recGet h 5 1) || recGet h 6 2 != 0 || recGet h 12 52 != 0

/-- The context that an image describes, unless it breaks R212. -/
def contextOf (m : Mem) (die : Nat) : Option PoolCtx :=
  let t := slotGet m 4 1
  let lg := slotGet m 5 1
  let n := slotGet m 8 4
  let c := 2 ^ lg
  let base := 64 + 4 * c
  let slots := ((m.filter fun e => 64 ≤ e.1 && e.1 < base).map fun e => (e.1 - 64) / 4).eraseDups
  let words := slots.map fun i => (i, slotGet m (64 + 4 * i) 4)
  let keys := ((m.filter fun e => base ≤ e.1).map fun e => (e.1 - base) / 8).eraseDups
  let ways := keys.map fun i => (i, slotGet m (base + 8 * i) 8)
  let logOk := words.all fun e => (decide (c ≤ n) || decide (e.1 < n)) && decide (e.2 ≤ 0xFFFFE)
  let waysOk := ways.all fun e => fld e.2 48 16 == 1 && decide (fld e.2 0 32 < n)
  if logOk && waysOk then
    some { die, t, lg, n, log := words
           ways := ways.map fun e => (e.1, ⟨fld e.2 0 32, fld e.2 32 16⟩) }
  else none

/-! ## Instructions (R313-R318) -/

def poolInvalid {α : Type} (sub : Nat) : Res α := trap cPoolInvalid (dw sub)
def poolLimit {α : Type} (sub : Nat) : Res α := trap cPoolLimit (dw sub)

/-- Checks 1 and 2 of R318. -/
def Partition.poolAt (q : Partition) (n : Nat) : Res PoolCtx :=
  if !bit q.sxpool.toNat 0 then poolInvalid 5
  else match find q.pools n with
    | some x => .ok x
    | none => poolInvalid 1

/-- Every page of a range, translated before any access. -/
def State.checkPages (s : State) (p : Nat) (sup : Bool) (va len : Nat) (nd : Need) : Res Unit := do
  let _ ← (pages va len).mapM fun e => s.xlateFor p sup (e.1 % 2 ^ 64) nd
  pure ()

/-- Create a context: checks 8 of R318, then the lowest free identifier. -/
def Partition.newContext (q : Partition) (x : PoolCtx) : Res (Partition × Nat) :=
  match freeContext q with
  | none => poolLimit 2
  | some i =>
    if q.sxfree < poolPages x.t x.lg then poolLimit 1 else .ok ({ q with pools := put q.pools i x }, i)

def sxnewBody (d a : Fin 32) (c : Nat) (s : State) : Res State := do
  let s ← s.released c .S .part
  let k := s.coreAt c
  let q := s.partAt k.part
  let v := (k.s a).toNat
  if !bit q.sxpool.toNat 0 then poolInvalid 5
  else if fld v 0 8 < 8 || 20 < fld v 0 8 || fld v 8 8 < 10 || 20 < fld v 8 8 then poolInvalid 2
  else
    let (q, i) ← q.newContext { die := c / 36, t := fld v 0 8, lg := fld v 8 8 }
    pure ((s.setPart k.part q).onCore c fun k => k.setS d (dw i))

def execSxnew (p : Pr) (d a : Fin 32) (s : State) : Out := runS p (srcs [a]) (sxnewBody d a) s

def sxappBody (a b : Fin 32) (c : Nat) (s : State) : Res State := do
  let s ← s.released c .S .part
  let s := s.calm
  let k := s.coreAt c
  let q := s.partAt k.part
  let v := (k.s a).toNat
  let va := k.s b
  let x ← q.poolAt (fld v 0 12)
  let m := fld v 16 7
  if m < 1 || 64 < m then poolInvalid 2
  else
    aligned va 4
    s.checkPages k.part k.sup va.toNat (4 * m) needRd
    let bs ← atStart va (s.readFor k.part k.sup va.toNat m)
    let ts := unpackElems 32 m (leNat bs)
    if ts.any fun t => decide (0xFFFFE < t) then poolInvalid 3
    else if 0xFFFFFFFF < x.n + m then poolLimit 3
    else pure (s.setPart k.part { q with pools := put q.pools (fld v 0 12) (ts.foldl PoolCtx.append x) })

def execSxapp (p : Pr) (a b : Fin 32) (s : State) : Out := runS p (srcs [a, b]) (sxappBody a b) s

def sxqryBody (d a b : Fin 32) (c : Nat) (s : State) : Res State := do
  let s ← s.released c .S .part
  let s := s.calm
  let k := s.coreAt c
  let v := (k.s a).toNat
  let va := k.s b
  let x ← (s.partAt k.part).poolAt (fld v 0 12)
  if 16 < fld v 16 5 || fld v 24 3 < 1 || 4 < fld v 24 3 then poolInvalid 2
  else
    aligned va 64
    let (ws, r) := x.query (fld v 16 5) (fld v 24 3)
    s.checkPages k.part k.sup va.toNat (4 * ws.length) needWr
    let s ← s.writeFor k.part k.sup va.toNat (ws.flatMap (toLe 4))
    pure (s.onCore c fun k => k.setS d (dw r))

def execSxqry (p : Pr) (d a b : Fin 32) (s : State) : Out := runS p (srcs [a, b]) (sxqryBody d a b) s

def sxsaveBody (d a b : Fin 32) (c : Nat) (s : State) : Res State := do
  let s ← s.released c .S .part
  let s := s.calm
  let k := s.coreAt c
  let va := k.s b
  let x ← (s.partAt k.part).poolAt (fld (k.s a).toNat 0 12)
  aligned va 64
  let n := poolBytes x.t x.lg
  let s ← s.bulkStore (fun va => s.xlateFor k.part k.sup va needWr) none va.toNat n x.image []
  pure (s.onCore c fun k => k.setS d (dw n))

def execSxsave (p : Pr) (d a b : Fin 32) (s : State) : Out := runS p (srcs [a, b]) (sxsaveBody d a b) s

def sxloadBody (d b : Fin 32) (c : Nat) (s : State) : Res State := do
  let s ← s.released c .S .part
  let s := s.calm
  let k := s.coreAt c
  let q := s.partAt k.part
  let va := k.s b
  if !bit q.sxpool.toNat 0 then poolInvalid 5
  else
    aligned va 64
    let h ← atStart va (s.readFor k.part k.sup va.toNat 16)
    if badHeader h then poolInvalid 4
    else
      let n := poolBytes (recGet h 4 1) (recGet h 5 1)
      let (m, bad) ← s.bulkLoad (fun va => s.xlateFor k.part k.sup va needRd) va.toNat n
      if (firstBad bad).isSome then trap cPoison va
      else match contextOf m (c / 36) with
        | none => poolInvalid 4
        | some x =>
          let (q, i) ← q.newContext x
          pure ((s.setPart k.part q).onCore c fun k => k.setS d (dw i))

def execSxload (p : Pr) (d b : Fin 32) (s : State) : Out := runS p (srcs [b]) (sxloadBody d b) s

def sxfreeBody (a : Fin 32) (c : Nat) (s : State) : Res State := do
  let s ← s.released c .S .part
  let k := s.coreAt c
  let q := s.partAt k.part
  let n := fld (k.s a).toNat 0 12
  let _ ← q.poolAt n
  pure (s.setPart k.part { q with pools := del q.pools n })

def execSxfree (p : Pr) (a : Fin 32) (s : State) : Out := runS p (srcs [a]) (sxfreeBody a) s

end Sys2Proof.Machine
end

