-- ==== Sys2Proof/Machine/Conduit.lean ====
section
/-! DEFINITION. Conduit copies (16_transfer R286, R287; 02_links R33, R34, R40, R41; 24_program_offload R377, R378)
and the asynchronous faults of operations (11_traps R196). -/

namespace Sys2Proof.Machine

/-- A packet dropped without reply and counted in its port's error counter (R28, R29). -/
def State.dropPacket (s : State) (port : Nat) : State :=
  s.onDev fun d => { d with portErrors := put d.portErrors port (findD d.portErrors port 0 + 1) }

/-! ## Operations in flight -/

def State.opAt (s : State) (i : Nat) : Option Op := find s.dev.ops i

def State.setOp (s : State) (i : Nat) (o : Op) : State := s.onDev fun d => { d with ops := put d.ops i o }

/-- An operation leaves the tables, with the pages it held and the hops that wait for it. -/
def State.dropOp (s : State) (i : Nat) : State :=
  let s := s.onDev fun d => { d with ops := del d.ops i, hops := d.hops.filter fun h => h.op != i }
  { s with parts := mapVals s.parts fun _ q => { q with pins := q.pins.filter fun x => x.1 != i } }

/-- The traps that are kept, on their cores or with job core indices that are away (R194, R196). -/
def State.keptTraps (s : State) : List Trap :=
  (s.cores.flatMap fun k => k.2.kept) ++ s.parts.flatMap fun q => q.2.jobs.flatMap fun b => b.2.idx.flatMap fun x => x.2.kept

/-- Entries of core `c`'s in-flight table in use (R196). -/
def State.inFlight (s : State) (c : Nat) : Nat :=
  (s.dev.ops.filter fun o => o.2.core == c).length + (s.keptTraps.filter fun t => t.table == some c).length

/-- An operation that has not ended. -/
def Op.live (o : Op) : Bool := o.status.isNone && !o.faulted

/-- Whether an operation is of a partition on a die. -/
def Op.here (o : Op) (die p : Nat) : Bool := o.part == p && o.core / 36 == die

/-- The queue of a partition on a die has something to start: its event is in flight, once. -/
def State.wake (s : State) (die p : Nat) : State :=
  if s.events.contains (.conduitEntryStart die p) then s else s.post (.conduitEntryStart die p)

/-- The chunks that a rank sends first (R36). The rule says that a broadcast copies the root's buffer to every rank, and not how
the buffer travels: in the model the root sends its n chunks around the ring, as the results of an all-gather go (DESIGN CHOICE,
log 32). -/
def Coll.firstChunks (x : Coll) : List Nat :=
  if x.n = 1 then []
  else if x.op < 3 then [(x.rank + x.n - 1) % x.n]
  else if x.op = 3 then [x.rank]
  else if x.rank = x.root then List.range x.n else []

/-- Entries that an operation holds in its virtual queue: one for each 64 KiB of a copy that has not started, and one for each
first hop that a collective has still to send (R73). A copy set aside holds none (R378). -/
def Op.entries (o : Op) : Nat :=
  if !o.live || o.holdUntil.isSome then 0
  else match o.kind with
    | .copy _ _ len => ceilDiv (len - o.begun) 65536
    | .coll x => if o.queued then max 1 (x.firstChunks.length - o.sentFirst) else 0

/-- Jobs of a partition whose loading has entries to start on a die (R62, R73). -/
def State.loadsOn (s : State) (die p : Nat) : List (Nat × Job) :=
  (s.partAt p).jobs.filter fun b => b.2.state == 3 && decide (0 < findD b.2.loadLeft die 0)

/-- Entries that the loading of a job holds on a die: an image each, and a resident tile each (R62, R73). -/
def Job.loadEntries (b : Job) (die : Nat) : Nat :=
  (b.idx.filter fun x => x.2.core.any fun c => c / 36 == die).foldl (fun n x =>
    n + ((b.imagesOf x.1).len.filter (· != 0)).length + (b.residents.filter fun r => r.sel == 0x7FFF || r.sel == x.1).length) 0

/-- Chunk hops of a partition that wait in its queue on a die, for ranks that go on (R73). -/
def State.hopsOn (s : State) (die p : Nat) : List QueuedHop :=
  s.dev.hops.filter fun h => (s.opAt h.op).any fun o => o.here die p && o.live

/-- Entries of the virtual queue of a partition on a die in use. A copy or a loading that is split into more entries than the
queue's 64 fills it, and the others of its entries enter as those before them start (R73; DEDUCED, log 37). -/
def State.queueUsed (s : State) (die p : Nat) : Nat :=
  min 64 ((s.dev.ops.filter fun o => o.2.here die p).foldl (fun n o => n + o.2.entries) 0 +
    (s.loadsOn die p).foldl (fun n b => n + findD b.2.loadLeft die 0) 0 + (s.hopsOn die p).length)

/-- The capability table that an operation of core `c` uses: its job's, or none for the dispatcher (R41, R201). -/
def State.capKept (s : State) (c : Nat) : Option DWord :=
  (s.jobOf c).bind fun b => if b.disp.isEmpty then some b.capbase else none

/-- A new operation of core `c`: its issue waits for an entry of the in-flight table (R196); the issued word, as a release, waits
for the writes before it, then for an entry of its queue, takes both and is accepted (R73, R287). -/
def State.acceptOp (s : State) (c : Nat) (kind : OpKind) (ops : List DWord) (complPa : Nat) (semPa hold : Option Nat) :
    Res (State × Nat) := do
  if 64 ≤ s.inFlight c then waitMem
  let s ← s.released c .L .sys
  let k := s.coreAt c
  if 64 ≤ s.queueUsed (c / 36) k.part then .error .busy
  else
    let i := s.dev.nextOp
    let e := k.strL
    let o : Op := { kind, key := i, core := c, part := k.part, job := k.job, jidx := k.jidx, sup := k.sup
                    pc := e.pc - 4, seq := (e.seq + 2 ^ 48 - 1) % 2 ^ 48, ops, complPa, semPa, hold
                    capbase := s.capKept c }
    let s := (s.setOp i o).onDev fun d => { d with nextOp := i + 1 }
    .ok (s.wake (c / 36) k.part, i)

/-! ## The copy descriptor (R286) -/

/-- Location of a descriptor: checks 1 to 3 of R286. -/
def Core.descriptor (k : Core) (q : QReg) : Res (List Byte) := do
  alignCheck q.off 32
  k.rangeCheck q.off 64
  k.poisonCheck q.off 64
  pure (k.getBasin q.off 64)

/-- The first failing field of a copy descriptor, by its byte offset. -/
def State.badCopy (s : State) (c : Nat) (d : List Byte) : Option Nat :=
  let src := fld (recGet d 0 1) 0 4
  let dst := fld (recGet d 0 1) 4 4
  let len := recGet d 24 8
  let ty := s.refTy c (dw (recGet d 8 8))
  let checks : List (Nat × Bool) :=
    [(0, decide (4 < src) || decide (4 < dst) || dst == 1 || dst == 2 || (src == 3 && dst == 3)),
      (1, bit (recGet d 1 1) 7), (2, recGet d 2 6 != 0),
      (8, src == 2 && (match ty with
        | some t => !isMx t
        | none => false)),
      (24, decide (len < 1) || decide (2 ^ 40 < len) || (src == 1 && (match ty with
        | some t => len % tileBytes t != 0
        | none => false))),
      (36, recGet d 36 28 != 0)]
  (checks.find? Prod.snd).map Prod.fst

/-- A basin side must lie in the scratchpad. -/
def Core.basinSide (k : Core) (kind addr len : Nat) : Res Unit :=
  if kind = 4 then k.rangeCheck addr len else .ok ()

/-- A tensor side must name tiles that exist. -/
def State.tensorSide (s : State) (c : Nat) (kind : Nat) (r : DWord) (t0 len : Nat) : Res Unit := do
  if kind = 1 || kind = 2 then
    let (t, _) ← (s.partAt (s.coreAt c).part).look r (nameless r) 0
    let n := if kind = 1 then len / tileBytes t.ty else len
    if t.tiles < t0 + n then pfault cTensor (nameless r) 0 0 (max t0 t.tiles) else pure ()
  else pure ()

/-- A channel side: check 8 of R286. Of the kinds of R201 a source takes 2 and 3, a destination 1, 2 and 3. -/
def State.channelSide (s : State) (c ch : Nat) (isSrc : Bool) (addr len : Nat) : Res Side := do
  let k ← s.capAt c ch
  if !(k.kind == 2 || k.kind == 3 || (!isSrc && k.kind == 1)) then capFault ch 2
  else if !(if isSrc then k.rd else k.wr) then capFault ch 3
  else if k.kind = 3 then
    if addr < k.base || k.base + k.len ≤ addr then capFault ch 4
    else match find s.dev.far k.number with
      | some f => if f.part = some (s.coreAt c).part then pure (.far k.number addr) else capFault ch 5
      | none => capFault ch 5
  else if addr < k.base || k.base + k.len < addr + len then capFault ch 4
  else if k.kind = 1 then pure (.host k.port k.number addr)
  else pure (.device k.port k.number (addr / 2 ^ 60) (addr % 2 ^ 60))

/-- A side of a copy. -/
def State.sideOf (s : State) (c ch kind : Nat) (isSrc : Bool) (addr t0 len : Nat) : Res Side :=
  match kind with
  | 0 => .ok (.plain addr)
  | 1 => .ok (.tiles (refHandle (dw addr)) (refHist (dw addr)) t0)
  | 2 => .ok (.scales (refHandle (dw addr)) (refHist (dw addr)) t0)
  | 3 => s.channelSide c ch isSrc addr len
  | _ => .ok (.basin addr)

/-- Translate the completion word and the semaphore's backing word: checks 9 and 10 of R286. -/
def State.signals (s : State) (c : Nat) (va : DWord) (semv : Bool) (sem : Nat) : Res (State × Nat × Option Nat) := do
  let kv ← if semv then (s.coreAt c).semVa sem else pure 0
  let (s, pa) ← s.xlate c .L va.toNat needWr
  if semv then
    let (s, kp) ← s.xlate c .L kv needWr
    pure (s, pa, some kp)
  else pure (s, pa, none)

/-- The pages that a copy holds from its acceptance on (R142). -/
def State.pin (s : State) (p i : Nat) (side : Side) : State := s.pinHist p i (s.sideHist p side)

/-! ## Moving bytes -/

/-- A piece of data: cells from 0, and the intervals of it that are poisoned. -/
structure Piece where
  data : Mem
  bad : List (Nat × Nat)
  deriving DecidableEq, Repr

/-- A stream of objects of `b` bytes each, cut to [off, off + n). -/
def objects (b : Nat) (bytes : Nat → List Byte) (bad : Nat → Bool) (off n : Nat) : Piece :=
  let first := off / b
  let count := if n = 0 then 0 else (off + n - 1) / b - first + 1
  let all := (List.range count).map fun i => first + i
  { data := cut (all.flatMap fun i => cells (i * b) (bytes i)) off n
    bad := intervals b off n (all.filter bad) }

/-- Read [off, off + n) of a copy's source, all within one page and one region. -/
def State.readSide (s : State) (o : Op) (side : Side) (off n : Nat) : Res Piece :=
  match side with
  | .plain va => do
    let pa ← s.xlateFor o.part o.sup ((va + off) % 2 ^ 64) needRd
    pure ⟨s.bulkRead pa n, intervals 64 pa n s.poisonNow⟩
  | .basin b =>
    let k := s.coreAt o.core
    .ok ⟨cut k.basin (b + off) n, intervals 32 (b + off) n k.basinBad⟩
  | .tiles _ _ t0 =>
    match o.last with
    | none => .ok ⟨[], []⟩
    | some (t, h) =>
      let b := tileBytes t.ty
      .ok (objects b (fun i => toLe b (h.tip t.ty (t0 + i)).data) (fun i => (s.partAt o.part).tilePoison h (t0 + i)) off n)
  | .scales _ _ t0 =>
    match o.last with
    | none => .ok ⟨[], []⟩
    | some (t, h) =>
      .ok (objects 1 (fun i => toLe 1 (h.tip t.ty (t0 + i)).scale) (fun i => (s.partAt o.part).tilePoison h (t0 + i)) off n)
  | .far r a =>
    match find s.dev.far r with
    | none => .ok ⟨[], []⟩
    | some f => .ok ⟨cut f.mem (a + off) n, intervals 64 (a + off) n f.bad⟩
  | .host _ _ _ => .ok ⟨[], []⟩
  | .device _ _ _ _ => .ok ⟨[], []⟩

/-- A copy of a frozen history, whose version is fixed, to a peer is the drain of a checkpoint (R139, R223; DEDUCED, log
63). -/
def Op.drain (o : Op) : Bool :=
  match o.kind with
  | .copy (.tiles _ _ _) _ _ | .copy (.scales _ _ _) _ _ => o.last.any fun x => x.2.frozen
  | _ => false

/-- The class in which the messages of a copy leave (R28). -/
def Op.tc (o : Op) : Nat := if o.drain then 3 else 2

/-- Write [off, off + n) of a copy's destination, poison with it. -/
def State.writeSide (s : State) (o : Op) (side : Side) (off n : Nat) (x : Piece) : Res State :=
  match side with
  | .plain va => do
    let pa ← s.xlateFor o.part o.sup ((va + off) % 2 ^ 64) needWr
    pure (s.bulkWrite none pa n x.data (touched 64 pa x.bad))
  | .basin b => .ok (s.onCore o.core fun k =>
      let lo := b + off
      { k with
        basin := blit k.basin lo n x.data
        basinBad := ((k.basinBad.filter fun r => !(lo ≤ 32 * r && 32 * r + 32 ≤ lo + n)) ++ touched 32 lo x.bad).eraseDups })
  | .far r a => .ok (s.onDev fun d => { d with far := mapVals d.far fun i f =>
      if i = r then
        let lo := a + off
        { f with
          mem := blit f.mem lo n x.data
          bad := ((f.bad.filter fun u => !(lo ≤ 64 * u && 64 * u + 64 ≤ lo + n)) ++ touched 64 lo x.bad).eraseDups }
      else f })
  | .host port c a => .ok (s.send (.hostWrite port c o.tc (a + off) (Mem.readN x.data 0 n)))
  | .device port c w a => .ok (s.send (.devWrite port c o.tc w (a + off) (Mem.readN x.data 0 n)))
  | .tiles _ _ _ => .ok s
  | .scales _ _ _ => .ok s

/-- Bytes of a message besides its header (R27, R42). -/
def bodyLimit : Nat := 4064

/-- How far a side lets one piece at `off` reach: to the end of a page, of a far region, or of a message. A region that SET_FAR
has released while a copy is in flight reaches nowhere, so that the copy ends with FAR_FULL at the bytes that it has moved: the
spec does not say what becomes of such a copy (DESIGN CHOICE, log 37). -/
def State.reach (s : State) (side : Side) (off : Nat) : Nat :=
  match side with
  | .plain va => 65536 - (va + off) % 65536
  | .far r a => ((find s.dev.far r).map Far.size).getD 0 - (a + off)
  | .host _ _ _ | .device _ _ _ _ => bodyLimit
  | _ => 65536

/-- Whether a side's CXL link is down (R34). -/
def State.linkLost (s : State) (side : Side) : Bool :=
  match side with
  | .far r _ =>
    match find s.dev.far r with
    | some f => !s.dev.cxlPorts.contains f.port
    | none => false
  | _ => false

/-- Whether a side's connection has failed (R31). The spec does not say whether a connection number is a partition's own or the
device's: in the model the numbers are the device's, so that a failed one ends the copies and collectives of every partition
that names it (DESIGN CHOICE, log 50). -/
def State.peerLost (s : State) : Side → Bool
  | .host _ c _ | .device _ c _ _ => s.dev.lost.contains c
  | _ => false

/-- Whether a side cannot carry poison: a fabric peer. -/
def noPoison : Side → Bool
  | .host _ _ _ => true
  | .device _ _ _ _ => true
  | _ => false

/-- Bytes of a destination that a byte above the count may keep, with their poison, where the module can read them. -/
def State.oldPiece (s : State) (o : Op) (side : Side) (off n : Nat) : Option Piece :=
  match side with
  | .plain va =>
    match s.xlateFor o.part o.sup ((va + off) % 2 ^ 64) needWr with
    | .ok pa => some ⟨s.bulkRead pa n, intervals 64 pa n s.poisonNow⟩
    | .error _ => none
  | .basin b =>
    let k := s.coreAt o.core
    some ⟨cut k.basin (b + off) n, intervals 32 (b + off) n k.basinBad⟩
  | .far r a => (find s.dev.far r).map fun f => ⟨cut f.mem (a + off) n, intervals 64 (a + off) n f.bad⟩
  | _ => none

/-- Of two pieces of `n` bytes, byte by byte the one that `copied` says, with its poison. -/
def Piece.choose (x old : Piece) (n : Nat) (copied : Nat → Bool) : Piece :=
  { data := (x.data.filter fun c => copied c.1).foldl (fun m c => put m c.1 c.2) (old.data.filter fun c => !copied c.1)
    bad := ((List.range n).filter fun i => meets (if copied i then x.bad else old.bad) i (i + 1)).map fun i => (i, i + 1) }

/-- Write a piece of a destination of which each byte keeps its previous value or takes the new one, and which is a free value
(R34, R196, log 7). -/
def State.writeChosen (s : State) (o : Op) (dst : Side) (free off n : Nat) (x : Piece) : State :=
  match s.oldPiece o dst off n with
  | none => s
  | some old =>
    match s.writeSide o dst off n (x.choose old n fun i => Config.movedPast free (off + i)) with
    | .ok s => s
    | .error _ => s

/-- Pieces of [off, len): each within one page of a plain side. -/
def piecesFrom (s : State) (src dst : Side) (len : Nat) : Nat → Nat → List (Nat × Nat)
  | 0, _ => []
  | fuel + 1, off =>
    if len ≤ off then []
    else
      let n := min (len - off) (min 65536 (min (s.reach src off) (s.reach dst off)))
      if n = 0 then [] else (off, n) :: piecesFrom s src dst len fuel (off + n)

/-- The bytes at and above the count of a copy that stopped: each holds its previous value or the copied one, poison with
it, and which is a free value (R34, R196, log 7). Of a remote device's bytes the module has none. -/
def State.movePast (s : State) (o : Op) (src dst : Side) (len : Nat) : State :=
  if noPoison src then s
  else
  let (n, s) := s.draw
  (piecesFrom s src dst len (len / 65536 * 3 + 4) o.done).foldl (fun s e =>
    match s.readSide o src e.1 e.2 with
    | .ok x => s.writeChosen o dst n e.1 e.2 x
    | .error _ => s) s

/-- The count of a copy to a peer that is lost: which of the bytes sent have arrived is not known, a free value (R31). -/
def State.arrived (s : State) (o : Op) (dst : Side) (status : Nat) : Nat × State :=
  if status = 3 && noPoison dst then
    let (n, s) := s.draw
    ((Config.freeBits n 0).toNat % (o.done + 1), s)
  else (o.done, s)

/-- End a copy with a status; its completion is then due, and what stands behind it in its queue may start. -/
def State.endCopy (s : State) (i : Nat) (o : Op) (src dst : Side) (len status : Nat) : State :=
  let s := if status = 0 then s else s.movePast o src dst len
  let (done, s) := s.arrived o dst status
  ((s.setOp i { o with status := some status, done, queued := false, awaiting := false }).post (.ccopyComplete i [])).wake
    (o.core / 36) o.part

/-- Stop an operation at a fault, which its core then takes (R196). -/
def State.faultOp (s : State) (i : Nat) (o : Op) (va : DWord) (code : Nat) : State :=
  let s := match o.kind with
    | .copy src dst len => s.movePast o src dst len
    | .coll _ => s
  ((s.setOp i { o with faulted := true, queued := false, awaiting := false }).post (.asyncFault i va code)).wake
    (o.core / 36) o.part

/-- What a stop of a piece does: a fault stops the operation, a cellar page is asked for. -/
def State.stopOp (s : State) (i : Nat) (o : Op) : Stop → State
  | .trap code v _ => s.faultOp i o v code
  | .fetch p e va => s.requestFetch p e va none
  | _ => s

def isFar : Side → Bool
  | .far _ _ => true
  | _ => false

/-- The part of a piece below `n`. -/
def Piece.below (x : Piece) (n : Nat) : Piece := ⟨x.data.filter fun c => c.1 < n, []⟩

/-- Whether a history is still the one that a copy reads: it stands on the same base. -/
def State.stillReads (s : State) (o : Op) (side : Side) : Bool :=
  let base (x : Tensor × Hist) : Nat := x.2.base.uid
  o.last.isSome && (s.sideHist o.part side).map base == o.last.map base

/-- Reads of tiles for a copy count for automatic squash of the history that it reads (R132). -/
def State.noteCopied (s : State) (o : Op) (side : Side) (off n : Nat) : State :=
  let note (h i t0 b : Nat) : State := if !s.stillReads o side then s else s.onPart o.part fun q =>
    ((List.range (ceilDiv (off % b + n) b)).foldl (fun q x => q.autoSquash h i (t0 + off / b + x)) q)
  match side with
  | .tiles h i t0 => note h i t0 (tileBytes ((o.last.map fun x => x.1.ty).getD .i8))
  | .scales h i t0 => note h i t0 1
  | _ => s

/-- The interval of the source unit that holds the first poisoned byte of a piece, up to the piece's end. -/
def badUnit (bad : List (Nat × Nat)) (b : Nat) : Nat := ((bad.find? fun x => x.1 == b).map Prod.snd).getD (b + 1)

/-- A copy stops at the first poisoned byte `b` of a piece: what lies below is written, the status is POISON, and the
destination of the source's poisoned unit is poisoned (R34). -/
def State.poisonStop (s : State) (i : Nat) (o : Op) (src dst : Side) (len b : Nat) (x : Piece) : State :=
  match s.writeSide o dst o.done b (x.below b) with
  | .error e => s.stopOp i o e
  | .ok s =>
    let o := { o with done := o.done + b }
    let s := s.endCopy i o src dst len 4
    let n := badUnit x.bad b - b
    if noPoison dst then s
    else match s.writeSide o dst o.done n ⟨((s.oldPiece o dst o.done n).map Piece.data).getD [], [(0, n)]⟩ with
      | .ok s => s
      | .error _ => s

/-- Move one piece of the entry that a copy has started, or end the copy (R34). A copy to a peer ends when its last bytes are
acknowledged (R31). -/
def State.copyPiece (s : State) (i : Nat) (o : Op) (src dst : Side) (len : Nat) : State :=
  if s.linkLost src || s.linkLost dst then s.endCopy i o src dst len 2
  else if s.peerLost src || s.peerLost dst then s.endCopy i o src dst len 3
  else if len ≤ o.done then (if noPoison dst then s.setOp i { o with awaiting := true } else s.endCopy i o src dst len 0)
  else
    let n := min (o.begun - o.done) (min (s.reach src o.done) (s.reach dst o.done))
    if n = 0 then s.endCopy i o src dst len 1
    else match s.readSide o src o.done n with
      | .error e => s.stopOp i o e
      | .ok x =>
        match if isFar src || noPoison dst then firstBad x.bad else none with
        | some b => s.poisonStop i o src dst len b x
        | none =>
          match s.writeSide o dst o.done n x with
          | .error e => s.stopOp i o e
          | .ok s => (s.noteCopied o src o.done n).setOp i { o with done := o.done + n }

/-- Move the pieces of the entry that a copy has started, one after another, and end the copy after its last: at most `fuel`
pieces. One that waits for a page leaves the rest of the entry to the copy's next turn. -/
def State.copyEntry (i : Nat) (src dst : Side) (len : Nat) : Nat → State → State
  | 0, s => s
  | fuel + 1, s =>
    match s.opAt i with
    | none => s
    | some o =>
      if !o.live || o.awaiting || (decide (o.begun ≤ o.done) && decide (o.done < len)) then s
      else State.copyEntry i src dst len fuel (s.copyPiece i o src dst len)

/-- More pieces than an entry has: those of a message's body, and one that ends the copy. -/
def entryPieces : Nat := 64

/-- The next `READ` of the entry that a copy from a remote device has started. -/
def State.readPeer (s : State) (i : Nat) (o : Op) (port c w a : Nat) : State :=
  (s.send (.devRead port c w (a + o.done) (min bodyLimit (o.begun - o.done)) i)).setOp i { o with awaiting := true }

/-- A copy that goes on: the entry that it has started, or its next one, of at most 64 KiB (R73). -/
def Op.begin (o : Op) (len : Nat) : Op :=
  { o with started := true, begun := if o.begun ≤ o.done then min len (o.done + 65536) else o.begun }

/-- Go on with the entry of a copy: a `READ`, or its pieces. -/
def State.goOnCopy (s : State) (i : Nat) (o : Op) (src dst : Side) (len : Nat) : State :=
  match src with
  | .device port c w a => if s.peerLost src then s.endCopy i o src dst len 3 else s.readPeer i o port c w a
  | _ => State.copyEntry i src dst len entryPieces (s.setOp i o)

/-- One turn of a copy at the head of its queue (R73, R378). Its source is fixed when it starts (R129). -/
def State.copyTurn (s : State) (i : Nat) (o : Op) (src dst : Side) (len : Nat) : State :=
  match o.hold with
  | some h => (s.setOp i { o with hold := none, holdUntil := some (s.now + h), queued := false }).post (.cdelayHoldEnd i)
  | none =>
    let (s, o) := s.fixSource i o src
    s.goOnCopy i (o.begin len) src dst len

/-- A copy that is issued while a CXL link of its sides is down ends with LINK_DOWN, and nothing moved, even if the link comes up
before its turn (R34). -/
def State.issueDown (s : State) (i : Nat) (src dst : Side) (len : Nat) : State :=
  match s.opAt i with
  | none => s
  | some o =>
    if s.linkLost src || s.linkLost dst then
      let (s, o) := s.fixSource i o src
      s.endCopy i o src dst len 2
    else s

def ccopyBody (qa qb : Fin 16) (ch : Fin 64) (c : Nat) (s : State) : Res State := do
  let s := s.calm
  let k := s.coreAt c
  let qd := k.strL.qr qa
  let qs := k.strL.qr qb
  let d ← k.descriptor qd
  match s.badCopy c d with
  | some f => trap cFormat (dw f)
  | none =>
    let sk := fld (recGet d 0 1) 0 4
    let dk := fld (recGet d 0 1) 4 4
    let sem := fld (recGet d 1 1) 0 6
    let semv := bit (recGet d 1 1) 6
    let sa := recGet d 8 8
    let da := recGet d 16 8
    let len := recGet d 24 8
    let t0 := recGet d 32 4
    check (qs.base.toNat % 8 == 0) cAlign qs.base
    k.basinSide sk sa len
    k.basinSide dk da len
    s.tensorSide c sk (dw sa) t0 len
    let src ← s.sideOf c ch sk true sa t0 len
    let dst ← s.sideOf c ch dk false da t0 len
    let (s, pa, sp) ← s.signals c qs.base semv sem
    let cd := k.cdelay.toNat
    let held := semv && bit cd 63 && fld cd 32 6 == sem
    let (s, i) ← s.acceptOp c (.copy src dst len) [qd.base, qs.base] pa sp (if held then some (fld cd 0 32) else none)
    let s := s.pin k.part i src
    let s := if held then s else s.issueDown i src dst len
    let s := if held then s.onCore c fun k => { k with cdelay := dw (cd % 2 ^ 63) } else s
    pure (s.advances c .L [(qa, .descriptor), (qb, .plain)])

def execCcopy (p : EPre) (qa qb : Fin 16) (ch : Fin 64) (s : State) : Out :=
  runE .L p resolvedOnly (qsrcs s .L [qa, qb]) (ccopyBody qa qb ch) s

/-- The hold of a copy ends, and the copy starts (R378). -/
def execCdelayHoldEnd (op : Nat) (s : State) : Out :=
  match s.opAt op with
  | none => .next s
  | some o =>
    match o.holdUntil with
    | none => .next s
    | some t =>
      if s.now < t then .next (s.post (.cdelayHoldEnd op))
      else .next ((s.setOp op { o with holdUntil := none }).wake (o.core / 36) o.part)

/-! ## Ends of operations (R40, R196) -/

/-- Write an operation's completion word, signal its semaphore and free its entry (R40, R200). -/
def State.complete (s : State) (i : Nat) (o : Op) (status : Nat) : State :=
  let s := s.placeWrite o.complPa (toLe 8 (status * 2 ^ 56 + o.done % 2 ^ 48))
  let s := match o.semPa with
    | some place => s.placeRed place 4 fun v => (v + 1) % 2 ^ 32
    | none => s
  s.dropOp i

/-- Bytes of `data`, which lies at `base` of a destination, for a piece of it. -/
def pieceOf (data : List Byte) (base : Nat) (e : Nat × Nat) : Piece := ⟨cells 0 ((data.drop (e.1 - base)).take e.2), []⟩

/-- Write data page by page up to the first page that stops the write: the state, how far the data are written, and the stop
(R196). -/
def State.writeUpTo (s : State) (o : Op) (dst : Side) (data : List Byte) (base : Nat) :
    List (Nat × Nat) → State × Nat × Option Stop
  | [] => (s, base + data.length, none)
  | e :: rest =>
    match s.writeSide o dst e.1 e.2 (pieceOf data base e) with
    | .error x => (s, e.1, some x)
    | .ok s => State.writeUpTo s o dst data base rest

/-- Data that lie from `base` on in a destination, up to a page that faults; of the bytes in the pages after that one, each
keeps its previous value or takes the new one (R196). -/
def State.deliverData (s : State) (o : Op) (dst : Side) (data : List Byte) (base : Nat) : State × Nat × Option Stop :=
  let ps := piecesFrom s dst dst (base + data.length) (data.length / 65536 * 3 + 4) base
  match s.writeUpTo o dst data base ps with
  | (s, at', some (.trap code v x)) =>
    let (n, s) := s.draw
    ((ps.filter fun e => decide (at' < e.1)).foldl (fun s e => s.writeChosen o dst n e.1 e.2 (pieceOf data base e)) s, at',
      some (.trap code v x))
  | r => r

/-- The data of a `READ` have arrived: they are written, and the next `READ` of the entry is sent, or the copy completes, or waits
for the turn of its next entry; a reply that lacks bytes ends it with PEER_LOST. -/
def State.peerData (s : State) (i : Nat) (o : Op) (src dst : Side) (len : Nat) (data : List Byte) : State :=
  let n := min bodyLimit (o.begun - o.done)
  let data := data.take n
  match s.deliverData o dst data o.done with
  | (t, at', none) =>
    let o := { o with done := at', awaiting := false }
    if len ≤ at' then t.complete i o 0
    else if data.length < n then t.endCopy i o src dst len 3
    else if at' < o.begun then t.goOnCopy i o src dst len
    else (t.setOp i o).wake (o.core / 36) o.part
  | (t, at', some (.trap code v _)) => t.faultOp i { o with done := at' } v code
  | (_, _, some (.fetch p e va)) => (s.requestFetch p e va none).post (.ccopyComplete i data)
  | (_, _, some _) => s.post (.ccopyComplete i data)

/-- A copy ends (R40). For a copy from a remote device the event carries the data that a `READ` brought; for one to a peer
it is the last acknowledgement. R40 has no code for a `WRITE` or a `READ` that the peer answers with an error: any answer to the
last `WRITE` counts as its acknowledgement and the copy is OK, and a `READ` whose answer lacks bytes ends it with PEER_LOST
(DESIGN CHOICE, log 37). -/
def execCcopyComplete (op : Nat) (data : List Byte) (s : State) : Out :=
  match s.opAt op with
  | none => .next s
  | some o =>
    match o.kind, o.status with
    | .copy _ _ _, some st => .next (s.complete op o st)
    | .copy src dst len, none =>
      if !o.awaiting || o.faulted then .next s
      else if noPoison src then .next (s.peerData op o src dst len data)
      else .next (s.complete op o 0)
    | .coll _, _ => .next s

/-- Bring an asynchronous fault to its core: taken at once, or kept until the core runs outside a handler, or, for an index
that is away or has ended, until it runs again or its job ends (R196). -/
def State.deliverFault (s : State) (o : Op) (t : Trap) : State :=
  match s.jobAt o.part o.job with
  | none => s
  | some b =>
    if 6 ≤ b.state then s.recordLate o.part o.jidx b t
    else match find b.idx o.jidx with
      | none => s
      | some x =>
        let keep := s.setJob o.part o.job { b with idx := put b.idx o.jidx { x with kept := x.kept ++ [t] } }
        match x.core with
        | some c =>
          if (s.coreAt c).run = .idle then keep
          else if (s.coreAt c).kept.isEmpty then s.takeTrap c t
          else s.onCore c fun k => { k with kept := k.kept ++ [t] }
        | none => keep

/-- An operation that faulted after its issue traps its core (R196). -/
def execAsyncFault (op : Nat) (va : DWord) (code : Nat) (s : State) : Out :=
  match s.opAt op with
  | none => .next s
  | some o =>
    if !o.faulted then .next s
    else
      let t : Trap := { code, val := va, ops := o.ops, async := true, stream := .L, pc := o.pc, seq := o.seq, table := some o.core }
      .next ((s.dropOp op).deliverFault o t)

end Sys2Proof.Machine
end

