-- ==== Sys2Proof/Machine/Confluence.lean ====
section
/-! DEFINITION. Collectives of the confluence (16_transfer R288; 02_links R35-R41) and the starts of queue entries
(04_hall R73). -/

namespace Sys2Proof.Machine

/-! ## Issue (R288) -/

/-- The first failing field of a collective descriptor, by its byte offset. -/
def badColl (d : List Byte) : Option Nat :=
  let n := recGet d 4 2 + 1
  let oper := fld (recGet d 0 1) 4 4
  let checks : List (Nat × Bool) :=
    [(0, decide (4 < fld (recGet d 0 1) 0 4) || (decide (4 < oper) && oper != 15)),
      (1, bit (recGet d 1 1) 7), (2, fld (recGet d 2 1) 5 3 != 0), (3, recGet d 3 1 != 0), (4, decide (4096 < n)),
      (6, decide (n ≤ recGet d 6 2)), (8, decide (n ≤ recGet d 8 2)), (10, recGet d 10 6 != 0), (40, recGet d 40 24 != 0)]
  (checks.find? Prod.snd).map Prod.fst

/-- The combinations of R35. -/
def collAccepts (op oper : Nat) (ty : Option Ty) : Bool :=
  match ty with
  | none => false
  | some t =>
    if 3 ≤ op then oper == 15
    else
      let four := t == .f32 || t == .bf16 || t == .i32 || t == .i64
      (oper == 0 && four) || ((oper == 1 || oper == 2) && (four || t == .n32)) || ((oper == 3 || oper == 4) && t == .n32)

/-- The device endpoint that `coll` names. -/
def State.collCap (s : State) (c ch : Nat) : Res Cap := do
  let k ← s.capAt c ch
  if k.kind ≠ 2 then capFault ch 2
  else if !k.rd || !k.wr then capFault ch 3
  else pure k

/-- Whether operation `o` is a collective of a tag of a partition. -/
def Op.ofTag (o : Op) (p tag : Nat) : Bool :=
  o.part == p && match o.kind with
    | .coll x => x.tag == tag
    | _ => false

/-- Whether a collective of a tag, but for operation `i`, is in flight in a partition. -/
def State.tagBusy (s : State) (p tag i : Nat) : Bool :=
  (s.dev.ops.any fun o => o.1 != i && o.2.ofTag p tag) || s.dev.chunks.any fun m => m.part == p && m.tag == tag

/-- The ranks of a collective's list that lie on this device, with the cores that it names; one whose entry cannot be read is
none. -/
def State.localRanks (s : State) (p : Nat) (sup : Bool) (x : Coll) : List (Nat × Nat) :=
  (List.range x.n).filterMap fun t => match s.readVia p sup needRd ((x.list + 8 * t) % 2 ^ 64) 2 with
    | .ok e => if bit (leNat e) 15 then some (t, leNat e % 256) else none
    | .error _ => none

/-- Whether an issued collective is one of a rank, on a core, that a mate of this device takes part in. -/
def Round.links (y : Round) (p tag rank core : Nat) (mate : Nat × Nat) : Bool :=
  y.part == p && y.tag == tag && y.rank == rank && y.core == core && y.mates.contains mate

/-- The operation that a message is for: of those that its rank shares with the sender, the one with the same number (log
32). -/
def State.pairOp (s : State) (m : CollMsg) : Option Nat :=
  ((s.dev.rounds.filter fun y => y.links m.part m.tag m.rank m.core (m.sender, m.senderCore))[m.no]?).map Round.op

/-- An operation that has been issued takes the messages that came before it. -/
def State.takeEarly (s : State) (i : Nat) : State :=
  let mine (m : CollMsg) : Bool := s.pairOp m == some i
  s.onDev fun d => { d with
    chunks := d.chunks.filter fun m => !mine m
    ops := mapVals d.ops fun n o => if n = i then { o with early := (d.chunks.filter mine).map fun m => (m.sender, m.msg) } else o }

/-- Number a collective of a rank as it is issued: after those that the rank has issued under the tag on its core. Two ranks of
the device pair the collectives that they share one by one, each side in its own order, and the counts of a tag begin again when
nothing of it is in flight: how the messages of two collectives under one tag are told apart the rule does not say (R36; DESIGN
CHOICE, log 32). -/
def State.numberRound (s : State) (c i : Nat) (x : Coll) : State :=
  let k := s.coreAt c
  let rs := if s.tagBusy k.part x.tag i then s.dev.rounds else s.dev.rounds.filter fun y => y.part != k.part || y.tag != x.tag
  let mates := s.localRanks k.part k.sup x
  (s.onDev fun d => { d with rounds := rs ++ [⟨i, x.tag, k.part, x.rank, c, mates⟩] }).takeEarly i

def collBody (qa qb : Fin 16) (ch : Fin 64) (c : Nat) (s : State) : Res State := do
  let s := s.calm
  let k := s.coreAt c
  let qd := k.strL.qr qa
  let qs := k.strL.qr qb
  let d ← k.descriptor qd
  match badColl d with
  | some f => trap cFormat (dw f)
  | none =>
    let rank := recGet d 6 2
    let buf := recGet d 16 8
    let list := recGet d 32 8
    let semv := bit (recGet d 1 1) 6
    let ty := tyOf (fld (recGet d 2 1) 0 5)
    let at' := (list + 8 * rank) % 2 ^ 64
    check (list % 8 == 0) cAlign (dw list)
    let entry ← s.readFor k.part k.sup at' 2
    check (leNat entry % 256 == c && bit (leNat entry) 15) cFormat 32
    check (buf % 4 == 0) cAlign (dw buf)
    check (qs.base.toNat % 8 == 0) cAlign qs.base
    let cap ← s.collCap c ch
    let (s, pa, sp) ← s.signals c qs.base semv (fld (recGet d 1 1) 0 6)
    let op := fld (recGet d 0 1) 0 4
    let oper := fld (recGet d 0 1) 4 4
    let x : Coll := ⟨op, oper, fld (recGet d 2 1) 0 5, recGet d 4 2 + 1, rank, recGet d 8 2, buf, recGet d 24 8, list,
      cap.number % 2 ^ 16⟩
    let (s, i) ← s.acceptOp c (.coll x) [qd.base, qs.base] pa sp none
    let s := if collAccepts op oper ty then s.numberRound c i x
      else match s.opAt i with
        | some o => (s.setOp i { o with status := some 6, queued := false }).post (.collComplete i)
        | none => s
    pure (s.advances c .L [(qa, .descriptor), (qb, .plain)])

def execColl (p : EPre) (qa qb : Fin 16) (ch : Fin 64) (s : State) : Out :=
  runE .L p resolvedOnly (qsrcs s .L [qa, qb]) (collBody qa qb ch) s

/-! ## Chunks (R36) -/

def Coll.fmt (x : Coll) : Ty := (tyOf x.ty).getD .n32

/-- First element of a chunk, and its element count. -/
def Coll.chunkAt (x : Coll) (c : Nat) : Nat := min (c * ceilDiv x.elems x.n) x.elems
def Coll.chunkLen (x : Coll) (c : Nat) : Nat := x.chunkAt (c + 1) - x.chunkAt c

/-- Bytes from the buffer's start that hold a chunk, and the bit of the first byte at which it starts. -/
def Coll.span (x : Coll) (c : Nat) : Nat × Nat × Nat :=
  let lo := width x.fmt * x.chunkAt c
  let hi := lo + width x.fmt * x.chunkLen c
  (lo / 8, (hi + 7) / 8 - lo / 8, lo % 8)

/-- Bytes that the elements of a chunk take in a message. Elements of 4 or 6 bits are packed from bit 0 of the first byte on,
wherever the chunk starts in the buffer, and a last byte that they do not fill counts whole: the spec states neither the
packing nor how COUNT counts part of a byte (DESIGN CHOICE, log 32). -/
def Coll.msgBytes (x : Coll) (c : Nat) : Nat := (width x.fmt * x.chunkLen c + 7) / 8

/-- The residue of a chunk (R38). -/
def residueOf (bs : List Byte) : Nat :=
  let rec go : Nat → List Byte → Nat
    | 0, _ => 0
    | n + 1, bs => leNat (bs.take 4) + go n (bs.drop 4)
  go ((bs.length + 3) / 4) bs % (2 ^ 31 - 1)

/-- The chunk of this rank's own buffer, as the bytes of a message. -/
def State.readChunk (s : State) (o : Op) (x : Coll) (c : Nat) : Res (List Byte) := do
  let (off, n, sh) := x.span c
  let va := (x.buf + off) % 2 ^ 64
  let (m, bad) ← s.bulkLoad (fun a => s.xlateFor o.part o.sup a needRd) va n
  match firstBad bad with
  | some a => trap cPoison (dw ((va + a) % 2 ^ 64))
  | none => pure (toLe (x.msgBytes c) (leNat (Mem.readN m 0 n) / 2 ^ sh % 2 ^ (width x.fmt * x.chunkLen c)))

/-- A byte of the buffer as it stands, where it can be written. -/
def State.bufByte (s : State) (o : Op) (x : Coll) (off : Nat) : Nat :=
  match s.xlateFor o.part o.sup ((x.buf + off) % 2 ^ 64) needWr with
  | .ok pa => leNat (s.homeRead pa 1).1
  | .error _ => 0

/-- The bytes that a chunk takes in the buffer; bits of other elements in its first and last byte keep their values. -/
def State.chunkBytes (s : State) (o : Op) (x : Coll) (c : Nat) (data : List Byte) : List Byte :=
  let (off, n, sh) := x.span c
  let bits := width x.fmt * x.chunkLen c
  let e := (sh + bits) % 8
  let first := if sh = 0 then 0 else s.bufByte o x off % 2 ^ sh
  let last := if e = 0 then 0 else s.bufByte o x (off + n - 1) / 2 ^ e * 2 ^ e
  toLe n (first + leNat data % 2 ^ bits * 2 ^ sh + last * 2 ^ (8 * (n - 1)))

/-- Write a chunk into the buffer in ascending order of address, with `.wt`; a page that faults stops the write, with the bytes
below it written (R196). -/
def State.writeChunk (s : State) (o : Op) (x : Coll) (c : Nat) (data : List Byte) : Res (State × Option (Nat × DWord)) :=
  match s.deliverData o (.plain x.buf) (s.chunkBytes o x c data) (x.span c).1 with
  | (t, _, none) => .ok (t, none)
  | (t, _, some (.trap code v _)) => .ok (t, some (code, v))
  | (_, _, some e) => .error e

/-! ## hop_add (R37) -/

/-- `max`, `min`, `or` and `and` of two codes. -/
def hopPick (t : Ty) (oper : Nat) (a b : Nat) : Nat :=
  match oper with
  | 3 => a ||| b
  | 4 => a &&& b
  | _ =>
    match intSign t with
    | none =>
      let v := if oper = 1 then (valOf t a).larger (valOf t b) else (valOf t a).smaller (valOf t b)
      convert t false v
    | some sgn =>
      let w := width t
      let le : Bool := if sgn then decide (signed w a ≤ signed w b) else decide (a ≤ b)
      if oper = 1 then (if le then b else a) else if le then a else b

/-- One BF16 element of a sum rounded stochastically: the FP32 sum, its draw and its discarded bits. -/
def hopRound (v u : Nat) : Nat :=
  if valOf .f32 v = .nan then 0x7FC0 + num (bit v 31) * 2 ^ 15
  else if u < v % 2 ^ 16 then v / 2 ^ 16 + 1 else v / 2 ^ 16

def hopAdd (t : Ty) (oper h : Nat) (a b : List Nat) : List Nat :=
  let ab := a.zip b
  if oper ≠ 0 then ab.map fun e => hopPick t oper e.1 e.2
  else match t with
    | .f32 => ab.map fun e => rne32 ((valOf t e.1).add (valOf t e.2))
    | .bf16 =>
      let s := (ab.map fun e => rne32 ((valOf t e.1).add (valOf t e.2))).toArray
      (List.range s.size).map fun i =>
        let dl := if i = 0 then 0 else s.getD (i - 1) 0 % 2 ^ 16
        let dn := s.getD (i + 1) 0 % 2 ^ 16
        let key : BitVec 32 := BitVec.ofNat 32 dl ^^^ (BitVec.ofNat 32 dn <<< 16) ^^^ BitVec.ofNat 32 (h * 0x01000193)
        hopRound (s.getD i 0) ((mix32 key).toNat % 2 ^ 16)
    | t => ab.map fun e => (e.1 + e.2) % 2 ^ width t

/-- hop_add of two chunks given as message bytes. -/
def Coll.hop (x : Coll) (c h : Nat) (a b : List Byte) : List Byte :=
  let w := width x.fmt
  let es (m : List Byte) : List Nat := unpackElems w (x.chunkLen c) (leNat m)
  toLe (x.msgBytes c) (packElems w (hopAdd x.fmt x.oper h (es a) (es b)))

/-! ## Ends -/

/-- The result chunks that end in a rank's buffer (R288). -/
def Coll.results (x : Coll) : List Nat :=
  match x.op with
  | 0 => [x.rank]
  | 1 => List.range x.n
  | 2 => if x.rank = x.root then List.range x.n else []
  | 3 => (List.range x.n).filter (· != x.rank)
  | _ => if x.rank = x.root then [] else List.range x.n

/-- Whether a rank has written a result chunk: one that came to it, or its own of a reduction. -/
def Op.landed (o : Op) (x : Coll) (c : Nat) : Bool :=
  o.gathered.contains c || (decide (x.op < 3) && c == x.rank && o.seen.contains c)

/-- Bytes of which the spec says only that the collective wrote them: free values, `n` and the place in the buffer. -/
def freeBytes (n off len : Nat) : List Byte := (List.range len).map fun i => (Config.freeBits n (off + i)).truncate 8

/-- The result bytes that a collective with another status than OK has not counted: each keeps its value, or holds one that the
collective wrote, and which is a free value (R40, log 7). -/
def State.leaveResults (s : State) (o : Op) (x : Coll) : State :=
  let (n, s) := s.draw
  (x.results.filter fun c => !o.landed x c).foldl (fun s c =>
    let (off, len, _) := x.span c
    let data := s.chunkBytes o x c (freeBytes n off (x.msgBytes c))
    (piecesFrom s (.plain x.buf) (.plain x.buf) (off + len) (len / 65536 * 3 + 4) off).foldl
      (fun s e => s.writeChosen o (.plain x.buf) n e.1 e.2 (pieceOf data off e)) s) s

/-- A collective ends on its rank; its completion is then due (R40). One whose combination R35 lacks has written nothing. -/
def State.endColl (s : State) (i : Nat) (o : Op) (status : Nat) : State :=
  let s := match o.kind with
    | .coll x => if status = 0 || status = 6 then s else s.leaveResults o x
    | _ => s
  (s.setOp i { o with status := some status, queued := false, kept := [], early := [] }).post (.collComplete i)

/-- The collective of an operation. -/
def Op.coll? (o : Op) : Option Coll :=
  match o.kind with
  | .coll x => some x
  | _ => none

/-- Whether a rank has all that its operation brings it, and every chunk that it sent is acknowledged (R36, R38). -/
def Op.finished (o : Op) (x : Coll) : Bool :=
  let reduced := decide (x.n ≤ o.seen.length + 1)
  let gathered := decide (x.n ≤ o.gathered.length + 1)
  o.kept.isEmpty && match x.op with
    | 0 => reduced
    | 1 => reduced && gathered
    | 2 => reduced && (x.rank != x.root || gathered)
    | 3 => gathered
    | _ => x.rank == x.root || decide (x.n ≤ o.gathered.length)

/-! ## Messages between ranks (R36, R38, R39, R288) -/

/-- The capability table of an operation's use: as it stands for the dispatcher (R41, R201). -/
def State.opCapBase (s : State) (o : Op) : Nat := (o.capbase.getD (s.partAt o.part).capbase).toNat

/-- Collectives that a rank and a mate of this device have shared before this one. -/
def State.pairNo (s : State) (o : Op) (x : Coll) (mate : Nat × Nat) : Nat :=
  ((s.dev.rounds.takeWhile fun y => y.op != o.key).filter fun y => y.links o.part x.tag x.rank o.core mate).length

/-- A message to a rank of this device, on the core that the rank list names: to its operation, or kept until that is issued;
one that has ended needs none. -/
def State.sendLocal (s : State) (o : Op) (x : Coll) (core t : Nat) (msg : HopMsg) : State :=
  let m : CollMsg := { part := o.part, tag := x.tag, rank := t, core, sender := x.rank, senderCore := o.core
                       no := s.pairNo o x (t, core), msg }
  match s.pairOp m with
  | none => s.onDev fun d => { d with chunks := d.chunks ++ [m] }
  | some i => if (s.opAt i).any Op.live then s.post (.collHop i x.rank none msg) else s

/-- Collectives that a rank has issued under its tag before this one: a message to another device carries the number (log
32). -/
def State.hopNo (s : State) (o : Op) (x : Coll) : Nat :=
  ((s.dev.rounds.takeWhile fun y => y.op != o.key).filter fun y =>
    y.part == o.part && y.tag == x.tag && y.rank == x.rank && y.core == o.core).length

/-- A message over the channel of a capability entry, where a valid device endpoint with read and write permission stands behind
it whose connection has not failed. -/
def State.sendOver (s : State) (o : Op) (x : Coll) (k : Cap) (t : Nat) (m : HopMsg) : Option State :=
  if k.kind ≠ 2 || !k.rd || !k.wr || s.dev.lost.contains k.number then none
  else some (s.send (.hop k.port k.number t x.rank x.tag (s.hopNo o x) m))

/-- Send a message to rank `t`: to its operation on this device, or over its channel. None is the `PEER_LOST` of R288. -/
def State.sendMsg (s : State) (o : Op) (x : Coll) (t : Nat) (m : HopMsg) : Res (Option State) := do
  let e ← s.readFor o.part o.sup ((x.list + 8 * t) % 2 ^ 64) 2
  let entry := leNat e
  if bit entry 15 then pure (some (s.sendLocal o x (entry % 256) t m))
  else
    match s.capEntry o.part (s.opCapBase o) (fld entry 16 6) with
    | .ok k => pure (s.sendOver o x k t m)
    | .error (.trap code v ops) => if code = cCap then pure none else .error (.trap code v ops)
    | .error e => .error e

/-- Ask for the pages in the cellar that hold rank `t`'s entry of the rank list and the capability entry that it names (R116). -/
def State.askEntry (s : State) (o : Op) (x : Coll) (t : Nat) : State :=
  let va := (x.list + 8 * t) % 2 ^ 64
  let s := s.askPages o.part o.sup needRd va 8
  match s.readVia o.part o.sup needRd va 2 with
  | .error _ => s
  | .ok e =>
    match capVa (s.opCapBase o) (fld (leNat e) 16 6) with
    | .ok a => if bit (leNat e) 15 then s else s.askPages o.part true needRd a 32
    | .error _ => s

/-- Tell rank `t` that its collective has failed, wherever the pages of the rank list and of the capability table lie; a rank
that no entry reaches is not told. -/
def State.tellRank (s : State) (o : Op) (x : Coll) (t : Nat) : State :=
  let s := s.askEntry o x t
  match s.readVia o.part o.sup needRd ((x.list + 8 * t) % 2 ^ 64) 2 with
  | .error _ => s
  | .ok e =>
    let entry := leNat e
    if bit entry 15 then s.sendLocal o x (entry % 256) t .fail
    else match s.capVia o.part (s.opCapBase o) (fld entry 16 6) with
      | .ok k => (s.sendOver o x k t .fail).getD s
      | .error _ => s

/-- Whether a collective reaches a rank over a connection, wherever the pages of its rank list and of the capability table lie.
The spec does not say what it is for a collective to use a connection: the model takes any rank of its list that is reached over
it, even one to which this rank sends nothing (DESIGN CHOICE, log 50). -/
def State.collUses (s : State) (o : Op) (x : Coll) (conn : Nat) : Bool :=
  (List.range x.n).any fun t => match s.readVia o.part o.sup needRd ((x.list + 8 * t) % 2 ^ 64) 2 with
    | .ok e =>
      let entry := leNat e
      !bit entry 15 && (match s.capVia o.part (s.opCapBase o) (fld entry 16 6) with
        | .ok k => k.kind == 2 && k.number == conn
        | .error _ => false)
    | .error _ => false

/-- End a collective that uses one of the connections that have failed with PEER_LOST; whether it has ended (R31). -/
def State.endIfLost (s : State) (i : Nat) (o : Op) (x : Coll) (lost : List Nat) : State × Bool :=
  if lost.isEmpty then (s, false)
  else
    let s := (List.range x.n).foldl (fun s t => s.askEntry o x t) s
    if lost.any fun n => s.collUses o x n then (s.endColl i o 3, true) else (s, false)

/-- The outcome of a part of a turn: the state, and the operation as it then stands; none where a peer is lost. -/
abbrev Turn := Res (Option (State × Op))

/-- Send a chunk, a partial one or a result, which the sender keeps until it is acknowledged (R38). -/
def State.sendChunk (s : State) (o : Op) (x : Coll) (t : Nat) (result : Bool) (c : Nat) (data : List Byte) : Turn := do
  let m : HopMsg := .data result c data (residueOf data)
  let r ← s.sendMsg o x t m
  pure (r.map fun s => (s, { o with kept := o.kept ++ [(t, m)] }))

/-- A turn that sent what it had to: the operation as it then stands, ended where it has sent its first chunks and has all it
needs. -/
def State.afterTurn (s : State) (i : Nat) (o : Op) (x : Coll) : State :=
  if !o.queued && o.finished x then s.endColl i o 0 else s.setOp i o

/-! ## The ring (R36) -/

/-- Bytes that a rank alone writes: its own result, of a reduction. -/
def Coll.aloneBytes (x : Coll) : Nat := if x.n = 1 && decide (x.op < 3) then x.msgBytes 0 else 0

/-- The rank after this one in the ring. -/
def Coll.next (x : Coll) : Nat := (x.rank + 1) % x.n

/-- The next first chunk of a collective goes to the next rank; a rank that has none to send has sent all. -/
def State.sendFirst (s : State) (o : Op) (x : Coll) : Turn :=
  match x.firstChunks[o.sentFirst]? with
  | none => pure (some (s, { o with queued := false }))
  | some c => do
    let data ← s.readChunk o x c
    let o := { o with sentFirst := o.sentFirst + 1, queued := decide (o.sentFirst + 1 < x.firstChunks.length) }
    s.sendChunk o x x.next (decide (3 ≤ x.op)) c data

/-- A turn of a collective at the head of its queue: one first hop (R73). With its first turn it starts, and takes the messages
that came before. One that uses a connection which has failed ends (R31). -/
def State.collTurn (s : State) (i : Nat) (o : Op) (x : Coll) : State :=
  match s.endIfLost i o x s.dev.lost with
  | (t, true) => t
  | (s, false) =>
    let p := if o.started then o else { o with started := true, done := x.aloneBytes, early := [] }
    match s.sendFirst p x with
    | .error e => s.stopOp i o e
    | .ok none => s.endColl i o 3
    | .ok (some (t, p)) => (o.early.foldl (fun t m => t.post (.collHop i m.1 none m.2)) t).afterTurn i p x

/-- How a turn of a rank ends: it goes on, it has met the second failure of a chunk (R39), or a write of its has faulted (R196). -/
inductive HopEnd where
  | on
  | failed
  | fault (code : Nat) (va : DWord)
  deriving DecidableEq, Repr

/-- What a turn of a rank leaves: none where a peer is lost. -/
abbrev Hop := Res (Option (State × Op × HopEnd))

/-- A turn that goes on. -/
def good (r : Option (State × Op)) : Option (State × Op × HopEnd) := r.map fun x => (x.1, x.2, .on)

/-- The final rank checks the adder's residue again when it writes a result (R38). -/
def State.writeResult (s : State) (o : Op) (x : Coll) (c : Nat) (data : List Byte) (residue : Nat) : Res (State × HopEnd) :=
  if residueOf data ≠ residue then .ok (s, .failed)
  else do
    let r ← s.writeChunk o x c data
    pure (r.1, match r.2 with
      | none => .on
      | some (code, v) => .fault code v)

/-- The duplicated adder adds, and its copies agree, at once or when the addition is made again; a disagreement is the
chunk's first failure or its second (R38). The spec does not say what counts as a second time for the same chunk: the model
counts at each rank, over the partial and the result chunk of one number, and does not add up ranks (R39; DESIGN CHOICE, log
32). -/
def Op.addition (o : Op) (c : Nat) : Op × Bool :=
  let bad (o : Op) : Bool := o.adder.headD false
  let next (o : Op) : Op := { o with adder := o.adder.tail }
  if !bad o then (next o, false)
  else if o.retried.contains c then (next o, true)
  else
    let p := next { o with retried := o.retried ++ [c] }
    (next p, bad p)

/-- A partial chunk arrives: it is combined with this rank's own, and goes on or is this rank's result. -/
def State.reduceHop (s : State) (o : Op) (x : Coll) (c : Nat) (data : List Byte) : Hop := do
  let own ← s.readChunk o x c
  let h := (x.rank + 2 * x.n - c - 1) % x.n
  let out := x.hop c h data own
  let (o, failed) := o.addition c
  let p := { o with seen := o.seen ++ [c] }
  if failed then pure (some (s, o, .failed))
  else if h + 1 ≠ x.n then do
    let r ← s.sendChunk p x x.next false c out
    pure (good r)
  else if x.op = 2 && x.rank != x.root then do
    let r ← s.sendChunk p x x.root true c out
    pure (good r)
  else do
    let (s, e) ← s.writeResult o x c out (residueOf out)
    if e ≠ .on then pure (some (s, o, e))
    else
      let o := { p with done := o.done + x.msgBytes c }
      if x.op = 1 then do
        let r ← s.sendChunk o x x.next true c out
        pure (good r)
      else pure (some (s, o, .on))

/-- A result chunk arrives: it is written, and goes on around the ring. -/
def State.gatherHop (s : State) (o : Op) (x : Coll) (c : Nat) (data : List Byte) (residue : Nat) : Hop := do
  let (s, e) ← s.writeResult o x c data residue
  if e ≠ .on then pure (some (s, o, e))
  else
    let o := { o with gathered := o.gathered ++ [c], done := o.done + x.msgBytes c }
    let origin := if x.op = 4 then x.root else c
    if x.op = 2 || x.next = origin then pure (some (s, o, .on))
    else do
      let r ← s.sendChunk o x x.next true c data
      pure (good r)

/-- The second failure of a chunk: the collective stops on every rank, which each ends with RESIDUE_FAIL, and the core of the
rank that saw it takes `SDC_CONFLUENCE` (R39). -/
def State.residueFail (s : State) (i : Nat) (o : Op) (x : Coll) : State :=
  let s := ((List.range x.n).filter (· != x.rank)).foldl (fun s t => s.tellRank o x t) s
  (s.endColl i o 5).deliverFault o { code := cSdcConf, ops := o.ops, async := true, stream := .L, pc := o.pc, seq := o.seq }

/-- A chunk with a good residue is acknowledged to its sender, and used, once. -/
def State.useChunk (s : State) (o : Op) (x : Coll) (sender : Nat) (result : Bool) (c : Nat) (data : List Byte) (residue : Nat) :
    Hop := do
  match ← s.sendMsg o x sender (.ack result c) with
  | none => pure none
  | some s =>
    if (if result then o.gathered else o.seen).contains c then pure (some (s, o, .on))
    else if result then s.gatherHop o x c data residue
    else s.reduceHop o x c data

/-- A chunk arrives at a rank, which checks its residue before it uses it: a first mismatch asks for it again (R38, R39). -/
def State.chunkIn (s : State) (o : Op) (x : Coll) (sender : Nat) (result : Bool) (c : Nat) (data : List Byte) (residue : Nat) :
    Hop :=
  if residueOf data = residue then s.useChunk o x sender result c data residue
  else if o.retried.contains c then .ok (some (s, o, .failed))
  else do
    let r ← s.sendMsg o x sender (.again result c)
    pure (r.map fun s => (s, { o with retried := o.retried ++ [c] }, .on))

/-- Whether a kept message is a partial chunk, or a result chunk, sent to a rank. -/
def isChunk (t : Nat) (result : Bool) (c : Nat) (y : Nat × HopMsg) : Bool :=
  y.1 == t && match y.2 with
    | .data r d _ _ => r == result && d == c
    | _ => false

/-- A chunk that was kept is sent again. -/
def State.resend (s : State) (o : Op) (x : Coll) (t : Nat) (result : Bool) (c : Nat) : Hop :=
  match o.kept.find? (isChunk t result c) with
  | none => .ok (some (s, o, .on))
  | some y => do
    let r ← s.sendMsg o x t y.2
    pure (good (r.map fun s => (s, o)))

/-- What a message does at a rank that has started. -/
def State.hopIn (s : State) (o : Op) (x : Coll) (sender : Nat) : HopMsg → Hop
  | .data result c bytes r => s.chunkIn o x sender result c bytes r
  | .ack result c => .ok (some (s, { o with kept := o.kept.filter fun y => !isChunk sender result c y }, .on))
  | .again result c => s.resend o x sender result c
  | .fail => .ok (some (s, o, .on))

/-- A turn of a rank for one message. A turn that must wait for a page leaves all as it was: none. -/
def State.hopTurn (s : State) (i : Nat) (o : Op) (x : Coll) (sender : Nat) (m : HopMsg) : State × Bool :=
  if m = .fail then (s.endColl i o 5, true)
  else match s.hopIn o x sender m with
    | .error (.trap code v _) => (s.faultOp i o v code, true)
    | .error (.fetch p e va) => (s.requestFetch p e va none, false)
    | .error _ => (s, false)
    | .ok none => (s.endColl i o 3, true)
    | .ok (some (t, o, .failed)) => (t.residueFail i o x, true)
    | .ok (some (t, o, .fault code v)) => (t.faultOp i o v code, true)
    | .ok (some (t, o, .on)) => (t.afterTurn i o x, true)

/-- A chunk for a rank that has started takes its place in the queue, once the queue has a free entry (R73). -/
def State.queueHop (s : State) (i : Nat) (o : Op) (sender : Nat) (m : HopMsg) (e : Instr) : State :=
  let die := o.core / 36
  if 64 ≤ s.queueUsed die o.part then s.post e
  else (s.onDev fun d => { d with hops := d.hops ++ [⟨d.nextOp, i, sender, m⟩], nextOp := d.nextOp + 1 }).wake die o.part

/-- Whether a message is a chunk. -/
def isData : HopMsg → Bool
  | .data _ _ _ _ => true
  | _ => false

/-- A message arrives at a rank: over the fabric in class 1, else it is dropped and counted (R28). A chunk is an entry of the
rank's queue; the other messages act at once. -/
def execCollHop (op rank : Nat) (via : Option (Nat × Nat)) (m : HopMsg) (s : State) : Out :=
  match via with
  | some (port, tc) => if tc = 1 then arrive else .next (s.dropPacket port)
  | none => arrive
where
  arrive : Out :=
    match s.opAt op with
    | none => .next s
    | some o =>
      match o.coll? with
      | none => .next s
      | some x =>
        if !o.live then .next s
        else if !o.started then .next (s.setOp op { o with early := o.early ++ [(rank, m)] })
        else if isData m then .next (s.queueHop op o rank m (.collHop op rank via m))
        else match s.hopTurn op o x rank m with
          | (t, true) => .next t
          | (t, false) => .next (t.post (.collHop op rank via m))

/-- A collective writes its completion word and signals (R40). -/
def execCollComplete (op : Nat) (s : State) : Out :=
  match s.opAt op with
  | none => .next s
  | some o =>
    match o.kind, o.status with
    | .coll _, some st => .next (s.complete op o st)
    | _, _ => .next s

/-! ## Queue entries (R73) -/

/-- Whether an operation has a place in the queue of a partition on a die: a copy with an entry to start or to go on with, or
a collective that has first chunks to send. -/
def Op.due (o : Op) (die p : Nat) : Bool :=
  o.here die p && o.live && o.holdUntil.isNone && match o.kind with
    | .copy _ _ len => decide (o.begun < len) || !o.awaiting
    | .coll _ => o.queued

/-- What stands at the head of a queue: an operation that may start an entry, a chunk hop, or the loading of a job. -/
inductive Head where
  | op (i : Nat) (o : Op)
  | hop (h : QueuedHop)
  | load (j : Nat) (b : Job)
  deriving DecidableEq, Repr

/-- Its place in the queue. -/
def Head.no : Head → Nat
  | .op i _ => i
  | .hop h => h.no
  | .load _ b => b.loadFrom

/-- Whether a head can take a turn now: a copy whose entry waits for the data of a `READ` starts its next entry after it, and what
stands behind it in the queue waits. -/
def Head.ready : Head → Bool
  | .op _ o => !o.awaiting
  | _ => true

/-- The head of a partition's queue on a die: entries start in FIFO order. -/
def State.headOf (s : State) (die p : Nat) : Option Head :=
  bestOf (fun a b => decide (a.no < b.no)) (((s.dev.ops.filter fun o => o.2.due die p).map fun o => .op o.1 o.2) ++
    (s.hopsOn die p).map .hop ++ (s.loadsOn die p).map fun b => .load b.1 b.2)

/-- Wings that a partition owns: the weight of its queues. -/
def State.weight (s : State) (p : Nat) : Nat := ((List.range 12).filter fun w => findD s.dev.wings w 0xFF == p).length

def servedKey (die p : Nat) : Nat := 16 * die + p

/-- Whether a queue may start an entry in the arbiter's round. -/
def State.credit (s : State) (die p : Nat) : Bool := decide (findD s.dev.served (servedKey die p) 0 < s.weight p)

/-- A round of the arbiter is over when no queue that has an entry to start may start one; the counts then begin again. -/
def State.newRound (s : State) (die : Nat) : State :=
  if (List.range 12).any fun p => s.credit die p && (s.headOf die p).any Head.ready then s
  else s.onDev fun d => { d with served := d.served.filter fun e => e.1 / 16 != die }

/-- Entries that the turn of a head starts: none where a copy goes on with the one that it has started. -/
def Head.size : Head → Nat
  | .op _ o => if o.done < o.begun then 0 else 1
  | _ => 1

/-- One entry of a job's loading; with the last one on every die, everything has arrived (R62). -/
def State.loadTurn (s : State) (die p j : Nat) (b : Job) : State :=
  let left := put b.loadLeft die (findD b.loadLeft die 0 - 1)
  let s := s.setJob p j { b with loadLeft := left }
  if left.all fun x => x.2 == 0 then s.post (.loadComplete p j) else s

/-- The turn of the head of a queue. A hop that waits for a page stays at the head. -/
def State.headTurn (s : State) (die p : Nat) : Head → State
  | .op i o => match o.kind with
    | .copy src dst len => s.copyTurn i o src dst len
    | .coll x => s.collTurn i o x
  | .hop h =>
    let drop (s : State) : State := s.onDev fun d => { d with hops := d.hops.erase h }
    match s.opAt h.op with
    | none => drop s
    | some o => match o.coll? with
      | none => drop s
      | some x => match (drop s).hopTurn h.op o x h.sender h.msg with
        | (t, true) => t
        | (t, false) => t.onDev fun d => { d with hops := h :: d.hops }
  | .load j b => s.loadTurn die p j b

/-- The conduit or the confluence of a die starts the next entry of a partition's queue, in the weighted round-robin among the
queues that hold entries. A queue whose head waits for a `READ` is woken when its data have come. -/
def execConduitEntryStart (die part : Nat) (s : State) : Out :=
  match (s.headOf die part).filter Head.ready with
  | none => .next s
  | some h =>
    let s := s.newRound die
    if s.weight part != 0 && !s.credit die part then .next (s.wake die part)
    else
      let s := s.onDev fun d => { d with
        served := put d.served (servedKey die part) (findD d.served (servedKey die part) 0 + h.size) }
      let s := s.headTurn die part h
      .next (if (s.headOf die part).any Head.ready then s.wake die part else s)

end Sys2Proof.Machine
end

