-- ==== Sys2Proof/Machine/System.lean ====
section
/-! DEFINITION. Control and status registers (20_system R357-R361; 00_scope R5) and the writes with an effect of
their own (R67, R96, R109, R115, R118, R141, R200, R206, R377). -/

namespace Sys2Proof.Machine

/-! ## Numbers and levels (R358) -/

/-- Who may write a register: job level, supervisor level only, nobody. -/
inductive Writer where
  | job | sup | none
  deriving DecidableEq, Repr

/-- Read level (true for supervisor) and writer of a register number; none for an unlisted number. -/
def csrAccess (n : Nat) : Option (Bool × Writer) :=
  if n = 0x000 then some (false, .sup)
  else if (1 ≤ n && n ≤ 4) || (8 ≤ n && n ≤ 11) || n == 0x12 then some (false, .job)
  else if n == 0x10 || n == 0x11 || (0x20 ≤ n && n ≤ 0x2D) then some (false, .none)
  else if n == 0x106 || n == 0x108 || n == 0x181 || n == 0x182 || n == 0x1F0 then some (true, .none)
  else if (0x100 ≤ n && n ≤ 0x10A) || (0x110 ≤ n && n ≤ 0x12F) || n == 0x180 then some (true, .sup)
  else none

/-- The reserved bits of a register that can be written. -/
def csrReserved (n : Nat) : DWord :=
  match n with
  | 0x000 => 0xFFFFFFFFFFE000FE
  | 0x001 => 0xFFFFFFFF00000000
  | 0x002 => 0xFFFFFFFFFFFF0000
  | 0x003 => 0xFE
  | 0x004 => 0xC00
  | 0x012 => 0x7FFFFFC000000000
  | 0x100 => 0x1FFFFE
  | 0x101 => 0xFFFFFFFFFFFFFFE0
  | 0x102 => 0xFFFF0000001FFFFE
  | 0x103 => 0xFFFF
  | 0x104 => 0xFFF00000FFFFFFFC
  | 0x105 => 0xFFFE
  | 0x107 => 0xFFFE
  | 0x109 => 0x7FE
  | 0x10A => 0xFF0
  | 0x180 => 0x7F
  | n =>
    if 0x008 ≤ n && n ≤ 0x00B then 0xFFFFFF0000000078
    else if 0x110 ≤ n && n ≤ 0x11F then 0xFFFF
    else if 0x120 ≤ n && n ≤ 0x12F then 0x1FFFFFFFFFFFFFC0
    else 0

/-! ## Values read -/

/-- The health word (R25). READY says that start-up is complete, and the spec does not say what becomes of it when a thermal
trip stops the module: the model reads it as 0 then (DESIGN CHOICE, log 46). -/
def State.health (s : State) : Nat :=
  let d := s.dev
  d.retired.length % 256 * 2 ^ 24 + num (!d.hotDies.isEmpty) * 2 ^ 15 + num (decide (d.duty < 16)) * 2 ^ 14 +
    num d.fallback * 2 ^ 13 +
    num (d.phase != .off && decide (d.uePorts.length < 12 || d.cxlPorts.length < 2)) * 2 ^ 12 +
    num d.trip * 4 + num (!d.retired.isEmpty) * 2 + num (d.phase == .ready)

/-- Cycles since `READY` was set (R359). -/
def State.time (s : State) : Nat := s.now - s.dev.readyAt

def Partition.clkctl (q : Partition) : Nat :=
  q.clkHand % 2 ^ 20 * 2 ^ 32 + num (!q.fetches.isEmpty) * 2 + num q.clkEn

/-- CSTAT (R359). -/
def State.cstat (s : State) (c : Nat) : Nat :=
  let k := s.coreAt c
  num k.sup * 2 ^ 20 + k.part % 16 * 2 ^ 16 + c % 256 * 2 ^ 8 + num k.rsvdWr

/-- The value that `csrr` returns. -/
def State.csrValue (s : State) (c n : Nat) : DWord :=
  let k := s.coreAt c
  let q := s.partAt k.part
  let r := k.trapRec
  match n with
  | 0x000 => dw (s.cstat c)
  | 0x001 => k.tokwd
  | 0x002 => dw k.tvec
  | 0x003 => k.kbase
  | 0x004 => k.lkahead
  | 0x010 => dw k.mstat
  | 0x011 => dw s.time
  | 0x012 => k.cdelay
  | 0x020 => r.tcause
  | 0x021 => r.tstream
  | 0x022 => r.tpc
  | 0x023 => r.tseq
  | 0x02D => r.tval
  | 0x100 => q.evbase
  | 0x101 => q.hslice
  | 0x102 => q.ptroot
  | 0x103 => q.clkpool
  | 0x104 => dw q.clkctl
  | 0x105 => q.ppool
  | 0x106 => dw q.ppfree
  | 0x107 => q.sxpool
  | 0x108 => dw q.sxfree
  | 0x109 => q.capbase
  | 0x10A => q.vcb
  | 0x180 => k.dpaddr
  | 0x181 => k.dpent0
  | 0x182 => k.dpent1
  | 0x1F0 => dw s.health
  | n =>
    if n < 0x10 then dw (k.domAt (n - 8)).value
    else if n < 0x29 then findD r.tcut (n - 0x24) 0
    else if n < 0x2D then findD r.top (n - 0x29) 0
    else if n < 0x120 then findD q.vwbase (n - 0x110) 0
    else findD q.vwctl (n - 0x120) 0

def csrrBody (d : Fin 32) (n : BitVec 12) (c : Nat) (s : State) : Res State :=
  let k := s.coreAt c
  let v := dw n.toNat
  match csrAccess n.toNat with
  | none => trap cCsr v
  | some (sup, _) =>
    if sup && !k.sup then trap cPriv v else .ok (s.setCore c (k.setS d (s.csrValue c n.toNat)))

def execCsrr (p : Pr) (d : Fin 32) (n : BitVec 12) (s : State) : Out := runS p (srcs []) (csrrBody d n) s

/-! ## The domain registers (R96) -/

/-- Cores of core `c`'s job in its unit at a level: those whose job core index is on a core (log 26). -/
def State.unitCount (s : State) (c lvl : Nat) : Nat :=
  match s.jobOf c with
  | none => 1
  | some b => (b.unit c lvl).length

def State.writeDom (s : State) (c n : Nat) (v : DWord) : Res State :=
  let lvl := v.toNat % 8
  if 4 < lvl then trap cCsr (dw (8 + n))
  else .ok (s.onCore c fun k =>
    { k with dom := put k.dom n { k.domAt n with level := lvl, count := s.unitCount c lvl } })

/-! ## Partition registers -/

/-- Whether a pool of 64 KiB pages, as COUNT and BASE give it, ends at or below 2^39. -/
def poolFits (v : Nat) : Bool := decide (fld v 16 28 * 65536 + fld v 44 20 * 65536 ≤ hbmEnd)

/-- COUNT and BASE of a pool register. -/
def poolPlace (v : Nat) : Nat := v / 2 ^ 16

/-- EVBASE: a write that moves or closes the event region first writes the cached entries back. The spec does not say what becomes
of waiters that are registered already: they stay registered, in their order, and are tested against the counts of the region in
force; none is met while EN is 0 (R65, R67; DESIGN CHOICE, log 31). -/
def State.writeEvbase (s : State) (p : Nat) (v : DWord) : State :=
  let q := s.partAt p
  let s := if q.hasEvents && (decide (fld q.evbase.toNat 21 43 ≠ fld v.toNat 21 43) || !bit v.toNat 0) then s.calm.flushEvents p
    else s
  s.onPart p fun q => { q with evbase := v }

/-- CLKCTL: enabling is refused without a proper frame pool, and empties every frame; disabling waits for the
spills and fetches in progress. A write of 1 that overtakes a waiting write of 0 leaves the clock enabled (log 12). -/
def State.writeClkctl (s : State) (p : Nat) (v : DWord) : Res State :=
  let q := s.partAt p
  if bit v.toNat 0 then
    if fld q.clkpool.toNat 44 20 = 0 || !poolFits q.clkpool.toNat then trap cCsr 0x104
    else if q.clkEn then .ok (s.setPart p { q with clkOff := false })
    else .ok (s.setPart p { q with clkEn := true, clkHand := 0, frames := [] })
  else if q.fetches.isEmpty then .ok (s.setPart p { q with clkEn := false, clkOff := false })
  else waitMem

/-- PPOOL (R141). -/
def State.writePpool (s : State) (p : Nat) (v : DWord) : Res State :=
  let q := s.partAt p
  let on := bit q.ppool.toNat 0
  let onNew := bit v.toNat 0
  if (on && onNew && poolPlace q.ppool.toNat != poolPlace v.toNat) ||
      (on && !onNew && (!q.tensors.isEmpty || poolPlace q.ppool.toNat != poolPlace v.toNat)) ||
      (!on && onNew && (!q.tensors.isEmpty || !poolFits v.toNat)) then trap cCsr 0x105
  else .ok (s.setPart p { q with ppool := v, pins := if !on && onNew then [] else q.pins })

/-- SXPOOL: every write is a write of EN, which no context may see (R206, log 40). -/
def State.writeSxpool (s : State) (p : Nat) (v : DWord) : Res State :=
  let q := s.partAt p
  let on := bit q.sxpool.toNat 0
  let onNew := bit v.toNat 0
  if (on && poolPlace q.sxpool.toNat != poolPlace v.toNat) || !q.pools.isEmpty ||
      (!on && onNew && !poolFits v.toNat) then trap cCsr 0x107
  else .ok (s.setPart p { q with sxpool := v })

/-! ## LKAHEAD (R118) -/

/-- One entry of a lookahead pass, and whether the pass goes on at once. An entry's walk is made for neither a read nor a write,
so that only SUP of its page can make it fault: the spec names no access kind (DESIGN CHOICE, log 59). -/
def State.lookOne (s : State) (c i : Nat) : State × Bool :=
  let k := s.coreAt c
  let n := fld k.lkahead.toNat 0 10
  let base := k.lkahead.toNat / 4096 * 4096
  if n = 0 then (s.onCore c fun k => { k with lkAt := none }, false)
  else if 8 ≤ ((s.partAt k.part).fetches.filter fun f => f.ahead == some c).length then (s, false)
  else match s.readFor k.part k.sup ((base + 8 * i) % 2 ^ 64) 2 with
    | .error (.fetch p e va) => (s.requestFetch p e va (some c), false)
    | .error _ => (s.onCore c fun k => { k with lkAt := none }, false)
    | .ok b =>
      let va := leNat b
      let s := s.onCore c fun k => { k with
        lkahead := setLow k.lkahead (k.lkahead.toNat % 2 ^ 32 / 1024 * 1024 + (n - 1)), lkAt := some (i + 1) }
      match s.walk k.part k.sup va ⟨false, false⟩ with
      | .cel e _ true => (s.requestFetch k.part e va (some c), true)
      | _ => (s, true)

/-- Go on with the lookahead pass of a core as far as its eight fetches allow. -/
def State.lookahead : Nat → Nat → State → State
  | 0, _, s => s
  | fuel + 1, c, s =>
    match (s.coreAt c).lkAt with
    | none => s
    | some i =>
      let r := s.lookOne c i
      if r.2 then State.lookahead fuel c r.1 else r.1

def State.writeLkahead (s : State) (c : Nat) (v : DWord) : Res State :=
  if 512 < v.toNat % 1024 then trap cCsr 4
  else .ok (State.lookahead 513 c (s.calm.onCore c fun k => { k with
    lkahead := v, lkAt := if v.toNat % 1024 = 0 then none else some 0 }))

/-! ## The directory probe (R148, R361) -/

/-- A directory entry as its 96 bits. -/
def DirEntry.word (d : DirEntry) : Nat :=
  let (mode, nptr, owner, sharers) : Nat × Nat × Nat × Nat := match d.mode with
    | .none => (0, 0, 0, 0)
    | .ptr cs => (1, cs.length, 0, leNat (cs.map (BitVec.ofNat 8)))
    | .coarse w => (2, 0, 0, w.toNat)
    | .owned c => (3, 0, c, 0)
  mode * 2 ^ 94 + num d.busy.isSome * 2 ^ 93 + nptr % 8 * 2 ^ 90 + owner % 256 * 2 ^ 82 + d.pend % 256 * 2 ^ 72 +
    d.fwd.toNat * 2 ^ 40 + sharers % 2 ^ 32

def State.writeDpaddr (s : State) (c : Nat) (v : DWord) : Res State := do
  let s := s.calm
  let pa ← s.xlateFor (s.coreAt c).part true v.toNat needRd
  let w := (s.dirAt (pa / 128)).word
  pure (s.onCore c fun k => { k with dpaddr := v, dpent0 := dw (w % 2 ^ 64), dpent1 := dw (w / 2 ^ 64) })

/-! ## Writes (R5, R357, R358) -/

/-- The effect of a write that its level allows and whose reserved bits are clear. A write of CLKPOOL while CLKCTL.EN is 1, of
which the spec does not speak, takes effect at once and without the checks of EN: the frame count and every frame's address follow
it (R115; DESIGN CHOICE, log 64). -/
def State.csrEffect (s : State) (c n : Nat) (v : DWord) : Res State :=
  let k := s.coreAt c
  let p := k.part
  match n with
  | 0x000 => .ok (s.setCore c { k with rsvdWr := k.rsvdWr && !bit v.toNat 0 })
  | 0x001 => .ok (s.setCore c { k with tokwd := v })
  | 0x002 => .ok (s.setCore c { k with tvecAddr := fld v.toNat 2 14, tvecEn := bit v.toNat 0 })
  | 0x003 => .ok (s.setCore c { k with kbase := v })
  | 0x004 => s.writeLkahead c v
  | 0x012 => .ok (s.setCore c { k with cdelay := v })
  | 0x100 => .ok (s.writeEvbase p v)
  | 0x101 => .ok (s.onPart p fun q => { q with hslice := v })
  | 0x102 => .ok (s.onPart p fun q => { q with ptroot := v })
  | 0x103 => .ok (s.onPart p fun q => { q with clkpool := v })
  | 0x104 => s.writeClkctl p v
  | 0x105 => s.writePpool p v
  | 0x107 => s.writeSxpool p v
  | 0x109 => .ok (s.onPart p fun q => { q with capbase := v })
  | 0x10A => .ok (s.onPart p fun q => { q with vcb := v })
  | 0x180 => s.writeDpaddr c v
  | n =>
    if n < 0x10 then s.writeDom c (n - 8) v
    else if n < 0x120 then .ok (s.onPart p fun q => { q with vwbase := put q.vwbase (n - 0x110) v })
    else .ok (s.onPart p fun q => { q with vwctl := put q.vwctl (n - 0x120) v })

/-- A write in the order of R358. -/
def State.csrWrite (s : State) (c n : Nat) (v : DWord) : Res State :=
  let k := s.coreAt c
  match csrAccess n with
  | none => trap cCsr (dw n)
  | some (_, w) =>
    if w = .sup && !k.sup then trap cPriv (dw n)
    else if w = .none then trap cCsr (dw n)
    else if v &&& csrReserved n ≠ 0 then
      if k.sup then .ok (s.setCore c { k with rsvdWr := true }) else trap cCsr (dw n)
    else s.csrEffect c n v

def execCsrw (p : Pr) (a : Fin 32) (n : BitVec 12) (s : State) : Out :=
  runS p (srcs [a]) (fun c s => s.csrWrite c n.toNat ((s.coreAt c).s a)) s

/-- The write of a register as it reaches the place where the register lives: what it refuses traps the core's S
stream. A write of 0 to CLKCTL.EN takes effect when the last fetch is over, and a probe whose page is in the cellar goes on when
the page has been fetched (R115, R361). -/
def writeEvent (c n : Nat) (v : DWord) (s : State) : Out :=
  match s.csrWrite c n v with
  | .ok s => .next s
  | .error (.trap code val own) => .next (s.stopAt c .S [v] (.trap code val own))
  | .error (.fetch p e va) => .next ((s.requestFetch p e va none).onCore c fun k => { k with probing := some v })
  | .error _ => .next (s.onPart (s.coreAt c).part fun q => { q with clkOff := true })

def execEvbaseWrite (core : Nat) (v : DWord) (s : State) : Out := writeEvent core 0x100 v s
def execPtrootWrite (core : Nat) (v : DWord) (s : State) : Out := writeEvent core 0x102 v s
def execClkctlWrite (core : Nat) (v : DWord) (s : State) : Out := writeEvent core 0x104 v s
def execPpoolWrite (core : Nat) (v : DWord) (s : State) : Out := writeEvent core 0x105 v s
def execSxpoolWrite (core : Nat) (v : DWord) (s : State) : Out := writeEvent core 0x107 v s
def execKbaseWrite (core : Nat) (v : DWord) (s : State) : Out := writeEvent core 0x003 v s
def execDpaddrWrite (core : Nat) (v : DWord) (s : State) : Out := writeEvent core 0x180 v s
def execDomWrite (core : Nat) (n : Fin 4) (v : DWord) (s : State) : Out := writeEvent core (8 + n) v s
def execLkaheadWrite (core : Nat) (v : DWord) (s : State) : Out := writeEvent core 0x004 v s
def execCdelayWrite (core : Nat) (v : DWord) (s : State) : Out := writeEvent core 0x012 v s
def execCstatWrite (core : Nat) (v : DWord) (s : State) : Out := writeEvent core 0x000 v s
def execCapbaseWrite (core : Nat) (v : DWord) (s : State) : Out := writeEvent core 0x109 v s

/-! ## Privilege (R203, R355) -/

/-- A system word that the issuing level lacks: tval holds the word. -/
def privileged {α : Type} (i : Instr) : Res α := trap cPriv ((encode i).headD 0 |>.setWidth 64)

/-- A word of the handler only. -/
def State.needHandler (s : State) (c : Nat) (i : Instr) : Res Unit :=
  if (s.coreAt c).thnd then .ok () else privileged i

/-! ## Fences, trap and return (R356, R362, R363) -/

def fenceBody (sc : Scope) (c : Nat) (s : State) : Res State := do
  let s ← s.released c .S sc
  pure (s.acquireAt c sc)

def execFence (p : Pr) (sc : Scope) (s : State) : Out := runS p (srcs []) (fenceBody sc) s

/-- A cistern answers the markers of a core's releases, whose writes before them are performed (R156). -/
def execFenceMarker (cistern core : Nat) (s : State) : Out :=
  .next (streams.foldl (fun s st => match (s.eng core st).drain with
    | none => s
    | some d => match d.marker with
      | none => s
      | some m =>
        if s.answers cistern (s.coreAt core).part m && !d.answers.contains cistern then
          s.onEng core st fun e => { e with drain := some { d with answers := d.answers ++ [cistern] } }
        else s) s)

/-- `trap`: it retires, then its trap is taken. -/
def execTrap (p : Pr) (a : Fin 32) (s : State) : Out :=
  let e := (s.coreAt s.core).strS
  runS p (srcs [a]) (fun c t =>
    let v := (t.coreAt c).s a
    .ok (t.takeTrap c { code := cSoft, val := v, ops := [v], stream := .S, pc := e.pc, seq := e.seq })) s

def execRte (p : Pr) (s : State) : Out :=
  runS p (srcs []) (fun c s => do
    s.needHandler c (.rte p)
    pure ((s.performOwn c).returnFromTrap c)) s

/-! ## Context slots (R364, R365) -/

def ctxsvBody (p : Pr) (a b : Fin 32) (c : Nat) (s : State) : Res State := do
  s.needHandler c (.ctxsv p a b)
  let va := (s.coreAt c).s a
  let basin := bit ((s.coreAt c).s b).toNat 0
  aligned va 4096
  let s' := ((s.performOwn c).evictAll c).calm
  let k := s'.coreAt c
  let cut := { k with kwait := none, strS := { k.strS with loop0 := k.cutLoop0, loop1 := k.cutLoop1 } }
  s'.bulkStore (fun x => s'.xlateFor k.part k.sup x needWr) (some c) va.toNat (slotLen basin)
    (cut.slot s.now k.graph.toNat basin false false k.cutPc) (k.slotBad basin)

def execCtxsv (p : Pr) (a b : Fin 32) (s : State) : Out := runS p (srcs [a, b]) (ctxsvBody p a b) s

/-- The images of a job core index, or of the dispatcher, for a core that reloads them; a read that fails traps. -/
def State.coreImages (s : State) (c : Nat) : Res (List (List Word)) :=
  let k := s.coreAt c
  match s.jobOf c with
  | none => .ok []
  | some b => s.readImages k.part b k.jidx

def ctxldBody (p : Pr) (a : Fin 32) (c : Nat) (s : State) : Res State := do
  s.needHandler c (.ctxld p a)
  let va := (s.coreAt c).s a
  aligned va 4096
  let s := (s.performOwn c).calm
  let k := s.coreAt c
  let tr (x : Nat) : Res Nat := s.xlateFor k.part k.sup x needRd
  let (head, _) ← s.bulkLoad tr va.toNat 8
  let (m, bad) ← s.bulkLoad tr va.toNat (slotLen (bit (slotGet head 4 4) 0))
  match firstBad bad with
  | some x => trap cPoison (dw ((va.toNat + x) % 2 ^ 64))
  | none =>
    match slotFault m true with
    | some off => trap cFormat (dw off)
    | none =>
      let imgs ← s.coreImages c
      let (n, s) := s.draw
      pure (s.onCore c fun k => k.restore m [] imgs s.now (Config.freeBits n 0) none)

def execCtxld (p : Pr) (a : Fin 32) (s : State) : Out := runS p (srcs [a]) (ctxldBody p a) s

/-! ## Translation and cache maintenance (R366, R367) -/

/-- Remove translations from the caches of every core of a partition. -/
def State.dropXlats (s : State) (p : Nat) (sel : Xlat → Bool) : State :=
  { s with cores := mapVals s.cores fun c k =>
      if s.partOf c = p then
        { k with tlbLW := k.tlbLW.filter fun x => !sel x, tlbS := k.tlbS.filter fun x => !sel x }
      else k }

/-- The translations that `tlbinv` selects for an address and a mode. -/
def invSel (va : Nat) (all : Bool) (x : Xlat) : Bool :=
  all || (canonicalVa va && x.va ≤ va && decide (va < x.va + x.size))

/-- Step 2 of `tlbinv`: the selected translations go from every cache of the partition, and the walks under way, which the
word is to wait for, enter their results in none (R366). -/
def State.invalidateXlats (s : State) (c : Nat) (sel : Xlat → Bool) : State :=
  let p := (s.coreAt c).part
  let s := (s.dropXlats p sel).onPart p fun q => { q with misses := q.misses.map fun m => { m with barred := true } }
  s.onEng c .S fun e => { e with walks := some (s.partAt p).misses }

/-- Steps 1 and 2 of `tlbinv`, once each: its release, and the removal. -/
def State.tlbinvFirst (s : State) (p : Pr) (a b : Fin 32) (c : Nat) : Res State := do
  let k := s.coreAt c
  if !k.sup then privileged (.tlbinv p a b)
  else if k.strS.walks.isSome then pure s
  else
    let s ← s.released c .S .part
    pure (s.invalidateXlats c (invSel (k.s a).toNat (bit (k.s b).toNat 0)))

/-- Step 3 of `tlbinv`: it waits for the walks that began before the removal. -/
def State.tlbinvWait (s : State) (c : Nat) : Res State :=
  let ms := (s.eng c .S).walks.getD []
  if (s.partAt (s.coreAt c).part).misses.any fun m => ms.contains m then .error .busy
  else .ok ((s.onEng c .S fun e => { e with walks := none }).past c .S 4)

/-- `tlbinv` (R366, log 60). -/
def execTlbinv (p : Pr) (a b : Fin 32) (s : State) : Out :=
  let c := s.core
  let k := s.coreAt c
  if k.p p.r != p.neg then
    match s.tlbinvFirst p a b c with
    | .ok t => finish t c .S (srcs [a, b] k) (t.tlbinvWait c)
    | .error x => finish s c .S (srcs [a, b] k) (.error x)
  else .next (s.past c .S 4)

/-- The lines of a core's cache region, and those that it has accesses under way to, that a virtual range overlaps; length 0
selects all. -/
def State.rangeLines (s : State) (c va len : Nat) : List Nat :=
  let k := s.coreAt c
  let held := s.linesOf c
  if len = 0 then held
  else
    let ps := (pages va len).filterMap fun e => match s.xlateFor k.part k.sup (e.1 % 2 ^ 64) ⟨false, false⟩ with
      | .ok pa => some (pa, e.2.2)
      | .error _ => none
    held.filter fun l => ps.any fun e => decide (128 * l < e.1 + e.2) && decide (e.1 < 128 * l + 128)

/-- The range check of `cflush` and `cinv`. -/
def rangeOf (k : Core) (a b : Fin 32) : Res (Nat × Nat) := do
  check (decide ((k.s b).toNat ≤ 2 ^ 40)) cFormat (k.s b)
  pure ((k.s a).toNat, (k.s b).toNat)

/-- Write an owned line's dirty words back, once the core's accesses to it are performed and its bank has room (R156); it stays
owned, clean. -/
def State.cleanLine (s : State) (c l : Nat) : State :=
  let s := (s.flush c l fun _ => true).makeRoom l
  match find (s.coreAt c).copies l with
  | some k =>
    if k.kind = .owned then
      (s.mergeAtHome l k).onCore c fun x => { x with copies := put x.copies l { k with dirty := 0 } }
    else s
  | none => s

def execCflush (p : Pr) (a b : Fin 32) (s : State) : Out :=
  runS p (srcs [a, b]) (fun c s => do
    let (va, len) ← rangeOf (s.coreAt c) a b
    let s := s.calm
    pure ((s.rangeLines c va len).foldl (fun s l => s.cleanLine c l) s)) s

def execCinv (p : Pr) (a b : Fin 32) (s : State) : Out :=
  runS p (srcs [a, b]) (fun c s => do
    let (va, len) ← rangeOf (s.coreAt c) a b
    let s := s.calm
    pure ((s.rangeLines c va len).foldl (fun s l => s.evict c l) s)) s

/-! ## Gauges (R19-R22, R368, R369) -/

/-- The gauge that a selector names for a core, if it is one of the core's or is assigned to its partition. -/
def State.gaugeAt (s : State) (c sel : Nat) : Option (GaugeId × Gauge) :=
  if sel < 4 then some (.core c sel, s.gauge (.core c sel))
  else if 0x80 ≤ sel then
    let i : GaugeId := .die ((sel - 0x80) / 32) (sel % 32)
    let g := s.gauge i
    if g.owner = some (s.coreAt c).part then some (i, g) else none
  else none

/-- The 128 bytes that `ggrd` writes. -/
def gaugeBytes (g : Option (GaugeId × Gauge)) : List Byte :=
  match g with
  | none => List.replicate 128 0
  | some (i, g) =>
    let ctl := match i with
      | .core _ _ => g.control ||| 0x00FF0000
      | .die _ _ => g.control
    toLe 8 ctl.toNat ++ toLe 4 g.mn ++ toLe 4 g.mx ++ toLe 8 g.count ++ toLe 8 g.sum ++
      ((List.range 16).flatMap fun n => toLe 4 (findD g.hist n 0)) ++ List.replicate 32 0

/-- `ggrd`: its stores are performed before it retires. -/
def ggrdBody (a b : Fin 32) (c : Nat) (s : State) : Res State := do
  let va := (s.coreAt c).s b
  aligned va 128
  let g := s.gaugeAt c (((s.coreAt c).s a).toNat % 256)
  let s ← s.storeWords c .S .wt va.toNat (gaugeBytes g)
  pure (s.performOwn c)

def execGgrd (p : Pr) (a b : Fin 32) (s : State) : Out := runS p (srcs [a, b]) (ggrdBody a b) s

/-- The control word after a write: SAT is cleared by a 1, and PART belongs to die gauges (R20). -/
def gaugeControl (die : Bool) (old v : Word) : Word :=
  let sat := old &&& ~~~v &&& 0x40000000
  (v &&& (if die then 0x80FF00FF else 0x800000FF)) ||| sat ||| (if die then 0 else 0x00FF0000)

/-- Clear a gauge's values. -/
def Gauge.clear (g : Gauge) : Gauge := { g with mn := 0, mx := 0, count := 0, sum := 0, hist := [] }

/-- `ggset`. A supervisor write with reserved bits set and CLEAR = 1 leaves the control word and clears the values all the
same: the spec does not say whether the refused write clears (DESIGN CHOICE, log 41). -/
def ggsetBody (a b : Fin 32) (c : Nat) (s : State) : Res State :=
  let k := s.coreAt c
  let sel := (k.s a).toNat % 256
  let v := k.s b
  match s.gaugeAt c sel with
  | none => .ok s
  | some (i, g) =>
    let die := match i with
      | .die _ _ => true
      | .core _ _ => false
    let g' := if bit v.toNat 32 then g.clear else g
    if v &&& 0x3F00FF00 ≠ 0 then
      if k.sup then .ok ((s.setCore c { k with rsvdWr := true }).setGauge i g') else trap cCsr (dw sel)
    else .ok (s.setGauge i { g' with control := gaugeControl die g.control (v.setWidth 32) })

def execGgset (p : Pr) (a b : Fin 32) (s : State) : Out := runS p (srcs [a, b]) (ggsetBody a b) s

end Sys2Proof.Machine
end

