-- ==== Sys2Proof/Machine/Coherence.lean ====
section
/-! DEFINITION. The messages between cores and homes as events, one at a time (08_coherence R149-R156): requests, line data,
invalidations, forwards, write-backs and eviction notices. Messages about one line between one core and its home keep the
order in which they were sent (R150), so a message that arrives brings with it those that were sent before it. -/

namespace Sys2Proof.Machine

/-! ## Requests (R150, R151, R156) -/

/-- The store of an instruction that a request carries, while its core still buffers it. -/
def State.buffered (s : State) (r : HomeReq) : Option (Nat × Buffered) :=
  r.core.bind fun c => ((s.coreAt c).stores.find? fun x => x.req == r).map fun x => (c, x)

/-- The store of a core to a line that is sent first. -/
def Core.firstStore (k : Core) (x : Buffered) : Buffered := (k.stores.find? fun y => y.req.line == x.req.line).getD x

/-- A request reaches its home. A bank whose counter is full accepts no write yet (R156). A buffered store goes behind
its core's earlier ones to the line, which are sent in its place while it stays on its way, and may be overtaken by stores to
other lines (R160, log 6); one that its core has sent since is here already. -/
def execHomeRequest (r : HomeReq) (s : State) : Out :=
  match s.buffered r with
  | some (c, x) =>
    let (n, s') := s.draw
    if Config.overtaken n || s.bankFull r then .next (s'.post (.homeRequest r))
    else
      let y := (s.coreAt c).firstStore x
      .next (if y = x then s'.sendStore c y else (s'.sendStore c y).post (.homeRequest r))
  | none =>
    if r.no ≠ 0 then .next s
    else if s.bankFull r then .next (s.post (.homeRequest r))
    else .next ((s.accepted r).offer r)

/-! ## Data and invalidations at a core -/

/-- The line reaches its requester, which installs the copy and performs the waiting access (R151). -/
def execLineData (core line : Nat) (s : State) : Out := .next (s.deliver core line)

/-- A target drops any copy and acknowledges, whether it had one or not (R149, R154). -/
def execInvalidation (core line : Nat) (s : State) : Out := .next ((s.dropAt line core).post (.invalidationAck core line))

/-- An acknowledgement lowers PEND; the last one ends the round (R149). -/
def execInvalidationAck (core line : Nat) (s : State) : Out :=
  if !(s.dirAt line).awaits.contains core then .next s
  else
    let s := s.dropAt line core
    let d := s.dirAt line
    let s := s.setDir line { d with awaits := d.awaits.erase core }
    .next (if (d.awaits.erase core).isEmpty then (s.finishBusy line).drainHome line else s)

/-! ## Forwards and their replies (R152, R153) -/

/-- The updates of an owner up to the first that begins at a word. -/
def updatesTo (owner w : Nat) (us : List (Nat × HomeReq)) : List (Nat × HomeReq) :=
  let mine := us.filter fun u => u.1 == owner
  match mine.findIdx? fun u => (span u.2.kind).1 / 4 == w with
  | none => []
  | some i => mine.take (i + 1)

/-- Whether the home has sent a core a recall or a downgrade that is still open: to the recorded owner, or to one whose
write-back has come meanwhile (R153). -/
def State.forwarding (s : State) (owner line : Nat) : Bool :=
  let d := s.dirAt line
  d.busy.isSome && d.awaits.isEmpty && match d.mode with
    | .owned o => o == owner
    | _ => true

/-- The owner answers a recall or a downgrade, behind the updates that were sent to it before: its dirty words are on their
way to the home, which keeps the line's mode until they come (R151). One whose write-back has come answers from its buffer
(R153). -/
def State.yieldLine (s : State) (owner line : Nat) (keep : Bool) : State :=
  if s.forwarding owner line then
    let t := s.landUpdates line
    let t := if (t.dirAt line).mode == .owned owner then (t.disown line owner keep).setMode line (.owned owner) else t
    t.post (.forwardReply owner line (if keep then .downgrade else .recall))
  else s

/-- A forward reaches the owner, or its evict-pending buffer, behind the line's own data, and is answered. -/
def execForwardedRequest (owner line : Nat) (k : FwdKind) (s : State) : Out :=
  let s := s.deliverTo line owner
  match k with
  | .read => .next (if (s.dirAt line).reads.isEmpty then s else s.post (.forwardReply owner line .read))
  | .update w => .next ((updatesTo owner w (s.dirAt line).updates).foldl State.mergeUpdate s)
  | .downgrade => .next (s.yieldLine owner line true)
  | .recall => .next (s.yieldLine owner line false)

/-- The reply to a forwarded update of a word reaches the home, and the requests that waited for the word go on, those too
that waited for a reply that has come meanwhile. -/
def State.landReply (s : State) (l w : Nat) : State :=
  let d := s.dirAt l
  match d.replies.find? fun x => x.1 == w with
  | none => s.drainHome l
  | some x =>
    let s := { s with mem := Mem.write s.mem (128 * l + 4 * (w % 32)) (toLe 4 x.2.toNat) }
    (s.setDir l { d with replies := d.replies.erase x }).drainHome l

/-- The owner's reply reaches the home. With a recall or a downgrade come the owner's updates that were sent before it. -/
def execForwardReply (owner line : Nat) (k : FwdKind) (s : State) : Out :=
  match k with
  | .read => .next (s.landRead line)
  | .update w => .next (s.landReply line w)
  | .downgrade | .recall =>
    .next (if s.forwarding owner line then
        ((((s.deliverTo line owner).landUpdates line).landBusy line).drainHome line) else s)

/-! ## Evictions (R153, R154) -/

/-- An owner's write-back reaches the home: the masked words and the poison state are written, ownership ends, and
the copy waits in the evict-pending buffer for the acknowledgement; the owner's replies that were sent before it have come, and
requests that waited for their words go on (R150). A bank whose counter is full accepts it
once an earlier write is performed (R156). -/
def execWriteBack (core line : Nat) (s : State) : Out :=
  let s := s.makeRoom line
  match (s.dirAt line).mode == .owned core, s.ownCopy core line with
  | true, some k =>
    let s := (s.recall line core).onCore core fun x => { x with evicting := put x.evicting line k }
    .next ((s.post (.writeBackAck core line)).drainHome line)
  | _, _ => .next s

/-- The acknowledgement frees the evict-pending buffer, behind every forward that was sent to it. -/
def execWriteBackAck (core line : Nat) (s : State) : Out :=
  let mine := (s.dirAt line).updates.filter fun u => u.1 == core
  .next ((mine.foldl State.mergeUpdate s).onCore core fun k => { k with evicting := del k.evicting line })

/-- A tracked sharer's notice, sent behind whatever its core had received before, removes its pointer, or is ignored. -/
def execEvictionNotice (core line : Nat) (s : State) : Out :=
  let s := s.deliverTo line core
  let s := match find (s.coreAt core).copies line with
    | some k => if k.kind = CopyKind.tracked then s.onCore core fun x => x.dropCopy line else s
    | none => s
  match (s.dirAt line).mode with
  | .ptr cs =>
    let rest := cs.filter (· != core)
    .next (s.setMode line (if rest.isEmpty then .none else .ptr rest))
  | _ => .next s

end Sys2Proof.Machine
end

