-- ==== Sys2Proof/Machine/Cellar.lean ====
section
/-! DEFINITION. Walks that complete and the cellar clock (06_basin R113-R118). -/

namespace Sys2Proof.Machine

/-! ## Walks (R114) -/

/-- A walk completes. Its leaf answers every miss that it covers: it enters the cache of the miss's core, or, where a `tlbinv` has
barred it, serves the waiting access alone (R366). A fault ends the misses of its own page, each of which meets it in its own
access. A page still in the cellar keeps its misses and is asked for. -/
def execWalkComplete (part va : Nat) (s : State) : Out :=
  let q := s.partAt part
  match s.walk part true va ⟨false, false⟩ with
  | .cel entryPa _ _ => .next (if q.misses.any fun m => m.va / 65536 == va / 65536 then s.requestFetch part entryPa va none else s)
  | .fault _ => .next (s.setPart part { q with misses := q.misses.filter fun m => m.va / 65536 != va / 65536 })
  | .ok x fr =>
    let hit (m : Miss) : Bool := x.va ≤ m.va && decide (m.va < x.va + x.size)
    let s' := (q.misses.filter hit).foldl (fun s m =>
      if x.sup && !(s.coreAt m.core).sup then s
      else if m.barred then s.onEng m.core m.stream fun e => { e with got := e.got ++ [x] }
      else s.enterXlat m.core m.stream x fr) s
    .next (s'.onPart part fun q => { q with misses := q.misses.filter fun m => !hit m })

/-! ## Spilling (R116) -/

def Partition.frameCount (q : Partition) : Nat := fld q.clkpool.toNat 44 20

/-- Remove the page of a frame from every translation cache of the partition, and from what a waiting access was answered: it is
translated anew. -/
def State.dropPage (s : State) (p pa : Nat) : State :=
  let sel (x : Xlat) : Bool := x.size == 65536 && x.pa == pa
  let s := s.dropXlats p sel
  { s with cores := mapVals s.cores fun c k =>
      if s.partOf c = p then streams.foldl (fun k st => k.onEng st fun e => { e with got := e.got.filter fun x => !sel x }) k
      else k }

/-- A table entry with CEL and ADDR replaced. -/
def entryWith (cel : Bool) (addr e : Nat) : Nat :=
  ((setBit (dw e) 6 cel &&& ~~~(dw ((2 ^ 40 - 1) * 2 ^ 8))) ||| dw (addr % 2 ^ 40 * 2 ^ 8)).toNat

/-- The walker's write of a table entry: CEL and ADDR, atomically at its home, in its place among program stores to the entry
(R117). -/
def State.writeEntry (s : State) (entryPa : Nat) (cel : Bool) (addr : Nat) : State := s.redAt entryPa 8 (entryWith cel addr)

/-- The lines of a frame that a home records, or about which a core holds or has sent anything. -/
def State.frameLines (s : State) (pa : Nat) : List Nat :=
  ((s.dir.map Prod.fst ++ s.cores.flatMap fun k => s.linesOf k.1).filter fun l => pa ≤ 128 * l && 128 * l < pa + 65536).eraseDups

/-- Every access to a line completes, and its home recalls it: the owner writes back, and every copy goes, the untracked ones
too, so that none stands for the next page (R116, R117). -/
def State.clearLine (s : State) (l : Nat) : State :=
  let s := (s.cores.map Prod.fst).foldl (fun s c => s.sendStores c l fun _ => true) s
  let s := (s.settle l).recallOwner l
  let s := (s.invalidate l none).setMode l .none
  { s with cores := mapVals s.cores fun _ k => k.dropCopy l }

/-- Clear every line of a frame. -/
def State.clearFrame (s : State) (pa : Nat) : State := (s.frameLines pa).foldl State.clearLine s

/-- An operation that has ended has still to write its completion word or to signal in a page: the one access to it that is
already translated and that no home has yet (R116, R200). -/
def State.endingIn (s : State) (pa : Nat) : Bool :=
  let inPage (a : Nat) : Bool := pa ≤ a && a < pa + 65536
  s.dev.ops.any fun o => o.2.status.isSome && (inPage o.2.complPa || o.2.semPa.any inPage)

/-- The spill of a frame's page begins: its entry says that it is in the cellar, and its translations go. -/
def State.beginSpill (s : State) (p f : Nat) (fr : Frame) (entryPa : Nat) : State :=
  let s := (s.writeEntry fr.entryPa true fr.slot).dropPage p ((s.partAt p).framePa f)
  s.onPart p fun q => { q with spilling := some (f, entryPa) }

/-- The rest of a spill, once every access to the page has completed: its lines are recalled, the page is copied to its slot,
poison with it, and the frame is empty. -/
def State.endSpill (s : State) (p f : Nat) (fr : Frame) : State :=
  let pa := (s.partAt p).framePa f
  let s := (s.clearFrame pa).onDev fun d => d.movePlaces pa (slotPlace p (65536 * fr.slot))
  let bad := (s.poison.filter fun u => u / 1024 == pa / 65536).map fun u => 1024 * fr.slot + u % 1024
  s.onPart p fun q => { q with
    cellar := blit q.cellar (65536 * fr.slot) 65536 (cut s.mem pa 65536)
    cellarBad := (q.cellarBad.filter fun u => u / 1024 != fr.slot) ++ bad
    frames := del q.frames f, spilling := none }

/-- Go on with the spill under way: the frame, once it is empty. -/
def State.goOnSpill (s : State) (p : Nat) : Option Nat × State :=
  let q := s.partAt p
  match q.spilling with
  | none => (none, s)
  | some (f, _) =>
    if s.endingIn (q.framePa f) then (none, s)
    else match find q.frames f with
      | none => (some f, s.onPart p fun q => { q with spilling := none })
      | some fr => (some f, s.endSpill p f fr)

/-- A free frame for the fetch of an entry: the lowest empty one, else the one whose page the clock spills, once it is spilled;
none yet in an empty pool. -/
def State.freeFrame : Nat → Nat → Nat → State → Option Nat × State
  | 0, _, _, s => (none, s)
  | fuel + 1, p, entryPa, s =>
    let q := s.partAt p
    match (List.range q.frameCount).find? fun f => (find q.frames f).isNone with
    | some f => (some f, s)
    | none =>
      let f := q.clkHand % q.frameCount
      match find q.frames f with
      | none => (none, s)
      | some fr =>
        if fr.ref then
          let s := s.setPart p { q with clkHand := (f + 1) % q.frameCount, frames := put q.frames f { fr with ref := false } }
          State.freeFrame fuel p entryPa (s.dropPage p (q.framePa f))
        else ((s.setPart p { q with clkHand := (f + 1) % q.frameCount }).beginSpill p f fr entryPa).goOnSpill p

/-- A frame for a fetch. Fetches, spills and choices run one at a time: a spill under way for another fetch goes first. -/
def State.frameFor (s : State) (p entryPa : Nat) : Option Nat × State :=
  let q := s.partAt p
  match q.spilling with
  | some (_, e) => if e = entryPa then s.goOnSpill p else (none, s)
  | none => State.freeFrame (2 * q.frameCount + 1) p entryPa s

/-! ## Fetching (R116-R118) -/

/-- Copy a slot into a frame and make the page resident. -/
def State.fillFrame (s : State) (p f entryPa slot va : Nat) : State :=
  let q := s.partAt p
  let pa := q.framePa f
  let bad := (q.cellarBad.filter fun u => u / 1024 == slot).map fun u => pa / 64 + u % 1024
  let s := (s.clearFrame pa).onDev fun d => d.movePlaces (slotPlace p (65536 * slot)) pa
  let s := { s with
    mem := blit s.mem pa 65536 (cut q.cellar (65536 * slot) 65536)
    poison := (s.poison.filter fun u => u / 1024 != pa / 65536) ++ bad }
  let s := s.onPart p fun q => { q with frames := put q.frames f ⟨entryPa, slot, va / 65536 * 65536, true⟩ }
  s.writeEntry entryPa false (pa / 256)

/-- What a core has waiting for a fetch beside its streams: a lookahead pass, and a probe. -/
def State.resumeCore (s : State) (c : Nat) : State :=
  let s := State.lookahead 513 c s
  match (s.coreAt c).probing with
  | none => s
  | some v => match execDpaddrWrite c v (s.onCore c fun k => { k with probing := none }) with
    | .next t => t
    | _ => s

/-- A fetch is over: its walk resumes, a write of 0 to CLKCTL.EN that waited for the last one takes effect (R115), and what
cores of the partition have waiting goes on. -/
def State.endFetch (s : State) (p : Nat) (x : Fetch) : State :=
  let s := s.onPart p fun q =>
    let q := { q with fetches := q.fetches.erase x }
    if q.clkOff && q.fetches.isEmpty then { q with clkEn := false, clkOff := false } else q
  let s := s.post (.walkComplete p x.va)
  (s.cores.filter fun k => k.2.part == p && k.2.run != .idle).foldl (fun s k => s.resumeCore k.1) s

/-- Whether a table entry names a page in the cellar share, which can be fetched. -/
def State.fetchable (s : State) (p entryPa : Nat) : Bool :=
  let q := s.partAt p
  let e := leNat (s.homeRead entryPa 8).1
  q.clkEn && bit e 0 && bit e 5 && bit e 6 && decide (fld e 8 40 < q.cellarGiB * 16384)

/-- A page is fetched from the cellar into a frame. An entry that names no slot of the share any more has nothing to
fetch, and its walk finds what it now says. -/
def execCellarFetchComplete (part entryPa va : Nat) (s : State) : Out :=
  let q := s.partAt part
  match q.fetches.find? fun x => x.entryPa == entryPa with
  | none => .next s
  | some x =>
    if !s.fetchable part entryPa && (q.spilling.map Prod.snd) != some entryPa then .next (s.endFetch part x)
    else match s.frameFor part entryPa with
      | (none, s) => .next (s.post (.cellarFetchComplete part entryPa va))
      | (some f, s) =>
        .next ((if s.fetchable part entryPa then
          s.fillFrame part f entryPa (fld (leNat (s.homeRead entryPa 8).1) 8 40) x.va else s).endFetch part x)

end Sys2Proof.Machine
end

