-- ==== Sys2Proof/Machine/HallSteps.lean ====
section
/-! DEFINITION. The Hall's own steps (04_hall R62-R77, 11_traps R198, R199), the traps a fetch raises (05_streams R78,
14_formats R237), kept traps (R196), and the errors of R202. -/

namespace Sys2Proof.Machine

/-! ## Placement (R68, R69) -/

/-- The entries of a job's loading on each die where it has any (R62, R73). -/
def Job.loads (b : Job) : Store Nat := ((List.range 4).map fun d => (d, b.loadEntries d)).filter fun x => x.2 != 0

/-- The Hall chooses its candidate, which stays chosen until it fits, and places it when enough cores are free: it reserves
them first-fit, and loading begins, in the conduit queues behind the entries that are there already. -/
def execPlacement (part : Nat) (s : State) : Out :=
  match s.candidate part with
  | none => .next s
  | some (j, b) =>
    let free := firstFit b.affinity (s.freeCores part)
    if free.length < b.live.length then .next (s.onPart part fun q => { q with chosen := some j })
    else
      let idx := (b.live.zip free).foldl (fun m x =>
        put m x.1 { findD m x.1 {} with core := some x.2 }) b.idx
      let b := { b with idx := idx, loadFrom := s.dev.nextOp }
      let s := (s.setJob part j { b with loadLeft := b.loads }).onDev fun d => { d with nextOp := d.nextOp + 1 }
      let s := s.onPart part fun q => { q with placements := q.placements + 1, chosen := none }
      let s := s.setJobState part j 3 0
      let s := if b.loads.isEmpty then s.post (.loadComplete part j) else b.loads.foldl (fun s x => s.wake x.1 part) s
      .next (s.post (.placement part))

/-! ## Loading (R62, R77, R198, R199) -/

/-- What a job core index starts from: its images and tiles, or its saved slot with the intervals of it that are poisoned. -/
inductive Start where
  | fresh (imgs : List (List Word)) (tiles : List (Nat × List Byte))
  | saved (imgs : List (List Word)) (slot : Mem) (bad : List (Nat × Nat))
  deriving DecidableEq, Repr

/-- Why a job does not start: it fails with a cause of R61, or a page must first be fetched. -/
inductive LoadStop where
  | fail (cause : Nat)
  | fetch (part entryPa va : Nat)
  deriving DecidableEq, Repr

/-- A read of loading, whose failure is a cause of R61. -/
def loadRead {α : Type} (cause : Nat) : Res α → Except LoadStop α
  | .ok x => .ok x
  | .error (.fetch p e va) => .error (.fetch p e va)
  | .error _ => .error (.fail cause)

/-- A saved slot, read at job level and checked (R199). Poison moves on with the data that it lies in, and is consumed where
the Hall itself reads the slot (R202, log 16). -/
def State.readSlot (s : State) (p : Nat) (b : Job) (i : Nat) : Except LoadStop (Mem × List (Nat × Nat)) := do
  let tr (va : Nat) : Res Nat := s.xlateFor p b.sup va needRd
  let head ← loadRead 3 (s.bulkLoad tr (slotVa b i) 8)
  let r ← loadRead 3 (s.bulkLoad tr (slotVa b i) (slotLen (bit (slotGet head.1 4 4) 0)))
  if (r.2.any fun x => !slotMoves x) || (slotFault r.1 false).isSome then .error (.fail 3) else .ok r

/-- What one index starts from. -/
def State.readStart (s : State) (p : Nat) (b : Job) (i : Nat) : Except LoadStop Start := do
  let imgs ← loadRead 1 (s.readImages p b i)
  if ((find b.idx i).map JobIdx.st) == some .saved then
    let r ← s.readSlot p b i
    pure (.saved imgs r.1 r.2)
  else match s.readResidents p b i with
    | none => .error (.fail 2)
    | some tiles => pure (.fresh imgs tiles)

/-- Every index of a loading job with its core and what it starts from; a reserved core that has been retired ends
the job (R24). Where several reads fail, the job's cause is that of the first, in ascending order of job core index and with
an index's images before its tiles or its slot: the spec does not say which (DESIGN CHOICE, log 52). -/
def State.readStarts (s : State) (p : Nat) (b : Job) : Except LoadStop (List (Nat × Nat × Start)) :=
  b.live.mapM fun i =>
    match (find b.idx i).bind JobIdx.core with
    | none => .error (.fail 4)
    | some c =>
      if s.dev.retired.contains c then .error (.fail 4)
      else do
        let x ← s.readStart p b i
        pure (i, c, x)

/-- Start one core. -/
def State.startIdx (s : State) (p j : Nat) (b : Job) (x : Nat × Nat × Start) : State :=
  match x.2.2 with
  | .fresh imgs tiles => (s.startCore p j x.2.1 x.1 b imgs tiles).noteResidents p b x.1
  | .saved imgs m bad =>
    let s := s.startCore p j x.2.1 x.1 b [] []
    let (n, s) := s.draw
    s.onCore x.2.1 fun k => k.restore m bad imgs s.now (Config.freeBits n 0) ((find b.idx x.1).bind JobIdx.rest)

/-- The index is running on its core. -/
def Job.started (b : Job) : Job :=
  { b with idx := mapVals b.idx fun _ x => if x.core.isSome then { x with st := .running, kept := [], rest := none } else x }

/-- Everything has arrived on every core: the cores are set up and start, and the job is RUNNING; the gauges of the lead
Hall's die sample the cycles since it was READY (source 0x13 of R21). An entry that has not started is waited for, and nothing
loads while the dies have no power (R13). -/
def execLoadComplete (part job : Nat) (s : State) : Out :=
  match s.jobAt part job with
  | none => .next s
  | some b =>
    if b.state ≠ 3 || s.dev.phase = .stopped then .next s
    else if b.loadLeft.any fun x => x.2 != 0 then .next s
    else match s.readStarts part b with
      | .error (.fail _) => .next (s.post (.loadFailure part job))
      | .error (.fetch p e va) => .next ((s.requestFetch p e va none).post (.loadComplete part job))
      | .ok xs =>
        let s := xs.foldl (fun s x => s.startIdx part job b x) s
        let s := s.setJob part job { b.started with sliceStart := s.now }
        let s := s.sampleDie (s.leadDie part) 0x13 part (s.now - b.readySince)
        .next ((s.setJobState part job 4 0).post (.sliceEnd part job))

/-- A read of loading has failed: the job ends FAILED, and its cores are free. -/
def execLoadFailure (part job : Nat) (s : State) : Out :=
  match s.jobAt part job with
  | none => .next s
  | some b =>
    if b.state ≠ 3 then .next s
    else match s.readStarts part b with
      | .error (.fail cause) => .next (s.endJob part job 7 cause)
      | _ => .next (s.post (.loadComplete part job))

/-! ## Slices and yields (R74-R76) -/

/-- The slice length of a partition. -/
def Partition.slice (q : Partition) : Nat := 2 ^ max 16 (min 30 (q.hslice.toNat % 32))

/-- Whether a READY job makes job `b` yield. -/
def yieldsTo (q : Partition) (now : Nat) (b k : Job) : Bool :=
  k.state == 2 && (decide (k.prio ≤ b.prio) || decide (16 * q.slice ≤ now - k.readySince))

/-- A slice ends. Not due, the event waits for its cycle. -/
def execSliceEnd (part job : Nat) (s : State) : Out :=
  match s.jobAt part job with
  | none => .next s
  | some b =>
    let q := s.partAt part
    if b.state ≠ 4 || s.events.contains (.sliceEnd part job) then .next s
    else if s.now < b.sliceStart + q.slice then .next (s.post (.sliceEnd part job))
    else if q.jobs.any fun k => k.1 != job && yieldsTo q s.now b k.2 then
      .next (b.onCores.foldl (fun s c => s.onCore c fun k =>
        if k.run = .running && k.yieldAt.isNone then { k with yieldAt := some s.now } else k) s)
    else .next ((s.setJob part job { b with sliceStart := s.now }).post (.sliceEnd part job))

/-- A core that ended with `jend` is released once its basin-side copies have completed (R81, R287). -/
def execCoreRelease (core : Nat) (s : State) : Out :=
  let k := s.coreAt core
  .next (if k.run = .leaving && k.leaveByJend && !s.basinBusy core then s.releaseCore core else s)

/-- A yielding core leaves once its basin-side copies have completed (R76, R287). -/
def execCoreLeave (core : Nat) (s : State) : Out :=
  let k := s.coreAt core
  .next (if k.run = .leaving && !k.leaveByJend && !s.basinBusy core then s.leaveCore core k.graph else s)

/-- Cycles from a yield to its hard pre-emption (R76). -/
def yieldLimit : Nat := 2 ^ 22

/-- A core that still runs when its yield is 2^22 cycles old is pre-empted hard; without a save area the whole job
ends FAILED with OVERRUN. -/
def execYieldDeadline (core : Nat) (s : State) : Out :=
  let k := s.coreAt core
  match k.yieldAt, s.jobAt k.part k.job with
  | some t, some b =>
    if k.run ≠ .running || s.now < t + yieldLimit then .next s
    else if b.ctxVa = 0 then .next (s.stopJob k.part k.job 7 3)
    else .next (s.preempt core)
  | _, _ => .next s

/-! ## Traps that no instruction raises -/

/-- The order in which kept traps are taken: lowest sequence number, S before the others (R196). -/
def trapBefore (a b : Trap) : Bool :=
  decide (a.seq < b.seq) || (a.seq == b.seq && decide (streamNum a.stream < streamNum b.stream))

/-- A kept trap is taken by a core that runs outside a handler (R196). -/
def execTrapTaken (core : Nat) (s : State) : Out :=
  let k := s.coreAt core
  if k.run ≠ .running || k.thnd || k.freezeEnd.isSome || k.stopping.isSome then .next s
  else match bestOf trapBefore k.kept with
    | none => .next s
    | some t => .next ((s.setCore core { k with kept := k.kept.erase t }).takeTrap core t)

/-- The stream whose turn it is fetches a word past its image, or a poisoned one of it (R78, R202). A literal of X that the
image lacks is the word fetched (R253). -/
def execFetchRange (s : State) : Out :=
  let e := s.eng s.core s.stream
  let pc := if e.pc / 4 < e.img.length && !e.bad.contains (e.pc / 4) then e.pc + 4 else e.pc
  let t : Trap := { code := cFetch, val := dw pc, stream := s.stream, pc := pc, seq := e.seq }
  .next (s.raise s.core s.stream (if pc / 4 < e.img.length then
    { t with code := cPoison, val := 0, sites := [.imem s.stream (pc / 4)] } else t))

/-- The word of the stream whose turn it is reads a register that an uncorrectable error has struck, which stays poisoned until
it is written (R202); the operand record holds the values of its operands as they stand (R191). No basin offset or address names
the register, and tval is 0 (DESIGN CHOICE, log 15). -/
def State.regsTrap (s : State) (ops : List DWord) : State :=
  s.raise s.core s.stream (trapOf s.stream (s.eng s.core s.stream) cPoison 0 ops)

/-- An error poisons a unit of a stream's registers, queues or FIFOs. -/
def Core.poisonUnit (k : Core) (st : Stream) (u : RegUnit) : Core :=
  match st, u with
  | .S, .reg n => { k with sregBad := (k.sregBad ++ [n]).eraseDups }
  | .X, .reg n => { k with pantryBad := (k.pantryBad ++ [n]).eraseDups }
  | st, u => k.onEng st fun e => { e with regsBad := (e.regsBad ++ [u]).eraseDups }

/-- The stream whose turn it is fetches a word that is no instruction (R237). -/
def execUnassignedWord (w : Word) (s : State) : Out :=
  .next (s.raise s.core s.stream (trapOf s.stream (s.eng s.core s.stream) cIllegal (w.setWidth 64) []))

/-! ## Errors (R23, R108, R202) -/

/-- A correctable error freezes the core for 24 cycles. -/
def execCorrectableError (core : Nat) (s : State) : Out :=
  .next (s.onCore core fun k => { k with
    freezeFrom := if k.freezeEnd.isSome then k.freezeFrom else s.now
    freezeEnd := some (s.now + 24) })

/-- A wait that has stood still for some cycles. -/
def Engine.shiftWaits (e : Engine) (n : Nat) : Engine :=
  { e with
    wait := e.wait.map fun w => { w with since := w.since + n }
    spec := e.spec.map fun it => { it with blocked := it.blocked.map (· + n) } }

/-- A freeze ends: no wait has counted its cycles. -/
def execFreezeEnd (core : Nat) (s : State) : Out :=
  let k := s.coreAt core
  match k.freezeEnd with
  | none => .next s
  | some t =>
    if s.now < t then .next s
    else
      let lost := s.now - k.freezeFrom
      let k := streams.foldl (fun k st => k.onEng st fun e => e.shiftWaits lost) k
      .next (s.setCore core { k with
        freezeEnd := none, kwait := k.kwait.map fun w => { w with since := w.since + lost } })

/-- The lines of a compressed block (R106, R108). -/
def blockLines (pa : Nat) : List Nat :=
  let l := pa / 128
  (List.range 16).map fun n =>
    let i := l / 128 * 16 + n
    8 * i + (home (8 * i) ^^^ home l)

/-- A list with its element `n` changed, and defaults below where it has none. -/
def padded {α : Type} (l : List α) (n : Nat) (d : α) (f : α → α) : List α :=
  l.take n ++ List.replicate (n - l.length) d ++ [f (l.getD n d)] ++ l.drop (n + 1)

/-- An uncorrectable error poisons the unit it strikes; one in a basin or an instruction memory is charged to the
core. An error of a matrix array is a residue mismatch of a coming step, and one of an adder of the confluence a disagreement
with its duplicate (R38, R182). -/
def execUncorrectableError (site : ErrSite) (s : State) : Out :=
  let addUnit (l : List Nat) (u : Nat) : List Nat := if l.contains u then l else l ++ [u]
  match site with
  | .hbm pa => .next (if pa < hbmEnd then { s with poison := addUnit s.poison (pa / 64) } else s)
  | .hbmBlock pa =>
    .next (if pa < hbmEnd then
        { s with poison := (blockLines pa).foldl (fun p l => addUnit (addUnit p (2 * l)) (2 * l + 1)) s.poison } else s)
  | .basin c off =>
    .next (if off < basinEnd then (s.onCore c fun k => k.poisonBasin off 1).charge c (.basin (off / 32)) else s)
  | .imem c st w => .next ((s.onEng c st fun e => { e with bad := addUnit e.bad w }).charge c (.imem st w))
  | .acc c a => .next (s.onCore c fun k => { k with acc := put k.acc a { k.accAt a with bad := true } })
  | .far r off => .next (s.onDev fun d => { d with
      far := mapVals d.far fun i f => if i = r then { f with bad := addUnit f.bad (off / 64) } else f })
  | .cellar p off => .next (s.onPart p fun q => { q with cellarBad := addUnit q.cellarBad (off / 64) })
  | .tensor p uid tile => .next (s.onPart p fun q =>
      { q with badTiles := if q.badTiles.contains (uid, tile) then q.badTiles else q.badTiles ++ [(uid, tile)] })
  | .regs c st u => .next (s.onCore c fun k => k.poisonUnit st u)
  | .array c n => .next (s.onCore c fun k => { k with residue := padded k.residue n 0 (· + 1) })
  | .adder i n => .next (s.onDev fun d => { d with
      ops := mapVals d.ops fun j o => if j = i then { o with adder := padded o.adder n false fun _ => true } else o })

end Sys2Proof.Machine
end

