-- ==== Sys2Proof/Machine/Sha256.lean ====
section
/-! DEFINITION. SHA-256, which 01_package R15 and R16 name and do not define; the function of FIPS 180-4 (log 28). Its
constants are computed from what they are: leading bits of roots of primes. -/

namespace Sys2Proof.Machine

namespace Sha

/-- The first 64 prime numbers. -/
def primes : List Nat :=
  (List.range 312).filter fun n => decide (2 ≤ n) && (List.range 18).all fun d => decide (d < 2) || decide (n ≤ d) || n % d != 0

/-- The whole part of the root of degree `r` of a number below 2^(36 r), one bit after the other. -/
def root (r n : Nat) : Nat := (List.range 36).foldl (fun x i => if (x + 2 ^ (35 - i)) ^ r ≤ n then x + 2 ^ (35 - i) else x) 0

/-- The leading 32 bits of the fraction of the root of degree `r` of a number. -/
def fraction (r n : Nat) : Word := BitVec.ofNat 32 (root r (n * 2 ^ (32 * r)))

/-- The 64 constants of the rounds: cube roots of the primes. -/
def constants : List Word := primes.map (fraction 3)

/-- The working variables. -/
structure Vars where
  a : Word
  b : Word
  c : Word
  d : Word
  e : Word
  f : Word
  g : Word
  h : Word
  deriving DecidableEq, Repr

/-- The variables in order, and the variables that eight words make. -/
def Vars.toList (v : Vars) : List Word := [v.a, v.b, v.c, v.d, v.e, v.f, v.g, v.h]
def Vars.ofList (l : List Word) : Vars :=
  ⟨l.getD 0 0, l.getD 1 0, l.getD 2 0, l.getD 3 0, l.getD 4 0, l.getD 5 0, l.getD 6 0, l.getD 7 0⟩

/-- What the hash starts from: square roots of the first eight primes. -/
def start : Vars := .ofList ((primes.take 8).map (fraction 2))

/-- A word rotated to the right. -/
def turn (n : Nat) (x : Word) : Word := x >>> n ||| x <<< (32 - n)

/-- The exclusive or of a word's rotations by two amounts with a third word. -/
def mix (i j : Nat) (x y : Word) : Word := turn i x ^^^ turn j x ^^^ y

/-- The word that follows a window of sixteen words of the message schedule. -/
def follow (w : List Word) : Word :=
  let x := w.getD 1 0
  let y := w.getD 14 0
  w.getD 0 0 + w.getD 9 0 + mix 7 18 x (x >>> 3) + mix 17 19 y (y >>> 10)

/-- One round with a constant and the window's first word; the window moves on by one word. -/
def step (x : Vars × List Word) (k : Word) : Vars × List Word :=
  let v := x.1
  let choice := v.g ^^^ (v.e &&& (v.f ^^^ v.g))
  let majority := (v.a &&& v.b) ||| (v.c &&& (v.a ||| v.b))
  let t := v.h + mix 6 11 v.e (turn 25 v.e) + choice + k + x.2.getD 0 0
  (⟨t + mix 2 13 v.a (turn 22 v.a) + majority, v.a, v.b, v.c, v.d + t, v.e, v.f, v.g⟩, x.2.drop 1 ++ [follow x.2])

/-- The hash after one more block of sixteen words. -/
def compress (v : Vars) (w : List Word) : Vars :=
  .ofList (List.zipWith (· + ·) v.toList (constants.foldl step (v, w)).1.toList)

/-- A word of four bytes, the first most significant. -/
def bigWord (bs : List Byte) : Word := BitVec.ofNat 32 (leNat bs.reverse)

/-- A message followed by the bit 1, zeros, and its length in bits as the last eight bytes of a block. -/
def padded (m : List Byte) : List Byte :=
  let zeros := 63 - (m.length + 8) % 64
  m ++ 0x80 :: List.replicate zeros 0 ++ (toLe 8 (8 * m.length)).reverse

/-- The sixteen words of block `n` of a padded message. -/
def blockAt (m : List Byte) (n : Nat) : List Word :=
  (List.range 16).map fun i => bigWord ((m.drop (64 * n + 4 * i)).take 4)

end Sha

/-- The digest, 32 bytes. -/
def sha256 (m : List Byte) : List Byte :=
  let p := Sha.padded m
  let v := (List.range (p.length / 64)).foldl (fun v n => Sha.compress v (Sha.blockAt p n)) Sha.start
  v.toList.flatMap fun x => (toLe 4 x.toNat).reverse

end Sys2Proof.Machine
end

