-- ==== Sys2Proof/Machine/Keystone.lean ====
section
/-! DEFINITION. Start-up, power, temperature, links and gauges (01_package R8-R25; 02_links R26, R31, R34; 03_vestibule
R55 for withheld regions). -/

namespace Sys2Proof.Machine

/-! ## Measurements (R16) -/

/-- A measurement register, 32 bytes. -/
def Device.measAt (d : Device) (i : Nat) : List Byte := findD d.meas i (List.replicate 32 0)

/-- m := SHA-256(m ‖ d). -/
def Device.extend (d : Device) (i : Nat) (digest : List Byte) : Device :=
  { d with meas := put d.meas i (sha256 (d.measAt i ++ digest)) }

/-- The wing-owner table, a byte for each wing (R17). -/
def Device.wingTable (d : Device) : List Byte := (List.range 12).map fun w => BitVec.ofNat 8 (findD d.wings w 0xFF)

/-- M3 takes the digest of the wing-owner table as it now is (R16). -/
def Device.extendLayout (d : Device) : Device := d.extend 3 (sha256 d.wingTable)

/-! ## Firmware slots (R15) -/

/-- The slot that an image makes, its header read where the firmware keeps it (log 9). -/
def slotOf (image : List Byte) : Slot :=
  ⟨Config.headerKey image, (Config.headerVersion image).toNat, image, Config.headerSignature image⟩

def Slot.erased : Slot := ⟨[], 0, [], []⟩

/-- Validity by step 2 of R15. -/
def Slot.valid (x : Slot) : Bool :=
  !x.image.isEmpty && sha256 x.key == toLe 32 Config.fusedKeyDigest.toNat && Config.verifies x.key x.image x.sig &&
    decide (Config.minVersion.toNat ≤ x.version)

/-- The slot that start-up selects, true for B; none with no valid slot. -/
def Device.select (d : Device) : Option Bool :=
  match d.slotA.valid, d.slotB.valid with
  | false, false => none
  | true, false => some false
  | false, true => some true
  | true, true => some (decide (d.slotA.version < d.slotB.version))

/-! ## Start-up (R15, R26) -/

/-- What a restart keeps: the firmware slots, the health record, the credential and the boot counter (R8, R15), what
the sensors and ports themselves hold, the messages already sent, and the replies that are due (R44). -/
def Device.kept (d : Device) : Device :=
  { slotA := d.slotA, slotB := d.slotB, preferB := d.preferB, boots := d.boots, credential := d.credential
    failures := d.failures, retired := d.retired, trip := d.trip, portErrors := d.portErrors
    hotDies := d.hotDies, duty := if d.hotDies.isEmpty then 16 else 4, nextOp := d.nextOp, sent := d.sent
    quotes := d.quotes, writesDone := d.writesDone }

/-- The core self-test: a core that fails is charged and retired at once (R15, R23). -/
def Device.selfTest (d : Device) (n now : Nat) : Device :=
  let bad := (List.range 144).filter fun c => Config.selfTestFails n c
  { d with
    failures := bad.foldl (fun m c => put m c (findD m c [] ++ [now])) d.failures
    retired := d.retired ++ bad.filter fun c => !d.retired.contains c }

/-- Training of the ports: those whose links become active (R15, R26). -/
def Device.trainUe (d : Device) (n : Nat) : Device := { d with uePorts := (List.range 12).filter (Config.trainsUe n) }

/-- The expanders that enumeration accepts below a port: the first sixteen devices of Type 3 below at most one switch level;
any other device is left disabled (R32). -/
def acceptedBelow (found : List (Nat × Nat × Nat)) : List Expander :=
  ((found.filter fun x => x.1 == 3 && decide (x.2.1 ≤ 1)).map fun x => ⟨x.2.1, x.2.2⟩).take 16

/-- Training and enumeration of the CXL ports (R32). -/
def Device.trainCxl (d : Device) (n : Nat) : Device :=
  let ports := (List.range 2).filter (Config.trainsCxl n)
  { d with cxlPorts := ports, expanders := ports.map fun p => (p, acceptedBelow (Config.cxlFound n p)) }

/-- The device firmware of a selected slot sets the module READY; `n` numbers the start-up. -/
def Device.bringUp (d : Device) (b : Bool) (n now : Nat) : Device :=
  let image := (if b then d.slotB else d.slotA).image
  let d := { d with selectedB := b, fallback := b != d.preferB }
  let d := (d.extend 0 (sha256 (Config.keystoneSection image))).extend 1 (sha256 (Config.deviceSection image))
  let d := ((d.selfTest n now).trainUe n).trainCxl n
  { d.extend 2 (sha256 (Config.fabricSection image)) with phase := .ready, readyAt := now }

/-- Events that the machine's own engines have in flight, which no restart keeps. -/
def internal : Instr → Bool
  | .placement _ | .loadComplete _ _ | .loadFailure _ _ | .sliceEnd _ _ | .asyncFault _ _ _ | .dbarComplete _ _
  | .walkComplete _ _ | .cellarFetchComplete _ _ _ | .conduitEntryStart _ _ | .ccopyComplete _ _ | .collHop _ _ _ _
  | .collComplete _ | .cdelayHoldEnd _ | .lineData _ _ | .writeBackAck _ _ | .invalidation _ _ | .invalidationAck _ _
  | .forwardedRequest _ _ _ | .forwardReply _ _ _ | .homeRequest _ | .farZeroingComplete _ => true
  | _ => false

/-- The module without its compute dies and HBM stacks, or before they are trained: nothing of any partition is left. -/
def State.cleared (s : State) (d : Device) : State :=
  { s with
    dev := d, cores := [], parts := [], mem := [], poison := [], dir := [], pending := []
    events := s.events.filter fun e => !internal e }

/-- Cycles of a period of the duty (R12). -/
def dutyCycles : Nat := 65536

/-- Steps 1 to 5 of R15. -/
def State.startUp (s : State) : State :=
  let d := { s.dev.kept with
    meas := (List.range 16).map fun i => (i, List.replicate 32 0), dutyNext := s.now + dutyCycles }
  let (n, s) := s.draw
  s.cleared (match d.select with
    | some b => d.bringUp b n s.now
    | none => { d.trainUe n with phase := .recovery })

/-- Power comes on; the boot counter counts it (R17). -/
def execPowerOn (s : State) : Out := .next (s.onDev fun d => { d with boots := (d.boots + 1) % 2 ^ 32 }).startUp

/-! ## Power and temperature (R12, R13) -/

/-- The end of a period of 65,536 cycles: the duty for the next one. -/
def execDutyPeriod (watts : Nat) (s : State) : Out :=
  if s.dev.phase = .off || s.now < s.dev.dutyNext then .next s
  else .next (s.onDev fun d => { d with
    dutyNext := d.dutyNext + dutyCycles
    duty :=
      if !d.hotDies.isEmpty then 4
      else if d.powerLimit < watts then max 4 (d.duty - 1)
      else if 100 * watts < 95 * d.powerLimit then min 16 (d.duty + 1)
      else d.duty })

/-- A period that ends in this cycle, with the power that the Keystone measures. -/
def State.dutyTurn (s : State) : State :=
  if s.dev.phase = .off || s.now < s.dev.dutyNext then s
  else
    let (n, s) := s.draw
    match execDutyPeriod (Config.measuredPower n) s with
    | .next t => t
    | _ => s

/-- A die's junction reaches 100 °C, or falls below it. -/
def execJunctionThrottlePoint (die : Nat) (hot : Bool) (s : State) : Out :=
  .next (s.onDev fun d =>
    let rest := d.hotDies.filter (· != die)
    if hot then { d with hotDies := rest ++ [die], duty := 4 } else { d with hotDies := rest })

/-- A junction reaches 110 °C: the trip is recorded, and the compute dies and the HBM stacks lose their power. The
cellar, the ports of the partitions and the Keystone stay. -/
def execThermalTrip (s : State) : Out :=
  let parts : Store Partition := mapVals s.parts fun _ q =>
    { ports := q.ports, addrs := q.addrs, weights := q.weights, cellarGiB := q.cellarGiB, cellar := q.cellar
      cellarBad := q.cellarBad }
  let d := { s.dev with
    trip := true, phase := .stopped, ops := [], chunks := [], hops := [], notifySeq := [], unitsOut := [] }
  .next { s.cleared d with parts := parts }

/-! ## Links (R25, R31, R34) -/

/-- An Ultra Ethernet port goes down. RUD and RUDI connections go on over the other ports of their set; a ROD
connection fails when its timer expires, which is a `CONNECTION_TIMEOUT`. -/
def execLinkDown (port : Nat) (s : State) : Out :=
  .next (s.onDev fun d => { d with uePorts := d.uePorts.filter (· != port) })

/-- A port becomes active; in recovery the CXL ports stay down (R15). The zeroing of a withheld region on a CXL port can then
complete (R55). Enumeration is a part of start-up, and the spec does not say that a port that comes up later is enumerated: the
list of expanders stays as start-up made it (DESIGN CHOICE, log 48). -/
def execLinkUp (l : Link) (s : State) : Out :=
  match l with
  | .ue p => .next (s.onDev fun d => { d with uePorts := d.uePorts.filter (· != p) ++ [p] })
  | .cxl p =>
    if s.dev.phase = .recovery then .next s else
    let s := s.onDev fun d => { d with cxlPorts := d.cxlPorts.filter (· != p) ++ [p] }
    .next ((s.dev.far.filter fun f => f.2.port == p && f.2.part.isNone).foldl
      (fun s f => s.post (.farZeroingComplete f.1)) s)

/-- Whether CDELAY holds a copy, or will (R378). -/
def Op.isHeld (o : Op) : Bool := o.hold.isSome || o.holdUntil.isSome

/-- A CXL link leaves the active state: the copies in flight on it end with LINK_DOWN, but for one that CDELAY holds, which
meets the link as it is when it starts (R378). -/
def execCxlLinkDown (port : Nat) (s : State) : Out :=
  let s := s.onDev fun d => { d with cxlPorts := d.cxlPorts.filter (· != port) }
  .next (s.dev.ops.foldl (fun s o => match o.2.kind with
    | .copy src dst len =>
      if o.2.live && !o.2.isHeld && (s.linkLost src || s.linkLost dst) then s.endCopy o.1 o.2 src dst len 2 else s
    | .coll _ => s) s)

/-- A connection fails: its copies and collectives end with PEER_LOST, and so do those that use it later. -/
def execConnectionTimeout (conn : Nat) (s : State) : Out :=
  let s := s.onDev fun d => { d with lost := if d.lost.contains conn then d.lost else d.lost ++ [conn] }
  .next (s.dev.ops.foldl (fun s o => match o.2.kind with
    | .copy src dst len =>
      if o.2.live && !o.2.isHeld && (s.peerLost src || s.peerLost dst) then s.endCopy o.1 o.2 src dst len 3 else s
    | .coll x => if o.2.live then (s.endIfLost o.1 o.2 x [conn]).1 else s) s)

/-- A withheld region has been written with zeros, and becomes assignable (R55). -/
def execFarZeroingComplete (region : Nat) (s : State) : Out :=
  match find s.dev.far region with
  | none => .next s
  | some f =>
    if f.part.isNone && s.dev.cxlPorts.contains f.port then .next (s.onDev fun d => { d with far := del d.far region })
    else .next s

/-! ## Gauges (R21, R22) -/

/-- Sources whose samples the model makes itself, from its own state or at the cycles that R21 names: waits on tokens and on
queues, the translation misses of a core, the staging area, the walks in flight, the latency of placement, the depth of a
conduit queue, and the junction temperature. The others are inputs (log 41). -/
def ownSource (src : Nat) : Bool := [0x02, 0x03, 0x04, 0x05, 0x12, 0x13, 0x14, 0x15].contains src

/-- A gauge takes one sample of the source it watches, of an event of a partition; a disabled one, one set to a source that
is not of its kind, and one that does not see the partition take none. -/
def execGaugeSample (g : GaugeId) (v : GaugeEvent) (s : State) : Out :=
  let x := s.gauge g
  .next (if x.takes g v.part && !ownSource x.src then s.setGauge g (x.sample v.value) else s)

/-- The depth of the conduit queues of a die that a gauge sees. -/
def State.depthFor (s : State) (die : Nat) (x : Gauge) : Nat :=
  ((List.range 12).filter fun p => x.sees (some p)).foldl (fun n p => n + s.queueUsed die p) 0

/-- The walks in flight on a die that a gauge sees: one for each partition and page, at most 64, but for those that have left
their slot until a fetch is over (R114). -/
def State.walksFor (s : State) (die : Nat) (x : Gauge) : Nat :=
  min 64 (((List.range 12).filter fun p => x.sees (some p)).foldl (fun n p =>
    let q := s.partAt p
    let running := q.misses.filter fun m =>
      m.core / 36 == die && !q.fetches.any fun f => f.va / 65536 == m.va / 65536
    n + (running.map fun m => m.va / 65536).eraseDups.length) 0)

/-- Every 256 cycles each die gauge that watches the walker or the conduit queues takes a sample (sources 0x12 and 0x14 of
R21). -/
def State.sampleQueues (s : State) : State :=
  if s.now % 256 ≠ 0 then s
  else s.dev.gauges.foldl (fun s e =>
    let i : GaugeId := .die (e.1 / 32) (e.1 % 32)
    if e.2.control.getLsbD 31 && (e.2.src == 0x12 || e.2.src == 0x14) then
      s.setGauge i (e.2.sample (if e.2.src = 0x12 then s.walksFor (e.1 / 32) e.2 else s.depthFor (e.1 / 32) e.2))
    else s) s

/-- Every 4,096 cycles each core's gauges sample the translation misses of the cycles since the last time (source 0x04 of
R21). -/
def State.sampleMisses (s : State) : State :=
  if s.now % 4096 ≠ 0 then s
  else s.cores.foldl (fun s k => (s.sampleCore k.1 0x04 k.2.misses).onCore k.1 fun k => { k with misses := 0 }) s

/-- Every 65,536 cycles each die gauge that watches the junction temperature takes a sample of it, in °C, a free value: an event
of no partition (source 0x15 of R21; log 41). -/
def State.sampleJunction (s : State) : State :=
  if s.now % 65536 ≠ 0 then s
  else
    let (n, s) := s.draw
    s.dev.gauges.foldl (fun s e =>
      let i : GaugeId := .die (e.1 / 32) (e.1 % 32)
      if e.2.src == 0x15 && e.2.takes i none then s.setGauge i (e.2.sample (Config.junction n (e.1 / 32)).toNat) else s) s

end Sys2Proof.Machine
end

