-- ==== Sys2Proof/Machine/Vestibule.lean ====
section
/-! DEFINITION. The Vestibule's messages to partitions, and attestation (03_vestibule R42-R50; 01_package R17, R18;
02_links R28, R29). -/

namespace Sys2Proof.Machine

/-! ## Headers, classes and delivery modes (R28, R42-R44) -/

/-- The 32 bytes of a header: type, version, body length, tag, and three eight-byte fields (R42). -/
def headerOf (typ version : Byte) (len : Nat) (tag : Word) (a b c : Nat) : List Byte :=
  [typ, version] ++ toLe 2 len ++ toLe 4 tag.toNat ++ toLe 8 a ++ toLe 8 b ++ toLe 8 c

/-- The header of a message that arrives. -/
def headerBytes (m : Msg) : List Byte :=
  headerOf m.typ m.version m.body.length m.tag m.argA.toNat m.argB.toNat m.reserved.toNat

/-- The header of a Vestibule message that the device sends: a reply's repeats the tag and holds the status in byte 8 and the
value in bytes 16 to 23; the tag of one that it sends on its own is `own` (R42-R44). A `WRITE` into a host's memory and a
message of a collective are no Vestibule messages. -/
def Sent.header (own : Word) : Sent → List Byte
  | .reply _ _ tag status typ value body => headerOf typ 1 body.length (BitVec.ofNat 32 tag) status value.toNat 0
  | .notify _ _ value ch seq => headerOf 7 1 0 own value.toNat (ch + 64 * seq) 0
  | .devWrite _ _ _ w off data => headerOf 1 1 data.length own (w * 2 ^ 60 + off) 0 0
  | .devRead _ _ w off len _ => headerOf 2 1 0 own (w * 2 ^ 60 + off) len 0
  | .hostWrite _ _ _ _ _ | .hop _ _ _ _ _ _ _ => []

/-- The class in which a message leaves (R28). A copy to a peer carries its class: 3 for the drain of a checkpoint, and 2 for any
other, to a host's memory too, for which the spec lists no class (DESIGN CHOICE, log 63). -/
def Sent.tc : Sent → Nat
  | .reply _ tc _ _ _ _ _ => tc
  | .notify _ _ _ _ _ => 0
  | .hop _ _ _ _ _ _ _ => 1
  | .hostWrite _ _ tc _ _ | .devWrite _ _ tc _ _ _ => tc
  | .devRead _ _ _ _ _ _ => 2

/-- Its delivery mode, where the spec fixes one: a reply has that of the connection that its message came in on, and a copy
that of the connection that its capability names, but for a drain (R28). -/
def Sent.mode : Sent → Option Mode
  | .notify _ _ _ _ _ => some .rod
  | .hop _ _ _ _ _ _ _ => some .rud
  | .hostWrite _ _ tc _ _ | .devWrite _ _ tc _ _ _ => if tc = 3 then some .rud else none
  | _ => none

/-! ## Arrival and reply (R28, R29, R42-R44) -/

/-- A packet addressed to no endpoint, or in the wrong class or delivery mode. -/
def execPacketDrop (port : Nat) (s : State) : Out := .next (s.dropPacket port)

/-- Whether a partition exists (R52). -/
def Device.hasPart (d : Device) (p : Nat) : Bool := (List.range 12).any fun w => findD d.wings w 0xFF == p

/-- Whether a message reaches the endpoint that it names: its payload is at most 4,096 bytes, its port is active, and the
endpoint is there: the management endpoint on every port, and one of a partition on each port of its set (R15, R27, R29). A
larger packet is no message, and is dropped like one for no endpoint (DEDUCED, log 20). -/
def State.endpointAt (s : State) (m : Msg) : Bool :=
  decide (m.body.length ≤ bodyLimit) && s.dev.uePorts.contains m.port && match m.endpoint with
    | none => decide (m.port < 12)
    | some p => s.dev.hasPart p && (s.partAt p).ports.testBit m.port

/-- Whether a message of a partition's types is accepted: its endpoint, its class and its delivery mode. -/
def State.accepts (s : State) (m : Msg) (tc : Nat) (anyMode : Bool) : Bool :=
  m.endpoint.isSome && s.endpointAt m && m.tc == tc && (anyMode || m.mode == .rod)

/-- One reply, with a value (R44). -/
def State.replyTo (s : State) (m : Msg) (status : Nat) (value : DWord) (body : List Byte) : State :=
  s.send (.reply m.conn m.tc m.tag.toNat status (m.typ ||| 0x80) value body)

/-- One reply whose value field no rule states: a free value (log 3). -/
def State.answer (s : State) (m : Msg) (status : Nat) (body : List Byte) : State :=
  let (n, s) := s.draw
  s.replyTo m status (Config.freeBits n 0) body

/-- The status of the first check that fails (R44). -/
def firstFailure (checks : List (Nat × Bool)) : Option Nat := (checks.find? fun x => !x.2).map Prod.fst

/-- Checks 1, 3 and 4 of R44, from the length rule and the argument rule of a type. -/
def headerChecks (m : Msg) (lenOk argsOk : Bool) : List (Nat × Bool) :=
  [(1, m.version == 1), (2, lenOk), (8, argsOk && m.reserved == 0)]

/-- A type that a partition endpoint does not take is answered BAD_TYPE in any class and mode; at the management
endpoint it is dropped (R29, R43). -/
def execBadType (m : Msg) (s : State) : Out :=
  let known := 1 ≤ m.typ.toNat && decide (m.typ.toNat ≤ 6)
  if known || s.dev.phase == .off then .next s
  else if m.endpoint.isSome && s.endpointAt m then .next (s.answer m 1 [])
  else .next (s.dropPacket m.port)

/-! ## Windows (R45, R46) -/

/-- Window and byte offset of argument A. -/
def windowOf (m : Msg) : Nat := m.argA.toNat / 2 ^ 60
def offsetOf (m : Msg) : Nat := m.argA.toNat % 2 ^ 60

/-- Whether a window is open, allows the access, and holds the range. -/
def Partition.windowOk (q : Partition) (m : Msg) (len : Nat) (wr : Bool) : Bool :=
  let c := (findD q.vwctl (windowOf m) 0).toNat
  bit c 63 && bit c (if wr then 61 else 62) && decide (16 ≤ c % 64) && decide (c % 64 ≤ 40) &&
    decide (offsetOf m + len ≤ 2 ^ (c % 64))

/-- First virtual address of a message's range. -/
def Partition.windowVa (q : Partition) (m : Msg) : Nat :=
  ((findD q.vwbase (windowOf m) 0).toNat / 65536 * 65536 + offsetOf m) % 2 ^ 64

/-- Whether a page allows an access, in HBM or in the cellar. A walk that meets a poisoned table entry allows none: the
spec names no status for it, and the model answers XLATE (DESIGN CHOICE, log 30). -/
def State.pageOk (s : State) (p : Nat) (sup : Bool) (va : Nat) (nd : Need) : Bool :=
  match s.walk p sup va nd with
  | .ok _ _ => true
  | .cel _ _ allowed => allowed
  | .fault _ => false

/-- Whether every page of a range allows an access at job level. -/
def State.rangeOk (s : State) (p va len : Nat) (nd : Need) : Bool :=
  (pages va len).all fun e => s.pageOk p false (e.1 % 2 ^ 64) nd

/-- A Vestibule store to byte 0 of a capability entry resets its number (R50). -/
def State.noteRange (s : State) (p : Nat) (sup : Bool) (va len : Nat) : State :=
  (pages va len).foldl (fun s e => match s.xlateFor p sup (e.1 % 2 ^ 64) needWr with
    | .ok pa => s.noteStore pa e.2.2
    | .error (.fetch q entryPa a) => s.noteStore (s.cellarPlace q entryPa a) e.2.2
    | .error _ => s) s

/-- A `WRITE`: every check, then every word at its home; its reply is then due. -/
def execWrite (m : Msg) (s : State) : Out :=
  if m.typ ≠ 1 || s.dev.phase == .off then .next s
  else if !s.accepts m 2 true then .next (s.dropPacket m.port)
  else
    let p := m.endpoint.getD 0
    let q := s.partAt p
    let n := m.body.length
    let va := q.windowVa m
    match firstFailure (headerChecks m (4 ≤ n && decide (n ≤ 4064) && n % 4 == 0 && offsetOf m % 4 == 0) (m.argB == 0) ++
        [(3, q.windowOk m n true), (4, s.rangeOk p va n needWr)]) with
    | some st => .next (s.answer m st [])
    | none =>
      match (s.noteRange p false va n).writeVia p false va m.body with
      | .error _ => .next (s.answer m 4 [])
      | .ok t => .next ((t.onDev fun d => { d with writesDone := d.writesDone ++ [m] }).post (.writeReply m))

/-- The reply to a `WRITE` whose words are all visible. -/
def execWriteReply (m : Msg) (s : State) : Out :=
  if s.dev.writesDone.contains m then
    .next ((s.onDev fun d => { d with writesDone := d.writesDone.erase m }).replyTo m 0 (dw m.body.length) [])
  else .next s

/-- A `READ`: every check, then every word at its home. -/
def execRead (m : Msg) (s : State) : Out :=
  if m.typ ≠ 2 || s.dev.phase == .off then .next s
  else if !s.accepts m 2 true then .next (s.dropPacket m.port)
  else
    let p := m.endpoint.getD 0
    let q := s.partAt p
    let n := m.argB.toNat
    let va := q.windowVa m
    match firstFailure (headerChecks m
        (m.body.isEmpty && 4 ≤ n && decide (n ≤ 4064) && n % 4 == 0 && offsetOf m % 4 == 0) true ++
        [(3, q.windowOk m n false), (4, s.rangeOk p va n needRd)]) with
    | some st => .next (s.answer m st [])
    | none =>
      match s.readVia p false needRd va (n / 4) with
      | .ok bs => .next ((s.askPages p false needRd va n).answer m 0 bs)
      | .error _ => .next (s.answer m 5 [])

/-! ## Inbox and cancel table (R47, R48) -/

/-- Log of the inbox size, and the address of the control block. -/
def Partition.ilog (q : Partition) : Nat := q.vcb.toNat % 16
def Partition.vcbVa (q : Partition) : Nat := q.vcb.toNat / 4096 * 4096
def Partition.configured (q : Partition) : Bool := q.ilog != 0 && decide (q.ilog < 13)

/-- Eight bytes of the control block as a number; none where they are poisoned. -/
def State.vcbWord (s : State) (p va : Nat) : Option Nat :=
  match s.readVia p true needWr va 2 with
  | .ok bs => some (leNat bs)
  | .error _ => none

/-- Deposit a command in the entry of PI, advance PI and signal the event. Both pages are translated before either is written. -/
def State.deposit (s : State) (p : Nat) (m : Msg) (pi entry : Nat) : State :=
  let base := (s.partAt p).vcbVa
  let s := (s.noteRange p true entry 64).noteRange p true base 8
  match s.placeFor p true base needWr, s.writeVia p true entry m.body with
  | .ok x, .ok s => ((s.placeWrite x.1 (toLe 8 (pi + 1))).addEvent p (m.argA.toNat % 2 ^ 16) 1).replyTo m 0 (dw pi) []
  | _, _ => s.answer m 4 []

/-- The body of a `CMD` whose header is good (R48). The page of the control block, and then that of the entry, is asked for where
its walk finds it in the cellar (R116). -/
def State.runCmd (s : State) (p : Nat) (m : Msg) : State :=
  let q := s.partAt p
  let base := q.vcbVa
  let s := s.askPages p true needWr base 8
  if !s.pageOk p true base needWr then s.answer m 4 []
  else match s.vcbWord p base with
    | none => s.answer m 5 []
    | some pi =>
      let entry := (base + 4096 + 64 * (pi % 2 ^ q.ilog)) % 2 ^ 64
      let s := s.askPages p true needWr entry 64
      if !s.pageOk p true entry needWr then s.answer m 4 []
      else match s.vcbWord p (base + 128) with
        | none => s.answer m 5 []
        | some ci =>
          if 2 ^ q.ilog ≤ (pi + 2 ^ 64 - ci) % 2 ^ 64 then s.answer m 6 [] else s.deposit p m pi entry

def execCmd (m : Msg) (s : State) : Out :=
  if m.typ ≠ 3 || s.dev.phase == .off then .next s
  else if !s.accepts m 0 false then .next (s.dropPacket m.port)
  else
    let p := m.endpoint.getD 0
    match firstFailure (headerChecks m (m.body.length == 64) (m.argA.toNat / 2 ^ 16 == 0 && m.argB == 0) ++
        [(7, (s.partAt p).configured)]) with
    | some st => .next (s.answer m st [])
    | none => .next (s.runCmd p m)

/-- The body of a `CANCEL` whose header is good (R48). -/
def State.runCancel (s : State) (p : Nat) (m : Msg) : State :=
  let base := (s.partAt p).vcbVa
  let slot := m.argA.toNat % 2 ^ 12
  let va := base + 512 + 4 * (slot / 32)
  let s := s.askPages p true needWr base 8
  if !s.pageOk p true base needWr then s.answer m 4 []
  else match (s.noteRange p true va 4).redVia p true va 4 (fun n => n ||| 2 ^ (slot % 32)) with
    | .error _ => s.answer m 5 []
    | .ok s => (s.addEvent p (m.argB.toNat % 2 ^ 16) 1).answer m 0 []

def execCancel (m : Msg) (s : State) : Out :=
  if m.typ ≠ 4 || s.dev.phase == .off then .next s
  else if !s.accepts m 0 false then .next (s.dropPacket m.port)
  else
    let p := m.endpoint.getD 0
    match firstFailure (headerChecks m m.body.isEmpty (m.argA.toNat / 2 ^ 12 == 0 && m.argB.toNat / 2 ^ 16 == 0) ++
        [(7, (s.partAt p).configured)]) with
    | some st => .next (s.answer m st [])
    | none => .next (s.runCancel p m)

/-! ## Attestation (R17, R18) -/

/-- Bytes 0 to 591 of a quote. -/
def State.quoteBody (s : State) (nonce : List Byte) : List Byte :=
  toLe 4 1 ++ toLe 4 0 ++ toLe 16 Config.serial.toNat ++ nonce ++ toLe 4 s.health ++ toLe 4 s.dev.boots ++ s.dev.wingTable ++
    toLe 4 0 ++ (List.range 16).flatMap s.dev.measAt

/-- An `ATTEST` joins the Keystone's queue with the quote of the state as it arrives, or is turned away. -/
def State.takeAttest (s : State) (m : Msg) : State :=
  (s.onDev fun d => { d with quotes := d.quotes ++ [(m, s.quoteBody m.body)] }).post .quote

/-- `ATTEST` requests that the Keystone holds. -/
def Device.attests (d : Device) : Nat := d.quotes.length + (d.keyQueue.filter fun m => m.typ == 5).length

def execAttest (m : Msg) (s : State) : Out :=
  if m.typ ≠ 5 || s.dev.phase == .off then .next s
  else if !s.endpointAt m || m.tc != 0 || m.mode != .rod || s.dev.phase == .recovery then .next (s.dropPacket m.port)
  else
    match firstFailure (headerChecks m (m.body.length == 32) (m.argA == 0 && m.argB == 0) ++
        [(9, decide (s.dev.attests < 8))]) with
    | some st => .next (s.answer m st [])
    | none =>
      if s.dev.destroying.isSome then .next (s.onDev fun d => { d with keyQueue := d.keyQueue ++ [m] })
      else .next (s.takeAttest m)

/-- A quote with its signature, 17,088 bytes, by the key that the fused seed makes (R14, R17). -/
def signedQuote (b : List Byte) : List Byte := b ++ toLe 17088 (Config.signature Config.identitySeed b).toNat

/-- The Keystone serves the oldest request. A quote of R17 is longer than the 4,064 bytes that one packet's body holds (R27,
R42), and the spec does not say how it is carried: the model sends one reply with the whole quote (DESIGN CHOICE, log 20). -/
def execQuote (s : State) : Out :=
  match s.dev.quotes with
  | [] => .next s
  | (m, b) :: rest => .next ((s.onDev fun d => { d with quotes := rest }).answer m 0 (signedQuote b))

end Sys2Proof.Machine
end

