-- ==== Sys2Proof/Machine/Admin.lean ====
section
/-! DEFINITION. The `ADMIN` operations (03_vestibule R52-R55; 01_package R8, R11, R15, R16, R19, R23; 02_links R29, R30,
R33; 04_hall R71). -/

namespace Sys2Proof.Machine

/-! ## Operands (R52, R53) -/

/-- Operation number, argument A above it, and argument B. -/
def opOf (m : Msg) : Nat := m.argA.toNat % 65536
def opA (m : Msg) : Nat := m.argA.toNat / 65536
def opB (m : Msg) : Nat := m.argB.toNat

/-- The partition that a partition operation names. -/
def forPart (m : Msg) : Nat := opA m % 16

/-- Operations served in recovery (R15). -/
def recoveryOps : List Nat := [0x01, 0x30, 0x32, 0x34]

/-- Body lengths of R53, which gives the credential of `SET_AUTHORITY` no size: the model takes any length that a message can
have, an empty body too (DESIGN CHOICE, log 58). -/
def adminLenOk (m : Msg) : Bool :=
  let n := m.body.length
  match opOf m with
  | 0x12 => n == 192
  | 0x14 => n == 128
  | 0x18 | 0x30 => 4 ≤ n && decide (n ≤ 4064) && n % 4 == 0
  | 0x33 => true
  | 0x01 | 0x02 | 0x10 | 0x11 | 0x13 | 0x15 | 0x16 | 0x17 | 0x20 | 0x31 | 0x32 | 0x34 => n == 0
  | _ => true

/-- The cellar that partitions share: 16 TB less 64 GiB, in whole GiB (R8). -/
def cellarMax : Nat := 16000000000000 / 2 ^ 30 - 64

/-- GiB that partitions other than `p` hold. -/
def State.cellarUsed (s : State) (p : Nat) : Nat :=
  s.parts.foldl (fun n q => if q.1 = p then n else n + q.2.cellarGiB) 0

/-- The address of port `k` in a `SET_PORTS` body. -/
def addrIn (m : Msg) (k : Nat) : List Byte := (m.body.drop (16 * k)).take 16

/-- Whether an address of a `SET_PORTS` would repeat another partition's on a port (R29). R29 gives the management endpoint's
own address nowhere, and the model holds none: an address is compared with those of partitions alone (DESIGN CHOICE,
log 58). -/
def State.addrTaken (s : State) (p mask : Nat) (m : Msg) : Bool :=
  (setBits 12 mask).any fun k => s.parts.any fun q =>
    q.1 != p && q.2.ports.testBit k && find q.2.addrs k == some (addrIn m k)

/-- The slots of a `SET_SLUICE` bitmap. -/
def slotsIn (m : Msg) : List Nat := setBits 1024 (leNat m.body)

/-- Bytes received so far of the image that a chunk continues. -/
def State.received (s : State) (m : Msg) : Option Chunks :=
  if opOf m = 0x18 then (s.partAt (forPart m)).disp else s.dev.fwPart

/-- Whether a chunk is in sequence: it starts an image, or carries on at its end (R53). A dispatcher image must fit
S's instruction memory (log 29). -/
def State.inSequence (s : State) (m : Msg) : Bool :=
  let off := opB m % 2 ^ 48
  let next := off == 0 || (s.received m).map (fun c => c.bytes.length) == some off
  next && (opOf m != 0x18 || decide (off + m.body.length ≤ 65536))

/-- The operand rules of R52 and R53. -/
def State.adminArgsOk (s : State) (m : Msg) : Bool :=
  let a := opA m
  let b := opB m
  let p := forPart m
  let there := decide (p < 12) && s.dev.hasPart p
  (s.dev.phase != .recovery || recoveryOps.contains (opOf m)) &&
  match opOf m with
  | 0x01 | 0x02 | 0x31 | 0x32 | 0x33 => a == 0 && b == 0
  | 0x10 => decide (a < 12) && !s.dev.hasPart p && b != 0 && decide (b < 4096) &&
      (setBits 12 b).all fun w => findD s.dev.wings w 0xFF == 0xFF
  | 0x11 => decide (a < 16) && b == 0 && there
  | 0x12 => decide (a < 2 ^ 16) && b == 0 && there && a / 16 != 0 && !s.addrTaken p (a / 16) m
  | 0x13 => decide (a < 2 ^ 8) && there && decide (a / 16 < 12) && 1 ≤ b && decide (b ≤ 255)
  | 0x14 => decide (a < 16) && b == 0 && there && (slotsIn m).all fun i => findD s.dev.sluice i p == p
  | 0x15 => decide (a < 16) && there && !(s.partAt p).clkEn && decide (s.cellarUsed p + b ≤ cellarMax)
  | 0x16 => decide (a < 2 ^ 28) && fld a 5 11 == 0 && there && b % 65536 == 0 &&
      (match find s.dev.far (fld a 16 12) with
        | none => b != 0
        | some f => b == 0 && f.part == some p)
  | 0x17 => decide (a < 2 ^ 7) && (b == 0xFF || (decide (b < 12) && s.dev.hasPart b))
  | 0x18 => decide (a < 16) && there && fld b 48 15 == 0
  | 0x20 => a == 0 && 1200 ≤ b && decide (b ≤ 2900) && (b - 1200) % 25 == 0
  | 0x30 => a == 0 && fld b 48 15 == 0
  | 0x34 => a == 0 && decide (b < 2) && (if b = 1 then s.dev.slotB else s.dev.slotA).valid
  | _ => false

/-! ## Effects -/

/-- A new partition on the wings of a mask (R54). -/
def State.createPart (s : State) (p mask : Nat) : State :=
  let s := s.setPart p {}
  s.onDev fun d =>
    let d := { d with wings := (setBits 12 mask).foldl (fun m w => put m w p) d.wings }
    { d with meas := put d.meas (4 + p) (List.replicate 32 0) }.extendLayout

/-- The dispatcher's boundaries, which no record gives (log 18). -/
def dispBound : Nat := 8192

/-- The dispatcher job of an image: one core at supervisor level (R54). -/
def dispatcherJob (image : List Byte) : Job :=
  { prio := 0, n := 1, affinity := 0, images := [], shared := true, bndV := dispBound, bndS := dispBound, bndP := dispBound
    tokens := [], ctxVa := 0, stateVa := 0, params := [], waits := [], compl := none, residents := []
    launchSup := true, sup := true, capbase := 0, state := 2, idx := [(0, {})], disp := wordsOf image }

/-- The Hall starts a dispatcher image as a job of its own number (R54). -/
def State.startDispatcher (s : State) (p : Nat) (image : List Byte) : State :=
  let j := 2 ^ 32 + ((s.partAt p).jobs.filter fun b => !b.2.disp.isEmpty).length
  (s.setJob p j (dispatcherJob image)).readyJob p j

/-- The last chunk of a dispatcher image: it is measured and started. -/
def State.finishDisp (s : State) (p : Nat) (image : List Byte) : State :=
  let s := (s.onPart p fun q => { q with disp := none }).onDev fun d => d.extend (4 + p) (sha256 image)
  s.startDispatcher p image

/-- The last chunk of a firmware image: verified, it becomes the preferred slot; else its slot is left not valid. -/
def State.finishFw (s : State) (image : List Byte) : State × Bool :=
  let x := slotOf image
  let toB := s.dev.phase != .recovery && !s.dev.selectedB
  let d := { s.dev with fwPart := none }
  let w (y : Slot) : Device := if toB then { d with slotB := y } else { d with slotA := y }
  if x.valid then ({ s with dev := { w x with preferB := toB } }, true) else ({ s with dev := w .erased }, false)

/-- A chunk in sequence (R53). -/
def State.takeChunk (s : State) (m : Msg) : State :=
  let before := if opB m % 2 ^ 48 = 0 then [] else ((s.received m).map Chunks.bytes).getD []
  let image := before ++ m.body
  let ok (s : State) : State := s.replyTo m 0 (dw image.length) []
  let last := bit (opB m) 63
  if opOf m = 0x18 then
    if last then ok (s.finishDisp (forPart m) image)
    else ok (s.onPart (forPart m) fun q => { q with disp := some ⟨image⟩ })
  else if last then
    let r := s.finishFw image
    if r.2 then ok r.1 else r.1.answer m 8 []
  else ok (s.onDev fun d => { d with fwPart := some ⟨image⟩ })

/-- A chunk out of sequence discards the partial image. -/
def State.dropChunks (s : State) (m : Msg) : State :=
  if opOf m = 0x18 then s.onPart (forPart m) fun q => { q with disp := none }
  else if opOf m = 0x30 then s.onDev fun d => { d with fwPart := none }
  else s

/-- Ports and endpoint addresses (R29). -/
def State.setPorts (s : State) (p mask : Nat) (m : Msg) : State :=
  s.onPart p fun q => { q with
    ports := mask
    addrs := (setBits 12 mask).foldl (fun x k => put x k (addrIn m k)) [] }

/-- A far region created, or released when its size is 0 (R33). -/
def State.setFarRegion (s : State) (p : Nat) (m : Msg) : State :=
  let r := fld (opA m) 16 12
  let f : Far := { port := num (bit (opA m) 4), part := some p, size := opB m }
  s.onDev fun d => { d with far := if opB m = 0 then del d.far r else put d.far r f }

/-- Clear the health record; retired cores are back in service (R23). A running core keeps the failure that retired it: whether
its outstanding trap is then still unhandled and ends the job CORE_RETIRED the spec does not say, and here it does (DESIGN
CHOICE, log 14). -/
def State.clearRecord (s : State) : State :=
  let s := s.onDev fun d => { d with failures := [], retired := [], trip := false }
  s.parts.foldl (fun s q => s.post (.placement q.1)) s

/-! ## Destruction (R55) -/

/-- Entries of a table of `n` entries that are not zero, but for poisoned ones, at which a walk ends. -/
def State.tableEntries (s : State) (t n : Nat) : List Nat :=
  let idx := (s.mem.filter fun c => t ≤ c.1 && c.1 < t + 8 * n).map fun c => (c.1 - t) / 8
  ((idx.eraseDups.map fun i => s.homeRead (t + 8 * i) 8).filter fun r => !r.2).map fun r => leNat r.1

/-- The pages that a table maps, by physical address and size, with the checks of a walk (R112); a page with SPILL lies in the
cellar or in a frame of the cellar's pool, which is zeroed as a whole. -/
def State.leaves (s : State) : List (Nat × Nat × Nat × Nat × Nat) → Nat → List (Nat × Nat)
  | [], _ => []
  | (lvl, _, n, align, size) :: rest, t =>
    (s.tableEntries t (2 ^ n)).flatMap fun e =>
      let a := fld e 8 40 * 256
      if !bit e 0 || fld e 48 16 != 0 || bit e 7 then []
      else if bit e 1 then (if lvl == 1 || bit e 5 || a % size != 0 || hbmEnd < a + size then [] else [(a, size)])
      else if lvl == 4 || a % align != 0 then []
      else s.leaves rest a

/-- Everything in HBM that holds a partition's data: its pages, its frames, its patch pages and its Pool store. -/
def State.partRanges (s : State) (p : Nat) : List (Nat × Nat) :=
  let q := s.partAt p
  let pool (v : Nat) : Nat × Nat := (fld v 16 28 * 65536, fld v 44 20 * 65536)
  (if bit q.ptroot.toNat 0 then s.leaves tableLevels (fld q.ptroot.toNat 21 27 * 2 ^ 21) else []) ++
    (if q.clkEn then [pool q.clkpool.toNat] else []) ++
    (if bit q.ppool.toNat 0 then [pool q.ppool.toNat] else []) ++
    (if bit q.sxpool.toNat 0 then [pool q.sxpool.toNat] else [])

/-- The cores of a partition's wings. -/
def State.wingCores (s : State) (p : Nat) : List Nat := (List.range 144).filter fun c => s.partOf c == p

/-- Every hold of a partition's copies ends at once (R378). -/
def State.endHolds (s : State) (p : Nat) : State :=
  (s.dev.ops.filter fun o => o.2.part == p && o.2.isHeld).foldl (fun s o =>
    (s.setOp o.1 { o.2 with hold := none, holdUntil := none }).wake (o.2.core / 36) p) s

/-- Steps 1 and 2: no endpoint is left, and every job is stopped with nothing saved. -/
def State.beginDestroy (s : State) (p : Nat) (m : Msg) : State :=
  let s := (s.wingCores p).foldl (fun s c =>
    ((s.performOwn c).evictAll c).onCore c fun k =>
      { k.discardAll with run := .idle, yieldAt := none, kwait := none, kept := [], stopping := none }) s
  let s := s.onPart p fun q => { q with ports := 0, jobs := [], waiters := [], arrivals := [], misses := [] }
  (s.endHolds p).onDev fun d => { d with destroying := some m }

/-- What a destruction waits for: the partition's copies and collectives, and the replies to messages accepted before it, quotes
among them. -/
def State.destroyWaits (s : State) (p : Nat) : Bool :=
  (s.dev.ops.any fun o => o.2.part == p) || (s.dev.writesDone.any fun w => w.endpoint == some p) ||
    s.dev.quotes.any fun x => x.1.endpoint == some p

/-- Keyed by places, the entries that do not lie in a partition's ranges or in its cellar. -/
def outside (p : Nat) (ranges : List (Nat × Nat)) (m : Store Nat) : Store Nat :=
  m.filter fun e => !(slotPlace p 0 ≤ e.1 && e.1 < slotPlace (p + 1) 0) && !ranges.any fun r => r.1 ≤ e.1 && e.1 < r.1 + r.2

/-- Step 4: zeros over the basins and over every range of the partition; an entry of a capability table that comes to lie there
has never been used (R50). -/
def State.zeroPart (s : State) (p : Nat) : State :=
  let ranges := s.partRanges p
  let s := ranges.foldl (fun s r => s.bulkWrite none r.1 (min r.2 (hbmEnd - r.1)) [] []) s
  let s := s.onDev fun d => { d with notifySeq := outside p ranges d.notifySeq, unitsOut := outside p ranges d.unitsOut }
  (s.wingCores p).foldl (fun s c => s.onCore c fun k =>
    { gauges := k.gauges, freezeFrom := k.freezeFrom, freezeEnd := k.freezeEnd, residue := k.residue, misses := k.misses }) s

/-- The far regions once `p` is gone: each has been zeroed and is free, or is withheld while its port is down. -/
def Device.farWithout (d : Device) (p : Nat) : Store Far :=
  (d.far.filter fun f => f.2.part != some p || !d.cxlPorts.contains f.2.port).map fun f =>
    if f.2.part = some p then (f.1, { f.2 with part := none }) else f

/-- Steps 5 to 7: resources and registers released, wings free, M3 extended. -/
def State.releasePart (s : State) (p : Nat) : State :=
  let s := { s with parts := del s.parts p }
  s.onDev fun d =>
    let d := { d with
      sluice := d.sluice.filter fun e => e.2 != p
      gauges := mapVals d.gauges fun _ g => if g.owner = some p then {} else g
      far := d.farWithout p
      rounds := d.rounds.filter fun r => r.part != p
      chunks := d.chunks.filter fun m => m.part != p
      evCache := d.evCache.filter fun x => x.1 != p
      wings := d.wings.filter fun e => e.2 != p }
    d.extendLayout

/-! ## One operation -/

/-- The effect of an operation whose checks have passed, with its reply. -/
def State.adminEffect (s : State) (m : Msg) : State :=
  let p := forPart m
  let ok (s : State) : State := s.answer m 0 []
  match opOf m with
  | 0x01 => s.replyTo m 0 (dw s.health) []
  | 0x02 => s.answer m 0 (toLe 32 (Config.publicKey Config.identitySeed).toNat)
  | 0x10 => ok (s.createPart p (opB m))
  | 0x11 => s.beginDestroy p m
  | 0x12 => ok (s.setPorts p (opA m / 16) m)
  | 0x13 => ok (s.onPart p fun q => { q with weights := put q.weights (opA m / 16) (opB m) })
  | 0x14 => ok (s.onDev fun d => { d with
      sluice := (slotsIn m).foldl (fun x i => put x i p) (d.sluice.filter fun e => e.2 != p) })
  | 0x15 => ok (s.onPart p fun q => { q with cellarGiB := opB m, cellar := [], cellarBad := [] })
  | 0x16 => ok (s.setFarRegion p m)
  | 0x17 => ok (s.onDev fun d =>
      let g := findD d.gauges (opA m) {}
      { d with gauges := put d.gauges (opA m) { g with owner := if opB m = 0xFF then none else some (opB m) } })
  | 0x18 | 0x30 => s.takeChunk m
  | 0x20 => ok (s.onDev fun d => { d with powerLimit := opB m })
  | 0x31 => ok s.clearRecord
  | 0x32 => (ok s).startUp
  | 0x33 => ok (s.onDev fun d => { d with credential := m.body })
  | 0x34 => ok (s.onDev fun d => { d with preferB := opB m == 1 })
  | _ => s.answer m 8 []

/-- One operation in the order of R44. Whether a message comes from the management authority is the connection's own, an input:
the spec does not say how a connection is bound to a credential, nor what `SET_AUTHORITY` does to connections already bound;
the model lets them stay as they are (DESIGN CHOICE, log 58). -/
def State.adminRun (s : State) (m : Msg) : State :=
  let chunk := opOf m == 0x18 || opOf m == 0x30
  match firstFailure [(1, m.version == 1), (0x0A, m.auth && m.endpoint.isNone), (2, adminLenOk m),
      (8, m.reserved == 0 && s.adminArgsOk m)] with
  | some st => s.answer m st []
  | none => if chunk && !s.inSequence m then (s.dropChunks m).answer m 8 [] else s.adminEffect m

/-- The Keystone takes an `ADMIN` operation or an accepted `ATTEST` in arrival order: behind a destruction under way,
it waits (R18). -/
def State.keystone (s : State) (m : Msg) : State :=
  if s.dev.destroying.isSome then s.onDev fun d => { d with keyQueue := d.keyQueue ++ [m] }
  else if m.typ == 5 then s.takeAttest m
  else s.adminRun m

/-- An `ADMIN` message of operation `op` arrives. -/
def adminEvent (op : Nat) (m : Msg) (s : State) : Out :=
  if m.typ ≠ 6 || opOf m ≠ op || s.dev.phase == .off then .next s
  else if !s.endpointAt m || m.tc != 0 || m.mode != .rod then .next (s.dropPacket m.port)
  else .next (s.keystone m)

def execHealth (m : Msg) (s : State) : Out := adminEvent 0x01 m s
def execIdkey (m : Msg) (s : State) : Out := adminEvent 0x02 m s
def execPartCreate (m : Msg) (s : State) : Out := adminEvent 0x10 m s
def execSetPorts (m : Msg) (s : State) : Out := adminEvent 0x12 m s
def execSetWeight (m : Msg) (s : State) : Out := adminEvent 0x13 m s
def execSetSluice (m : Msg) (s : State) : Out := adminEvent 0x14 m s
def execSetCellar (m : Msg) (s : State) : Out := adminEvent 0x15 m s
def execSetFar (m : Msg) (s : State) : Out := adminEvent 0x16 m s
def execSetGauge (m : Msg) (s : State) : Out := adminEvent 0x17 m s
def execLoadDisp (m : Msg) (s : State) : Out := adminEvent 0x18 m s
def execSetPower (m : Msg) (s : State) : Out := adminEvent 0x20 m s
def execFwUpdate (m : Msg) (s : State) : Out := adminEvent 0x30 m s
def execClearHealth (m : Msg) (s : State) : Out := adminEvent 0x31 m s
def execReset (m : Msg) (s : State) : Out := adminEvent 0x32 m s
def execSetAuthority (m : Msg) (s : State) : Out := adminEvent 0x33 m s
def execFwPrefer (m : Msg) (s : State) : Out := adminEvent 0x34 m s

/-- The destruction under way goes on: it waits for the partition's copies, collectives and replies, and then runs to its
own reply; the messages behind it follow. -/
def State.goOnDestroy (s : State) (m : Msg) : State :=
  let p := forPart m
  if s.destroyWaits p then s
  else
    let s := ((s.zeroPart p).releasePart p).answer m 0 []
    let queue := s.dev.keyQueue
    queue.foldl State.keystone (s.onDev fun d => { d with destroying := none, keyQueue := [] })

def execPartDestroy (m : Msg) (s : State) : Out := adminEvent 0x11 m s

/-- Whether R52 lists an operation. -/
def listedOp (n : Nat) : Bool :=
  [0x01, 0x02, 0x10, 0x11, 0x12, 0x13, 0x14, 0x15, 0x16, 0x17, 0x18, 0x20, 0x30, 0x31, 0x32, 0x33, 0x34].contains n

/-- An operation that R52 does not list. -/
def execUnlistedOperation (m : Msg) (s : State) : Out :=
  if listedOp (opOf m) then .next s else adminEvent (opOf m) m s

end Sys2Proof.Machine
end

