-- ==== Sys2Proof/Machine/Matrix.lean ====
section
/-! DEFINITION. The matrix engine's instructions (18_matrix R319-R332) and the arithmetic of its step (10_numbers
R178-R182). -/

namespace Sys2Proof.Machine

/-! ## How M reads stream registers (R322) -/

/-- Offset of tile `m` of `b` bytes, folded into the ring. -/
def QReg.tileOff (q : QReg) (b m : Nat) : Nat :=
  let o := q.off + m * b
  if q.geomHi ≠ 0 && decide (q.geomLo ≤ o) then q.geomLo + (o - q.geomLo) % q.geomHi else o

/-- A tile at or above the ring's start lies within the ring. -/
def QReg.inRing (q : QReg) (b o : Nat) : Bool :=
  q.geomHi == 0 || decide (o < q.geomLo) || decide (o + b ≤ q.geomLo + q.geomHi)

/-- Whether the operand has a scale byte for each tile. -/
def QReg.hasScale (q : QReg) (t : Ty) : Bool :=
  isMx t || ((t == .e2m1 || t == .e4m3 || t == .e5m2) && q.scaleOff != 0)

/-- `BASIN_RANGE` of `n` tiles and `m` scale bytes, tiles first. -/
def Core.tilesCheck (k : Core) (q : QReg) (b n m : Nat) : Res Unit := do
  (List.range n).forM fun i =>
    let o := q.tileOff b i
    check (k.inScratch o b && q.inRing b o) cBasin (dw o)
  (List.range m).forM fun i => k.rangeCheck (q.scaleOff + i) 1

/-- `DATA_POISON` of tiles and scale bytes. -/
def Core.tilesClean (k : Core) (q : QReg) (b : Nat) (tiles scales : List Nat) : Res Unit := do
  tiles.forM fun i => k.poisonCheck (q.tileOff b i) b
  scales.forM fun i => k.poisonCheck (q.scaleOff + i) 1

/-! ## Accumulators (R319, R90) -/

/-- A cell of an accumulator. -/
def Acc.cell (a : Acc) (i j : Nat) : Nat := (a.cells.getD (64 * i + j) 0).toNat

/-- The accumulator that a write goes to: the one named, or its twin during run-ahead. -/
def Engine.accDest (e : Engine) (a : Nat) (sh : Bool) : Res Nat :=
  if e.spec.isEmpty then .ok (if sh then 8 + a else a)
  else if sh || (e.spec.dropLast.any fun it => it.accs.contains a) then .error (.wait 0)
  else .ok (8 + a)

/-- The accumulator that holds the value to work on: the first speculative write starts from the main one. -/
def Engine.accSrc (e : Engine) (a : Nat) (sh : Bool) : Nat :=
  match e.spec.getLast? with
  | none => if sh then 8 + a else a
  | some it => if it.accs.contains a then 8 + a else a

/-- Write an accumulator at retirement; `sat` tells that a step clamped (R181, R320, R321). -/
def Core.putAcc (k : Core) (dest a : Nat) (x : Acc) (sat : Bool) : Core :=
  let k := { k with acc := put k.acc dest x }
  if k.strM.spec.isEmpty then { k with asat := k.asat || sat }
  else { k with strM := k.strM.onIter fun it => { it with
    accs := if it.accs.contains a then it.accs else it.accs ++ [a], sat := it.sat || sat } }

/-! ## The step (R179-R181) -/

/-- Scale of a block as a power of two. -/
def scaleVal (s : Nat) (v : Val) : Val := v.scale ((s : Int) - 127)

/-- The canonical NaN of a step. -/
def stepNan : Nat := 0x7FC00000

/-- trunc(x, 2^u) in units of 2^u. -/
def truncUnits (u : Int) : Val → Int
  | .fin s m e => if s then -(trunc m (e - u) : Nat) else (trunc m (e - u) : Nat)
  | _ => 0

/-- The windowed sum of finite products. -/
def windowSum (prs : List Val) : Val :=
  match (prs.filterMap Val.logAbs).foldl (fun (a : Option Int) l => match a with
    | none => some l
    | some b => some (max b l)) none with
  | none => .fin false 0 0
  | some emax =>
    let u := emax - 47
    intVal (prs.foldl (fun z p => z + truncUnits u p) 0) u

/-- One cell of an FP32 step. -/
def fpCell (sa sb : Nat) (acc : Nat) (as bs : List Val) : Nat :=
  let prs := as.zipWith Val.mul bs
  if sa = 0xFF || sb = 0xFF || as.contains .nan || bs.contains .nan || prs.contains .nan ||
      (prs.contains (.inf false) && prs.contains (.inf true)) then stepNan
  else if prs.contains (.inf false) then rne32 ((valOf .f32 acc).add (.inf false))
  else if prs.contains (.inf true) then rne32 ((valOf .f32 acc).add (.inf true))
  else rne32 ((valOf .f32 acc).add (scaleVal sa (scaleVal sb (windowSum prs))))

/-- One cell of an I32 step, and whether it clamped. -/
def intCell (acc : Nat) (as bs : List Int) : Nat × Bool :=
  let z := (as.zipWith (· * ·) bs).foldl (· + ·) (signed 32 acc)
  let c := clampInt (-(2 ^ 31 : Nat)) ((2 ^ 31 : Nat) - 1) z
  (wrap 32 c, c != z)

/-- The rows of a tile under a stream register's transposition: 32 rows of 32 codes. -/
def tileRows (xpose : Bool) (w d : Nat) : List (List Nat) :=
  let xs := (unpackElems w 1024 d).toArray
  (List.range 32).map fun r => (List.range 32).map fun c => xs.getD (if xpose then c * 32 + r else r * 32 + c) 0

/-- Rows of a matrix turned into columns. -/
def columns (rows : List (List Nat)) : List (List Nat) :=
  let m := (rows.map List.toArray).toArray
  (List.range 32).map fun c => (List.range 32).map fun r => (m.getD r #[]).getD c 0

/-- The operands of one step: 96 rows of A and 64 columns of B as codes, and the five scales. -/
structure StepIn where
  rows : List (List Nat)
  cols : List (List Nat)
  sa : List Nat
  sb : List Nat
  deriving DecidableEq, Repr

/-- A tile of an operand. -/
def Core.operandTile (k : Core) (q : QReg) (t : Ty) (m : Nat) : List (List Nat) :=
  tileRows (bit q.xpose.toNat 0) (width t) (leNat (k.getBasin (q.tileOff (tileBytes t) m) (tileBytes t)))

/-- A scale of an operand (R322). -/
def Core.operandScale (k : Core) (q : QReg) (t : Ty) (m : Nat) : Nat :=
  if q.hasScale t then leNat (k.getBasin (q.scaleOff + m) 1) else 0x7F

/-- The operands of step `s` (R324). -/
def Core.stepIn (k : Core) (qa qb : QReg) (ta tb : Ty) (s : Nat) : StepIn :=
  { rows := (List.range 3).flatMap fun r => k.operandTile qa ta (3 * s + r)
    cols := (List.range 2).flatMap fun c => columns (k.operandTile qb tb (2 * s + c))
    sa := (List.range 3).map fun r => k.operandScale qa ta (3 * s + r)
    sb := (List.range 2).map fun c => k.operandScale qb tb (2 * s + c) }

/-- One step on an accumulator, and whether it clamped. -/
def Acc.step (a : Acc) (ta tb : Ty) (x : StepIn) : Acc × Bool :=
  if a.i32 then
    let rs := x.rows.map fun r => r.map (signed (width ta))
    let cs := x.cols.map fun c => c.map (signed (width tb))
    let out := rs.zipIdx.flatMap fun r => cs.zipIdx.map fun c => intCell (a.cell r.2 c.2) r.1 c.1
    ({ a with cells := out.map fun o => BitVec.ofNat 32 o.1 }, out.any Prod.snd)
  else
    let rs := x.rows.map fun r => r.map (valOf ta)
    let cs := x.cols.map fun c => c.map (valOf tb)
    let cell (i j : Nat) (r c : List Val) : Nat := fpCell (x.sa.getD (i / 32) 0) (x.sb.getD (j / 32) 0) (a.cell i j) r c
    let out := rs.zipIdx.flatMap fun r => cs.zipIdx.map fun c => BitVec.ofNat 32 (cell r.2 c.2 r.1 c.1)
    ({ a with cells := out }, false)

/-- Steps from `s`, in order. -/
def Core.mmaSteps (k : Core) (qa qb : QReg) (ta tb : Ty) : Nat → Nat → Acc × Bool → Acc × Bool
  | 0, _, a => a
  | n + 1, s, a =>
    let r := a.1.step ta tb (k.stepIn qa qb ta tb s)
    k.mmaSteps qa qb ta tb n (s + 1) (r.1, a.2 || r.2)

/-! ## `mma` (R323-R325) -/

/-- The formats of R178. -/
def stepTy : Ty → Bool
  | .e2m1 | .e4m3 | .e5m2 | .mx4 | .mx6 | .mx8 | .bf16 | .f16 => true
  | _ => false

/-- What an `mma` that passes its checks at issue works on. -/
structure MmaPlan where
  dest : Nat
  start : Acc
  ta : Ty
  tb : Ty
  sca : Bool
  scb : Bool

/-- The checks of R325 up to `BASIN_RANGE`, and that of a poisoned destination. -/
def mmaPlan (a : Fin 8) (sh : Bool) (qa qb : QReg) (n : Nat) (k : Core) : Res MmaPlan := do
  let dest ← k.strM.accDest a sh
  let x := k.accAt (k.strM.accSrc a sh)
  let ta ← fmtTy qa
  let tb ← fmtTy qb
  check (stepTy ta && stepTy tb && (!x.i32 || (isMx ta && isMx tb))) cFormat 0
  alignCheck qa.off 32
  alignCheck qb.off 32
  let sca := !x.i32 && qa.hasScale ta
  let scb := !x.i32 && qb.hasScale tb
  k.tilesCheck qa (tileBytes ta) (3 * n) (if sca then 3 * n else 0)
  k.tilesCheck qb (tileBytes tb) (2 * n) (if scb then 2 * n else 0)
  check (!x.bad) cPoison 0
  pure ⟨dest, x, ta, tb, sca, scb⟩

/-- `DATA_POISON` of step `s`. -/
def MmaPlan.clean (p : MmaPlan) (qa qb : QReg) (k : Core) (s : Nat) : Res Unit := do
  let as := (List.range 3).map (3 * s + ·)
  let bs := (List.range 2).map (2 * s + ·)
  k.tilesClean qa (tileBytes p.ta) as (if p.sca then as else [])
  k.tilesClean qb (tileBytes p.tb) bs (if p.scb then bs else [])

/-- What the steps of a word meet (R182, R325): how many run, the replays among them, and the stop of the one that fails. -/
structure StepsMet where
  ran : Nat := 0
  replays : Nat := 0
  stop : Option Stop := none

/-- The steps from `s`, with the residue mismatches that each meets: 1 is replayed, 2 fails the word. -/
def MmaPlan.meets (p : MmaPlan) (qa qb : QReg) (k : Core) : Nat → Nat → List Nat → StepsMet
  | 0, _, _ => {}
  | n + 1, s, rs =>
    match p.clean qa qb k s with
    | .error e => { stop := some e }
    | .ok _ =>
      let r := rs.headD 0
      if 2 ≤ r then { ran := 1, replays := 1, stop := some (.trap cSdcMatrix 0 none) }
      else
        let m := p.meets qa qb k n (s + 1) rs.tail
        { m with ran := m.ran + 1, replays := m.replays + r }

/-- The stream registers of an `mma`: q0 to q7, and q8 to q15. -/
def mmaA (qa : Fin 8) : Fin 16 := qa.castLE (by decide)
def mmaB (qb : Fin 8) : Fin 16 := Fin.ofNat 16 (8 + qb.val)

/-- The steps that an `mma` of core `c` would run now; none where it does not pass its checks at issue. -/
def Core.stepsMet (k : Core) (p : EPre) (a : Fin 8) (sh : Bool) (qa qb : Fin 8) (n : Nat) : Option StepsMet :=
  let ra := k.strM.qr (mmaA qa)
  let rb := k.strM.qr (mmaB qb)
  if (k.strM.g p.g != p.neg) && (k.takeStop .M p.tok).isNone && (k.strM.aheadStop none p.tok).isNone then
    match mmaPlan a sh ra rb n k with
    | .ok x => some (x.meets ra rb k n 0 k.residue)
    | .error _ => none
  else none

/-- `mma`; `stop` is what stops one of its steps. -/
def mmaBody (a : Fin 8) (sh : Bool) (qa qb : Fin 8) (n : Nat) (stop : Option Stop) (c : Nat) (s : State) : Res State := do
  let k := s.coreAt c
  let ra := k.strM.qr (mmaA qa)
  let rb := k.strM.qr (mmaB qb)
  let p ← mmaPlan a sh ra rb n k
  match stop with
  | some e => .error e
  | none =>
    let r := k.mmaSteps ra rb p.ta p.tb n 0 (p.start, false)
    let s := s.onCore c fun k => k.putAcc p.dest a r.1 r.2
    pure (s.advances c .M [(mmaA qa, .basin), (mmaB qb, .basin)])

/-- The steps of a word have run: each residue mismatch was replayed and is counted, and a second one is charged to the core,
whatever becomes of the word (R182, R320, R325). The mismatches themselves are an input (log 13). -/
def State.residueMet (s : State) (c : Nat) (m : StepsMet) : State :=
  let s := s.onCore c fun k => { k with residue := k.residue.drop m.ran, replays := min (k.replays + m.replays) 0xFFFF }
  if m.stop = some (.trap cSdcMatrix 0 none) then s.charge c .matrix else s

def execMma (p : EPre) (a : Fin 8) (sh : Bool) (qa qb : Fin 8) (rep : BitVec 8) (s : State) : Out :=
  let n := rep.toNat + 1
  let m := (s.coreAt s.core).stepsMet p a sh qa qb n
  let s' := match m with
    | some m => s.residueMet s.core m
    | none => s
  runE .M p none (qsrcs s .M [mmaA qa, mmaB qb]) (mmaBody a sh qa qb n (m.bind StepsMet.stop)) s'

/-! ## `mzero`, `mlda` (R327, R328) -/

def execMzero (p : EPre) (a : Fin 8) (sh i32 : Bool) (s : State) : Out :=
  runE .M p none [] (fun c s => do
    let dest ← (s.coreAt c).strM.accDest a sh
    pure (s.onCore c fun k => k.putAcc dest a { i32 := i32 } false)) s

/-- Cells of an accumulator from six tiles of 1,024 words (R328). -/
def cellsOfTiles (tiles : List (List Nat)) : List Word :=
  let ts := (tiles.map List.toArray).toArray
  (List.range 6144).map fun x =>
    let i := x / 64
    let j := x % 64
    BitVec.ofNat 32 ((ts.getD (2 * (i / 32) + j / 32) #[]).getD (i % 32 * 32 + j % 32) 0)

def mldaBody (a : Fin 8) (sh : Bool) (qa : Fin 16) (c : Nat) (s : State) : Res State := do
  let k := s.coreAt c
  let q := k.strM.qr qa
  let dest ← k.strM.accDest a sh
  let f ← fmtTy q
  check (f == .f32 || f == .i32) cFormat 0
  alignCheck q.off 32
  k.tilesCheck q 4096 6 0
  k.tilesClean q 4096 (List.range 6) []
  let tiles := (List.range 6).map fun j => k.wordsAt (q.tileOff 4096 j) 1024
  let s := s.onCore c fun k => k.putAcc dest a { i32 := f == .i32, cells := cellsOfTiles tiles } false
  pure (s.advances c .M [(qa, .basin)])

def execMlda (p : EPre) (a : Fin 8) (sh : Bool) (qa : Fin 16) (s : State) : Out :=
  runE .M p none (qsrcs s .M [qa]) (mldaBody a sh qa) s

/-! ## `msta`, `mret` (R329) -/

/-- The 1,024 cells of tile `j` of an accumulator's image, in element order. -/
def Acc.block (a : Acc) (j : Nat) : List Nat :=
  let cs := a.cells.toArray
  (List.range 1024).map fun e => (cs.getD (64 * (32 * (j / 2) + e / 32) + 32 * (j % 2) + e % 32) 0).toNat

/-- A block of cells in a format: its scale and its codes. -/
def accTile (i32 : Bool) (t : Ty) (xs : List Nat) : Nat × List Nat :=
  let v (x : Nat) : Val := if i32 then intVal (signed 32 x) 0 else valOf .f32 x
  if isMx t then mxPack t (xs.map v)
  else if (t == .f32 && !i32) || (t == .i32 && i32) then (0, xs)
  else (0, xs.map fun x => convert t false (v x))

/-- Write an accumulator's image in a format: of each block the scale, then the elements (R329). -/
def Core.putImage (k : Core) (q : QReg) (t : Ty) (x : Acc) : Core :=
  (List.range 6).foldl (fun k j =>
    let r := accTile x.i32 t (x.block j)
    let k := if isMx t then k.putBasin (q.scaleOff + j) (toLe 1 r.1) else k
    k.putBasin (q.tileOff (tileBytes t) j) (tileOfElems t r.2)) k

/-- M has retired an `mret` or `msta`: a hard pre-emption stops it here (R194). -/
def Core.accRetired (k : Core) : Core := { k with mStop := k.mStop || k.run == .preempting }

def mstaBody (src : Nat) (clear : Bool) (qa : Fin 16) (t : Ty) (c : Nat) (s : State) : Res State := do
  let k := s.coreAt c
  let q := k.strM.qr qa
  let x := k.accAt src
  alignCheck q.off 32
  k.tilesCheck q (tileBytes t) 6 (if isMx t then 6 else 0)
  check (!x.bad) cPoison 0
  let s := s.onCore c fun k =>
    let k := (k.putImage q t x).accRetired
    if clear then { k with acc := put k.acc src { i32 := x.i32 } } else k
  pure (s.advances c .M [(qa, .basin)])

def execMsta (p : EPre) (a : Fin 8) (sh : Bool) (qa : Fin 16) (ty : Ty) (s : State) : Out :=
  runE .M p resolvedOnly (qsrcs s .M [qa]) (mstaBody (if sh then 8 + a else a) false qa ty) s

def execMret (p : EPre) (a : Fin 8) (qa : Fin 16) (ty : Ty) (s : State) : Out :=
  runE .M p resolvedOnly (qsrcs s .M [qa]) (mstaBody a true qa ty) s

/-! ## Twins and status (R330, R331) -/

/-- Copy one accumulator's cells, mode and poison to another. -/
def Core.copyAcc (k : Core) (src dest : Nat) : Core := { k with acc := put k.acc dest (k.accAt src) }

def execMcommit (p : EPre) (a : Fin 8) (s : State) : Out :=
  runE .M p resolvedOnly [] (pure' fun k => k.copyAcc (8 + a) a) s

def execMdiscard (p : EPre) (a : Fin 8) (s : State) : Out :=
  runE .M p resolvedOnly [] (pure' fun k => k.copyAcc a (8 + a)) s

def mchkBody (qa : Fin 16) (c : Nat) (s : State) : Res State := do
  let k := s.coreAt c
  let q := k.strM.qr qa
  alignCheck q.off 8
  k.rangeCheck q.off 8
  let s := s.onCore c fun k => { k.putBasin q.off (toLe 8 k.mstat) with replays := 0, asat := false }
  pure (s.advances c .M [(qa, .basin)])

def execMchk (p : EPre) (qa : Fin 16) (s : State) : Out := runE .M p resolvedOnly (qsrcs s .M [qa]) (mchkBody qa) s

end Sys2Proof.Machine
end

