-- ==== Sys2Proof/Machine/Vector.lean ====
section
/-! DEFINITION. The vector engine (19_vector R333-R350; 10_numbers R183-R189): shape, lanes, the mask stack, element
arithmetic, reductions, conversions, data movement and the moves between registers, basin and accumulators. -/

namespace Sys2Proof.Machine

/-! ## Registers, shape and mask (R333, R336) -/

/-- Length of a vector register in bytes. -/
def Core.vlen (k : Core) : Nat := k.bndV / 32

/-- A vector register as a number. -/
def Core.vnum (k : Core) (r : Fin 32) : Nat := leNat (k.getBasin (r * k.vlen) k.vlen)

/-- Word `i` of a vector register. -/
def Core.vword (k : Core) (r : Fin 32) (i : Nat) : Nat := elem 32 (k.vnum r) i

/-- The lane count of `vsh`. -/
def Core.lanes (k : Core) : Nat := fld k.vsh.toNat 8 14

/-- Whether a value of `vsh` is one that `vshape` accepts (R334). -/
def Core.shapeOk (k : Core) (v : Nat) : Bool :=
  fld v 22 10 == 0 && fld v 5 3 == 0 && fld v 8 14 != 0 && (match tyOf (fld v 0 5) with
    | some t => t != .e8m0 && decide (fld v 8 14 * width t ≤ 8 * k.vlen)
    | none => false)

/-- The shape as an instruction that reads it finds it: lane count and element format. -/
def Core.shape (k : Core) : Res (Nat × Ty) :=
  match tyOf (fld k.vsh.toNat 0 5) with
  | some t => if k.shapeOk k.vsh.toNat then .ok (k.lanes, t) else trap cFormat 0
  | none => trap cFormat 0

/-- Whether lane `i`, below the lane count, is active. -/
def Core.active (k : Core) (i : Nat) : Bool :=
  match k.masks with
  | [] => true
  | t :: _ => t.getLsbD i

/-- A vector register whose first `bits` bits an instruction reads holds no poison there. -/
def Core.vclean (k : Core) (r : Fin 32) (bits : Nat) : Res Unit := k.poisonCheck (r * k.vlen) ((bits + 7) / 8)

/-- The first `m` lanes of a register at width `w`. -/
def Core.vlanes (k : Core) (r : Fin 32) (w m : Nat) : List Nat := unpackElems w m (k.vnum r)

/-- Write a vector register's bytes, with the rows that the write covers whole given. -/
def Core.putVnum (k : Core) (r : Fin 32) (v : Nat) (covered : Nat → Bool) : Core :=
  { k with
    basin := Mem.write k.basin (r * k.vlen) (toLe k.vlen v)
    basinBad := k.basinBad.filter fun x =>
      !(r * k.vlen ≤ 32 * x && 32 * x + 32 ≤ r * k.vlen + k.vlen && covered (x - r * k.vlen / 32)) }

/-- Write lanes of width `w`: a value for a lane written, none for one that keeps its bits. -/
def Core.putLanes (k : Core) (r : Fin 32) (w : Nat) (xs : List (Option Nat)) : Core :=
  let old := k.vnum r
  let n := xs.length
  let new := (xs.zip (unpackElems w n old)).map fun e => e.1.getD e.2
  let a := xs.toArray
  let covered (row : Nat) : Bool :=
    decide (256 * row + 256 ≤ n * w) &&
      (List.range (255 / w + 2)).all fun j =>
        let i := 256 * row / w + j
        decide (256 * row + 256 ≤ i * w) || ((a.getD i none).isSome)
  k.putVnum r (packElems w new + old / 2 ^ (w * n) * 2 ^ (w * n)) covered

/-- Write word 0 and on of a register. -/
def Core.putWords (k : Core) (r : Fin 32) (ws : List Nat) : Core := k.putLanes r 32 (ws.map some)

/-- Write the active lanes of a result. -/
def Core.putActive (k : Core) (r : Fin 32) (w : Nat) (xs : List Nat) : Core :=
  k.putLanes r w (xs.zipIdx.map fun x => if k.active x.2 then some x.1 else none)

/-! ## Operands (R335, R337) -/

/-- The second source of a VR or a VC word. -/
inductive VSrc where
  | reg (r : Fin 32)
  | scalar (v : Nat)
  deriving DecidableEq, Repr

/-- The word that SEL supplies. -/
def Core.selWord (k : Core) : Sel → Nat
  | .pantry n => (findD k.pantry n 0).toNat
  | .lit w => w.toNat

/-- Length of a VC word in bytes. -/
def selLen : Sel → Nat
  | .pantry _ => 4
  | .lit _ => 8

def isFloat3 : Ty → Bool
  | .f32 | .bf16 | .f16 => true
  | _ => false

def isInt (t : Ty) : Bool := (intSign t).isSome

/-- A scalar as the bits of a lane: I shapes sign-extend, N shapes zero-extend, any other takes its low bits. -/
def scalarBits (t : Ty) (v : Nat) : Nat :=
  match intSign t with
  | some true => wrap (width t) (signed 32 v)
  | _ => v % 2 ^ width t

/-- The lanes of a source as bits. -/
def Core.srcBits (k : Core) (t : Ty) (m : Nat) : VSrc → List Nat
  | .reg r => k.vlanes r (width t) m
  | .scalar v => List.replicate m (scalarBits t v)

/-- The lanes of a source as values: a scalar enters as the FP32 value it is. -/
def Core.srcVals (k : Core) (t : Ty) (m : Nat) : VSrc → List Val
  | .reg r => (k.vlanes r (width t) m).map (valOf t)
  | .scalar v => List.replicate m (valOf .f32 v)

/-- The poison check of a source's lanes. -/
def Core.srcClean (k : Core) (bits : Nat) : VSrc → Res Unit
  | .reg r => k.vclean r bits
  | .scalar _ => .ok ()

/-- Words 0 and 1 of a register as one value. -/
def Core.vpair (k : Core) (r : Fin 32) : DWord := dw (k.vword r 0 + 2 ^ 32 * k.vword r 1)

/-- The operand record of R337. -/
def Core.xops (k : Core) (a b d : Option (Fin 32)) (sel : Nat := 0) : List DWord :=
  let v (r : Option (Fin 32)) : DWord := match r with
    | some r => k.vpair r
    | none => 0
  [v a, v b, v d, dw sel]

/-- A VR word. -/
def runVR (p : XPre) (a b d : Option (Fin 32)) (body : Core → Res Core) (s : State) : Out :=
  runX p 4 ((s.coreAt s.core).xops a b d) (fun c s => do
    let k ← body (s.coreAt c)
    pure (s.setCore c k)) s

/-- Whether the word that SEL supplies is not poisoned: the last check of a word (R202, R337). -/
def Core.selClean (k : Core) : Sel → Bool
  | .pantry n => !k.pantryBad.contains n.val
  | .lit _ => true

/-- A VC word, whose body takes the word that SEL supplies. -/
def runVC (p : XPre) (sel : Sel) (a d : Option (Fin 32)) (body : Nat → Core → Res Core) (s : State) : Out :=
  let k := s.coreAt s.core
  runX p (selLen sel) (k.xops a none d (k.selWord sel)) (fun c s => do
    let k' ← body (k.selWord sel) (s.coreAt c)
    check (k.selClean sel) cPoison 0
    pure (s.setCore c k')) s

/-! ## The floating family (R338, R339) -/

/-- A floating lane operation of va, b and vd. -/
def floatOp (f : Val → Val → Val → Val) (useD : Bool) (d a : Fin 32) (b : VSrc) (k : Core) : Res Core := do
  let (m, t) ← k.shape
  check (isFloat3 t) cFormat 0
  let bits := m * width t
  k.vclean a bits
  k.srcClean bits b
  if useD then k.vclean d bits else pure ()
  let zs := (k.srcVals t m (.reg a)).zip ((k.srcVals t m b).zip (k.srcVals t m (.reg d)))
  pure (k.putActive d (width t) (zs.map fun e => convert t false (f e.1 e.2.1 e.2.2)))

/-- The lane operations of R338: of va, b and vd. -/
def fAdd (a b _ : Val) : Val := a.add b
def fSub (a b _ : Val) : Val := a.sub b
def fMul (a b _ : Val) : Val := a.mul b
def fMin (a b _ : Val) : Val := a.smaller b
def fMax (a b _ : Val) : Val := a.larger b
def fFma (a b d : Val) : Val := d.add (a.mul b)
def fFnma (a b d : Val) : Val := d.sub (a.mul b)

def execVadd (p : XPre) (d a b : Fin 32) (s : State) : Out := runVR p a b d (floatOp fAdd false d a (.reg b)) s
def execVsub (p : XPre) (d a b : Fin 32) (s : State) : Out := runVR p a b d (floatOp fSub false d a (.reg b)) s
def execVmul (p : XPre) (d a b : Fin 32) (s : State) : Out := runVR p a b d (floatOp fMul false d a (.reg b)) s
def execVmin (p : XPre) (d a b : Fin 32) (s : State) : Out := runVR p a b d (floatOp fMin false d a (.reg b)) s
def execVmax (p : XPre) (d a b : Fin 32) (s : State) : Out := runVR p a b d (floatOp fMax false d a (.reg b)) s
def execVfma (p : XPre) (d a b : Fin 32) (s : State) : Out := runVR p a b d (floatOp fFma true d a (.reg b)) s
def execVfnma (p : XPre) (d a b : Fin 32) (s : State) : Out := runVR p a b d (floatOp fFnma true d a (.reg b)) s

/-- A floating VC word. -/
def floatVC (f : Val → Val → Val → Val) (useD : Bool) (p : XPre) (d a : Fin 32) (sel : Sel) : State → Out :=
  runVC p sel a d fun v => floatOp f useD d a (.scalar v)

def execVaddVC (p : XPre) (d a : Fin 32) (s : Sel) (st : State) : Out := floatVC fAdd false p d a s st
def execVsubVC (p : XPre) (d a : Fin 32) (s : Sel) (st : State) : Out := floatVC fSub false p d a s st
def execVmulVC (p : XPre) (d a : Fin 32) (s : Sel) (st : State) : Out := floatVC fMul false p d a s st
def execVminVC (p : XPre) (d a : Fin 32) (s : Sel) (st : State) : Out := floatVC fMin false p d a s st
def execVmaxVC (p : XPre) (d a : Fin 32) (s : Sel) (st : State) : Out := floatVC fMax false p d a s st
def execVfmaVC (p : XPre) (d a : Fin 32) (s : Sel) (st : State) : Out := floatVC fFma true p d a s st
def execVfnmaVC (p : XPre) (d a : Fin 32) (s : Sel) (st : State) : Out := floatVC fFnma true p d a s st

/-- The F20 word carries no tokens, no guard and no SEL (R94, R252, R337): vd[i] × va[i] + imm, fused. -/
def execVfmai (d a : Fin 32) (imm : BitVec 20) (s : State) : Out :=
  let ops := (s.coreAt s.core).xops (some a) none (some d)
  runToken .X ⟨false, false, false, false⟩ true 4 none ops (fun c s => do
    let k ← floatOp (fun x b y => (y.mul x).add b) true d a (.scalar (imm.toNat * 2 ^ 12)) (s.coreAt c)
    pure (s.setCore c k)) s

/-- A unary floating word. -/
def floatUnary (f : Val → Val) (p : XPre) (d a : Fin 32) : State → Out :=
  runVR p (some a) none (some d) (floatOp (fun x _ _ => f x) false d a (.scalar 0))

def execVabs (p : XPre) (d a : Fin 32) (s : State) : Out := floatUnary Val.abs p d a s
def execVneg (p : XPre) (d a : Fin 32) (s : State) : Out := floatUnary Val.neg p d a s
def execVrcp (p : XPre) (d a : Fin 32) (s : State) : Out := floatUnary Val.rcp p d a s
def execVrsq (p : XPre) (d a : Fin 32) (s : State) : Out := floatUnary Val.rsq p d a s
def execVsqrt (p : XPre) (d a : Fin 32) (s : State) : Out := floatUnary Val.sqrt p d a s
def execVexp2 (p : XPre) (d a : Fin 32) (s : State) : Out := floatUnary Val.exp2 p d a s
def execVlog2 (p : XPre) (d a : Fin 32) (s : State) : Out := floatUnary Val.log2 p d a s
def execVsig (p : XPre) (d a : Fin 32) (s : State) : Out := floatUnary Val.sig p d a s

/-! ## The integer family (R340) -/

/-- An integer or bitwise lane operation; `any` accepts every shape. -/
def intOp (any : Bool) (f : Ty → Nat → Nat → Nat) (d a : Fin 32) (b : VSrc) (k : Core) : Res Core := do
  let (m, t) ← k.shape
  check (any || isInt t) cFormat 0
  k.vclean a (m * width t)
  k.srcClean (m * width t) b
  pure (k.putActive d (width t) (((k.srcBits t m (.reg a)).zip (k.srcBits t m b)).map fun e => f t e.1 e.2))

def iAdd (t : Ty) (a b : Nat) : Nat := (a + b) % 2 ^ width t
def iSub (t : Ty) (a b : Nat) : Nat := wrap (width t) ((a : Int) - b)
def iMul (t : Ty) (a b : Nat) : Nat := a * b % 2 ^ width t
def iAnd (_ : Ty) (a b : Nat) : Nat := a &&& b
def iOr (_ : Ty) (a b : Nat) : Nat := a ||| b
def iXor (_ : Ty) (a b : Nat) : Nat := a ^^^ b
def iShl (t : Ty) (a b : Nat) : Nat := a * 2 ^ (b % width t) % 2 ^ width t
def iShr (t : Ty) (a b : Nat) : Nat := a / 2 ^ (b % width t)
def iSra (t : Ty) (a b : Nat) : Nat := wrap (width t) (signed (width t) a / (2 ^ (b % width t) : Nat))

/-- Whether a is at most b in the order of an integer format. -/
def intLe (t : Ty) (a b : Nat) : Bool :=
  if intSign t = some true then decide (signed (width t) a ≤ signed (width t) b) else decide (a ≤ b)

def iMin (t : Ty) (a b : Nat) : Nat := if intLe t a b then a else b
def iMax (t : Ty) (a b : Nat) : Nat := if intLe t a b then b else a

/-- An integer VR word. -/
def intVR (any : Bool) (f : Ty → Nat → Nat → Nat) (p : XPre) (d a b : Fin 32) : State → Out :=
  runVR p a b d (intOp any f d a (.reg b))

/-- An integer VC word. -/
def intVC (any : Bool) (f : Ty → Nat → Nat → Nat) (p : XPre) (d a : Fin 32) (sel : Sel) : State → Out :=
  runVC p sel a d fun v => intOp any f d a (.scalar v)

def execViadd (p : XPre) (d a b : Fin 32) (s : State) : Out := intVR false iAdd p d a b s
def execVisub (p : XPre) (d a b : Fin 32) (s : State) : Out := intVR false iSub p d a b s
def execVimul (p : XPre) (d a b : Fin 32) (s : State) : Out := intVR false iMul p d a b s
def execVand (p : XPre) (d a b : Fin 32) (s : State) : Out := intVR true iAnd p d a b s
def execVor (p : XPre) (d a b : Fin 32) (s : State) : Out := intVR true iOr p d a b s
def execVxor (p : XPre) (d a b : Fin 32) (s : State) : Out := intVR true iXor p d a b s
def execVshl (p : XPre) (d a b : Fin 32) (s : State) : Out := intVR false iShl p d a b s
def execVshr (p : XPre) (d a b : Fin 32) (s : State) : Out := intVR false iShr p d a b s
def execVsra (p : XPre) (d a b : Fin 32) (s : State) : Out := intVR false iSra p d a b s
def execVimin (p : XPre) (d a b : Fin 32) (s : State) : Out := intVR false iMin p d a b s
def execVimax (p : XPre) (d a b : Fin 32) (s : State) : Out := intVR false iMax p d a b s
def execViaddVC (p : XPre) (d a : Fin 32) (s : Sel) (st : State) : Out := intVC false iAdd p d a s st
def execVisubVC (p : XPre) (d a : Fin 32) (s : Sel) (st : State) : Out := intVC false iSub p d a s st
def execVimulVC (p : XPre) (d a : Fin 32) (s : Sel) (st : State) : Out := intVC false iMul p d a s st
def execVandVC (p : XPre) (d a : Fin 32) (s : Sel) (st : State) : Out := intVC true iAnd p d a s st
def execVorVC (p : XPre) (d a : Fin 32) (s : Sel) (st : State) : Out := intVC true iOr p d a s st
def execVxorVC (p : XPre) (d a : Fin 32) (s : Sel) (st : State) : Out := intVC true iXor p d a s st
def execVshlVC (p : XPre) (d a : Fin 32) (s : Sel) (st : State) : Out := intVC false iShl p d a s st
def execVshrVC (p : XPre) (d a : Fin 32) (s : Sel) (st : State) : Out := intVC false iShr p d a s st
def execVsraVC (p : XPre) (d a : Fin 32) (s : Sel) (st : State) : Out := intVC false iSra p d a s st
def execViminVC (p : XPre) (d a : Fin 32) (s : Sel) (st : State) : Out := intVC false iMin p d a s st
def execVimaxVC (p : XPre) (d a : Fin 32) (s : Sel) (st : State) : Out := intVC false iMax p d a s st

/-! ## Compare and the mask stack (R341, R342) -/

/-- An integer lane extended as a condition reads it. -/
def condLane (cc : Cond) (t : Ty) (v : Nat) : DWord :=
  if naturalCond cc then dw v else BitVec.ofInt 64 (signed (width t) v)

/-- The lanes of the current shape that compare true. -/
def Core.compared (k : Core) (cc : Cond) (t : Ty) (m : Nat) (a : Fin 32) (b : VSrc) : List Bool :=
  if isFloat3 t then ((k.srcVals t m (.reg a)).zip (k.srcVals t m b)).map fun e => condFloat cc e.1 e.2
  else ((k.srcBits t m (.reg a)).zip (k.srcBits t m b)).map fun e => condInt cc (condLane cc t e.1) (condLane cc t e.2)

/-- A mask entry from the lanes below the lane count. -/
def maskOf (bs : List Bool) : BitVec 8192 := BitVec.ofNat 8192 (packElems 1 (bs.map num))

/-- Push an entry; a full stack loses its bottom entry. -/
def Core.pushMask (k : Core) (e : BitVec 8192) : Core := { k with masks := (e :: k.masks).take 16 }

def vcmpBody (cc : Cond) (a : Fin 32) (b : VSrc) (k : Core) : Res Core := do
  let (m, t) ← k.shape
  check (isInt t || (isFloat3 t && !naturalCond cc)) cFormat 0
  k.vclean a (m * width t)
  k.srcClean (m * width t) b
  pure (k.pushMask (maskOf ((k.compared cc t m a b).zipIdx.map fun x => x.1 && k.active x.2)))

def execVcmp (p : XPre) (cc : Cond) (a b : Fin 32) (s : State) : Out := runVR p a b none (vcmpBody cc a (.reg b)) s

def execVcmpVC (p : XPre) (cc : Cond) (a : Fin 32) (s : Sel) (st : State) : Out :=
  runVC p s a none (fun v => vcmpBody cc a (.scalar v)) st

/-- The mask stack after `minv`. -/
def invertTop (m : Nat) : List (BitVec 8192) → List (BitVec 8192)
  | [] => []
  | [t] => [BitVec.ofNat 8192 (2 ^ m - 1) &&& ~~~t]
  | t :: u :: rest => (u &&& ~~~t) :: u :: rest

def execMinv (p : XPre) (s : State) : Out :=
  runVR p none none none (fun k => .ok { k with masks := invertTop k.lanes k.masks }) s

def execMpop (p : XPre) (s : State) : Out := runVR p none none none (fun k => .ok { k with masks := k.masks.drop 1 }) s

/-! ## Reductions (R343) -/

/-- One level of the pairwise tree. -/
def pairUp (add : Nat → Nat → Nat) : List Nat → List Nat
  | x :: y :: xs => add x y :: pairUp add xs
  | xs => xs

/-- The pairwise tree over `2^n` values. -/
def treeSum (add : Nat → Nat → Nat) : Nat → List Nat → Nat
  | 0, xs => xs.headD 0
  | n + 1, xs => treeSum add n (pairUp add xs)

/-- Levels of the tree over `m` values: the least n with m ≤ 2^n. -/
def treeLevels (m : Nat) : Nat := if m ≤ 1 then 0 else Nat.log2 (m - 1) + 1

/-- Addition in a shape, rounded or wrapped. -/
def laneAdd (t : Ty) (a b : Nat) : Nat :=
  if isInt t then (a + b) % 2 ^ width t else convert t false ((valOf t a).add (valOf t b))

/-- A reduction: its shape check, its source check, and the result into lane 0. -/
def reduce (f : Ty → List (Nat × Bool) → Nat) (word : Bool) (d a : Fin 32) (k : Core) : Res Core := do
  let (m, t) ← k.shape
  check (isInt t || isFloat3 t) cFormat 0
  k.vclean a (m * width t)
  let xs := (k.vlanes a (width t) m).zipIdx.map fun x => (x.1, k.active x.2)
  pure (k.putLanes d (if word then 32 else width t) [some (f t xs)])

/-- A code of a shape, canonical where it is a NaN: no payload goes from input to output, of a sum of one lane neither (R176). -/
def canonical (t : Ty) (v : Nat) : Nat := if isFloat3 t && valOf t v == .nan then convert t false .nan else v

/-- The sum of the active lanes in the pairwise tree. -/
def sumLanes (t : Ty) (xs : List (Nat × Bool)) : Nat :=
  let n := treeLevels xs.length
  let ys := xs.map fun x => if x.2 then x.1 else 0
  canonical t (treeSum (laneAdd t) n (ys ++ List.replicate (2 ^ n - ys.length) 0))

/-- The largest or smallest active lane. -/
def pickLanes (big : Bool) (t : Ty) (xs : List (Nat × Bool)) : Nat :=
  let ys := (xs.filter Prod.snd).map Prod.fst
  if isInt t then
    match ys with
    | [] =>
      let r := intRange t (intSign t == some true)
      wrap (width t) (if big then r.1 else r.2)
    | y :: ys => ys.foldl (if big then iMax t else iMin t) y
  else
    convert t false (match ys.map (valOf t) with
      | [] => .inf big
      | y :: ys => ys.foldl (if big then Val.larger else Val.smaller) y)

/-- Whether lane value `a` is below `b` in the order of R185. -/
def laneLt (t : Ty) (a b : Nat) : Bool := if isInt t then !intLe t b a else (valOf t a).lt (valOf t b)

def argLanes (t : Ty) (xs : List (Nat × Bool)) : Nat :=
  ((xs.zipIdx.filter fun x => x.1.2).foldl (fun (best : Option (Nat × Nat)) x => match best with
    | none => some (x.1.1, x.2)
    | some b => if laneLt t b.1 x.1.1 then some (x.1.1, x.2) else some b) none).elim 0xFFFFFFFF Prod.snd

def execVrsum (p : XPre) (d a : Fin 32) (s : State) : Out := runVR p a none d (reduce sumLanes false d a) s
def execVrmax (p : XPre) (d a : Fin 32) (s : State) : Out := runVR p a none d (reduce (pickLanes true) false d a) s
def execVrmin (p : XPre) (d a : Fin 32) (s : State) : Out := runVR p a none d (reduce (pickLanes false) false d a) s
def execVrarg (p : XPre) (d a : Fin 32) (s : State) : Out := runVR p a none d (reduce argLanes true d a) s

/-! ## Conversions and packing (R344-R346) -/

def vcvtBody (nsat : Bool) (dst : Ty) (d a : Fin 32) (k : Core) : Res Core := do
  let (m, t) ← k.shape
  check (!isMx t && decide (m * width dst ≤ 8 * k.vlen)) cFormat 0
  k.vclean a (m * width t)
  pure (k.putActive d (width dst) ((k.vlanes a (width t) m).map fun x => convert dst nsat (valOf t x)))

def execVcvt (p : XPre) (d a : Fin 32) (ty : Ty) (s : State) : Out := runVR p a none d (vcvtBody false ty d a) s
def execVcvtNsat (p : XPre) (d a : Fin 32) (ty : Ty) (s : State) : Out := runVR p a none d (vcvtBody true ty d a) s

/-- Destination format of `vcvt.sr`, and whether `.nsat` is given. -/
def srDest : SrTo → Ty × Fmt × Bool
  | .bf16 => (.bf16, fBF16, false)
  | .f16 => (.f16, fF16, false)
  | .e5m2 => (.e5m2, fE5M2, false)
  | .e4m3 => (.e4m3, fE4M3, false)
  | .e2m1 => (.e2m1, fE2M1, false)
  | .e5m2Nsat => (.e5m2, fE5M2, true)
  | .e4m3Nsat => (.e4m3, fE4M3, true)

def vcvtSrBody (dst : SrTo) (d a : Fin 32) (salt : Nat) (k : Core) : Res Core := do
  let (m, t) ← k.shape
  let (ty, f, nsat) := srDest dst
  check (t == .f32 && decide (m * width ty ≤ 8 * k.vlen)) cFormat 0
  k.vclean a (m * 32)
  pure (k.putActive d (width ty) (srAll ty f nsat (BitVec.ofNat 32 salt) ((k.vlanes a 32 m).map (valOf .f32))))

def execVcvtSr (p : XPre) (dst : SrTo) (d a : Fin 32) (s : Sel) (st : State) : Out :=
  runVC p s a d (fun v => vcvtSrBody dst d a v) st

/-- Blocks of `n` values. -/
def blocks (n : Nat) : Nat → List Val → List (List Val)
  | 0, _ => []
  | k + 1, xs => xs.take n :: blocks n k (xs.drop n)

def vpackBody (n : Nat) (ty : Ty) (d a : Fin 32) (k : Core) : Res Core := do
  let (m, t) ← k.shape
  check (isFloat3 t && m % n == 0) cFormat 0
  k.vclean a (m * width t)
  let bs := (blocks n (m / n) (k.srcVals t m (.reg a))).map (mxPack ty)
  let k := k.putLanes d (width ty) ((bs.flatMap Prod.snd).map some)
  pure (k.putLanes (d + 1) 8 (bs.map fun b => some b.1))

def execVpack (p : XPre) (d a : Fin 32) (ty : Ty) (s : State) : Out := runVR p a none d (vpackBody 32 ty d a) s
def execVpackSq (p : XPre) (d a : Fin 32) (ty : Ty) (s : State) : Out := runVR p a none d (vpackBody 1024 ty d a) s

def vunpkBody (ty : Ty) (d a : Fin 32) (k : Core) : Res Core := do
  let (m, t) ← k.shape
  check (isFloat3 t) cFormat 0
  k.vclean a (m * width ty)
  k.vclean (a + 1) (8 * ceilDiv m 32)
  let scales := (k.vlanes (a + 1) 8 (ceilDiv m 32)).toArray
  let xs := (k.vlanes a (width ty) m).zipIdx.map fun x => convert t false (scaled ty x.1 (scales.getD (x.2 / 32) 0))
  pure (k.putActive d (width t) xs)

def execVunpk (p : XPre) (d a : Fin 32) (ty : Ty) (s : State) : Out := runVR p a none d (vunpkBody ty d a) s

/-! ## Data movement (R334, R347) -/

/-- `vshape`: a value it refuses traps with that value. -/
def execVshape (p : XPre) (s : Sel) (st : State) : Out :=
  runVC p s none none (fun v k =>
    if k.shapeOk v then .ok { k with vsh := BitVec.ofNat 32 v } else trap cFormat (dw v)) st

def vmovBody (d a : Fin 32) (k : Core) : Res Core := do
  let (m, t) ← k.shape
  k.vclean a (m * width t)
  pure (k.putActive d (width t) (k.vlanes a (width t) m))

def execVmov (p : XPre) (d a : Fin 32) (s : State) : Out := runVR p a none d (vmovBody d a) s

def vbcastBody (d a b : Fin 32) (k : Core) : Res Core := do
  let (m, t) ← k.shape
  k.vclean a (m * width t)
  k.vclean b 32
  let i := k.vword b 0
  let x := if i < m then elem (width t) (k.vnum a) i else 0
  pure (k.putActive d (width t) (List.replicate m x))

def execVbcast (p : XPre) (d a b : Fin 32) (s : State) : Out := runVR p a b d (vbcastBody d a b) s

/-- A scalar written into a lane: rounded once under a floating shape, `.f32` unchanged. -/
def scalarLane (t : Ty) (v : Nat) : Nat :=
  match t with
  | .bf16 | .f16 => convert t false (valOf .f32 v)
  | _ => scalarBits t v

def vbcastVCBody (d : Fin 32) (v : Nat) (k : Core) : Res Core := do
  let (m, t) ← k.shape
  pure (k.putActive d (width t) (List.replicate m (scalarLane t v)))

def execVbcastVC (p : XPre) (d : Fin 32) (s : Sel) (st : State) : Out := runVC p s none d (vbcastVCBody d) st

def vpermBody (d a b : Fin 32) (k : Core) : Res Core := do
  let (m, t) ← k.shape
  k.vclean a (m * width t)
  k.vclean b (m * width t)
  let xs := (k.vlanes a (width t) m).toArray
  pure (k.putActive d (width t) ((k.vlanes b (width t) m).map fun j => if j < m then xs.getD j 0 else 0))

def execVperm (p : XPre) (d a b : Fin 32) (s : State) : Out := runVR p a b d (vpermBody d a b) s

def vselBody (d a b : Fin 32) (k : Core) : Res Core := do
  let (m, t) ← k.shape
  k.vclean a (m * width t)
  k.vclean b (m * width t)
  let xs := ((k.vlanes a (width t) m).zip (k.vlanes b (width t) m)).zipIdx
  pure (k.putLanes d (width t) (xs.map fun x => some (if k.active x.2 then x.1.1 else x.1.2)))

def execVsel (p : XPre) (d a b : Fin 32) (s : State) : Out := runVR p a b d (vselBody d a b) s

def viotaBody (d : Fin 32) (k : Core) : Res Core := do
  let (m, t) ← k.shape
  check (isFloat3 t || isInt t) cFormat 0
  pure (k.putActive d (width t) ((List.range m).map fun i =>
    if isInt t then i % 2 ^ width t else convert t false (intVal i 0)))

def execViota (p : XPre) (d : Fin 32) (s : State) : Out := runVR p none none d (viotaBody d) s

/-! ## Basin, accumulator and pantry (R348-R350) -/

/-- The basin offset of `vld` and `vst`. -/
def Core.vaddr (k : Core) (a : Fin 32) (n : Fin 64) : Nat := k.vword a 0 + n * k.vlen

def vldBody (d a : Fin 32) (n : Fin 64) (k : Core) : Res Core := do
  let off := k.vaddr a n
  alignCheck off 32
  k.rangeCheck off k.vlen
  k.vclean a 32
  k.poisonCheck off k.vlen
  pure (k.putBasin (d * k.vlen) (k.getBasin off k.vlen))

def execVld (p : XPre) (d a : Fin 32) (k : Fin 64) (s : State) : Out := runVR p a none d (vldBody d a k) s

def vstBody (d a : Fin 32) (n : Fin 64) (k : Core) : Res Core := do
  let off := k.vaddr a n
  alignCheck off 32
  k.rangeCheck off k.vlen
  k.vclean a 32
  k.vclean d (8 * k.vlen)
  pure (k.putBasin off (k.getBasin (d * k.vlen) k.vlen))

def execVst (p : XPre) (d a : Fin 32) (k : Fin 64) (s : State) : Out := runVR p a none d (vstBody d a k) s

def vldaBody (d : Fin 32) (acc : Fin 8) (row : Nat) (k : Core) : Res Core := do
  let x := k.accAt acc
  check (!x.bad) cPoison 0
  pure (k.putWords d ((List.range 64).map fun j => x.cell row j))

def execVlda (p : XPre) (d : Fin 32) (acc : Fin 8) (row : BitVec 7) (s : State) : Out :=
  runVR p none none d (vldaBody d acc row.toNat) s

def vpldBody (n : Fin 63) (a : Fin 32) (k : Core) : Res Core := do
  let off := k.vword a 0
  let len := 63 - n.val
  alignCheck off 4
  k.rangeCheck off (4 * len)
  k.vclean a 32
  k.poisonCheck off (4 * len)
  pure { k with
    pantry := (k.wordsAt off len).zipIdx.foldl (fun m w => put m (n.val + w.2) (BitVec.ofNat 32 w.1)) k.pantry
    pantryBad := k.pantryBad.filter (· < n.val) }

def execVpld (p : XPre) (c : Fin 63) (a : Fin 32) (s : State) : Out := runVR p a none none (vpldBody c a) s

end Sys2Proof.Machine
end

