-- ==== Sys2Proof/Machine/Sampler.lean ====
section
/-! DEFINITION. The sampler (12_generation R214-R218; 19_vector R351) and the control words of X (R352-R354, R383). -/

namespace Sys2Proof.Machine

/-! ## The shortlist block (R215) -/

/-- Checks of R351: the row length, the fields of a block that is read, alignment, range and poison. `row` is the
offset and length of a logits row. A block outside the scratchpad has no fields to judge. -/
def Core.samplerCheck (k : Core) (read : Bool) (blk : Nat) (row : Option (Nat × Nat)) : Res Unit := do
  match row with
  | some (_, v) => check (v != 0 && decide (v ≤ 1048575)) cFormat 0
  | none => pure ()
  if read && k.inScratch blk 1024 then do
    check (leNat (k.getBasin (blk + 780) 4) / 8 == 0) cFormat 780
    check (decide (leNat (k.getBasin (blk + 784) 4) ≤ 64)) cFormat 784
  else pure ()
  alignCheck blk 32
  match row with
  | some (r, _) => alignCheck r 32
  | none => pure ()
  k.rangeCheck blk 1024
  match row with
  | some (r, v) => k.rangeCheck r (4 * v)
  | none => pure ()
  k.poisonCheck blk 1024
  match row with
  | some (r, v) => k.poisonCheck r (4 * v)
  | none => pure ()

/-- A word of a block. -/
def Core.blockWord (k : Core) (blk off : Nat) : Nat := leNat (k.getBasin (blk + off) 4)

def negInf : Nat := 0xFF800000

/-- NaN and -∞, which count alike. -/
def isBottom (x : Nat) : Bool := fv x == .nan || fv x == .inf true

/-- The term of a logit under the row maximum (R216). -/
def term (m x : Nat) : Nat :=
  if isBottom x then 0
  else if fv m = .inf false then if fv x = .inf false then 0x3F800000 else 0
  else
    let d := rne32 ((fv x).sub (fv m))
    rne32 (fv (rne32 ((fv d).mul (fv 0x3FB8AA3B)))).exp2

/-- An FP32 addition of codes. -/
def add32 (a b : Nat) : Nat := rne32 ((fv a).add (fv b))

/-- Z: beats of 32 terms, each summed pairwise, then added in ascending order. -/
def expSum : Nat → List Nat → Nat → Nat
  | 0, _, z => z
  | n + 1, ts, z =>
    let beat := ts.take 32
    expSum n (ts.drop 32) (add32 z (treeSum add32 5 (beat ++ List.replicate (32 - beat.length) 0)))

/-- The row maximum. -/
def rowMax (xs : List Nat) : Nat :=
  (xs.filter fun x => !isBottom x).foldl (fun m x => if laneLt .f32 m x then x else m) negInf

/-- Ranks: index and logit of the largest elements. -/
def ranks (xs : List Nat) : List (Nat × Nat) :=
  (((xs.zipIdx.filter fun x => !isBottom x.1).mergeSort fun a b => !laneLt .f32 a.1 b.1).take 64).map fun x => (x.2, x.1)

/-- Words as bytes. -/
def wordBytes (ws : List Nat) : List Byte := ws.flatMap (toLe 4)

/-- The block of a row. The probabilities of its ranks and its mass, which `vsmass` completes, are free values
(log 3). -/
def blockOf (xs : List Nat) (free : Nat) : List Byte :=
  let rs := ranks xs
  let m := rowMax xs
  let empty := rs.isEmpty
  let z := if empty then 0 else expSum ((xs.length + 31) / 32) (xs.map (term m)) 0
  let status := num (xs.any fun x => fv x == .nan) + 2 * num empty
  let f (i : Nat) : Nat := (Config.freeBits free i).toNat % 2 ^ 32
  let pad (x : Nat) (l : List Nat) : List Nat := l ++ List.replicate (64 - l.length) x
  wordBytes (pad 0xFFFFF (rs.map Prod.fst) ++ pad negInf (rs.map Prod.snd) ++ pad 0 ((List.range rs.length).map f) ++
    [m, z, f 64, status, rs.length] ++ List.replicate 59 0)

/-- `vslist`. -/
def vslistBody (d a : Fin 32) (c : Nat) (s : State) : Res State := do
  let k := s.coreAt c
  let blk := k.vword d 0
  let row := k.vword a 0
  let v := k.vword a 1
  k.samplerCheck false blk (some (row, v))
  k.vclean a 64
  k.vclean d 32
  let (n, s) := s.draw
  pure (s.onCore c fun k => k.putBasin blk (blockOf (k.wordsAt row v) n))

/-- A word of X whose body acts on the whole state. -/
def runXS (p : XPre) (a b d : Option (Fin 32)) (body : Nat → State → Res State) (s : State) : Out :=
  runX p 4 ((s.coreAt s.core).xops a b d) body s

def execVslist (p : XPre) (d a : Fin 32) (s : State) : Out := runXS p a none d (vslistBody d a) s

/-- The probabilities of a block's ranks. -/
def Core.blockProbs (k : Core) (blk : Nat) : List Nat :=
  let m := k.blockWord blk 768
  let z := k.blockWord blk 772
  (k.wordsAt (blk + 256) (k.blockWord blk 784)).map fun x => rne32 ((fv (term m x)).div (fv z))

def vsmassBody (d a : Fin 32) (k : Core) : Res Core := do
  let blk := k.vword d 0
  k.samplerCheck true blk none
  k.vclean a 32
  k.vclean d 32
  let status := k.blockWord blk 780
  if bit status 1 then pure (k.putBasin (blk + 776) (toLe 4 0))
  else
    let ps := k.blockProbs blk
    let mass := ps.foldl add32 0
    let slow := (fv mass).cmp (fv (k.vword a 0)) == some .lt
    let k := k.putBasin (blk + 512) (wordBytes ps)
    pure (k.putBasin (blk + 776) (toLe 4 mass ++ toLe 4 (status ||| 4 * num slow)))

def execVsmass (p : XPre) (d a : Fin 32) (s : State) : Out := runVR p a none d (vsmassBody d a) s

/-- u of R218 as an exact value. -/
def Core.drawVal (k : Core) (b : Fin 32) : Val :=
  let pos := dw (k.vword b 2) * 0x9E3779B97F4A7C15
  .fin false ((mix64 (k.vpair b ^^^ pos ^^^ dw (k.vword b 3))).toNat / 2 ^ 40) (-24)

/-- Running FP32 sums of a list. -/
def prefixes : Nat → List Nat → List Nat
  | _, [] => []
  | z, x :: xs => add32 z x :: prefixes (add32 z x) xs

/-- The place of the first prefix greater than a bound. -/
def firstAbove (bound : Val) (cs : List Nat) : Option Nat := cs.findIdx? fun c => (fv c).cmp bound == some .gt

/-- Write a drawn token. A block that no `vslist` and `vsmass` made may yield none: the token is then a free value
(log 3). -/
def State.putToken (s : State) (c : Nat) (d : Fin 32) (tok : Option Nat) : State :=
  match tok with
  | some t => s.onCore c fun k => k.putWords d [t]
  | none =>
    let (n, s) := s.draw
    s.onCore c fun k => k.putWords d [(Config.freeBits n 0).toNat % 2 ^ 32]

def noToken : Nat := 0xFFFFF

def vspickBody (d a b : Fin 32) (c : Nat) (s : State) : Res State := do
  let k := s.coreAt c
  let blk := k.vword a 0
  k.samplerCheck true blk none
  k.vclean a 32
  k.vclean b 128
  let n := k.blockWord blk 784
  if bit (k.blockWord blk 780) 1 then pure (s.putToken c d (some noToken))
  else
    let j := firstAbove ((k.drawVal b).mul (fv (k.blockWord blk 776))) (prefixes 0 (k.wordsAt (blk + 512) n))
    pure (s.putToken c d (j.map fun j => k.blockWord blk (4 * j)))

def execVspick (p : XPre) (d a b : Fin 32) (s : State) : Out := runXS p a b d (vspickBody d a b) s

def vsfullBody (d a b : Fin 32) (c : Nat) (s : State) : Res State := do
  let k := s.coreAt c
  let blk := k.vword a 0
  let row := k.vword a 1
  let v := k.vword a 2
  k.samplerCheck true blk (some (row, v))
  k.vclean a 96
  k.vclean b 128
  if bit (k.blockWord blk 780) 1 then pure (s.putToken c d (some noToken))
  else
    let cs := prefixes 0 ((k.wordsAt row v).map (term (k.blockWord blk 768)))
    pure (s.putToken c d (firstAbove ((k.drawVal b).mul (fv (cs.getLastD 0))) cs))

def execVsfull (p : XPre) (d a b : Fin 32) (s : State) : Out := runXS p a b d (vsfullBody d a b) s

/-! ## Control words of X (R352-R354, R383) -/

/-- `xloop`: a false guard skips the loop. -/
def execXloop (p : XPre) (ln : Fin 2) (cnt : BitVec 7) (len : BitVec 8) (s : State) : Out :=
  let guard := (s.eng s.core .X).g p.g != p.neg
  runToken .X p.tok true 4 none [] (fun c s =>
    let pc := s.wordPc c .X
    let skip := pc + 4 * (len.toNat + 1)
    if !guard then .ok (s.onEng c .X fun e => { e with pc := skip })
    else
      let n : Word := if cnt = 0 then ((s.eng c .X).loop ln).count else cnt.setWidth 32
      let s := s.onEng c .X fun e => e.setLoop ln ⟨n, pc + 4⟩
      if n = 0 then branchTo c .X skip s else .ok s) s

/-- `xnext`, and `xnext.q`, which always waits for its outcome. -/
def execXnext (p : XPre) (ln : Fin 2) (q : Bool) (s : State) : Out :=
  runX p 4 [] (fun c t =>
    if !q then closeLoop c .X ln t
    else do
      let start := ((t.eng c .X).loop ln).start
      let (t, v) ← t.takeScalar c .X
      if v.getLsbD 0 then branchTo c .X start t else pure t) s

def execXbrq (p : XPre) (disp : BitVec 15) (s : State) : Out :=
  runX p 4 [] (fun c t => do
    let (t, v) ← t.takeScalar c .X
    if v.getLsbD 0 then branchBy c .X (t.wordPc c .X) disp t else pure t) s

def execXjmp (p : XPre) (disp : BitVec 15) (s : State) : Out :=
  runX p 4 [] (fun c t => branchBy c .X (t.wordPc c .X) disp t) s

/-- A jump to the address in word 0 of a register: alignment, then range. -/
def execXjmpInd (p : XPre) (a : Fin 32) (s : State) : Out :=
  runXS p a none none (fun c t => do
    let k := t.coreAt c
    let v := k.vword a 0
    alignCheck v 4
    if 65536 ≤ v then trap cFetch (dw v)
    else
      k.vclean a 32
      branchTo c .X v t) s

/-- Whether no lane below the lane count is active. -/
def Core.noneActive (k : Core) : Bool := (List.range k.lanes).all fun i => !k.active i

def execXbrz (p : XPre) (disp : BitVec 15) (s : State) : Out :=
  runXS p none none none (fun c t =>
    let k := t.coreAt c
    if k.lanes = 0 then trap cFormat 0
    else if k.noneActive then branchBy c .X (t.wordPc c .X) disp t else .ok t) s

def execXtok (p : XPre) (s : State) : Out := runX p 4 [] (fun _ t => .ok t) s

def execXend (p : XPre) (s : State) : Out :=
  runX p 4 [] (fun c t => .ok (t.onEng c .X fun e => { e with halted := true })) s

def execXqget (p : XPre) (d : Fin 32) (_ln : Fin 2) (s : State) : Out :=
  runXS p none none d (fun c t => do
    let (t, v) ← t.takeScalar c .X
    pure (t.onCore c fun k => k.putWords d [v.toNat % 2 ^ 32, v.toNat / 2 ^ 32])) s

def execXqgetL (p : XPre) (ln : Fin 2) (s : State) : Out :=
  runX p 4 [] (fun c t => do
    let (t, v) ← t.takeScalar c .X
    pure (t.onEng c .X fun e => e.setLoop ln { e.loop ln with count := v.setWidth 32 })) s

/-- `xqput`: with a true guard one entry for the return queue (R87). -/
def execXqput (p : XPre) (a : Fin 32) (s : State) : Out :=
  let ops := (s.coreAt s.core).xops a none none
  if (s.eng s.core .X).g p.g != p.neg then
    runReturn .X p.tok ops (fun c t => do
      (t.coreAt c).vclean a 64
      pure (t, [(t.coreAt c).vpair a])) id s
  else runX p 4 ops (fun _ t => .ok t) s

def execXgget (p : XPre) (n : Fin 8) (s : State) : Out :=
  runX p 4 [] (fun c t => do
    let (t, v) ← t.takeScalar c .X
    pure (t.onEng c .X fun e => e.setG n (v.getLsbD 0))) s

def execXgseti (p : XPre) (n : Fin 8) (b : Bool) (s : State) : Out :=
  runX p 4 [] (fun c t => .ok (t.onEng c .X fun e => e.setG n b)) s

end Sys2Proof.Machine
end

