-- ==== Sys2Proof/Machine/Dispatch.lean ====
section
/-! DEFINITION. The dispatch of an instruction or event to its meaning, one arm per constructor. -/

namespace Sys2Proof.Machine

def exec (i : Instr) (s : State) : Host.Outcome State Fault Refusal :=
  match i with
  | .add p d a b => Sys2Proof.Machine.execAdd p d a b s
  | .sub p d a b => Sys2Proof.Machine.execSub p d a b s
  | .mul p d a b => Sys2Proof.Machine.execMul p d a b s
  | .mulh p d a b => Sys2Proof.Machine.execMulh p d a b s
  | .div p d a b => Sys2Proof.Machine.execDiv p d a b s
  | .rem p d a b => Sys2Proof.Machine.execRem p d a b s
  | .and p d a b => Sys2Proof.Machine.execAnd p d a b s
  | .or p d a b => Sys2Proof.Machine.execOr p d a b s
  | .xor p d a b => Sys2Proof.Machine.execXor p d a b s
  | .shl p d a b => Sys2Proof.Machine.execShl p d a b s
  | .shr p d a b => Sys2Proof.Machine.execShr p d a b s
  | .sra p d a b => Sys2Proof.Machine.execSra p d a b s
  | .min p d a b => Sys2Proof.Machine.execMin p d a b s
  | .max p d a b => Sys2Proof.Machine.execMax p d a b s
  | .clz p d a => Sys2Proof.Machine.execClz p d a s
  | .popc p d a => Sys2Proof.Machine.execPopc p d a s
  | .mulhN p d a b => Sys2Proof.Machine.execMulhN p d a b s
  | .divN p d a b => Sys2Proof.Machine.execDivN p d a b s
  | .remN p d a b => Sys2Proof.Machine.execRemN p d a b s
  | .minN p d a b => Sys2Proof.Machine.execMinN p d a b s
  | .maxN p d a b => Sys2Proof.Machine.execMaxN p d a b s
  | .addi p d a imm => Sys2Proof.Machine.execAddi p d a imm s
  | .andi p d a imm => Sys2Proof.Machine.execAndi p d a imm s
  | .ori p d a imm => Sys2Proof.Machine.execOri p d a imm s
  | .xori p d a imm => Sys2Proof.Machine.execXori p d a imm s
  | .shli p d a sh => Sys2Proof.Machine.execShli p d a sh s
  | .shri p d a sh => Sys2Proof.Machine.execShri p d a sh s
  | .srai p d a sh => Sys2Proof.Machine.execSrai p d a sh s
  | .lui p d imm => Sys2Proof.Machine.execLui p d imm s
  | .cmp p pd a b cc => Sys2Proof.Machine.execCmp p pd a b cc s
  | .cmpi p pd a cc imm => Sys2Proof.Machine.execCmpi p pd a cc imm s
  | .sel p d a b ps => Sys2Proof.Machine.execSel p d a b ps s
  | .plog p pd pa pb tt => Sys2Proof.Machine.execPlog p pd pa pb tt s
  | .fadd p d a b => Sys2Proof.Machine.execFadd p d a b s
  | .fsub p d a b => Sys2Proof.Machine.execFsub p d a b s
  | .fmul p d a b => Sys2Proof.Machine.execFmul p d a b s
  | .fmin p d a b => Sys2Proof.Machine.execFmin p d a b s
  | .fmax p d a b => Sys2Proof.Machine.execFmax p d a b s
  | .ffma p d a b e => Sys2Proof.Machine.execFfma p d a b e s
  | .fcmp p pd a b cc => Sys2Proof.Machine.execFcmp p pd a b cc s
  | .fcvt p d a dst src nsat => Sys2Proof.Machine.execFcvt p d a dst src nsat s
  | .b p disp => Sys2Proof.Machine.execB p disp s
  | .call p disp => Sys2Proof.Machine.execCall p disp s
  | .bc p cc a disp => Sys2Proof.Machine.execBc p cc a disp s
  | .jr p a => Sys2Proof.Machine.execJr p a s
  | .ret p => Sys2Proof.Machine.execRet p s
  | .loop p lc a len => Sys2Proof.Machine.execLoop p lc a len s
  | .lend p lc => Sys2Proof.Machine.execLend p lc s
  | .ld p d b pol wid disp => Sys2Proof.Machine.execLd p d b pol wid disp s
  | .st p d b pol wid disp => Sys2Proof.Machine.execSt p d b pol wid disp s
  | .amo p d b a pol w64 op => Sys2Proof.Machine.execAmo p d b a pol w64 op s
  | .red p b a pol w64 op => Sys2Proof.Machine.execRed p b a pol w64 op s
  | .cas p d b a pol w64 => Sys2Proof.Machine.execCas p d b a pol w64 s
  | .kset p a k => Sys2Proof.Machine.execKset p a k s
  | .ksig p a k => Sys2Proof.Machine.execKsig p a k s
  | .kwait p d a b k cl => Sys2Proof.Machine.execKwait p d a b k cl s
  | .qput p a e => Sys2Proof.Machine.execQput p a e s
  | .outc p a e => Sys2Proof.Machine.execOutc p a e s
  | .qtake p d fromL => Sys2Proof.Machine.execQtake p d fromL s
  | .launch p d b disp => Sys2Proof.Machine.execLaunch p d b disp s
  | .evsig p a b set => Sys2Proof.Machine.execEvsig p a b set s
  | .evwait p a b => Sys2Proof.Machine.execEvwait p a b s
  | .rdv p => Sys2Proof.Machine.execRdv p s
  | .dbar p n dir lvl => Sys2Proof.Machine.execDbar p n dir lvl s
  | .opb p a => Sys2Proof.Machine.execOpb p a s
  | .jend p => Sys2Proof.Machine.execJend p s
  | .mbsend p a b mb => Sys2Proof.Machine.execMbsend p a b mb s
  | .mbrecv p d mb => Sys2Proof.Machine.execMbrecv p d mb s
  | .hmsg p a ch => Sys2Proof.Machine.execHmsg p a ch s
  | .tdef p d a => Sys2Proof.Machine.execTdef p d a s
  | .tfree p a => Sys2Proof.Machine.execTfree p a s
  | .hfork p d a b => Sys2Proof.Machine.execHfork p d a b s
  | .hrel p a => Sys2Proof.Machine.execHrel p a s
  | .popenOw p a => Sys2Proof.Machine.execPopenOw p a s
  | .popenAd p a => Sys2Proof.Machine.execPopenAd p a s
  | .pseal p a => Sys2Proof.Machine.execPseal p a s
  | .pdrop p a => Sys2Proof.Machine.execPdrop p a s
  | .pinv p d a b => Sys2Proof.Machine.execPinv p d a b s
  | .pinvX p d a b => Sys2Proof.Machine.execPinvX p d a b s
  | .pcomm p a b => Sys2Proof.Machine.execPcomm p a b s
  | .pcommLoose p a b => Sys2Proof.Machine.execPcommLoose p a b s
  | .pxpl p a b => Sys2Proof.Machine.execPxpl p a b s
  | .psq p a => Sys2Proof.Machine.execPsq p a s
  | .pfloor p a => Sys2Proof.Machine.execPfloor p a s
  | .psnap p d a b => Sys2Proof.Machine.execPsnap p d a b s
  | .pqry p d a b => Sys2Proof.Machine.execPqry p d a b s
  | .sxnew p d a => Sys2Proof.Machine.execSxnew p d a s
  | .sxapp p a b => Sys2Proof.Machine.execSxapp p a b s
  | .sxqry p d a b => Sys2Proof.Machine.execSxqry p d a b s
  | .sxsave p d a b => Sys2Proof.Machine.execSxsave p d a b s
  | .sxload p d b => Sys2Proof.Machine.execSxload p d b s
  | .sxfree p a => Sys2Proof.Machine.execSxfree p a s
  | .csrr p d n => Sys2Proof.Machine.execCsrr p d n s
  | .csrw p a n => Sys2Proof.Machine.execCsrw p a n s
  | .fence p sc => Sys2Proof.Machine.execFence p sc s
  | .trap p a => Sys2Proof.Machine.execTrap p a s
  | .rte p => Sys2Proof.Machine.execRte p s
  | .ctxsv p a b => Sys2Proof.Machine.execCtxsv p a b s
  | .ctxld p a => Sys2Proof.Machine.execCtxld p a s
  | .tlbinv p a b => Sys2Proof.Machine.execTlbinv p a b s
  | .cflush p a b => Sys2Proof.Machine.execCflush p a b s
  | .cinv p a b => Sys2Proof.Machine.execCinv p a b s
  | .ggrd p a b => Sys2Proof.Machine.execGgrd p a b s
  | .ggset p a b => Sys2Proof.Machine.execGgset p a b s
  | .tld p qa qb => Sys2Proof.Machine.execTld p qa qb s
  | .tldT p qa qb => Sys2Proof.Machine.execTldT p qa qb s
  | .pld p qa qb pol ret len => Sys2Proof.Machine.execPld p qa qb pol ret len s
  | .gath p qa qb qc => Sys2Proof.Machine.execGath p qa qb qc s
  | .mcast p qa qb => Sys2Proof.Machine.execMcast p qa qb s
  | .ccopy p qa qb ch => Sys2Proof.Machine.execCcopy p qa qb ch s
  | .coll p qa qb ch => Sys2Proof.Machine.execColl p qa qb ch s
  | .mzero p a sh i32 => Sys2Proof.Machine.execMzero p a sh i32 s
  | .mma p a sh qa qb rep => Sys2Proof.Machine.execMma p a sh qa qb rep s
  | .mcommit p a => Sys2Proof.Machine.execMcommit p a s
  | .mdiscard p a => Sys2Proof.Machine.execMdiscard p a s
  | .mlda p a sh qa => Sys2Proof.Machine.execMlda p a sh qa s
  | .msta p a sh qa ty => Sys2Proof.Machine.execMsta p a sh qa ty s
  | .mret p a qa ty => Sys2Proof.Machine.execMret p a qa ty s
  | .mchk p qa => Sys2Proof.Machine.execMchk p qa s
  | .tst p qa qb mk qm => Sys2Proof.Machine.execTst p qa qb mk qm s
  | .tadd p qa qb mk qm => Sys2Proof.Machine.execTadd p qa qb mk qm s
  | .pst p qa qb pol len => Sys2Proof.Machine.execPst p qa qb pol len s
  | .scat p qa qb qc => Sys2Proof.Machine.execScat p qa qb qc s
  | .upd p qa qb qc op => Sys2Proof.Machine.execUpd p qa qb qc op s
  | .eloop p ln len cnt => Sys2Proof.Machine.execEloop p ln len cnt s
  | .enext p ln q => Sys2Proof.Machine.execEnext p ln q s
  | .ebrq p disp => Sys2Proof.Machine.execEbrq p disp s
  | .ejmp p disp => Sys2Proof.Machine.execEjmp p disp s
  | .etok p => Sys2Proof.Machine.execEtok p s
  | .ehalt p => Sys2Proof.Machine.execEhalt p s
  | .qget p q fld => Sys2Proof.Machine.execQget p q fld s
  | .qseti p q fld imm => Sys2Proof.Machine.execQseti p q fld imm s
  | .efence p sc => Sys2Proof.Machine.execEfence p sc s
  | .gget p n => Sys2Proof.Machine.execGget p n s
  | .gseti p n b => Sys2Proof.Machine.execGseti p n b s
  | .vadd p d a b => Sys2Proof.Machine.execVadd p d a b s
  | .vsub p d a b => Sys2Proof.Machine.execVsub p d a b s
  | .vmul p d a b => Sys2Proof.Machine.execVmul p d a b s
  | .vmin p d a b => Sys2Proof.Machine.execVmin p d a b s
  | .vmax p d a b => Sys2Proof.Machine.execVmax p d a b s
  | .vfma p d a b => Sys2Proof.Machine.execVfma p d a b s
  | .vfnma p d a b => Sys2Proof.Machine.execVfnma p d a b s
  | .vabs p d a => Sys2Proof.Machine.execVabs p d a s
  | .vneg p d a => Sys2Proof.Machine.execVneg p d a s
  | .vrcp p d a => Sys2Proof.Machine.execVrcp p d a s
  | .vrsq p d a => Sys2Proof.Machine.execVrsq p d a s
  | .vsqrt p d a => Sys2Proof.Machine.execVsqrt p d a s
  | .vexp2 p d a => Sys2Proof.Machine.execVexp2 p d a s
  | .vlog2 p d a => Sys2Proof.Machine.execVlog2 p d a s
  | .vsig p d a => Sys2Proof.Machine.execVsig p d a s
  | .viadd p d a b => Sys2Proof.Machine.execViadd p d a b s
  | .visub p d a b => Sys2Proof.Machine.execVisub p d a b s
  | .vimul p d a b => Sys2Proof.Machine.execVimul p d a b s
  | .vand p d a b => Sys2Proof.Machine.execVand p d a b s
  | .vor p d a b => Sys2Proof.Machine.execVor p d a b s
  | .vxor p d a b => Sys2Proof.Machine.execVxor p d a b s
  | .vshl p d a b => Sys2Proof.Machine.execVshl p d a b s
  | .vshr p d a b => Sys2Proof.Machine.execVshr p d a b s
  | .vsra p d a b => Sys2Proof.Machine.execVsra p d a b s
  | .vimin p d a b => Sys2Proof.Machine.execVimin p d a b s
  | .vimax p d a b => Sys2Proof.Machine.execVimax p d a b s
  | .vcmp p cc a b => Sys2Proof.Machine.execVcmp p cc a b s
  | .minv p => Sys2Proof.Machine.execMinv p s
  | .mpop p => Sys2Proof.Machine.execMpop p s
  | .vrsum p d a => Sys2Proof.Machine.execVrsum p d a s
  | .vrmax p d a => Sys2Proof.Machine.execVrmax p d a s
  | .vrmin p d a => Sys2Proof.Machine.execVrmin p d a s
  | .vrarg p d a => Sys2Proof.Machine.execVrarg p d a s
  | .vcvt p d a ty => Sys2Proof.Machine.execVcvt p d a ty s
  | .vpack p d a ty => Sys2Proof.Machine.execVpack p d a ty s
  | .vpackSq p d a ty => Sys2Proof.Machine.execVpackSq p d a ty s
  | .vunpk p d a ty => Sys2Proof.Machine.execVunpk p d a ty s
  | .vcvtNsat p d a ty => Sys2Proof.Machine.execVcvtNsat p d a ty s
  | .vmov p d a => Sys2Proof.Machine.execVmov p d a s
  | .vbcast p d a b => Sys2Proof.Machine.execVbcast p d a b s
  | .vperm p d a b => Sys2Proof.Machine.execVperm p d a b s
  | .vsel p d a b => Sys2Proof.Machine.execVsel p d a b s
  | .viota p d => Sys2Proof.Machine.execViota p d s
  | .vaddVC p d a sl => Sys2Proof.Machine.execVaddVC p d a sl s
  | .vsubVC p d a sl => Sys2Proof.Machine.execVsubVC p d a sl s
  | .vmulVC p d a sl => Sys2Proof.Machine.execVmulVC p d a sl s
  | .vminVC p d a sl => Sys2Proof.Machine.execVminVC p d a sl s
  | .vmaxVC p d a sl => Sys2Proof.Machine.execVmaxVC p d a sl s
  | .vfmaVC p d a sl => Sys2Proof.Machine.execVfmaVC p d a sl s
  | .vfnmaVC p d a sl => Sys2Proof.Machine.execVfnmaVC p d a sl s
  | .viaddVC p d a sl => Sys2Proof.Machine.execViaddVC p d a sl s
  | .visubVC p d a sl => Sys2Proof.Machine.execVisubVC p d a sl s
  | .vimulVC p d a sl => Sys2Proof.Machine.execVimulVC p d a sl s
  | .vandVC p d a sl => Sys2Proof.Machine.execVandVC p d a sl s
  | .vorVC p d a sl => Sys2Proof.Machine.execVorVC p d a sl s
  | .vxorVC p d a sl => Sys2Proof.Machine.execVxorVC p d a sl s
  | .vshlVC p d a sl => Sys2Proof.Machine.execVshlVC p d a sl s
  | .vshrVC p d a sl => Sys2Proof.Machine.execVshrVC p d a sl s
  | .vsraVC p d a sl => Sys2Proof.Machine.execVsraVC p d a sl s
  | .viminVC p d a sl => Sys2Proof.Machine.execViminVC p d a sl s
  | .vimaxVC p d a sl => Sys2Proof.Machine.execVimaxVC p d a sl s
  | .vcmpVC p cc a sl => Sys2Proof.Machine.execVcmpVC p cc a sl s
  | .vshape p sl => Sys2Proof.Machine.execVshape p sl s
  | .vbcastVC p d sl => Sys2Proof.Machine.execVbcastVC p d sl s
  | .vcvtSr p dst d a sl => Sys2Proof.Machine.execVcvtSr p dst d a sl s
  | .vld p d a k => Sys2Proof.Machine.execVld p d a k s
  | .vst p d a k => Sys2Proof.Machine.execVst p d a k s
  | .vlda p d acc row => Sys2Proof.Machine.execVlda p d acc row s
  | .vpld p c a => Sys2Proof.Machine.execVpld p c a s
  | .vslist p d a => Sys2Proof.Machine.execVslist p d a s
  | .vsmass p d a => Sys2Proof.Machine.execVsmass p d a s
  | .vspick p d a b => Sys2Proof.Machine.execVspick p d a b s
  | .vsfull p d a b => Sys2Proof.Machine.execVsfull p d a b s
  | .xloop p ln cnt len => Sys2Proof.Machine.execXloop p ln cnt len s
  | .xnext p ln q => Sys2Proof.Machine.execXnext p ln q s
  | .xbrq p disp => Sys2Proof.Machine.execXbrq p disp s
  | .xjmp p disp => Sys2Proof.Machine.execXjmp p disp s
  | .xjmpInd p a => Sys2Proof.Machine.execXjmpInd p a s
  | .xbrz p disp => Sys2Proof.Machine.execXbrz p disp s
  | .xtok p => Sys2Proof.Machine.execXtok p s
  | .xend p => Sys2Proof.Machine.execXend p s
  | .xqget p d ln => Sys2Proof.Machine.execXqget p d ln s
  | .xqgetL p ln => Sys2Proof.Machine.execXqgetL p ln s
  | .xqput p a => Sys2Proof.Machine.execXqput p a s
  | .xgget p n => Sys2Proof.Machine.execXgget p n s
  | .xgseti p n b => Sys2Proof.Machine.execXgseti p n b s
  | .vfmai d a imm => Sys2Proof.Machine.execVfmai d a imm s
  | .placement part => Sys2Proof.Machine.execPlacement part s
  | .loadComplete part job => Sys2Proof.Machine.execLoadComplete part job s
  | .loadFailure part job => Sys2Proof.Machine.execLoadFailure part job s
  | .sliceEnd part job => Sys2Proof.Machine.execSliceEnd part job s
  | .asyncFault op va code => Sys2Proof.Machine.execAsyncFault op va code s
  | .dbarComplete core n => Sys2Proof.Machine.execDbarComplete core n s
  | .walkComplete part va => Sys2Proof.Machine.execWalkComplete part va s
  | .cellarFetchComplete part entryPa va => Sys2Proof.Machine.execCellarFetchComplete part entryPa va s
  | .conduitEntryStart die part => Sys2Proof.Machine.execConduitEntryStart die part s
  | .ccopyComplete op data => Sys2Proof.Machine.execCcopyComplete op data s
  | .collHop op rank via m => Sys2Proof.Machine.execCollHop op rank via m s
  | .collComplete op => Sys2Proof.Machine.execCollComplete op s
  | .cdelayHoldEnd op => Sys2Proof.Machine.execCdelayHoldEnd op s
  | .lineData core line => Sys2Proof.Machine.execLineData core line s
  | .writeBackAck core line => Sys2Proof.Machine.execWriteBackAck core line s
  | .invalidation core line => Sys2Proof.Machine.execInvalidation core line s
  | .invalidationAck core line => Sys2Proof.Machine.execInvalidationAck core line s
  | .forwardedRequest owner line k => Sys2Proof.Machine.execForwardedRequest owner line k s
  | .forwardReply owner line k => Sys2Proof.Machine.execForwardReply owner line k s
  | .homeRequest r => Sys2Proof.Machine.execHomeRequest r s
  | .farZeroingComplete region => Sys2Proof.Machine.execFarZeroingComplete region s
  | .writeReply m => Sys2Proof.Machine.execWriteReply m s
  | .nop => Sys2Proof.Machine.execNop s
  | .powerOn => Sys2Proof.Machine.execPowerOn s
  | .dutyPeriod watts => Sys2Proof.Machine.execDutyPeriod watts s
  | .thermalTrip => Sys2Proof.Machine.execThermalTrip s
  | .linkDown port => Sys2Proof.Machine.execLinkDown port s
  | .linkUp l => Sys2Proof.Machine.execLinkUp l s
  | .cxlLinkDown port => Sys2Proof.Machine.execCxlLinkDown port s
  | .connectionTimeout conn => Sys2Proof.Machine.execConnectionTimeout conn s
  | .correctableError core => Sys2Proof.Machine.execCorrectableError core s
  | .freezeEnd core => Sys2Proof.Machine.execFreezeEnd core s
  | .uncorrectableError site => Sys2Proof.Machine.execUncorrectableError site s
  | .gaugeSample g v => Sys2Proof.Machine.execGaugeSample g v s
  | .junctionThrottlePoint die hot => Sys2Proof.Machine.execJunctionThrottlePoint die hot s
  | .packetDrop port => Sys2Proof.Machine.execPacketDrop port s
  | .write m => Sys2Proof.Machine.execWrite m s
  | .read m => Sys2Proof.Machine.execRead m s
  | .cmd m => Sys2Proof.Machine.execCmd m s
  | .cancel m => Sys2Proof.Machine.execCancel m s
  | .attest m => Sys2Proof.Machine.execAttest m s
  | .quote => Sys2Proof.Machine.execQuote s
  | .badType m => Sys2Proof.Machine.execBadType m s
  | .notifyAck place => Sys2Proof.Machine.execNotifyAck place s
  | .health m => Sys2Proof.Machine.execHealth m s
  | .idkey m => Sys2Proof.Machine.execIdkey m s
  | .partCreate m => Sys2Proof.Machine.execPartCreate m s
  | .partDestroy m => Sys2Proof.Machine.execPartDestroy m s
  | .setPorts m => Sys2Proof.Machine.execSetPorts m s
  | .setWeight m => Sys2Proof.Machine.execSetWeight m s
  | .setSluice m => Sys2Proof.Machine.execSetSluice m s
  | .setCellar m => Sys2Proof.Machine.execSetCellar m s
  | .setFar m => Sys2Proof.Machine.execSetFar m s
  | .setGauge m => Sys2Proof.Machine.execSetGauge m s
  | .loadDisp m => Sys2Proof.Machine.execLoadDisp m s
  | .setPower m => Sys2Proof.Machine.execSetPower m s
  | .fwUpdate m => Sys2Proof.Machine.execFwUpdate m s
  | .clearHealth m => Sys2Proof.Machine.execClearHealth m s
  | .reset m => Sys2Proof.Machine.execReset m s
  | .setAuthority m => Sys2Proof.Machine.execSetAuthority m s
  | .fwPrefer m => Sys2Proof.Machine.execFwPrefer m s
  | .unlistedOperation m => Sys2Proof.Machine.execUnlistedOperation m s
  | .coreRelease core => Sys2Proof.Machine.execCoreRelease core s
  | .coreLeave core => Sys2Proof.Machine.execCoreLeave core s
  | .yieldDeadline core => Sys2Proof.Machine.execYieldDeadline core s
  | .outcomeResolve core st => Sys2Proof.Machine.execOutcomeResolve core st s
  | .tokenStall core st => Sys2Proof.Machine.execTokenStall core st s
  | .kwaitTimeout core => Sys2Proof.Machine.execKwaitTimeout core s
  | .trapTaken core => Sys2Proof.Machine.execTrapTaken core s
  | .unassignedWord w => Sys2Proof.Machine.execUnassignedWord w s
  | .fetchRange => Sys2Proof.Machine.execFetchRange s
  | .writeBack core line => Sys2Proof.Machine.execWriteBack core line s
  | .evictionNotice core line => Sys2Proof.Machine.execEvictionNotice core line s
  | .fenceMarker cistern core => Sys2Proof.Machine.execFenceMarker cistern core s
  | .evbaseWrite core v => Sys2Proof.Machine.execEvbaseWrite core v s
  | .ptrootWrite core v => Sys2Proof.Machine.execPtrootWrite core v s
  | .clkctlWrite core v => Sys2Proof.Machine.execClkctlWrite core v s
  | .ppoolWrite core v => Sys2Proof.Machine.execPpoolWrite core v s
  | .sxpoolWrite core v => Sys2Proof.Machine.execSxpoolWrite core v s
  | .kbaseWrite core v => Sys2Proof.Machine.execKbaseWrite core v s
  | .dpaddrWrite core v => Sys2Proof.Machine.execDpaddrWrite core v s
  | .domWrite core n v => Sys2Proof.Machine.execDomWrite core n v s
  | .lkaheadWrite core v => Sys2Proof.Machine.execLkaheadWrite core v s
  | .cdelayWrite core v => Sys2Proof.Machine.execCdelayWrite core v s
  | .cstatWrite core v => Sys2Proof.Machine.execCstatWrite core v s
  | .capbaseWrite core v => Sys2Proof.Machine.execCapbaseWrite core v s

end Sys2Proof.Machine
end

