-- ==== Sys2Proof/Machine/Turn.lean ====
section
/-! DEFINITION. Whose turn it is and what it does: the next event in flight, or the next word of a stream (05_streams R78;
14_formats R236, R237, R253; 11_traps R192, R194, R202; logs 1 and 2), and what comes with a cycle (R12, R21, R267). -/

namespace Sys2Proof.Machine

/-! ## Fetching (R78, R236, R253) -/

/-- What a stream fetches at its program counter: a word of its image with its literal, the word that is no instruction,
or none where a word past the image or a poisoned one is met. -/
inductive Fetched where
  | instr (i : Instr)
  | unassigned (w : Word)
  | none
  deriving DecidableEq, Repr

/-- A word of an image that can be fetched. -/
def Engine.wordAt (e : Engine) (n : Nat) : Option Word := if e.bad.contains n then none else e.img[n]?

/-- The instruction at a stream's program counter. An unassigned word is found before its literal is fetched. -/
def Engine.fetch (e : Engine) (st : Stream) : Fetched :=
  match e.wordAt (e.pc / 4) with
  | none => .none
  | some w =>
    match decodeWord st w.toNat 0 with
    | .error _ => .unassigned w
    | .ok i =>
      if hasLiteral st w.toNat then
        match e.wordAt (e.pc / 4 + 1) with
        | none => .none
        | some lit =>
          match decodeWord st w.toNat lit.toNat with
          | .ok i => .instr i
          | .error _ => .unassigned w
      else .instr i

/-! ## Registers that an error can strike (R202) -/

/-- The prefix and the source registers of an S word. -/
def sReads : Instr → Option (Pr × List (Fin 32))
  | .kwait p _ a b _ cl => some (p, if cl then [a, b] else [a])
  | .add p _ a b | .sub p _ a b | .mul p _ a b | .mulh p _ a b | .div p _ a b | .rem p _ a b | .and p _ a b
  | .or p _ a b | .xor p _ a b | .shl p _ a b | .shr p _ a b | .sra p _ a b | .min p _ a b | .max p _ a b
  | .mulhN p _ a b | .divN p _ a b | .remN p _ a b | .minN p _ a b | .maxN p _ a b | .cmp p _ a b _ | .sel p _ a b _
  | .fadd p _ a b | .fsub p _ a b | .fmul p _ a b | .fmin p _ a b | .fmax p _ a b | .fcmp p _ a b _ | .evsig p a b _
  | .evwait p a b | .mbsend p a b _ | .hfork p _ a b | .pinv p _ a b | .pinvX p _ a b | .pcomm p a b
  | .pcommLoose p a b | .pxpl p a b | .psnap p _ a b | .pqry p _ a b | .sxapp p a b | .sxqry p _ a b
  | .sxsave p _ a b | .ctxsv p a b | .tlbinv p a b | .cflush p a b | .cinv p a b | .ggrd p a b | .ggset p a b => some (p, [a, b])
  | .clz p _ a | .popc p _ a | .addi p _ a _ | .andi p _ a _ | .ori p _ a _ | .xori p _ a _ | .shli p _ a _
  | .shri p _ a _ | .srai p _ a _ | .cmpi p _ a _ _ | .fcvt p _ a _ _ _ | .bc p _ a _ | .jr p a | .loop p _ a _
  | .kset p a _ | .ksig p a _ | .qput p a _ | .outc p a _ | .opb p a | .hmsg p a _ | .tdef p _ a | .tfree p a
  | .hrel p a | .popenOw p a | .popenAd p a | .pseal p a | .pdrop p a | .psq p a | .pfloor p a | .sxnew p _ a
  | .sxfree p a | .csrw p a _ | .trap p a | .ctxld p a => some (p, [a])
  | .lui p _ _ | .plog p _ _ _ _ | .b p _ | .call p _ | .lend p _ | .qtake p _ _ | .rdv p | .dbar p _ _ _ | .jend p
  | .mbrecv p _ _ | .csrr p _ _ | .fence p _ | .rte p => some (p, [])
  | .ffma p _ a b e => some (p, [a, b, e])
  | .ret p => some (p, [31])
  | .ld p _ b _ _ _ | .launch p _ b _ | .sxload p _ b => some (p, [b])
  | .st p d b _ _ _ => some (p, [d, b])
  | .amo p _ b a _ _ _ | .red p b a _ _ _ => some (p, [b, a])
  | .cas p d b a _ _ => some (p, [d, b, a])
  | _ => none

/-- The prefix of a word of L, M or W, and its stream registers, each with the fields of it that the word reads (R278): those of
its role, FMT where the format counts, and XPOSE in `mma`. -/
def eReads : Instr → Option (EPre × List (Fin 16 × List Nat))
  | .tld p qa qb | .tldT p qa qb => some (p, [(qa, 1 :: Role.basin.fields), (qb, Role.tensor.fields)])
  | .gath p qa qb qc => some (p, [(qa, 1 :: Role.basin.fields), (qb, Role.tensor.fields), (qc, Role.basin.fields)])
  | .pld p qa qb _ ret _ =>
    some (p, if ret then [(qa, Role.plain.fields)] else [(qa, Role.basin.fields), (qb, Role.plain.fields)])
  | .mcast p qa qb => some (p, [(qa, Role.multicast.fields), (qb, 1 :: Role.basin.fields)])
  | .ccopy p qa qb _ | .coll p qa qb _ => some (p, [(qa, Role.descriptor.fields), (qb, Role.plain.fields)])
  | .mma p _ _ qa qb _ => some (p, [(mmaA qa, 1 :: 4 :: Role.basin.fields), (mmaB qb, 1 :: 4 :: Role.basin.fields)])
  | .mlda p _ _ qa => some (p, [(qa, 1 :: Role.basin.fields)])
  | .msta p _ _ qa _ | .mret p _ qa _ | .mchk p qa => some (p, [(qa, Role.basin.fields)])
  | .tst p qa qb mk qm | .tadd p qa qb mk qm => some (p, [(qa, Role.tensor.fields), (qb, 1 :: Role.basin.fields)] ++
      if mk then [(qm, Role.basin.fields)] else [])
  | .pst p qa qb _ _ => some (p, [(qa, Role.plain.fields), (qb, Role.basin.fields)])
  | .scat p qa qb qc => some (p, [(qa, Role.tensor.fields), (qb, 1 :: Role.basin.fields), (qc, Role.basin.fields)])
  | .upd p qa qb qc _ => some (p, [(qa, Role.tensor.fields), (qb, 1 :: Role.basin.fields), (qc, 1 :: Role.basin.fields)])
  | _ => none

/-- The operand record of a word whose turn has come, where it is to read a poisoned register of S or a poisoned field of a
stream register: a false guard reads none of them, a word of L, M or W reads them when it takes its tokens, and one that has
issued has read them (R202; log 15). -/
def Core.readsBad (k : Core) (st : Stream) (i : Instr) : Option (List DWord) :=
  let e := k.eng st
  if e.issued then none
  else match sReads i, eReads i with
    | some (p, rs), _ =>
      if (k.p p.r != p.neg) && rs.any fun r => r != 0 && k.sregBad.contains r.val then some (srcs rs k) else none
    | none, some (p, qs) =>
      if (e.g p.g != p.neg) && (k.takeStop st p.tok).isNone &&
          qs.any fun q => q.2.any fun f => e.regsBad.contains (.reg (6 * q.1.val + f)) then
        some (qs.map fun q => (e.qr q.1).base)
      else none
    | none, none => none

/-- Cycles that a stream has waited, up to now, for what its word takes; none where it does not wait. -/
def State.waited (s : State) (codes : List Nat) : Nat :=
  match (s.eng s.core s.stream).wait with
  | some w => if codes.contains w.code then s.now - w.since else 0
  | none => 0

/-- Whether a word has taken tokens between two states of its core. -/
def tookTokens (a b : Core) (st : Stream) : Bool :=
  st != .S && (decide (b.fwdAt (inPair st) < a.fwdAt (inPair st)) || decide (b.backAt (outPair st) < a.backAt (outPair st)))

/-- Whether a word has taken an entry of a queue. -/
def tookEntry (a b : Core) (st : Stream) : Instr → Bool
  | .qtake _ _ fromL => decide ((b.rqAt (num fromL)).length < (a.rqAt (num fromL)).length)
  | _ => st != .S && decide ((b.sqAt (queueOf st)).length < (a.sqAt (queueOf st)).length)

/-- The core's gauges sample how long a word that left state `t` waited on the tokens and on the queue entry that it took: one
sample for each word (sources 0x02 and 0x03 of R21; log 41). -/
def State.sampleWaits (s t : State) (i : Instr) : State :=
  let a := s.coreAt s.core
  let b := t.coreAt s.core
  let t := if tookTokens a b s.stream then t.sampleCore s.core 0x02 (s.waited [1, 2]) else t
  if tookEntry a b s.stream i then t.sampleCore s.core 0x03 (s.waited [4]) else t

/-- Execute the word whose turn it is, and sample its waits. -/
def State.runWord (i : Instr) (s : State) : Out :=
  match exec i s with
  | .next t => .next (s.sampleWaits t i)
  | o => o

/-- A stream that can issue fetches, decodes and executes one instruction. -/
def State.issue (s : State) : Out :=
  match (s.eng s.core s.stream).fetch s.stream with
  | .instr i =>
    match (s.coreAt s.core).readsBad s.stream i with
    | some ops => .next (s.regsTrap ops)
    | none => s.runWord i
  | .unassigned w => execUnassignedWord w s
  | .none => execFetchRange s

/-! ## A stream's turn -/

/-- Make a stream's pending gives, which come before anything else it does (R194). -/
def State.giveFirst (s : State) : State :=
  let k := (s.coreAt s.core).makeGives s.stream
  let e := k.eng s.stream
  if e.gs || e.gp then (s.setCore s.core k).waitGive s.core s.stream
  else s.setCore s.core (k.setEng s.stream { e with wait := none })

/-- An outcome has come for the oldest unresolved iteration. One in a poisoned queue is taken by the closing word itself, to
which the stream returns (R93, R202). -/
def State.outcome (s : State) : Out :=
  if (s.eng s.core s.stream).regsBad.contains .queues then .next (s.onCore s.core fun k => k.discard s.stream)
  else execOutcomeResolve s.core s.stream s

/-- A running stream: its pending gives, an outcome that has arrived, or its next instruction. A stream that holds a
fault, or that is halted, stands; an S stream that started halted (R57) still runs the trap handler (R192). -/
def State.runStream (s : State) : Out :=
  let k := s.coreAt s.core
  let e := k.eng s.stream
  if e.gs || e.gp then .next s.giveFirst
  else if !e.spec.isEmpty && !(k.sqAt (queueOf s.stream)).isEmpty then s.outcome
  else if (e.spec.getLast?.bind Iter.fault).isSome || (e.halted && !k.thnd) then .next s
  else s.issue

/-- The turn of a core that is stopped: what its S stream stands for is the Hall's work on it; under a hard pre-emption M
runs on until it is to stop, and a word that has issued runs to its retirement (R76, R81, R194). -/
def State.stoppedTurn (s : State) (k : Core) : Out :=
  match k.run, s.stream with
  | .leaving, .S => if k.leaveByJend then execCoreRelease s.core s else execCoreLeave s.core s
  | .preempting, st =>
    if st = .M && !k.mStopped s.now then s.runStream
    else if (k.eng st).issued then s.issue
    else .next (if st = .S && s.preemptDone s.core then s.savePreempted s.core else s)
  | _, _ => .next s

/-- The turn of a core that a trap has stopped: a word that has issued runs to its retirement, and the trap is then taken
(R194). -/
def State.stoppingTurn (s : State) (k : Core) : Out :=
  if (k.eng s.stream).issued then s.issue else .next (s.endStop s.core)

/-- A freeze whose last cycle has passed ends at the turn of S, with which a round of the core's streams begins, so that
their timing relative to each other stays (R202). -/
def State.thaw (s : State) : State :=
  if s.stream = .S then
    match execFreezeEnd s.core s with
    | .next t => t
    | _ => s
  else s

/-- The turn of a stream of a core. -/
def State.streamTurn (s : State) : Out :=
  let s := s.thaw
  let k := s.coreAt s.core
  if k.freezeEnd.isSome then .next s
  else if k.run ≠ .running then s.stoppedTurn k
  else if k.stopping.isSome then s.stoppingTurn k
  else if !k.kept.isEmpty && !k.thnd then execTrapTaken s.core s
  else if (k.yieldAt.map fun t => decide (t + yieldLimit ≤ s.now)) == some true then execYieldDeadline s.core s
  else if k.thnd && s.stream ≠ .S then .next s
  else s.runStream

/-! ## The turns in order (log 2) -/

/-- Whether an event is a message of the coherence protocol, or a request at its home (R149, R150). -/
def coherent : Instr → Bool
  | .lineData _ _ | .writeBack _ _ | .writeBackAck _ _ | .evictionNotice _ _ | .invalidation _ _ | .invalidationAck _ _
  | .forwardedRequest _ _ _ | .forwardReply _ _ _ | .homeRequest _ | .fenceMarker _ _ => true
  | _ => false

/-- The oldest event in flight happens. The agents that act in it are no cores, and what they read waits at its home for a line
that is held (R150). -/
def State.nextEvent (s : State) : Out :=
  match s.events with
  | [] => .next s
  | e :: rest =>
    let s := { s with events := rest }
    exec e (if coherent e then s else s.calm)

/-- The turn of the queue: a destruction that has nothing left to wait for, else the oldest event in flight. -/
def State.eventTurn (s : State) : Out :=
  match s.dev.destroying with
  | some m => if s.destroyWaits (forPart m) then s.nextEvent else .next (s.calm.goOnDestroy m)
  | none => s.nextEvent

/-- The stream after a stream, within a core. -/
def streamAfter : Stream → Option Stream
  | .S => some .L
  | .L => some .M
  | .M => some .X
  | .X => some .W
  | .W => none

/-- Pass the turn on: the queue, then the streams of each core in order of core number. -/
def State.passTurn (s : State) : State :=
  if s.evTurn then
    match s.cores with
    | [] => s
    | (c, _) :: _ => { s with evTurn := false, core := c, stream := .S }
  else match streamAfter s.stream with
    | some st => { s with stream := st }
    | none =>
      match s.cores.find? fun x => decide (s.core < x.1) with
      | some x => { s with core := x.1, stream := .S }
      | none => { s with evTurn := true }

/-- A next state with the turn passed on. -/
def passOn : Out → Out
  | .next s => .next s.passTurn
  | .fault f => .fault f
  | .refused r => .refused r

/-- What the turn does in the next cycle. -/
def State.takeTurn (s : State) : Out := if s.evTurn then s.eventTurn else s.streamTurn

/-- The next cycle: the `kwait`s whose limit it is are tested in it (R267), a period of the duty may end (R12), and the gauges
sample what they watch (R21). -/
def State.tick (s : State) : State := { s with now := s.now + 1 }.dueWaits.dutyTurn.sampleQueues.sampleMisses.sampleJunction

/-! ## Placing one instruction (log 11) -/

/-- A list with the words from index `n` replaced, zeros below where there is nothing. -/
def placeWords (l : List Word) (n : Nat) (ws : List Word) : List Word :=
  (l ++ List.replicate (n - l.length) 0).take n ++ ws

/-- A stream that fetches the words given next. -/
def Engine.withWords (e : Engine) (ws : List Word) : Engine :=
  { e with
    img := placeWords e.img (e.pc / 4) ws, bad := [], halted := false, ret := none, regsBad := [], wait := none
    drain := none, walks := none, issued := false, gs := false, gp := false, spec := [], wordF := 0, wordB := 0, twins := []
    got := [], early := none }

/-- A core whose stream `st` fetches the words given next. -/
def Core.withWords (k : Core) (st : Stream) (ws : List Word) : Core :=
  ({ k with
    run := .running, kept := [], stopping := none, yieldAt := none, freezeEnd := none, thnd := k.thnd && st == Stream.S
    sregBad := [], pantryBad := [] }).onEng st
    fun e => e.withWords ws

end Sys2Proof.Machine
end

