-- ==== Sys2Proof/Machine/Step.lean ====
section
/-! DEFINITION. One step of the machine, and the placing of an instruction where the next step fetches. -/

namespace Sys2Proof.Machine

/-- One step: a cycle passes, the turn is taken, and the turn passes on (logs 1 and 2). -/
def step (s : State) : Host.Outcome State Fault Refusal := passOn s.tick.takeTurn

/-- The machine with an instruction placed at the program counter of the stream of core 0 that its word belongs to,
whose turn it then is. A literal word above `nbits` is 0 (log 11). -/
def State.withFetchWord (s : State) (_nbits w : Nat) : State :=
  let st := tableStream (w % 2 ^ 32)
  { s.onCore 0 fun k => k.withWords st [BitVec.ofNat 32 w, 0] with evTurn := false, core := 0, stream := st }

end Sys2Proof.Machine
end

