-- ==== Sys2Proof/Safety.lean ====
section
/-! DEFINITION. The terms in which the statements speak: the invariants of the state, when a word issues, what its
stream has done before and after its own effect, and the tables that the spec gives for the results of whole
families. -/

namespace Sys2Proof.Safety

open Sys2Proof Sys2Proof.Machine

/-! ## Invariants -/

/-- Memory in its canonical form: rising addresses, and no byte equal to what an unlisted one reads as. -/
def MemoryOk (s : State) : Prop := Mem.wf s.mem = true

/-! ## When a word issues -/

/-- The core whose turn it is. -/
def here (s : State) : Core := s.coreAt s.core

/-- The predicate prefix of an S word holds (R95, R240). -/
def Holds (s : State) (p : Pr) : Prop := (here s).p p.r ≠ p.neg

/-- The guard of a word of a stream of L, M, W (R245) holds. -/
def guardE (s : State) (st : Stream) (p : EPre) : Bool := (s.eng s.core st).g p.g != p.neg

/-- The guard of an X word (R248) holds. -/
def guardX (s : State) (p : XPre) : Bool := (s.eng s.core .X).g p.g != p.neg

/-- The tokens of a word are there, in FIFOs that no error has poisoned, or it has issued and has them; and its stream has no
iteration whose outcome is open (R84, R90, R202). -/
structure Ready (s : State) (st : Stream) (t : Tok) : Prop where
  tokens : (here s).takeStop st t = none
  resolved : (s.eng s.core st).spec = []

/-- S past its word: the program counter four further, one sequence number taken, no wait (R193, R254). -/
def sPast (s : State) : State := s.past s.core .S 4

/-- A core past its S word. -/
def corePast (s : State) : Core := (sPast s).coreAt s.core

/-- A word of an engine stream is about to have its effect: its tokens are taken (R83). -/
def taken (s : State) (st : Stream) (t : Tok) : State := s.setCore s.core ((here s).takeTokens st t)

/-- A word of `n` bytes of an engine stream has issued: its tokens are taken and the stream stands past it. -/
def begun (s : State) (st : Stream) (t : Tok) (n : Nat) : State :=
  (taken s st t).past s.core st n

/-- An engine word retires in state `u`, which holds its effect: it gives its tokens (R84). -/
def ended (s : State) (st : Stream) (t : Tok) (ops : List DWord) (u : State) : State :=
  u.onCore s.core fun k => k.giveTokens st t (s.eng s.core st).pc (s.eng s.core st).seq ops

/-- A precise trap of the S word at which S stands, with its operand record (R190, R191). -/
def sTrap (s : State) (code : Nat) (val : DWord) (ops : List DWord) : State :=
  s.raise s.core .S (trapOf .S (s.eng s.core .S) code val ops)

/-! ## When a step runs a word -/

/-- The stream whose turn it is runs its next word in this cycle: its core runs and holds no trap, freeze or deadline that
comes first, the handler runs on S alone, and the stream has no give, outcome, held fault or halt before it (R78, R90, R192,
R194, R202). -/
structure StreamGoes (s : State) : Prop where
  turn : s.evTurn = false
  running : (here s).run = .running
  going : (here s).stopping = none
  thawed : (here s).freezeEnd = none
  noTrap : (here s).kept = [] ∨ (here s).thnd = true
  noDeadline : ∀ n, (here s).yieldAt = some n → s.now < n + yieldLimit
  handler : (here s).thnd = true → s.stream = .S
  given : (s.eng s.core s.stream).gs = false ∧ (s.eng s.core s.stream).gp = false
  noOutcome : (s.eng s.core s.stream).spec = [] ∨ (here s).sqAt (queueOf s.stream) = []
  noFault : ∀ x, (s.eng s.core s.stream).spec.getLast? = some x → x.fault = none
  awake : (s.eng s.core s.stream).halted = false ∨ (here s).thnd = true

/-- The words that lie at a stream's program counter and after it, none of them poisoned (R78, R202). -/
def wordsAt (e : Engine) (ws : List Word) : Prop :=
  ∀ k w, ws[k]? = some w → e.pc / 4 + k ∉ e.bad ∧ e.img[e.pc / 4 + k]? = some w

/-- The value of a register of R358 after reset, by the Reset columns of their maps; CSTAT carries the core's number
(R359). -/
def resetValue (c n : Nat) : DWord :=
  if n = 0x000 then .ofNat 64 (c % 256 * 256)
  else if n = 0x001 then 0x01000000
  else if 0x008 ≤ n ∧ n ≤ 0x00B then 0x100000000
  else if n = 0x101 then 20
  else 0

/-! ## Words by format -/

/-- The predicate prefix of an S word that has one (R240). -/
def prefixS : Instr → Option Pr
  | .add p .. => some p
  | .sub p .. => some p
  | .mul p .. => some p
  | .mulh p .. => some p
  | .div p .. => some p
  | .rem p .. => some p
  | .and p .. => some p
  | .or p .. => some p
  | .xor p .. => some p
  | .shl p .. => some p
  | .shr p .. => some p
  | .sra p .. => some p
  | .min p .. => some p
  | .max p .. => some p
  | .clz p .. => some p
  | .popc p .. => some p
  | .mulhN p .. => some p
  | .divN p .. => some p
  | .remN p .. => some p
  | .minN p .. => some p
  | .maxN p .. => some p
  | .addi p .. => some p
  | .andi p .. => some p
  | .ori p .. => some p
  | .xori p .. => some p
  | .shli p .. => some p
  | .shri p .. => some p
  | .srai p .. => some p
  | .lui p .. => some p
  | .cmp p .. => some p
  | .cmpi p .. => some p
  | .sel p .. => some p
  | .plog p .. => some p
  | .fadd p .. => some p
  | .fsub p .. => some p
  | .fmul p .. => some p
  | .fmin p .. => some p
  | .fmax p .. => some p
  | .ffma p .. => some p
  | .fcmp p .. => some p
  | .fcvt p .. => some p
  | .b p .. => some p
  | .call p .. => some p
  | .bc p .. => some p
  | .jr p .. => some p
  | .ret p .. => some p
  | .loop p .. => some p
  | .lend p .. => some p
  | .ld p .. => some p
  | .st p .. => some p
  | .amo p .. => some p
  | .red p .. => some p
  | .cas p .. => some p
  | .kset p .. => some p
  | .ksig p .. => some p
  | .kwait p .. => some p
  | .qput p .. => some p
  | .outc p .. => some p
  | .qtake p .. => some p
  | .launch p .. => some p
  | .evsig p .. => some p
  | .evwait p .. => some p
  | .rdv p .. => some p
  | .dbar p .. => some p
  | .opb p .. => some p
  | .jend p .. => some p
  | .mbsend p .. => some p
  | .mbrecv p .. => some p
  | .hmsg p .. => some p
  | .tdef p .. => some p
  | .tfree p .. => some p
  | .hfork p .. => some p
  | .hrel p .. => some p
  | .popenOw p .. => some p
  | .popenAd p .. => some p
  | .pseal p .. => some p
  | .pdrop p .. => some p
  | .pinv p .. => some p
  | .pinvX p .. => some p
  | .pcomm p .. => some p
  | .pcommLoose p .. => some p
  | .pxpl p .. => some p
  | .psq p .. => some p
  | .pfloor p .. => some p
  | .psnap p .. => some p
  | .pqry p .. => some p
  | .sxnew p .. => some p
  | .sxapp p .. => some p
  | .sxqry p .. => some p
  | .sxsave p .. => some p
  | .sxload p .. => some p
  | .sxfree p .. => some p
  | .csrr p .. => some p
  | .csrw p .. => some p
  | .fence p .. => some p
  | .trap p .. => some p
  | .rte p .. => some p
  | .ctxsv p .. => some p
  | .ctxld p .. => some p
  | .tlbinv p .. => some p
  | .cflush p .. => some p
  | .cinv p .. => some p
  | .ggrd p .. => some p
  | .ggset p .. => some p
  | _ => none

/-- The stream and prefix of a word of L, M or W (R245) whose guard only tells whether its effect happens: all but
`eloop`, whose false guard skips the loop (R292). A control word is of the stream whose turn it is. -/
def prefixE (turn : Stream) : Instr → Option (Stream × EPre)
  | .tld p .. => some (.L, p)
  | .tldT p .. => some (.L, p)
  | .pld p .. => some (.L, p)
  | .gath p .. => some (.L, p)
  | .mcast p .. => some (.L, p)
  | .ccopy p .. => some (.L, p)
  | .coll p .. => some (.L, p)
  | .mzero p .. => some (.M, p)
  | .mma p .. => some (.M, p)
  | .mcommit p .. => some (.M, p)
  | .mdiscard p .. => some (.M, p)
  | .mlda p .. => some (.M, p)
  | .msta p .. => some (.M, p)
  | .mret p .. => some (.M, p)
  | .mchk p .. => some (.M, p)
  | .tst p .. => some (.W, p)
  | .tadd p .. => some (.W, p)
  | .pst p .. => some (.W, p)
  | .scat p .. => some (.W, p)
  | .upd p .. => some (.W, p)
  | .enext p .. => some (turn, p)
  | .ebrq p .. => some (turn, p)
  | .ejmp p .. => some (turn, p)
  | .etok p .. => some (turn, p)
  | .ehalt p .. => some (turn, p)
  | .qget p .. => some (turn, p)
  | .qseti p .. => some (turn, p)
  | .efence p .. => some (turn, p)
  | .gget p .. => some (turn, p)
  | .gseti p .. => some (turn, p)
  | _ => none

/-- The prefix of a VR, VC or VM word (R248) whose guard only tells whether its effect happens: all but `xloop`,
whose false guard skips the loop. -/
def prefixX : Instr → Option XPre
  | .vadd p .. => some p
  | .vsub p .. => some p
  | .vmul p .. => some p
  | .vmin p .. => some p
  | .vmax p .. => some p
  | .vfma p .. => some p
  | .vfnma p .. => some p
  | .vabs p .. => some p
  | .vneg p .. => some p
  | .vrcp p .. => some p
  | .vrsq p .. => some p
  | .vsqrt p .. => some p
  | .vexp2 p .. => some p
  | .vlog2 p .. => some p
  | .vsig p .. => some p
  | .viadd p .. => some p
  | .visub p .. => some p
  | .vimul p .. => some p
  | .vand p .. => some p
  | .vor p .. => some p
  | .vxor p .. => some p
  | .vshl p .. => some p
  | .vshr p .. => some p
  | .vsra p .. => some p
  | .vimin p .. => some p
  | .vimax p .. => some p
  | .vcmp p .. => some p
  | .minv p .. => some p
  | .mpop p .. => some p
  | .vrsum p .. => some p
  | .vrmax p .. => some p
  | .vrmin p .. => some p
  | .vrarg p .. => some p
  | .vcvt p .. => some p
  | .vpack p .. => some p
  | .vpackSq p .. => some p
  | .vunpk p .. => some p
  | .vcvtNsat p .. => some p
  | .vmov p .. => some p
  | .vbcast p .. => some p
  | .vperm p .. => some p
  | .vsel p .. => some p
  | .viota p .. => some p
  | .vaddVC p .. => some p
  | .vsubVC p .. => some p
  | .vmulVC p .. => some p
  | .vminVC p .. => some p
  | .vmaxVC p .. => some p
  | .vfmaVC p .. => some p
  | .vfnmaVC p .. => some p
  | .viaddVC p .. => some p
  | .visubVC p .. => some p
  | .vimulVC p .. => some p
  | .vandVC p .. => some p
  | .vorVC p .. => some p
  | .vxorVC p .. => some p
  | .vshlVC p .. => some p
  | .vshrVC p .. => some p
  | .vsraVC p .. => some p
  | .viminVC p .. => some p
  | .vimaxVC p .. => some p
  | .vcmpVC p .. => some p
  | .vshape p .. => some p
  | .vbcastVC p .. => some p
  | .vcvtSr p .. => some p
  | .vld p .. => some p
  | .vst p .. => some p
  | .vlda p .. => some p
  | .vpld p .. => some p
  | .vslist p .. => some p
  | .vsmass p .. => some p
  | .vspick p .. => some p
  | .vsfull p .. => some p
  | .xnext p .. => some p
  | .xbrq p .. => some p
  | .xjmp p .. => some p
  | .xjmpInd p .. => some p
  | .xbrz p .. => some p
  | .xtok p .. => some p
  | .xend p .. => some p
  | .xqget p .. => some p
  | .xqgetL p .. => some p
  | .xqput p .. => some p
  | .xgget p .. => some p
  | .xgseti p .. => some p
  | _ => none

/-- The bytes of an X word with its literal (R253). -/
def bytesX (i : Instr) : Nat := if i.literal.isSome then 8 else 4

/-! ## Integer results (R255, R256) -/

/-- The number of leading bits of a word that are 0. -/
def zerosBefore (x : DWord) : Nat := ((List.range 64).takeWhile fun i => !x.getLsbD (63 - i)).length

/-- The number of bits of a word that are 1. -/
def onesIn (x : DWord) : Nat := ((List.range 64).filter fun i => x.getLsbD i).length

/-- The tables of R255 and R256: the prefix, the destination and the new value of an instruction that computes on
integers, where `r` reads the source registers. Sums and products are taken of integers and narrowed at the end. -/
def integerRow (r : Fin 32 → DWord) : Instr → Option (Pr × Fin 32 × DWord)
  | .add p d a b => some (p, d, .ofInt 64 ((r a).toInt + (r b).toInt))
  | .sub p d a b => some (p, d, .ofInt 64 ((r a).toInt - (r b).toInt))
  | .mul p d a b => some (p, d, .ofInt 64 ((r a).toInt * (r b).toInt))
  | .mulh p d a b => some (p, d, .ofInt 64 ((r a).toInt * (r b).toInt / 2 ^ 64))
  | .mulhN p d a b => some (p, d, .ofNat 64 ((r a).toNat * (r b).toNat / 2 ^ 64))
  | .div p d a b => some (p, d,
      if r b = 0 then 0xFFFFFFFFFFFFFFFF#64 else .ofInt 64 (Int.tdiv (r a).toInt (r b).toInt))
  | .divN p d a b => some (p, d,
      if r b = 0 then 0xFFFFFFFFFFFFFFFF#64 else .ofNat 64 ((r a).toNat / (r b).toNat))
  | .rem p d a b => some (p, d,
      if r b = 0 then r a else .ofInt 64 ((r a).toInt - (r b).toInt * Int.tdiv (r a).toInt (r b).toInt))
  | .remN p d a b => some (p, d,
      if r b = 0 then r a else .ofNat 64 ((r a).toNat - (r b).toNat * ((r a).toNat / (r b).toNat)))
  | .and p d a b => some (p, d, r a &&& r b)
  | .or p d a b => some (p, d, r a ||| r b)
  | .xor p d a b => some (p, d, r a ^^^ r b)
  | .shl p d a b => some (p, d, .ofNat 64 ((r a).toNat * 2 ^ ((r b).toNat % 64)))
  | .shr p d a b => some (p, d, .ofNat 64 ((r a).toNat / 2 ^ ((r b).toNat % 64)))
  | .sra p d a b => some (p, d, .ofInt 64 ((r a).toInt / 2 ^ ((r b).toNat % 64)))
  | .min p d a b => some (p, d, .ofInt 64 (min (r a).toInt (r b).toInt))
  | .max p d a b => some (p, d, .ofInt 64 (max (r a).toInt (r b).toInt))
  | .minN p d a b => some (p, d, .ofNat 64 (min (r a).toNat (r b).toNat))
  | .maxN p d a b => some (p, d, .ofNat 64 (max (r a).toNat (r b).toNat))
  | .clz p d a => some (p, d, .ofNat 64 (zerosBefore (r a)))
  | .popc p d a => some (p, d, .ofNat 64 (onesIn (r a)))
  | .addi p d a imm => some (p, d, .ofInt 64 ((r a).toInt + imm.toInt))
  | .andi p d a imm => some (p, d, r a &&& .ofNat 64 imm.toNat)
  | .ori p d a imm => some (p, d, r a ||| .ofNat 64 imm.toNat)
  | .xori p d a imm => some (p, d, r a ^^^ .ofNat 64 imm.toNat)
  | .shli p d a sh => some (p, d, .ofNat 64 ((r a).toNat * 2 ^ sh.val))
  | .shri p d a sh => some (p, d, .ofNat 64 ((r a).toNat / 2 ^ sh.val))
  | .srai p d a sh => some (p, d, .ofInt 64 ((r a).toInt / 2 ^ sh.val))
  | .lui p d imm => some (p, d, .ofInt 64 (imm.toInt * 2 ^ 12))
  | _ => none

/-! ## Conditions (R239) -/

/-- What a condition says of two integer registers: the first six and the signed reading, the others natural. -/
def conditionHolds (cc : Cond) (a b : DWord) : Prop :=
  match cc with
  | .eq => a = b
  | .ne => a ≠ b
  | .lt => a.toInt < b.toInt
  | .le => a.toInt ≤ b.toInt
  | .gt => b.toInt < a.toInt
  | .ge => b.toInt ≤ a.toInt
  | .ltn => a.toNat < b.toNat
  | .len => a.toNat ≤ b.toNat
  | .gtn => b.toNat < a.toNat
  | .gen => b.toNat ≤ a.toNat

/-- The value of the immediate of `cmpi`: −128 to 127 with a signed condition, 0 to 255 with a natural one (R257). -/
def cmpiValue (cc : Cond) (imm : BitVec 8) : DWord :=
  match cc with
  | .ltn | .len | .gtn | .gen => .ofNat 64 imm.toNat
  | _ => .ofInt 64 imm.toInt

/-- The table of R257 and R258 for the words that write a predicate: prefix, predicate, and what it then says. -/
def predicateRow (k : Core) : Instr → Option (Pr × Fin 8 × Prop)
  | .cmp p pd a b cc => some (p, pd, conditionHolds cc (k.s a) (k.s b))
  | .cmpi p pd a cc imm => some (p, pd, conditionHolds cc (k.s a) (cmpiValue cc imm))
  | .plog p pd pa pb tt => some (p, pd,
      tt.getLsbD (2 * (if k.p pa then 1 else 0) + (if k.p pb then 1 else 0)) = true)
  | _ => none

/-! ## FP32 results (R259, R260) -/

/-- The low 32 bits of a register read as FP32 (R259). -/
def fp32 (v : DWord) : Val := floatVal fF32 (v.toNat % 2 ^ 32)

/-- An FP32 result: its code in the low half of a register, zeros in the high half (R259). -/
def fp32Result (v : Val) : DWord := .ofNat 64 (rne32 v)

/-- The tables of R259 and R260 for the words that write a register. -/
def floatRow (r : Fin 32 → DWord) : Instr → Option (Pr × Fin 32 × DWord)
  | .fadd p d a b => some (p, d, fp32Result ((fp32 (r a)).add (fp32 (r b))))
  | .fsub p d a b => some (p, d, fp32Result ((fp32 (r a)).add (fp32 (r b)).neg))
  | .fmul p d a b => some (p, d, fp32Result ((fp32 (r a)).mul (fp32 (r b))))
  | .fmin p d a b => some (p, d, fp32Result ((fp32 (r a)).smaller (fp32 (r b))))
  | .fmax p d a b => some (p, d, fp32Result ((fp32 (r a)).larger (fp32 (r b))))
  | .ffma p d a b e => some (p, d, fp32Result (((fp32 (r a)).mul (fp32 (r b))).add (fp32 (r e))))
  | .fcvt p d a dst src nsat =>
    let code := convert dst nsat (valOf src ((r a).toNat % 2 ^ width src))
    some (p, d, match dst with
      | .i8 | .i16 | .i32 | .i64 => .ofInt 64 (signed (width dst) code)
      | _ => .ofNat 64 code)
  | _ => none

/-- The number that a finite value stands for. -/
def rational : Val → Option Rat
  | .fin s m e => some ((if s then -1 else 1) * (m : Rat) * (2 : Rat) ^ e)
  | _ => none

/-- The distance of two numbers. -/
def apart (x y : Rat) : Rat := if x ≤ y then y - x else x - y

/-- The destination register of a word that only computes (R255 to R260). -/
def registerOf : Instr → Option (Fin 32)
  | .sel _ d .. => some d
  | i => ((integerRow (fun _ => 0) i).or (floatRow (fun _ => 0) i)).map fun e => e.2.1

/-- The destination predicate of a word that only computes. -/
def predicateOf : Instr → Option (Fin 8)
  | .cmp _ pd .. => some pd
  | .cmpi _ pd .. => some pd
  | .plog _ pd .. => some pd
  | .fcmp _ pd .. => some pd
  | _ => none

/-- The words that only compute: those that write a register or a predicate and nothing else (R255 to R260). -/
def computes (i : Instr) : Bool := (registerOf i).isSome || (predicateOf i).isSome

/-! ## Branches (R261) -/

/-- The address that a displacement in words reaches from S's word (R236, R261). -/
def branchTarget {w : Nat} (s : State) (disp : BitVec w) : Int := ((s.eng s.core .S).pc : Int) + 4 * disp.toInt

/-- S at an address. -/
def sAt (u : State) (c : Nat) (a : Nat) : State := u.onEng c .S fun e => { e with pc := a }

/-! ## Plain memory (08_coherence, 15_sequencer R263 to R267) -/

/-- The byte that a read at the home of an address finds: the owner's where a core owns the line (R146, R151). -/
def byteAt (s : State) (a : Nat) : List Byte := (s.homeRead a 1).1

/-- The copies and the directory agree (R147, R148, R152): a core holds each line once and whole; a copy that is not owned
has no dirty word; a core that holds a line owned is the owner that the directory records; the clean words of its copy are
those of memory; and a word of a reply on its way to the home is dirty in it. -/
structure Coherent (s : State) : Prop where
  apart : ∀ c, ((s.coreAt c).copies.map Prod.fst).Pairwise (· < ·)
  whole : ∀ c, ∀ e ∈ (s.coreAt c).copies, e.2.data.length = 128
  shared : ∀ c, ∀ e ∈ (s.coreAt c).copies, e.2.kind ≠ .owned → e.2.dirty = 0
  recorded : ∀ c, ∀ e ∈ (s.coreAt c).copies, e.2.kind = .owned → (s.dirAt e.1).mode = .owned c
  current : ∀ c, ∀ e ∈ (s.coreAt c).copies, e.2.kind = .owned → ∀ i, i < 128 → e.2.dirty.getLsbD (i / 4) = false →
    e.2.data[i]? = some (Mem.read s.mem (128 * e.1 + i))
  replied : ∀ c, ∀ e ∈ (s.coreAt c).copies, e.2.kind = .owned → ∀ r ∈ (s.dirAt e.1).replies,
    e.2.dirty.getLsbD (r.1 % 32) = true

/-- Nothing is under way about a line, core `c` has no store to it that is still to be performed, and its bank has room for a
write of every partition (R150, R156). -/
structure Still (s : State) (c l : Nat) : Prop where
  room : ∀ p, s.pendCount (home l) p < 65535
  quiet : s.quiet l = true
  written : s.writing c l = false

/-- The access size and the reading of a width code (R239, R263): bytes, and whether signed. -/
def accessOf : Wid → Nat × Bool
  | .i8 => (1, true)
  | .i16 => (2, true)
  | .i32 => (4, true)
  | .i64 => (8, true)
  | .n8 => (1, false)
  | .n16 => (2, false)
  | .n32 => (4, false)

/-- What a load of a width code leaves in its register: sign-extended for I types, zero-extended for N types (R263). -/
def loaded (wid : Wid) (bs : List Byte) : DWord :=
  if (accessOf wid).2 then .ofInt 64 (signed (8 * (accessOf wid).1) (leNat bs)) else .ofNat 64 (leNat bs)

/-- The address of `ld`, `st` and `launch`: the base and a displacement in units of `u` bytes (R263, R270). -/
def accessAddr (s : State) (b : Fin 32) (disp : BitVec 7) (u : Nat) : DWord :=
  .ofInt 64 (((here s).s b).toInt + disp.toInt * u)

/-- How the `ld` before which S stands meets the loads behind it: whether it waits while a later one is performed, and the
state in which it waits or goes on (R160; log 6). -/
def ordered (s : State) (d b : Fin 32) (wid : Wid) (disp : BitVec 7) : Bool × State :=
  s.loadOrder s.core .S fun u => u.loadAhead s.core d b wid disp

/-- The operand width of an atomic in bytes (R265). -/
def atomicWidth (w64 : Bool) : Nat := if w64 then 8 else 4

/-- The new value of an atomic on `w` bytes (R265). -/
def atomicResult (op : Aop) (w old arg : Nat) : Nat :=
  match op with
  | .add => (old + arg) % 2 ^ (8 * w)
  | .and => old &&& arg
  | .or => old ||| arg
  | .xor => old ^^^ arg
  | .min => if signed (8 * w) old ≤ signed (8 * w) arg then old else arg
  | .max => if signed (8 * w) old ≤ signed (8 * w) arg then arg else old
  | .minn => if old ≤ arg then old else arg
  | .maxn => if old ≤ arg then arg else old
  | .swap => arg

/-- Core `c` owns the line, and has no store to it that is still to be performed. -/
def holds (t : State) (c l : Nat) : Bool := (t.ownCopy c l).isSome && !t.writing c l

/-- Core `c` with the line owned: as it is, or after its stream's earlier stores and the ownership row of R151. -/
def withOwnership (t : State) (c l : Nat) : State :=
  if holds t c l then t else (t.flush c l (seenBy .S)).acquire c l

/-- An atomic on `w` bytes of a line at physical address `pa` by core `c`: in state `t` the core holds the line, or its bank
accepts a write; the copy `k` is the core's with ownership, and `old` is the value read with it (R155, R156, R265). -/
structure AtomicFinds (t : State) (c pa w : Nat) (k : Copy) (old : Nat) : Prop where
  free : holds t c (pa / 128) = true ∨
    (withOwnership t c (pa / 128)).pendCount (home (pa / 128)) ((withOwnership t c (pa / 128)).coreAt c).part < 65535
  copy : (withOwnership t c (pa / 128)).ownCopy c (pa / 128) = some k
  value : leNat ((k.data.drop (pa % 128)).take w) = old

/-- Such an atomic whose bytes are not poisoned (R264). -/
structure AtomicReads (t : State) (c pa w : Nat) (k : Copy) (old : Nat) : Prop extends AtomicFinds t c pa w k old where
  clean : unitPoisoned k.poison pa w = false

/-- The core's owned line with `w` bytes of it set (R265). -/
def atomicWrites (t : State) (c pa w v : Nat) : State := (withOwnership t c (pa / 128)).writeOwn c pa (toLe w v)

/-- The backing word of a semaphore of a core (R200). -/
def semaphoreVa (k : Core) (n : Nat) : Nat := (k.kbase.toNat / 256 * 256 + 4 * n) % 2 ^ 64

/-- KBASE.EN (R200). -/
def semaphoresOn (k : Core) : Bool := k.kbase.getLsbD 0

/-! ## Queues, launches, events (15_sequencer R268 to R277) -/

/-- The outcome word that `outc` puts: continue for a value that is not 0, stop for 0 (R268). -/
def outcomeOf (v : DWord) : DWord := .ofNat 64 (v.toNat / 2 * 2 + if v = 0 then 0 else 1)

/-- S waits with a code of R98, and nothing else happens. -/
def sWaits (s : State) (code : Nat) (ops : List DWord) : State := s.waitOn s.core .S code ops

/-- The waiter of an `evwait` of core `c`, if it has one registered (R65). -/
def ownWaiter (s : State) : Option Waiter :=
  (s.partAt (here s).part).waiters.find? fun w => w.who == .stream s.core

/-- Event and threshold or amount of an event word: SA[15:0] and SB[31:0] (R271, R272). -/
def eventOf (s : State) (a : Fin 32) : Nat := ((here s).s a).toNat % 2 ^ 16
def amountOf (s : State) (b : Fin 32) : Nat := ((here s).s b).toNat % 2 ^ 32

/-- The event state of the core's partition is enabled: EVBASE.EN (R67). -/
def eventsOn (s : State) : Prop := (s.partAt (here s).part).hasEvents = true

/-- The arrival that a `dbar` of the core makes (R97). -/
def arrivalOf (s : State) (n : Fin 4) (dir : Bool) (lvl : Level) : Arrival :=
  ⟨(here s).job, s.core, levelNum lvl, dir, ((here s).domAt n).gen, n⟩

/-! ## Patches (07_patches, 17_patch_and_pool) -/

/-- The partition of the core whose turn it is. -/
def herePart (s : State) : Partition := s.partAt (here s).part

/-- S past its word with the core's partition replaced. -/
def withPart (s : State) (q : Partition) : State := (sPast s).setPart (here s).part q

/-- A valid reference to a tensor and one of its histories (R122, R299). -/
structure Names (q : Partition) (r : DWord) (t : Tensor) (h : Hist) : Prop where
  valid : refValid r = true
  tensor : find q.tensors (refHandle r) = some t
  history : find t.hists (refHist r) = some h

/-- A name that a patch of the history carries, sealed at a position above the floor (R130, R143). -/
structure SealedAt (h : Hist) (name pos : Nat) (p : Patch) : Prop where
  named : name ≠ 0xFFFF
  position : h.pos name = some pos
  above : h.floor < pos
  patch : h.chain[pos - 1]? = some p

/-- The history of a reference replaced. -/
def rehist (q : Partition) (r : DWord) (h : Hist) : Partition := q.setHist (refHandle r) (refHist r) h

/-- Register `d` of S receives `v` on a partition replaced by `q`. -/
def withResult (s : State) (q : Partition) (d : Fin 32) (v : DWord) : State :=
  (withPart s q).onCore s.core fun k => k.setS d v

/-- Two patches share no element, or are additive in an integer format (R133). -/
def NoClash (ty : Ty) (a b : Patch) : Prop := clash ty false a b = none

/-- Element `e` of the fold of a list of sealed patches over a tile (R127). -/
def foldElem (ty : Ty) (i : Nat) (v : Tile) (ps : List Patch) (e : Nat) : Nat :=
  elem (width ty) (foldPatches ty i v ps).data e

/-- The Pool of the core's partition is in service: SXPOOL.EN (R206). -/
def poolOn (q : Partition) : Prop := bit q.sxpool.toNat 0 = true

/-- A field of a register of S: bits [lo + n - 1 : lo]. -/
def regField (s : State) (a : Fin 32) (lo n : Nat) : Nat := fld ((here s).s a).toNat lo n

/-! ## System words (20_system, 11_traps) -/

/-- The numbers of R358 by column: read and written at job level; read at job level and written at supervisor level;
read only at job level; both at supervisor level; read only at supervisor level. -/
def jobReadWrite : List Nat := [0x001, 0x002, 0x003, 0x004, 0x008, 0x009, 0x00A, 0x00B, 0x012]
def jobReadSupWrite : List Nat := [0x000]
def jobReadOnly : List Nat := [0x010, 0x011] ++ (List.range 14).map (0x020 + ·)
def supReadWrite : List Nat :=
  [0x100, 0x101, 0x102, 0x103, 0x104, 0x105, 0x107, 0x109, 0x10A, 0x180] ++ (List.range 32).map (0x110 + ·)
def supReadOnly : List Nat := [0x106, 0x108, 0x181, 0x182, 0x1F0]

/-- A number that R358 lists. -/
def listed (n : Nat) : Prop :=
  n ∈ jobReadWrite ∨ n ∈ jobReadSupWrite ∨ n ∈ jobReadOnly ∨ n ∈ supReadWrite ∨ n ∈ supReadOnly

/-- A listed register that the level may read. -/
def mayRead (sup : Bool) (n : Nat) : Prop :=
  n ∈ jobReadWrite ∨ n ∈ jobReadSupWrite ∨ n ∈ jobReadOnly ∨ sup = true ∧ (n ∈ supReadWrite ∨ n ∈ supReadOnly)

/-- A listed register that the level may write. -/
def mayWrite (sup : Bool) (n : Nat) : Prop :=
  n ∈ jobReadWrite ∨ sup = true ∧ (n ∈ jobReadSupWrite ∨ n ∈ supReadWrite)

/-- The registers that hold what is written to them and do nothing more: TOKWD, TVEC, KBASE, CDELAY, HSLICE, PTROOT,
CLKPOOL, CAPBASE, VCB, and the window registers (R45, R47, R74, R98, R109, R115, R192, R200, R360, R377). -/
def plainRegisters : List Nat :=
  [0x001, 0x002, 0x003, 0x012, 0x101, 0x102, 0x103, 0x109, 0x10A] ++ (List.range 32).map (0x110 + ·)

/-- A word of S as tval holds it (R355). -/
def wordValue (i : Instr) : DWord := ((encode i).headD 0).setWidth 64

/-- The partition registers that only supervisor level may write (R358). -/
def supervisorRegisters (q : Partition) : List DWord × List (Store DWord) × Bool :=
  ([q.evbase, q.hslice, q.ptroot, q.clkpool, q.ppool, q.sxpool, q.capbase, q.vcb], [q.vwbase, q.vwctl], q.clkEn)

/-- A trap is taken at once: its core runs, no trap has stopped it, and it does not keep the trap for later; and no other
stream has issued a word that still runs to its retirement (R194, R196, R298). -/
structure TakenNow (k : Core) (t : Trap) : Prop where
  running : k.run = .running
  going : k.stopping = none
  alone : k.discardAll.unretired t = false
  notKept : t.async = true → k.thnd = false ∧ k.freezeEnd = none

/-- The conditions under which the handler is entered for a trap (R24, R192): TVEC.EN, no handler running, and the trap not
that of the failure that has retired the core. -/
structure Handled (s : State) (c : Nat) (t : Trap) : Prop where
  enabled : (s.coreAt c).tvecEn = true
  outside : (s.coreAt c).thnd = false
  other : (s.coreAt c).ownFailure t = false

/-! ## Engine words (14_formats R245, R248; 16_transfer, 18_matrix, 19_vector) -/

/-- A word of L, M or W whose guard holds and which need not wait: it has its effect. -/
def GoesE (s : State) (st : Stream) (p : EPre) : Prop := Ready s st p.tok ∧ guardE s st p = true

/-- The same of an X word. -/
def GoesX (s : State) (p : XPre) : Prop := Ready s .X p.tok ∧ guardX s p = true

/-- A word of L, M or W with stream registers `qs` retires in state `u`. -/
def doneE (s : State) (st : Stream) (p : EPre) (qs : List (Fin 16)) (u : State) : Out :=
  .next (ended s st p.tok (qsrcs s st qs) u)

/-- An X word retires in state `u`. -/
def doneX (s : State) (p : XPre) (ops : List DWord) (u : State) : Out := .next (ended s .X p.tok ops u)

/-- A precise trap of the word at which an engine stream stands. -/
def engineTrap (s : State) (st : Stream) (code : Nat) (val : DWord) (ops : List DWord) : Out :=
  .next (s.raise s.core st (trapOf st (s.eng s.core st) code val ops))

/-- A stream register of the core whose turn it is. -/
def qOf (s : State) (st : Stream) (i : Fin 16) : QReg := (s.eng s.core st).qr i

/-- `n` bytes of the scratchpad at an offset: they lie in it, and no row of them is poisoned (R101, R280). -/
structure Clean (k : Core) (off n : Nat) : Prop where
  inside : k.inScratch off n = true
  clean : k.basinPoison off n = none

/-- A basin operand for tiles of a format passes the checks that R281 gives for it. -/
structure TileFits (k : Core) (q : QReg) (f : Ty) : Prop where
  format : tyOf (q.fmt.toNat % 32) = some f
  aligned : q.off % 32 = 0
  inside : k.inScratch q.off (tileBytes f) = true
  scale : isMx f = true → k.inScratch q.scaleOff 1 = true

/-- A tile of a tensor's history in the grid, none of whose pages is poisoned (R281). -/
structure TileAt (s : State) (r : DWord) (tile : Nat) (t : Tensor) (h : Hist) : Prop where
  names : Names (herePart s) r t h
  inGrid : tile < t.tiles
  clean : (herePart s).tilePoison h tile = false

/-- Bytes that hold 1,024 elements of a format, element `e` being `f e` (R121). -/
def Holds1024 (ty : Ty) (bs : List Byte) (f : Nat → Nat) : Prop :=
  bs.length = tileBytes ty ∧ ∀ e, e < 1024 → elem (width ty) (leNat bs) e = f e

/-- Element `e` of the fold of a tile as the core reads it (R127). -/
def foldAt (s : State) (t : Tensor) (h : Hist) (tile e : Nat) : Nat :=
  elem (width t.ty) (h.foldFor t.ty s.core tile).data e

/-- How the `pld` before which L stands meets the block load behind it: whether it waits while that one is performed, and the
state in which it waits or goes on (R160; log 6). -/
def orderedBlock (s : State) (qa qb : Fin 16) (n : Nat) : Bool × State :=
  if (s.eng s.core .L).issued then (false, s) else s.loadOrder s.core .L fun u => u.blockAhead s.core qa qb n

/-- An index list: 32 words at an aligned, clean range (R282). -/
structure IndexList (k : Core) (q : QReg) : Prop where
  aligned : q.off % 32 = 0
  range : Clean k q.off 128

/-- A 64-byte descriptor at an aligned, clean range (checks 1 to 3 of R286). -/
structure Descriptor (k : Core) (q : QReg) (d : List Byte) : Prop where
  aligned : q.off % 32 = 0
  range : Clean k q.off 64
  bytes : k.getBasin q.off 64 = d

/-- An in-flight entry and a virtual-queue entry are free (R73, R196). -/
structure EntriesFree (s : State) (c : Nat) : Prop where
  table : s.inFlight c < 64
  queue : s.queueUsed (c / 36) (s.coreAt c).part < 64

/-- Operation `i`, which a `ccopy` or `coll` of the core makes. -/
def madeOp (s : State) (i : Nat) (kind : OpKind) (ops : List DWord) (pa : Nat) (sem hold : Option Nat) : Op :=
  { kind, key := i, core := s.core, part := (here s).part, job := (here s).job, jidx := (here s).jidx, sup := (here s).sup
    pc := (s.eng s.core .L).pc, seq := (s.eng s.core .L).seq % 2 ^ 48, ops, complPa := pa, semPa := sem, hold
    capbase := s.capKept s.core }

/-- The open patch that a store records into: one of the core, of the store's kind (R124, R143). -/
structure OpenHere (s : State) (r : DWord) (h : Hist) (o : OpenPatch) : Prop where
  named : refName r ≠ 0xFFFF
  opened : h.openAt (refName r) = some o
  owner : o.core = s.core

/-- The mask of a store: all ones, or 128 bytes at an aligned, clean range; padding bits are cleared (R289). -/
structure MaskIs (k : Core) (t : Tensor) (tile : Nat) (mk : Bool) (q : QReg) (m : BitVec 1024) : Prop where
  aligned : mk = true → q.off % 32 = 0
  range : mk = true → Clean k q.off 128
  value : m = (if mk then BitVec.ofNat 1024 (leNat (k.getBasin q.off 128)) else BitVec.allOnes 1024) &&& t.real tile

/-- A partition with one tile entry recorded in the open patch that a reference names (R124). -/
def recorded (q : Partition) (r : DWord) (e : Entry) : Partition := q.mergeInto ⟨refHandle r, refHist r, refName r, e⟩

/-- A tile entry's value: the elements that the mask chooses, and zeros. -/
def ValueIs (ty : Ty) (m : BitVec 1024) (v : Nat) (f : Nat → Nat) : Prop :=
  ∀ e, e < 1024 → elem (width ty) v e = if m.getLsbD e then f e else 0

/-! ## Vector registers (R333, R336) -/

/-- The bytes of a vector register that an operation reads hold no poison. -/
def LanesClean (k : Core) (r : Fin 32) (bits : Nat) : Prop := k.basinPoison (r * k.vlen) ((bits + 7) / 8) = none

/-- Core `k'` is core `k` with lanes 0 to m - 1 of width `w` of register `d` written: lane `i` with `val i` where it is
some, and left where it is none. Every other bit of the register and every other byte of the basin stays. -/
structure LanesWritten (k k' : Core) (d : Fin 32) (w m : Nat) (val : Nat → Option Nat) : Prop where
  lanes : ∀ i, i < m → elem w (k'.vnum d) i = match val i with
    | some v => v % 2 ^ w
    | none => elem w (k.vnum d) i
  above : k'.vnum d / 2 ^ (w * m) = k.vnum d / 2 ^ (w * m)
  outside : ∀ a, ¬ (d * k.vlen ≤ a ∧ a < d * k.vlen + k.vlen) → Mem.read k'.basin a = Mem.read k.basin a
  rest : ∃ basin bad, k' = { k with basin := basin, basinBad := bad }

/-- A value for each active lane. -/
def activeLane (k : Core) (val : Nat → Nat) (i : Nat) : Option Nat := if k.active i then some (val i) else none

/-- Lane `i` of a register, as bits and as a value of a format. -/
def laneBits (k : Core) (r : Fin 32) (w i : Nat) : Nat := elem w (k.vnum r) i
def laneVal (k : Core) (t : Ty) (r : Fin 32) (i : Nat) : Val := valOf t (laneBits k r (width t) i)

/-- Lane `i` of a second source: a scalar enters as the FP32 value it is (R335). -/
def sourceVal (k : Core) (t : Ty) (b : VSrc) (i : Nat) : Val :=
  match b with
  | .reg r => laneVal k t r i
  | .scalar v => valOf .f32 v

/-- Lane `i` of a second source as bits: a scalar is sign-extended for I shapes, and cut for any other (R335). -/
def sourceBits (k : Core) (t : Ty) (b : VSrc) (i : Nat) : Nat :=
  match b with
  | .reg r => laneBits k r (width t) i
  | .scalar v => if intSign t = some true then ((signed 32 v) % (2 ^ width t : Nat)).toNat else v % 2 ^ width t

/-- A second source that holds no poison. -/
def SourceClean (k : Core) (b : VSrc) (bits : Nat) : Prop :=
  match b with
  | .reg r => LanesClean k r bits
  | .scalar _ => True

/-- A row of a lane table: prefix, length, destination, sources, operand record, whether the word that SEL supplies is clean,
and the lane's operation. -/
structure LaneRow (F : Type) where
  p : XPre
  bytes : Nat
  d : Fin 32
  a : Fin 32
  b : VSrc
  ops : List DWord
  clean : Bool
  f : F

/-- A VR row. -/
def rowVR {F : Type} (k : Core) (p : XPre) (d a b : Fin 32) (f : F) : LaneRow F := ⟨p, 4, d, a, .reg b, k.xops a b d, true, f⟩

/-- A VR row of one source. -/
def rowV1 {F : Type} (k : Core) (p : XPre) (d a : Fin 32) (f : F) : LaneRow F :=
  ⟨p, 4, d, a, .scalar 0, k.xops a none d, true, f⟩

/-- A VC row: the second source is the word that SEL supplies (R335). -/
def rowVC {F : Type} (k : Core) (p : XPre) (d a : Fin 32) (sel : Sel) (f : F) : LaneRow F :=
  ⟨p, selLen sel, d, a, .scalar (k.selWord sel), k.xops a none d (k.selWord sel), k.selClean sel, f⟩

/-- The prefix of a word that has none: it takes and gives no token, and its guard is g0. -/
def noPrefix : XPre := { tok := ⟨false, false, false, false⟩, neg := false, g := 0 }

/-- The tables of R338 and R339: the words that write a rounded value to each active lane, the value from the lanes of
va, of the second source, and of vd. -/
def floatLanes (k : Core) : Instr → Option (LaneRow (Val → Val → Val → Val))
  | .vadd p d a b => some (rowVR k p d a b fun x y _ => x.add y)
  | .vsub p d a b => some (rowVR k p d a b fun x y _ => x.add y.neg)
  | .vmul p d a b => some (rowVR k p d a b fun x y _ => x.mul y)
  | .vmin p d a b => some (rowVR k p d a b fun x y _ => x.smaller y)
  | .vmax p d a b => some (rowVR k p d a b fun x y _ => x.larger y)
  | .vaddVC p d a s => some (rowVC k p d a s fun x y _ => x.add y)
  | .vsubVC p d a s => some (rowVC k p d a s fun x y _ => x.add y.neg)
  | .vmulVC p d a s => some (rowVC k p d a s fun x y _ => x.mul y)
  | .vminVC p d a s => some (rowVC k p d a s fun x y _ => x.smaller y)
  | .vmaxVC p d a s => some (rowVC k p d a s fun x y _ => x.larger y)
  | .vabs p d a => some (rowV1 k p d a fun x _ _ => x.abs)
  | .vneg p d a => some (rowV1 k p d a fun x _ _ => x.neg)
  | .vrcp p d a => some (rowV1 k p d a fun x _ _ => x.rcp)
  | .vrsq p d a => some (rowV1 k p d a fun x _ _ => x.rsq)
  | .vsqrt p d a => some (rowV1 k p d a fun x _ _ => x.sqrt)
  | .vexp2 p d a => some (rowV1 k p d a fun x _ _ => x.exp2)
  | .vlog2 p d a => some (rowV1 k p d a fun x _ _ => x.log2)
  | .vsig p d a => some (rowV1 k p d a fun x _ _ => x.sig)
  | _ => none

/-- The fused words of R338, which read vd as well. -/
def fusedLanes (k : Core) : Instr → Option (LaneRow (Val → Val → Val → Val))
  | .vfma p d a b => some (rowVR k p d a b fun x y z => z.add (x.mul y))
  | .vfnma p d a b => some (rowVR k p d a b fun x y z => z.add (x.mul y).neg)
  | .vfmaVC p d a s => some (rowVC k p d a s fun x y z => z.add (x.mul y))
  | .vfnmaVC p d a s => some (rowVC k p d a s fun x y z => z.add (x.mul y).neg)
  | .vfmai d a imm => some ⟨noPrefix, 4, d, a, .scalar (imm.toNat * 2 ^ 12), k.xops a none d, true,
      fun x y z => (z.mul x).add y⟩
  | _ => none

/-- The larger or the smaller of two lanes in the order of an integer format (R340). -/
def intPick (big : Bool) (t : Ty) (x y : Nat) : Nat :=
  if (if intSign t = some true then decide (signed (width t) x ≤ signed (width t) y) else decide (x ≤ y)) = big
  then y else x

/-- The table of R340: whether every shape is accepted, and the lane's result from the lanes of va and of the second
source, taken modulo the lane's range. -/
def intLanes (k : Core) : Instr → Option (LaneRow (Bool × (Ty → Nat → Nat → Nat)))
  | .viadd p d a b => some (rowVR k p d a b (false, fun _ x y => x + y))
  | .visub p d a b => some (rowVR k p d a b (false, fun t x y => x + (2 ^ width t - y)))
  | .vimul p d a b => some (rowVR k p d a b (false, fun _ x y => x * y))
  | .vand p d a b => some (rowVR k p d a b (true, fun _ x y => x &&& y))
  | .vor p d a b => some (rowVR k p d a b (true, fun _ x y => x ||| y))
  | .vxor p d a b => some (rowVR k p d a b (true, fun _ x y => x ^^^ y))
  | .vshl p d a b => some (rowVR k p d a b (false, fun t x y => x * 2 ^ (y % width t)))
  | .vshr p d a b => some (rowVR k p d a b (false, fun t x y => x / 2 ^ (y % width t)))
  | .vsra p d a b => some (rowVR k p d a b (false, fun t x y =>
      (signed (width t) x / (2 ^ (y % width t) : Nat) % (2 ^ width t : Nat)).toNat))
  | .vimin p d a b => some (rowVR k p d a b (false, intPick false))
  | .vimax p d a b => some (rowVR k p d a b (false, intPick true))
  | .viaddVC p d a s => some (rowVC k p d a s (false, fun _ x y => x + y))
  | .visubVC p d a s => some (rowVC k p d a s (false, fun t x y => x + (2 ^ width t - y)))
  | .vimulVC p d a s => some (rowVC k p d a s (false, fun _ x y => x * y))
  | .vandVC p d a s => some (rowVC k p d a s (true, fun _ x y => x &&& y))
  | .vorVC p d a s => some (rowVC k p d a s (true, fun _ x y => x ||| y))
  | .vxorVC p d a s => some (rowVC k p d a s (true, fun _ x y => x ^^^ y))
  | .vshlVC p d a s => some (rowVC k p d a s (false, fun t x y => x * 2 ^ (y % width t)))
  | .vshrVC p d a s => some (rowVC k p d a s (false, fun t x y => x / 2 ^ (y % width t)))
  | .vsraVC p d a s => some (rowVC k p d a s (false, fun t x y =>
      (signed (width t) x / (2 ^ (y % width t) : Nat) % (2 ^ width t : Nat)).toNat))
  | .viminVC p d a s => some (rowVC k p d a s (false, intPick false))
  | .vimaxVC p d a s => some (rowVC k p d a s (false, intPick true))
  | _ => none

/-- The comparison words (R341). -/
def compareLanes (k : Core) : Instr → Option (LaneRow Cond)
  | .vcmp p cc a b => some ⟨p, 4, 0, a, .reg b, k.xops a b none, true, cc⟩
  | .vcmpVC p cc a s =>
    some ⟨p, selLen s, 0, a, .scalar (k.selWord s), k.xops a none none (k.selWord s), k.selClean s, cc⟩
  | _ => none

/-- Whether lane `i` compares true: as numbers under a floating shape, as integers under an integer one (R341). -/
def comparesTrue (k : Core) (cc : Cond) (t : Ty) (a : Fin 32) (b : VSrc) (i : Nat) : Prop :=
  if isFloat3 t then condFloat cc (laneVal k t a i) (sourceVal k t b i) = true
  else
    let x (v : Nat) : DWord := if naturalCond cc then .ofNat 64 v else .ofInt 64 (signed (width t) v)
    conditionHolds cc (x (laneBits k a (width t) i)) (x (sourceBits k t b i))

/-- The reductions (R343): whether the result is a word, and the value from the lanes and which of them are active. -/
def reduceLanes (k : Core) : Instr → Option (LaneRow (Bool × (Ty → List (Nat × Bool) → Nat)))
  | .vrsum p d a => some (rowV1 k p d a (false, sumLanes))
  | .vrmax p d a => some (rowV1 k p d a (false, pickLanes true))
  | .vrmin p d a => some (rowV1 k p d a (false, pickLanes false))
  | .vrarg p d a => some (rowV1 k p d a (true, argLanes))
  | _ => none

/-- The conversions of R344: the destination format and whether `.nsat` is given. -/
def convertLanes (k : Core) : Instr → Option (LaneRow (Ty × Bool))
  | .vcvt p d a ty => some (rowV1 k p d a (ty, false))
  | .vcvtNsat p d a ty => some (rowV1 k p d a (ty, true))
  | _ => none

/-! ## Events (01_package, 02_links, 03_vestibule, 04_hall, 08_coherence, 11_traps) -/

/-- The state with one reply sent (R44). -/
def replied (u : State) (m : Msg) (status : Nat) (value : DWord) (body : List Byte) : State :=
  u.onDev fun d => { d with sent := d.sent ++ [.reply m.conn m.tc m.tag.toNat status (m.typ ||| 0x80) value body] }

/-- A reply with a status whose value field no rule states: it holds for some value (log 3). -/
def RepliesWith (o : Out) (u : State) (m : Msg) (status : Nat) (body : List Byte) : Prop :=
  ∃ v, o = .next (replied { u with freeCount := u.freeCount + 1 } m status v body)

/-- A message of a partition's types is taken: its endpoint exists, on its port, in its class and mode (R29, R43). -/
structure Taken (s : State) (m : Msg) (typ : Byte) (tc p : Nat) : Prop where
  type : m.typ = typ
  on : s.dev.phase ≠ .off
  endpoint : m.endpoint = some p
  there : s.endpointAt m = true
  tclass : m.tc = tc

/-- Header fields that are as R44 has them. -/
structure Header (m : Msg) : Prop where
  version : m.version = 1
  reserved : m.reserved = 0

/-- An `ADMIN` message of an operation that the Keystone takes at once: at the management endpoint of a port, with
authority, in a message that fits a packet, while the module is READY and no destruction is under way (R18, R44, R52). -/
structure AdminTaken (s : State) (m : Msg) (op : Nat) : Prop where
  type : m.typ = 6
  operation : opOf m = op
  ready : s.dev.phase = .ready
  port : m.port < 12 ∧ s.dev.uePorts.contains m.port = true
  size : m.body.length ≤ 4064
  endpoint : m.endpoint = none
  tclass : m.tc = 0
  mode : m.mode = .rod
  authority : m.auth = true
  header : Header m
  idle : s.dev.destroying = none

/-- The operations in flight are numbered apart. -/
def OpsApart (s : State) : Prop := (s.dev.ops.map Prod.fst).Nodup

/-- A request at its home is served now: its bank accepts it, and neither BUSY nor FWD bars its words (R150, R156). -/
def Served (s : State) (r : HomeReq) : Prop := (s.accepted r).mustWait r = false ∧ s.bankFull r = false
end Sys2Proof.Safety
end

