-- ==== Sys2Proof/Certificates/Slice0/Obligations.lean ====
section
/-! DEFINITION. The statements for the provers, each a proposition about the machine of `Sys2Proof.Machine`. The
docstring of each names the rules of the spec that it formalises. -/

open Sys2Proof Sys2Proof.Machine Sys2Proof.Safety

/-! ## The machine as a whole -/

/-- R236 to R253: words that the spec's tables and examples print decode to the instructions they stand for, from the
tables of S, patches, Pool and the system group, of L, M and W, and of the classes of X, a word with its literal among
them; the literal itself is no instruction. -/
def Obligations.PrintedWordsDecode : Prop :=
  let s (w : Word) (i : Instr) : Prop := decode .S [w] = .ok i
  let p0 : Pr := ⟨0, false⟩
  s 0x004A0005 (.addi p0 5 0 5) ∧
  s 0x06502320 (.amo p0 8 2 6 .wt false .add) ∧
  s 0x030A6008 (.plog p0 1 2 3 8) ∧
  s 0x0B0A1000 (.tdef p0 5 1) ∧
  s 0x0B52A000 (.sxnew p0 9 10) ∧
  s 0x0C00000A .nop ∧
  decode .L [0x6000C000] = .ok (.tld ⟨⟨false, true, true, false⟩, 0, false⟩ 1 8) ∧
  decode .M [0x981A1206] = .ok (.mma ⟨⟨true, false, false, true⟩, 2, true⟩ 2 false 1 1 3) ∧
  decode .X [0x4000107F, 0x3DCCCCCD] = .ok (.vaddVC ⟨⟨false, false, false, false⟩, 0, false⟩ 2 1 (.lit 0x3DCCCCCD)) ∧
  decode .X [0xC203DCCC] = .ok (.vfmai 1 0 0x3DCCC) ∧
  decode .X [0x80138100] = .ok (.xjmpInd ⟨⟨false, false, false, false⟩, 0, false⟩ 4) ∧
  decode .W [0x04101DC0] = .ok (.tadd ⟨⟨false, false, false, false⟩, 1, false⟩ 0 3 true 7) ∧
  decode .X [0x3DCCCCCD] = .error .unassignedOpcode

/-- R236 to R253: decoding the words of a well-formed instruction, on a stream that has it, gives that instruction, with
every operand at every value that the encoding admits. -/
def Obligations.EncodedInstructionsDecode : Prop :=
  ∀ (i : Instr) (st : Stream), i.wf = true → i.isWord = true → i.on st = true → decode st (encode i) = .ok i

/-- R237: each assigned word has one meaning: the instruction that words decode to is well-formed, belongs to the stream,
and is encoded as those words alone. -/
def Obligations.DecodedWordsEncode : Prop :=
  ∀ (st : Stream) (ws : List Word) (i : Instr), decode st ws = .ok i →
    i.wf = true ∧ i.on st = true ∧ encode i = ws

/-- R78, R237: a step of a stream that goes runs the instruction that the words at its program counter decode to, and the
core's gauges may then sample what it has waited (R21, log 41), which changes nothing else; where the instruction reads a
poisoned register, it traps with DATA_POISON instead, with its operands in the record (R191, R202; what it reads, and that the
unit stays poisoned, are the model's choice, log 15). A first word that begins no instruction takes the trap of an unassigned
word, and a missing or poisoned one that of a fetch. A step of the queue runs the oldest event in flight, or a destruction that
has nothing left to wait for, where it is no message of the coherence protocol once what holds a line has come to its end
(R150, log 6). Every step first counts a cycle, one cycle a step being the model's choice (DESIGN CHOICE, log 1), does what
that cycle brings to `kwait`, the duty and the gauges, and last passes the turn on, which changes nothing else (the order of
turns is the model's too, log 2). -/
def Obligations.StepRunsTheDecodedInstruction : Prop :=
  ∀ s : State,
    let t := s.tick
    let e := t.eng t.core t.stream
    (StreamGoes t →
      (∀ (i : Instr) (ws : List Word), wordsAt e ws → decode t.stream ws = .ok i →
        ((here t).readsBad t.stream i = none → ∀ u, exec i t = .next u → step s = .next (t.sampleWaits u i).passTurn) ∧
        (∀ ops, (here t).readsBad t.stream i = some ops →
          step s = passOn (.next (t.raise t.core t.stream (trapOf t.stream e 0x40 0 ops))))) ∧
      (∀ w, wordsAt e [w] → (∀ ws i, decode t.stream (w :: ws) ≠ .ok i) → step s = passOn (exec (.unassignedWord w) t)) ∧
      ((∀ w, ¬ wordsAt e [w]) → step s = passOn (exec .fetchRange t))) ∧
    (t.evTurn = true →
      (∀ x rest, t.events = x :: rest →
        (∀ m, t.dev.destroying = some m → t.destroyWaits (forPart m) = true) →
          let u := { t with events := rest }
          step s = passOn (exec x (if coherent x then u else u.calm))) ∧
      (∀ m, t.dev.destroying = some m → t.destroyWaits (forPart m) = false →
        step s = passOn (.next (t.calm.goOnDestroy m)))) ∧
    ((∀ e ∈ t.dir, e.2.busy = none ∧ e.2.fwd = 0) → t.calm = t) ∧
    (let u := { s with now := s.now + 1 }
     (∀ c k w, (c, k) ∈ s.cores → k.kwait = some w → u.waitEnds w = false) →
      (s.dev.phase = .off ∨ s.now + 1 < s.dev.dutyNext) → (s.now + 1) % 256 ≠ 0 → t = u) ∧
    (∀ (u : State) (i : Instr), let v := s.sampleWaits u i
      v = { u with cores := v.cores } ∧ ∀ c, ∃ g, v.coreAt c = { u.coreAt c with gauges := g }) ∧
    (passOn (.next s) = .next s.passTurn ∧
      s.passTurn = { s with evTurn := s.passTurn.evTurn, core := s.passTurn.core, stream := s.passTurn.stream })

/-- R5, R15, R359: after reset the module is at power-on, with its start-up due; the registers of R358 hold the values of their
Reset columns for every core and partition, and 0 where a register has none or its core is in no job (VWBASE among them: the
model's choice, log 4). Memory lists nothing after reset (log 5). The copies and the directory agree there. -/
def Obligations.ResetHoldsTheStatedValues : Prop :=
  State.reset.mem = [] ∧ MemoryOk State.reset ∧ State.reset.events = [.powerOn] ∧ State.reset.dev.phase = .off ∧
  Coherent State.reset ∧
  ∀ c n, c < 144 → listed n → State.reset.csrValue c n = resetValue c n

/-- A step keeps HBM in its canonical form, whatever the state: its addresses rise, and it lists no byte that an unlisted
address reads as (log 5). -/
def Obligations.StepsKeepMemoryCanonical : Prop :=
  ∀ s t : State, MemoryOk s → step s = .next t → MemoryOk t

/-- A step keeps the copies of cores and the directory in agreement, whatever the state (R147, R148, R151 to R153): each core
holds a line once and whole, only a recorded owner holds it owned, and its clean words are those of memory. -/
def Obligations.StepsKeepCopiesCoherent : Prop :=
  ∀ s t : State, Coherent s → step s = .next t → Coherent t

/-- R190, R237: no instruction, event or step ends the run: every error that the spec describes is a trap, a status, a wait
or a dropped message, and the machine goes on. That an event goes on also in a state in which it is not due, doing nothing there
or coming again, is the model's choice (DESIGN CHOICE, log 12). -/
def Obligations.EveryStepGoesOn : Prop :=
  (∀ (i : Instr) (s : State), ∃ t, exec i s = .next t) ∧ ∀ s : State, ∃ t, step s = .next t

/-! ## S: registers, comparison, branches (15_sequencer) -/

/-- R255, R256: every word of integer arithmetic completes and writes the value of its row of the tables; s0 discards it
(R225). None of these words faults. R257, R258: `cmp`, `cmpi` and `plog` complete and write to their predicate whether
their relation holds; p0 discards it; `sel` writes the register that its predicate picks. -/
def Obligations.IntegerAndPredicateWordsWriteTheirRow : Prop :=
  (∀ (i : Instr) (s : State) (p : Pr) (d : Fin 32) (v : DWord),
     integerRow (here s).s i = some (p, d, v) → Holds s p →
       exec i s = .next ((sPast s).onCore s.core fun k => k.setS d v)) ∧
  ((∀ (i : Instr) (s : State) (p : Pr) (pd : Fin 8) (holds : Prop),
     predicateRow (here s) i = some (p, pd, holds) → Holds s p →
       ∃ v : Bool, (v = true ↔ holds) ∧ exec i s = .next ((sPast s).onCore s.core fun k => k.setP pd v)) ∧
   (∀ (s : State) (p : Pr) (d a b : Fin 32) (ps : Fin 8), Holds s p →
     exec (.sel p d a b ps) s = .next ((sPast s).onCore s.core fun k =>
       k.setS d (if (here s).p ps then (here s).s a else (here s).s b))))

/-- R259, R260: every FP32 word and `fcvt` completes and writes the value of its row; `fcmp` writes the relation of its
condition under the order of R185 (−0 below +0), in which a NaN satisfies `ne` alone. -/
def Obligations.FloatWordsWriteTheirRow : Prop :=
  (∀ (i : Instr) (s : State) (p : Pr) (d : Fin 32) (v : DWord), i.wf = true →
    floatRow (here s).s i = some (p, d, v) → Holds s p →
      exec i s = .next ((sPast s).onCore s.core fun k => k.setS d v)) ∧
  (∀ (s : State) (p : Pr) (pd : Fin 8) (a b : Fin 32) (cc : Cond), cc.floating = true → Holds s p →
    exec (.fcmp p pd a b cc) s = .next ((sPast s).onCore s.core fun k =>
      k.setP pd (condFloat cc (fp32 ((here s).s a)) (fp32 ((here s).s b)))))

/-- R183: sums and products are exact before they are rounded: the number of a sum of finite values is the sum of their
numbers, and the number of a product is the product of their numbers. R183, R187: a finite value is rounded to an FP32
code that no other finite FP32 code is nearer to, and of two codes equally near the one whose significand is even; a
value that rounds past the largest finite code, at or above 2^128 − 2^103 in magnitude, gives an infinity of its sign,
and no other does. -/
def Obligations.SumsAreExactAndRoundToNearestEven : Prop :=
  (∀ (a b : Val) (x y : Rat), rational a = some x → rational b = some y →
     rational (a.add b) = some (x + y) ∧ rational (a.mul b) = some (x * y)) ∧
  (∀ (v : Val) (x : Rat), rational v = some x →
     if 2 ^ 128 - 2 ^ 103 ≤ apart x 0 then floatVal fF32 (rne32 v) = .inf (decide (x < 0))
     else ∃ r, rational (floatVal fF32 (rne32 v)) = some r ∧
       ∀ (c : Nat) (y : Rat), rational (floatVal fF32 c) = some y → y ≠ r →
         apart r x ≤ apart y x ∧ (apart r x = apart y x → rne32 v % 2 = 0))

/-- R261: each branch completes at its target where the target lies in [0, 2^16); `bc` goes on where its condition on zero
is false; `call` leaves the address after it in s31. R236, R261: a branch whose target lies outside [0, 2^16) traps
with FETCH_RANGE on the branching word, with the target in tval; `jr` and `ret` trap with MISALIGNED first, where the
register's value is no multiple of 4. -/
def Obligations.BranchesReachTheirTargetOrTrap : Prop :=
  ((∀ (s : State) (p : Pr) (disp : BitVec 22), Holds s p →
     0 ≤ branchTarget s disp → branchTarget s disp < 65536 →
       exec (.b p disp) s = .next (sAt (sPast s) s.core (branchTarget s disp).toNat) ∧
       exec (.call p disp) s = .next ((sAt (sPast s) s.core (branchTarget s disp).toNat).onCore s.core fun k =>
         k.setS 31 (.ofNat 64 ((s.eng s.core .S).pc + 4)))) ∧
   (∀ (s : State) (p : Pr) (cc : Cond) (a : Fin 32) (disp : BitVec 12), Holds s p →
     (conditionHolds cc ((here s).s a) 0 → 0 ≤ branchTarget s disp → branchTarget s disp < 65536 →
       exec (.bc p cc a disp) s = .next (sAt (sPast s) s.core (branchTarget s disp).toNat)) ∧
     (¬ conditionHolds cc ((here s).s a) 0 → exec (.bc p cc a disp) s = .next (sPast s))) ∧
   (∀ (s : State) (p : Pr) (a : Fin 32), Holds s p →
     ((here s).s a).toNat % 4 = 0 → ((here s).s a).toNat < 65536 →
       exec (.jr p a) s = .next (sAt (sPast s) s.core ((here s).s a).toNat)) ∧
   (∀ (s : State) (p : Pr), Holds s p → ((here s).s 31).toNat % 4 = 0 → ((here s).s 31).toNat < 65536 →
       exec (.ret p) s = .next (sAt (sPast s) s.core ((here s).s 31).toNat))) ∧
  ((∀ (s : State) (p : Pr) (disp : BitVec 22), Holds s p →
     (branchTarget s disp < 0 ∨ 65536 ≤ branchTarget s disp) →
       exec (.b p disp) s = .next (sTrap s 0x02 (.ofInt 64 (branchTarget s disp)) []) ∧
       exec (.call p disp) s = .next (sTrap s 0x02 (.ofInt 64 (branchTarget s disp)) [])) ∧
   (∀ (s : State) (p : Pr) (cc : Cond) (a : Fin 32) (disp : BitVec 12), Holds s p →
     conditionHolds cc ((here s).s a) 0 → (branchTarget s disp < 0 ∨ 65536 ≤ branchTarget s disp) →
       exec (.bc p cc a disp) s = .next (sTrap s 0x02 (.ofInt 64 (branchTarget s disp)) [(here s).s a])) ∧
   (∀ (s : State) (p : Pr) (a : Fin 32), Holds s p → ((here s).s a).toNat % 4 ≠ 0 →
       exec (.jr p a) s = .next (sTrap s 0x05 ((here s).s a) [(here s).s a])) ∧
   (∀ (s : State) (p : Pr) (a : Fin 32), Holds s p → ((here s).s a).toNat % 4 = 0 → 65536 ≤ ((here s).s a).toNat →
       exec (.jr p a) s = .next (sTrap s 0x02 ((here s).s a) [(here s).s a])) ∧
   (∀ (s : State) (p : Pr), exec (.ret p) s = exec (.jr p 31) s))

/-- R262: `loop` sets its counter and start and skips the body where the count is 0; `lend` counts down and goes back to
the recorded start until the count is 0. -/
def Obligations.LoopsCountDown : Prop :=
  (∀ (s : State) (p : Pr) (lc : Fin 2) (a : Fin 32) (len : BitVec 12), Holds s p →
    let pc := (s.eng s.core .S).pc
    let n : Word := ((here s).s a).setWidth 32
    let t := (sPast s).onEng s.core .S fun e => e.setLoop lc ⟨n, pc + 4⟩
    (n ≠ 0 → exec (.loop p lc a len) s = .next t) ∧
    (n = 0 → pc + 4 * (len.toNat + 1) < 65536 →
      exec (.loop p lc a len) s = .next (sAt t s.core (pc + 4 * (len.toNat + 1))))) ∧
  (∀ (s : State) (p : Pr) (lc : Fin 2), Holds s p →
    let l := (s.eng s.core .S).loop lc
    let t := (sPast s).onEng s.core .S fun e => e.setLoop lc ⟨l.count - 1, l.start⟩
    (l.count = 0 → exec (.lend p lc) s = .next (sPast s)) ∧
    (l.count = 1 → exec (.lend p lc) s = .next t) ∧
    (l.count ≠ 0 → l.count ≠ 1 → l.start < 65536 → exec (.lend p lc) s = .next (sAt t s.core l.start)))

/-- R95: an S word whose predicate is false has no effect of any kind; S passes it and takes its sequence number (R193);
p0 reads true. R370: `nop` has no effect beyond its sequence number, and the all-zero word is `add s0, s0, s0`. R94:
an engine word whose guard is false takes its tokens and gives its tokens, and has no other effect; the closing word
of an outcome-governed loop takes no outcome and leaves the loop, so that the twins which its run-ahead used hold
their accumulators' values (R91, R330). R84, R98: a word that has not issued and whose tokens are not there waits,
with code 0x1 for a forward token and 0x2 for a free one, and has no other effect, the closing word of a loop among
them. A word that has issued has its tokens and waits for none: the return form of `pld` and `xqput` while their
entries wait for the return queue (R83, R87, R283; that `pld.ret` has issued then, and what it keeps, is DEDUCED, log
25), and a word that waits for memory (R83). -/
def Obligations.WordsThatHaveNoEffect : Prop :=
  ((∀ (i : Instr) (s : State) (p : Pr), prefixS i = some p → ¬ Holds s p → exec i s = .next (sPast s)) ∧
   (∀ s : State, (here s).p 0 = true ∧ exec .nop s = .next (sPast s)) ∧
   decode .S [0] = .ok (.add ⟨0, false⟩ 0 0 0)) ∧
  ((∀ (i : Instr) (s : State) (st : Stream) (p : EPre), prefixE s.stream i = some (st, p) → st ≠ .S →
     (∀ ln, i ≠ .enext p ln true) → Ready s st p.tok → guardE s st p = false →
       ∃ ops, exec i s = .next (ended s st p.tok ops (begun s st p.tok 4))) ∧
   (∀ (s : State) (p : EPre) (ln : Fin 2), s.stream ≠ .S → Ready s s.stream p.tok → guardE s s.stream p = false →
     let twins := (s.eng s.core s.stream).twins
     let t := s.onCore s.core fun k => { k with acc := twins.foldl (fun m a => put m (8 + a) (findD k.acc a {})) k.acc }
     let u := t.onEng s.core s.stream fun e => { e with twins := [] }
     exec (.enext p ln true) s = .next (ended u s.stream p.tok [] (begun u s.stream p.tok 4))) ∧
   (∀ (i : Instr) (s : State) (p : XPre), prefixX i = some p → Ready s .X p.tok → guardX s p = false →
       ∃ ops, exec i s = .next (ended s .X p.tok ops (begun s .X p.tok (bytesX i))))) ∧
  ((∀ (i : Instr) (s : State) (st : Stream) (p : EPre) (code : Nat), prefixE s.stream i = some (st, p) → st ≠ .S →
     (s.eng s.core st).issued = false →
     (∀ qa qb pol len, i = .pld p qa qb pol true len → (here s).strL.ret.filter Returning.issued = none) →
     (here s).tokenStop st p.tok = some code → ∃ ops, exec i s = .next (s.waitOn s.core st code ops)) ∧
   (∀ (i : Instr) (s : State) (p : XPre) (code : Nat), prefixX i = some p →
     (s.eng s.core .X).issued = false →
     (∀ a, i = .xqput p a → (here s).strX.ret.filter Returning.issued = none) →
     (here s).tokenStop .X p.tok = some code → ∃ ops, exec i s = .next (s.waitOn s.core .X code ops)) ∧
   (∀ (k : Core) (st : Stream) (t : Tok), (k.eng st).issued = true → k.takeStop st t = none ∧ k.takeTokens st t = k))

/-- R225: s0 reads 0, p0 reads true and g0 reads true whatever is written to them; any other register reads back what was
written, and a write to one register leaves every other as it was. The frame of the words that only compute (R255 to
R260): every part of the state but the core's S registers and predicates is as S's passing the word leaves it, memory
and the status registers among it; of the registers and predicates only the destination may change. -/
def Obligations.RegistersKeepWhatIsNotWritten : Prop :=
  ((∀ (k : Core) (n m : Fin 32) (v : DWord),
     (k.setS n v).s m = if m = 0 then 0 else if m = n then v else k.s m) ∧
   (∀ (k : Core) (n m : Fin 8) (b : Bool), (k.setP n b).p m = if m = 0 then true else if m = n then b else k.p m) ∧
   (∀ (e : Engine) (n m : Fin 8) (b : Bool), (e.setG n b).g m = if m = 0 then true else if m = n then b else e.g m)) ∧
  (∀ (i : Instr) (s t : State), computes i = true → exec i s = .next t →
     t.mem = s.mem ∧ t.poison = s.poison ∧ t.dir = s.dir ∧ t.dev = s.dev ∧ t.parts = s.parts ∧ t.events = s.events ∧
     (∀ c, c ≠ s.core → t.coreAt c = s.coreAt c) ∧
     (∃ (regs : Store DWord) (preds : BitVec 8) (bad : List Nat),
       t.coreAt s.core = { corePast s with sreg := regs, preds := preds, sregBad := bad }) ∧
     (∀ n : Fin 32, registerOf i ≠ some n → (t.coreAt s.core).s n = (here s).s n) ∧
     (∀ n : Fin 8, predicateOf i ≠ some n → (t.coreAt s.core).p n = (here s).p n))

/-! ## S: plain memory, atomics, semaphores (15_sequencer R263 to R267) -/

/-- R263, R264: `ld` from an aligned address whose page is readable and whose bytes are not poisoned completes: its register
receives the bytes that the policy reads, extended by its type. Where an independent load of another word stands behind it,
that one may be performed first, and the `ld` waits then, as a free value says (R160; DESIGN CHOICE, log 6); the later load
completes with what it has read, and a load behind which none stands that has not waited does not wait. `st` to an aligned
address whose page is writable completes with the low bytes of its register stored under the policy. -/
def Obligations.LoadsAndStoresComplete : Prop :=
  (∀ (s t u : State) (p : Pr) (d b : Fin 32) (pol : Pol) (wid : Wid) (disp : BitVec 7) (pa : Nat) (bs : List Byte),
    Holds s p → (s.eng s.core .S).earlyRead = none → (ordered s d b wid disp).1 = false →
    let n := (accessOf wid).1
    let va := accessAddr s b disp n
    va.toNat % n = 0 → (sPast (ordered s d b wid disp).2).xlate s.core .S va.toNat needRd = .ok (t, pa) →
    t.coreLoad s.core .S pol pa n = (u, bs, false) →
      exec (.ld p d b pol wid disp) s = .next (u.onCore s.core fun k => k.setS d (loaded wid bs))) ∧
  (∀ (s : State) (p : Pr) (d b : Fin 32) (pol : Pol) (wid : Wid) (disp : BitVec 7), Holds s p →
    let r := ordered s d b wid disp
    (r.1 = true → exec (.ld p d b pol wid disp) s = .next (r.2.waitOn s.core .S 0 [(here s).s b])) ∧
    ((s.eng s.core .S).early = none → s.loadAhead s.core d b wid disp = none → r = (false, s)) ∧
    (∀ bs, (s.eng s.core .S).earlyRead = some bs → (accessAddr s b disp (accessOf wid).1).toNat % (accessOf wid).1 = 0 →
      exec (.ld p d b pol wid disp) s = .next (((sPast s).onEng s.core .S fun e => { e with early := none }).onCore s.core fun k =>
        k.setS d (loaded wid bs)))) ∧
  (∀ (s t : State) (p : Pr) (d b : Fin 32) (pol : Pol) (wid : Wid) (disp : BitVec 7) (pa : Nat),
    Holds s p →
    let n := (accessOf wid).1
    let va := accessAddr s b disp n
    va.toNat % n = 0 → (sPast s).xlate s.core .S va.toNat needWr = .ok (t, pa) →
      exec (.st p d b pol wid disp) s = .next (t.coreStore s.core .S pol pa (toLe n ((here s).s d).toNat)))

/-- R264: a plain access of S whose address is no multiple of its size traps with MISALIGNED, and one whose walk fails traps
with the walk's cause; tval holds the address, and no access of its own is made (one that waits behind a later load traps when
it goes on, R160, log 6). A poisoned load traps with DATA_POISON. So do `amo`, `red` and `cas`, where `amo` and `cas` read
poison, and the semaphore words, whose addresses are aligned. -/
def Obligations.PlainAccessesTrapInOrder : Prop :=
  (∀ (s : State) (p : Pr) (d b : Fin 32) (pol : Pol) (wid : Wid) (disp : BitVec 7), Holds s p →
    let n := (accessOf wid).1
    let va := accessAddr s b disp n
    let o := ordered s d b wid disp
    (va.toNat % n ≠ 0 →
      (o.1 = false → exec (.ld p d b pol wid disp) s = .next (sTrap o.2 0x05 va [(here s).s b])) ∧
      exec (.st p d b pol wid disp) s = .next (sTrap s 0x05 va [(here s).s d, (here s).s b])) ∧
    (va.toNat % n = 0 → ∀ code : Nat,
      ((s.eng s.core .S).earlyRead = none → o.1 = false →
        (sPast o.2).xlate s.core .S va.toNat needRd = .error (.trap code va none) →
          exec (.ld p d b pol wid disp) s = .next (sTrap o.2 code va [(here s).s b])) ∧
      ((sPast s).xlate s.core .S va.toNat needWr = .error (.trap code va none) →
        exec (.st p d b pol wid disp) s = .next (sTrap s code va [(here s).s d, (here s).s b])) ∧
      (∀ (t u : State) (pa : Nat) (bs : List Byte),
        (s.eng s.core .S).earlyRead = none → o.1 = false →
        (sPast o.2).xlate s.core .S va.toNat needRd = .ok (t, pa) → t.coreLoad s.core .S pol pa n = (u, bs, true) →
          exec (.ld p d b pol wid disp) s = .next (sTrap o.2 0x40 va [(here s).s b])))) ∧
  (∀ (s : State) (p : Pr) (d b a : Fin 32) (pol : Pol) (w64 : Bool) (op : Aop), Holds s p →
    ((here s).s b).toNat % atomicWidth w64 ≠ 0 →
      exec (.amo p d b a pol w64 op) s = .next (sTrap s 0x05 ((here s).s b) [(here s).s b, (here s).s a]) ∧
      exec (.red p b a pol w64 op) s = .next (sTrap s 0x05 ((here s).s b) [(here s).s b, (here s).s a]) ∧
      exec (.cas p d b a pol w64) s =
        .next (sTrap s 0x05 ((here s).s b) [(here s).s d, (here s).s b, (here s).s a])) ∧
  (∀ (s : State) (p : Pr) (d b a : Fin 32) (pol : Pol) (w64 : Bool) (op : Aop), Holds s p →
    let va := (here s).s b
    let w := atomicWidth w64
    let ops := [va, (here s).s a]
    va.toNat % w = 0 →
    (∀ code : Nat, (sPast s).xlate s.core .S va.toNat needBoth = .error (.trap code va none) →
      exec (.amo p d b a pol w64 op) s = .next (sTrap s code va ops) ∧
      exec (.cas p d b a pol w64) s = .next (sTrap s code va ((here s).s d :: ops))) ∧
    (∀ code : Nat, (sPast s).xlate s.core .S va.toNat needWr = .error (.trap code va none) →
      exec (.red p b a pol w64 op) s = .next (sTrap s code va ops)) ∧
    (∀ (t : State) (pa old : Nat) (k : Copy), (sPast s).xlate s.core .S va.toNat needBoth = .ok (t, pa) →
      AtomicFinds t s.core pa w k old → unitPoisoned k.poison pa w = true →
        exec (.amo p d b a pol w64 op) s = .next (sTrap s 0x40 va ops) ∧
        exec (.cas p d b a pol w64) s = .next (sTrap s 0x40 va ((here s).s d :: ops)))) ∧
  (∀ (s : State) (p : Pr) (d a b : Fin 32) (n : Fin 64) (cl : Bool), Holds s p → semaphoresOn (here s) = true →
    let va := semaphoreVa (here s) n
    let w := { (here s).kwaitFor a b n cl s.now with pa := s.semPa s.core n }
    let waiting (v : Option KWait) : State := s.setCore s.core { here s with kwait := v }
    let ops := if cl then [(here s).s a, (here s).s b] else [(here s).s a]
    (∀ code : Nat, (sPast s).xlate s.core .S va needWr = .error (.trap code (.ofNat 64 va) none) →
      exec (.kset p a n) s = .next (sTrap s code (.ofNat 64 va) [(here s).s a])) ∧
    (∀ (t : State) (code : Nat), (sPast s).released s.core .S .part = .ok t →
      t.xlate s.core .S va needBoth = .error (.trap code (.ofNat 64 va) none) →
        exec (.ksig p a n) s = .next (sTrap s code (.ofNat 64 va) [(here s).s a])) ∧
    (∀ code : Nat, (sPast (waiting (some w))).xlate s.core .S va needBoth = .error (.trap code (.ofNat 64 va) none) →
      exec (.kwait p d a b n cl) s = .next (sTrap (waiting none) code (.ofNat 64 va) ops)) ∧
    (∀ (t u : State) (pa old : Nat) (k : Copy), (sPast s).released s.core .S .part = .ok t →
      t.xlate s.core .S va needBoth = .ok (u, pa) → AtomicFinds u s.core pa 4 k old → unitPoisoned k.poison pa 4 = true →
        exec (.ksig p a n) s = .next (sTrap s 0x40 (.ofNat 64 va) [(here s).s a])) ∧
    (∀ (t : State) (pa old : Nat) (k : Copy),
      (sPast (waiting (some w))).xlate s.core .S va needBoth = .ok (t, pa) →
      AtomicFinds t s.core pa 4 k old → unitPoisoned k.poison pa 4 = true →
        exec (.kwait p d a b n cl) s = .next (sTrap (waiting none) 0x40 (.ofNat 64 va) ops)))

/-- R265, R165: `amo` reads its word with ownership, writes the operation's result in the same step and returns the old value
zero-extended; `cas` writes only where the comparison holds, and owns the line either way; `red` returns nothing, and performs
the same update in the copy that its core owns, behind the earlier stores of the core to the line (R147), or sends it to the
home, which performs it in memory or in the copy of the owner (R152). The written policy has no effect on `amo`, `red` and
`cas` (R145). -/
def Obligations.AtomicsReadAndWriteInOneStep : Prop :=
  (∀ (s t : State) (p : Pr) (d b a : Fin 32) (pol : Pol) (w64 : Bool) (op : Aop) (pa old : Nat) (k : Copy), Holds s p →
    let w := atomicWidth w64
    let arg := ((here s).s a).toNat % 2 ^ (8 * w)
    ((here s).s b).toNat % w = 0 → (sPast s).xlate s.core .S ((here s).s b).toNat needBoth = .ok (t, pa) →
    AtomicReads t s.core pa w k old →
      exec (.amo p d b a pol w64 op) s = .next ((atomicWrites t s.core pa w (atomicResult op w old arg)).onCore s.core
        fun x => x.setS d (.ofNat 64 old))) ∧
  (∀ (s t : State) (p : Pr) (d b a : Fin 32) (pol : Pol) (w64 : Bool) (pa old : Nat) (k : Copy), Holds s p →
    let w := atomicWidth w64
    ((here s).s b).toNat % w = 0 → (sPast s).xlate s.core .S ((here s).s b).toNat needBoth = .ok (t, pa) →
    AtomicReads t s.core pa w k old →
      exec (.cas p d b a pol w64) s = .next
        ((if old = ((here s).s d).toNat % 2 ^ (8 * w)
          then atomicWrites t s.core pa w (((here s).s a).toNat % 2 ^ (8 * w))
          else withOwnership t s.core (pa / 128)).onCore s.core fun x => x.setS d (.ofNat 64 old))) ∧
  (∀ (s t : State) (p : Pr) (b a : Fin 32) (pol : Pol) (w64 : Bool) (op : Aop) (pa : Nat), Holds s p → op ≠ .swap →
    let w := atomicWidth w64
    let arg := ((here s).s a).toNat % 2 ^ (8 * w)
    ((here s).s b).toNat % w = 0 → (sPast s).xlate s.core .S ((here s).s b).toNat needWr = .ok (t, pa) →
      let u := t.ownFirst s.core (pa / 128)
      (u = if (t.ownCopy s.core (pa / 128)).isSome && t.writing s.core (pa / 128) then
        t.flush s.core (pa / 128) fun _ => true else t) ∧
      (holds u s.core (pa / 128) = true → exec (.red p b a pol w64 op) s =
        .next (u.writeOwn s.core pa (toLe w (atomicResult op w (leNat (u.homeRead pa w).1) arg)))) ∧
      (holds u s.core (pa / 128) = false → exec (.red p b a pol w64 op) s =
        .next (u.buffer s.core .S (pa / 128) (.red (pa % 128 / 4) op w64 ((here s).s a))))) ∧
  (∀ (s : State) (r : HomeReq) (w : Nat) (op : Aop) (w64 : Bool) (arg : DWord), r.kind = .red w op w64 arg →
    let n := atomicWidth w64
    let off := (4 * w) / n * n % 128
    let l := r.line
    (s.owner l = none → (s.dirAt l).replies = [] →
      let old := leNat (Mem.readN s.mem (128 * l + off) n)
      (s.perform r).mem = Mem.write s.mem (128 * l + off) (toLe n (atomicResult op n old (arg.toNat % 2 ^ (8 * n))))) ∧
    (∀ d k, s.owner l = some (d, k) → (s.perform r).mem = s.mem ∧
      find ((s.perform r).coreAt d).copies l = some (k.write off (toLe n (atomicResult op n
        (leNat ((k.data.drop off).take n)) (arg.toNat % 2 ^ (8 * n)))))))

/-- R146, R147: what a stream has stored at an aligned address under any policy, it loads from there under any policy,
from a state whose copies and directory agree and in which nothing else is under way about the line. The frame of a
store under any policy (R263, R151), from a state whose copies and directory agree and in which nothing else is under
way about the line: every byte outside it reads at its home as before; once the store and its messages have come to
their end, the stored bytes read as stored and every other byte still as before; the copies and the directory agree
throughout; registers, status, partitions and the other cores' registers are as they were. The frame of a load under
any policy (R263, R151), from a state whose copies and directory agree and in which nothing is under way about the
line: no byte of memory reads otherwise at its home, and they still agree; only the core's and an owner's copies and
the directory entry may have changed. -/
def Obligations.StoredBytesReadBackAndOthersStay : Prop :=
  (∀ (s : State) (c pa : Nat) (st : Stream) (pol pol' : Pol) (bs : List Byte), Coherent s → Still s c (pa / 128) →
     (bs.length = 1 ∨ bs.length = 2 ∨ bs.length = 4 ∨ bs.length = 8) → pa % bs.length = 0 →
       ((s.coreStore c st pol pa bs).coreLoad c st pol' pa bs.length).2.1 = bs) ∧
  (∀ (s : State) (c pa : Nat) (st : Stream) (pol : Pol) (bs : List Byte), Coherent s → Still s c (pa / 128) →
     (bs.length = 1 ∨ bs.length = 2 ∨ bs.length = 4 ∨ bs.length = 8) → pa % bs.length = 0 →
       let t := s.coreStore c st pol pa bs
       let u := t.flush c (pa / 128) (seenBy st)
       (∀ a, ¬ (pa ≤ a ∧ a < pa + bs.length) → byteAt t a = byteAt s a ∧ byteAt u a = byteAt s a) ∧
       (∀ i, i < bs.length → byteAt u (pa + i) = [bs.getD i 0]) ∧
       Coherent t ∧ Coherent u ∧ t.parts = s.parts ∧ u.parts = s.parts ∧
       (∀ e, ∃ copies stores, t.coreAt e = { s.coreAt e with copies := copies, stores := stores }) ∧
       (∀ e, ∃ copies stores granted evicting, u.coreAt e =
         { s.coreAt e with copies := copies, stores := stores, granted := granted, evicting := evicting })) ∧
  (∀ (s : State) (c pa n : Nat) (st : Stream) (pol : Pol), Coherent s → Still s c (pa / 128) →
     let t := (s.coreLoad c st pol pa n).1
     (∀ a, byteAt t a = byteAt s a) ∧ Coherent t ∧
     (∀ e, ∃ copies, t.coreAt e = { s.coreAt e with copies := copies }) ∧
     t.parts = s.parts ∧ t.events = s.events ∧ t.dev = s.dev)

/-- R200, R266: with semaphores in service, `kset` stores the low word of its register in the semaphore's backing word and
`ksig`, its release complete, adds it there, indivisibly and modulo 2^32. While KBASE.EN = 0, `kset`, `ksig` and
`kwait` trap with NO_SEMAPHORES. R267: a test of `kwait` that finds the counter at or above its threshold takes the
threshold off and answers 1; one whose cycle limit has passed answers 0 and leaves the counter; both are done, drop
the untracked copies (R161) and leave no wait pending; else the wait goes on. The cores that wait are tested in every
cycle in the order of their arrival, and those of one cycle by core number (R99). `w` is the pending wait: the one
that the core has under way for this semaphore, or one from this cycle. -/
def Obligations.SemaphoresCountAndKwaitTakes : Prop :=
  ((∀ (s t : State) (p : Pr) (a : Fin 32) (n : Fin 64) (pa : Nat), Holds s p → semaphoresOn (here s) = true →
     (sPast s).xlate s.core .S (semaphoreVa (here s) n) needWr = .ok (t, pa) →
       exec (.kset p a n) s = .next (t.coreStore s.core .S .own pa (toLe 4 ((here s).s a).toNat))) ∧
   (∀ (s t u : State) (p : Pr) (a : Fin 32) (n : Fin 64) (pa old : Nat) (k : Copy), Holds s p →
     semaphoresOn (here s) = true → (sPast s).released s.core .S .part = .ok t →
     t.xlate s.core .S (semaphoreVa (here s) n) needBoth = .ok (u, pa) → AtomicReads u s.core pa 4 k old →
       exec (.ksig p a n) s = .next (atomicWrites u s.core pa 4 ((old + ((here s).s a).toNat) % 2 ^ 32))) ∧
   (∀ (s t : State) (p : Pr) (d a b : Fin 32) (n : Fin 64), Holds s p → semaphoresOn (here s) = false →
     exec (.kset p a n) s = .next (sTrap s 0x0E 0 [(here s).s a]) ∧
     ((sPast s).released s.core .S .part = .ok t → exec (.ksig p a n) s = .next (sTrap s 0x0E 0 [(here s).s a])) ∧
     (∀ cl : Bool, exec (.kwait p d a b n cl) s =
       .next (sTrap (s.setCore s.core { here s with kwait := none }) 0x0E 0
         (if cl then [(here s).s a, (here s).s b] else [(here s).s a]))))) ∧
  (∀ (s t : State) (p : Pr) (d a b : Fin 32) (n : Fin 64) (cl : Bool) (pa old : Nat) (k : Copy), Holds s p →
     let w := { (here s).kwaitFor a b n cl s.now with pa := s.semPa s.core n }
     let s' := s.setCore s.core { here s with kwait := some w }
     let ops := if cl then [(here s).s a, (here s).s b] else [(here s).s a]
     semaphoresOn (here s) = true → (sPast s').xlate s.core .S (semaphoreVa (here s) n) needBoth = .ok (t, pa) →
     AtomicReads t s.core pa 4 k old →
       let met := w.thr ≤ old
       let timedOut := ∃ l, w.limit = some l ∧ l ≤ s.now - w.since
       (met → exec (.kwait p d a b n cl) s =
         .next (((atomicWrites t s.core pa 4 (old - w.thr)).dropUntracked s.core).onCore s.core fun x =>
           { x.setS d 1 with kwait := none })) ∧
       (¬ met → timedOut → exec (.kwait p d a b n cl) s =
         .next (((withOwnership t s.core (pa / 128)).dropUntracked s.core).onCore s.core fun x =>
           { x.setS d 0 with kwait := none })) ∧
       (¬ met → ¬ timedOut → exec (.kwait p d a b n cl) s = .next (s'.waitOn s.core .S 0 ops)) ∧
       ∀ u : State, (u.cores.map Prod.fst).Pairwise (· < ·) →
         (∀ e, (u.coreAt e).kwait.isSome = true → e ∈ u.waitingCores) ∧
         u.waitingCores.Pairwise fun e f => ∃ v x, (u.coreAt e).kwait = some v ∧ (u.coreAt f).kwait = some x ∧
           (v.since < x.since ∨ v.since = x.since ∧ e < f))

/-! ## S: queues, jobs, events, barriers, messages (15_sequencer R268 to R277) -/

/-- R86, R87, R88, R268, R269: `qput` and `outc`, the core's stores performed, append their word to the queue of an engine
while it holds fewer than 64 entries and wait with code 0x5 while it is full; `qtake` takes the oldest entry of a
return queue and waits with code 0x4 while it is empty; from queues that an error has poisoned it takes nothing and
traps with DATA_POISON (R202; that the queues of a stream are one unit is the model's choice, log 15). R219, R276:
`mbsend`, its release complete, to a job core index whose core runs puts its word into that core's empty mailbox when
no earlier sender waits; else it waits, in the order of its arrival (R99), with code 0x6 for a mailbox that is full or
awaited by another, and uncounted for an index that is away. `mbrecv` takes the word of a full mailbox, which is then
empty, and drops the untracked copies; it waits with code 0x6 for an empty one. R50, R201, R277: `hmsg`, its release
complete, through an entry of kind 1 with notify permission and allowance left sends one `NOTIFY` that carries its
word and the entry's next sequence number on the port that the entry names, and takes one unit of the allowance;
another kind traps with CAP_INVALID sub-cause 2, and a missing permission with sub-cause 3. -/
def Obligations.QueueMailboxAndNotifyWords : Prop :=
  ((∀ (s : State) (p : Pr) (a : Fin 32) (e : Fin 4), Holds s p →
     (((here s).sqAt e).length < 64 →
       exec (.qput p a e) s = .next (((sPast s).performOwn s.core).onCore s.core fun k =>
         { k with sq := put k.sq e ((here s).sqAt e ++ [(here s).s a]) }) ∧
       exec (.outc p a e) s = .next (((sPast s).performOwn s.core).onCore s.core fun k =>
         { k with sq := put k.sq e ((here s).sqAt e ++ [outcomeOf ((here s).s a)]) })) ∧
     (64 ≤ ((here s).sqAt e).length →
       exec (.qput p a e) s = .next (sWaits s 5 [(here s).s a]) ∧
       exec (.outc p a e) s = .next (sWaits s 5 [(here s).s a]))) ∧
   (∀ (s : State) (p : Pr) (d : Fin 32) (fromL : Bool), Holds s p →
     (∀ v vs, (here s).rqAt (if fromL then 1 else 0) = v :: vs →
       (RegUnit.queues ∉ (s.eng s.core .S).regsBad → exec (.qtake p d fromL) s = .next ((sPast s).onCore s.core fun k =>
         { k with rq := put k.rq (if fromL then 1 else 0) vs }.setS d v)) ∧
       (RegUnit.queues ∈ (s.eng s.core .S).regsBad → exec (.qtake p d fromL) s = .next (sTrap s 0x40 0 []))) ∧
     ((here s).rqAt (if fromL then 1 else 0) = [] → exec (.qtake p d fromL) s = .next (sWaits s 4 [])))) ∧
  ((∀ (s u : State) (p : Pr) (a b : Fin 32) (m : Fin 8) (j : Job), Holds s p →
     (sPast s).released s.core .S .part = .ok u → u.jobOf s.core = some j →
     let i := ((here s).s b).toNat % j.n
     let waits (code : Nat) : Prop := exec (.mbsend p a b m) s =
       .next ((s.queueSender s.core b m).waitOn s.core .S code [(here s).s b, (here s).s a])
     (∀ d, u.destOf j i = .core d →
       let turn := j.nextSender i m = none ∨ j.nextSender i m = some s.core
       (((u.coreAt d).mbox m).full = false → turn → exec (.mbsend p a b m) s =
         .next ((u.setJob (here s).part (here s).job { j with senders := j.senders.filter fun x => x.2.2 != s.core }).onCore d
           fun y => { y with mail := put y.mail m { word := (here s).s a, full := true } })) ∧
       (((u.coreAt d).mbox m).full = true ∨ ¬ turn → waits 6)) ∧
     (u.destOf j i = .away → waits 0) ∧ (u.destOf j i = .ended → waits 6)) ∧
   (∀ (s : State) (p : Pr) (d : Fin 32) (m : Fin 8), Holds s p →
     (((here s).mbox m).full = true → exec (.mbrecv p d m) s = .next
       (((sPast s).onCore s.core fun k => { k with
         mail := put k.mail m { (here s).mbox m with full := false } }.setS d ((here s).mbox m).word).dropUntracked s.core)) ∧
     (((here s).mbox m).full = false → exec (.mbrecv p d m) s = .next (sWaits s 6 [])))) ∧
  (∀ (s v u : State) (p : Pr) (a : Fin 32) (ch : Fin 64) (e : Cap), Holds s p →
     (sPast s).released s.core .S .sys = .ok v → v.calm = u → u.capAt s.core ch = .ok e →
     let used := findD u.dev.unitsOut e.pa 0
     let seq := findD u.dev.notifySeq e.pa 0
     (e.kind = 1 → e.nt = true → used < e.allow → exec (.hmsg p a ch) s = .next
       (((u.send (.notify e.port e.number ((here s).s a) ch seq)).onDev fun d => { d with
         notifySeq := put d.notifySeq e.pa ((seq + 1) % 2 ^ 58) }).setUnits e.pa (used + 1))) ∧
     (e.kind = 1 → e.nt = true → e.allow ≤ used → exec (.hmsg p a ch) s = .next (sWaits s 7 [(here s).s a])) ∧
     (e.kind ≠ 1 → exec (.hmsg p a ch) s = .next (sTrap s 0x09 (.ofNat 64 (2 * 256 + ch.val)) [(here s).s a])) ∧
     (e.kind = 1 → e.nt = false → exec (.hmsg p a ch) s =
       .next (sTrap s 0x09 (.ofNat 64 (3 * 256 + ch.val)) [(here s).s a])))

/-- R59, R270: `launch` of an aligned record that can be read and whose state word can be written, its release complete,
answers its launch word: the first refusal that applies, in the order TOO_MANY_CORES (1), BAD_RECORD (2), BAD_IMAGE (3),
BAD_RESIDENT (4), QUEUE_FULL (5), in bits 63 to 56 and nothing else done, or the number of the job that it creates. A
misaligned record traps. -/
def Obligations.LaunchAnswersRefusalOrJob : Prop :=
  ∀ (s v u : State) (p : Pr) (d b : Fin 32) (disp : BitVec 7), Holds s p →
    let part := (here s).part
    let q := s.partAt part
    let va := accessAddr s b disp 64
    let answers (t : State) (w : DWord) : Prop := exec (.launch p d b disp) s = .next (t.onCore s.core fun k => k.setS d w)
    (va.toNat % 64 ≠ 0 → exec (.launch p d b disp) s = .next (sTrap s 0x05 va [(here s).s b])) ∧
    (va.toNat % 64 = 0 → (sPast s).released s.core .S .part = .ok v → v.calm = u → ∀ (r : List Byte) (pa : Nat), u.readFor part (here s).sup va.toNat 80 = .ok r →
      u.xlateFor part (here s).sup ((va.toNat + 48) % 2 ^ 64) needWr = .ok pa →
      let n := recGet r 5 1
      if (s.partCores part).length < n then answers u (.ofNat 64 (1 * 2 ^ 56))
      else if badRecord q r = true then answers u (.ofNat 64 (2 * 2 ^ 56))
      else ∀ table : List (List Byte),
        (List.range (if bit (recGet r 4 1) 7 then 1 else n)).mapM (fun j =>
          u.readFor part (here s).sup ((recGet r 8 8 + 64 * j) % 2 ^ 64) 16) = .ok table →
        match table.mapM imagesIn with
        | none => answers u (.ofNat 64 (3 * 2 ^ 56))
        | some imgs =>
          let job := jobOfRecord q va.toNat r imgs (here s).sup
          if job.residents.any (fun e => !residentOk q n job.bndV job.bndS e) = true then
            answers u (.ofNat 64 (4 * 2 ^ 56))
          else if 512 ≤ q.openJobs then answers u (.ofNat 64 (5 * 2 ^ 56))
          else answers (u.createJob part job).2 (.ofNat 64 q.nextJob))

/-- R64, R65, R67, R271: `evsig`, its release complete, adds to its event's count with saturation and `evsig.set` replaces
it, and the waiters that this meets are met; while EVBASE.EN = 0 it does nothing. R272: `evwait` is done where the
count is at its threshold or its registered waiter has been met, drops the untracked copies and leaves no waiter; it
registers and waits where not; it traps with NO_EVENTS while EVBASE.EN = 0. That a waiter registered before traps once
EN is 0 is the model's reading (DEDUCED, log 33). R64, R66: after a change the count of an event, which its entry's
fetch has brought into the cache, is the value set, or the sum cut off at 2^32 − 1, and every other cached count is as
it was; an event that is cached needs no fetch, and one that is fetched while its Hall's cache of 8,192 entries has
room leaves the others there. A change of the waiters keeps them and their order, and the first four of a cached event
that are not met stand in its hardware list (R66). -/
def Obligations.EventWordsSignalWaitAndSaturate : Prop :=
  ((∀ (s u : State) (p : Pr) (a b : Fin 32), Holds s p → (sPast s).released s.core .S .part = .ok u →
     (eventsOn s →
       exec (.evsig p a b false) s = .next (u.calm.addEvent (here s).part (eventOf s a) (amountOf s b)) ∧
       exec (.evsig p a b true) s = .next (u.calm.setEvent (here s).part (eventOf s a) (amountOf s b))) ∧
     (¬ eventsOn s → ∀ set, exec (.evsig p a b set) s = .next u)) ∧
   (∀ (s : State) (p : Pr) (a b : Fin 32), Holds s p →
     (∀ w, ownWaiter s = some w → w.met = true → exec (.evwait p a b) s = .next
       (((sPast s).onPart (here s).part fun q => { q with
         waiters := q.waiters.filter fun v => v.who != .stream s.core }).dropUntracked s.core)) ∧
     (∀ w, ownWaiter s = some w → w.met = false → eventsOn s →
       exec (.evwait p a b) s = .next (sWaits s 0 [(here s).s a, (here s).s b])) ∧
     (let t := (sPast s).calm.touchEvent (here s).part (eventOf s a)
      ownWaiter s = none → eventsOn s →
       (amountOf s b ≤ t.eventCount (here s).part (eventOf s a) →
         exec (.evwait p a b) s = .next (t.dropUntracked s.core)) ∧
       (t.eventCount (here s).part (eventOf s a) < amountOf s b →
         let v := s.calm.touchEvent (here s).part (eventOf s a)
         exec (.evwait p a b) s = .next ((v.setWaiters (here s).part ((v.partAt (here s).part).waiters ++
           [{ ev := eventOf s a, thr := amountOf s b, who := .stream s.core }])).waitOn s.core .S 0
           [(here s).s a, (here s).s b]))) ∧
     ((∀ w, ownWaiter s = some w → w.met = false) → ¬ eventsOn s → exec (.evwait p a b) s =
       .next (sTrap s 0x0C 0 [(here s).s a, (here s).s b])))) ∧
  (∀ (s : State) (p e n : Nat), (s.partAt p).hasEvents = true →
     (s.setEvent p e n).eventCount p e = n ∧
     (let old := (s.touchEvent p e).eventCount p e
      (s.addEvent p e n).eventCount p e = if old + n ≤ 0xFFFFFFFF then old + n else 0xFFFFFFFF) ∧
     (∀ f, f ≠ e → find ((s.setEvent p e n).partAt p).events f = find ((s.touchEvent p e).partAt p).events f) ∧
     ((find (s.partAt p).events e).isSome = true → s.touchEvent p e = s) ∧
     ((s.hallCache p).length < 8192 → ∀ f, f ≠ e →
       find ((s.touchEvent p e).partAt p).events f = find (s.partAt p).events f) ∧
     (∀ ws : List Waiter,
       let all := ((s.setWaiters p ws).partAt p).waiters
       all.map (fun w => (w.ev, w.thr, w.who, w.met)) = ws.map (fun w => (w.ev, w.thr, w.who, w.met)) ∧
       ∀ i w, all[i]? = some w → w.met = false → (find (s.partAt p).events w.ev).isSome = true →
         ((all.take i).filter fun v => v.ev == w.ev && !v.met).length < 4 → w.slot = none))

/-- R80, R81, R76, R192: outside a handler `rdv` restarts the engines once all four have halted, `jend` ends the core's
part of its job then, and `opb` leaves the core where the Hall has asked for it and every issued word has retired; in a handler
`rdv` and `opb` pass and `jend` ends at once. `rdv` and `jend` find the core's stores performed. -/
def Obligations.JobWordsRestartAndLeave : Prop :=
  ∀ (s : State) (p : Pr), Holds s p →
    let u := (sPast s).performOwn s.core
    (((here s).thnd = true → exec (.rdv p) s = .next u) ∧
     ((here s).thnd = false → (here s).enginesHalted = true →
       exec (.rdv p) s = .next (u.onCore s.core Core.restartEngines)) ∧
     ((here s).thnd = false → (here s).enginesHalted = false → exec (.rdv p) s = .next (sWaits s 0 []))) ∧
    (((here s).thnd = true ∨ (here s).enginesHalted = true →
       exec (.jend p) s = .next (u.depart s.core true 0)) ∧
     ((here s).thnd = false → (here s).enginesHalted = false → exec (.jend p) s = .next (sWaits s 0 []))) ∧
    ∀ a : Fin 32,
      ((here s).yieldAt = none ∨ (here s).thnd = true → exec (.opb p a) s = .next (sPast s)) ∧
      ((here s).yieldAt ≠ none → (here s).thnd = false → (here s).allRetired = true →
        exec (.opb p a) s = .next ((sPast s).depart s.core false ((here s).s a))) ∧
      ((here s).yieldAt ≠ none → (here s).thnd = false → (here s).allRetired = false →
        exec (.opb p a) s = .next (sWaits s 0 [(here s).s a]))

/-- R96, R97, R274: a `dbar` at its domain's level and phase, its core's entries retired and its release complete, arrives
and waits; the arrival that makes COUNT brings the completion about, which takes every member past its `dbar` with its
generation advanced and its phase turned. At another level or phase, or where an earlier arrival at the same set of cores
names another level, direction or generation, it traps with DOMAIN_MISMATCH and does not arrive. That arrivals meet by the same
set of cores, whichever level or register names it, is the model's reading (DEDUCED, log 21). -/
def Obligations.BarriersArriveAndComplete : Prop :=
  (∀ (s u : State) (p : Pr) (n : Fin 4) (dir : Bool) (lvl : Level), Holds s p →
    let part := (here s).part
    let me := arrivalOf s n dir lvl
    (∀ a ∈ (s.partAt part).arrivals, a.core ≠ s.core) →
    (((here s).domAt n).level = levelNum lvl → ((here s).domAt n).phase = dir →
      ((here s).thnd = true ∨ (here s).allRetired = true) → s.released s.core .S (levelScope lvl) = .ok u →
      let q := u.partAt part
      let others := q.arrivals.filter (q.sameBarrier me)
      ((∀ a ∈ others, a.level = me.level ∧ a.dir = dir ∧ a.gen = me.gen) →
        let t := u.setPart part { q with arrivals := q.arrivals ++ [me] }
        exec (.dbar p n dir lvl) s = .next ((if ((here s).domAt n).count ≤ others.length + 1
          then t.post (.dbarComplete s.core n) else t).waitOn s.core .S 0 [])) ∧
      ((∃ a ∈ others, a.level ≠ me.level ∨ a.dir ≠ dir ∨ a.gen ≠ me.gen) →
        exec (.dbar p n dir lvl) s = .next (sTrap s 0x0B 0 []))) ∧
    (((here s).domAt n).level ≠ levelNum lvl ∨ ((here s).domAt n).phase ≠ dir →
      exec (.dbar p n dir lvl) s = .next (sTrap s 0x0B 0 []))) ∧
  (∀ (s : State) (p : Pr) (n : Fin 4) (dir : Bool) (lvl : Level), Holds s p →
    (∃ a ∈ (s.partAt (here s).part).arrivals, a.core = s.core) → exec (.dbar p n dir lvl) s = .next (sWaits s 0 [])) ∧
  (∀ (s : State) (c : Nat) (n : Fin 4) (me : Arrival),
    let p := (s.coreAt c).part
    let q := s.partAt p
    let members := q.arrivals.filter (q.sameBarrier me)
    q.arrivals.find? (fun a => a.core == c && a.reg == n.val) = some me →
    ((s.coreAt c).domAt n).count ≤ members.length →
      exec (.dbarComplete c n) s = .next (members.foldl State.passBarrier
        (s.setPart p { q with arrivals := q.arrivals.filter fun a => !q.sameBarrier me a })))

/-! ## S: the patch group (17_patch_and_pool R297 to R312, 07_patches) -/

/-- R300: `tdef` of a block that keeps the rules defines a tensor with the lowest handle not in use and one history,
number 0, with no patch, and answers its reference; it takes one descriptor page and the pages of the tile map. R301,
R303: `tfree` releases a tensor, and `hrel` a history, that holds no open patch; a copy that is to read it and has not
started keeps it as it stands, and holds its pages (R142). R138, R139: `hfork` and `psnap` of a patch of a history, or
of its tip, make an unused history that shares the base and the chain up to there, with the lower of the two floors;
`psnap` freezes it. They answer its reference. R312: `pqry` answers its item and changes nothing: 0 the chain's length
and the floor, 1 the open patches and whether the history is frozen, 2 and 3 what the named patch is and how many
tiles it touches, 4 the tensor's tiles, format and squash depth, any other item of a history 0. -/
def Obligations.TensorsForksAndQueries : Prop :=
  ((∀ (s u : State) (p : Pr) (d a : Fin 32) (b : List Byte) (t : Tensor) (i : Nat), Holds s p →
     ((here s).s a).toNat % 32 = 0 → (sPast s).load s.core .S .wt ((here s).s a).toNat 32 = .ok (u, b) →
     tensorOf b = some t → 1 ≤ i → i < 2 ^ 20 → find (u.partAt (here s).part).tensors i = none →
     (∀ j, 1 ≤ j → j < i → (find (u.partAt (here s).part).tensors j).isSome = true) →
     (u.partAt (here s).part).canPage (1 + mapPagesOf t.tiles) = true →
       let q := u.partAt (here s).part
       exec (.tdef p d a) s = .next ((u.setPart (here s).part { q with
         tensors := put q.tensors i { t with hists := [(0, { base := ⟨q.nextUid, 0, []⟩, mapPages := mapPagesOf t.tiles })] }
         nextUid := q.nextUid + 1 }).onCore s.core fun k => k.setS d (refOf i 0 0xFFFF))) ∧
   (∀ (s : State) (p : Pr) (a : Fin 32) (t : Tensor), Holds s p → refValid ((here s).s a) = true →
     find (herePart s).tensors (refHandle ((here s).s a)) = some t →
     (∀ e ∈ t.hists, e.2.opens = []) →
       let u := (sPast s).keepSources (here s).part (readsOf (refHandle ((here s).s a)) none)
       exec (.tfree p a) s = .next (u.setPart (here s).part { u.partAt (here s).part with
         tensors := del (herePart s).tensors (refHandle ((here s).s a)) })) ∧
   (∀ (s : State) (p : Pr) (a : Fin 32) (t : Tensor) (h : Hist), Holds s p → Names (herePart s) ((here s).s a) t h →
     h.opens = [] →
       let u := (sPast s).keepSources (here s).part
         (readsOf (refHandle ((here s).s a)) (some (refHist ((here s).s a))))
       exec (.hrel p a) s = .next (u.setPart (here s).part { u.partAt (here s).part with
         tensors := put (herePart s).tensors (refHandle ((here s).s a))
           { t with hists := del t.hists (refHist ((here s).s a)) } })) ∧
   (∀ (s : State) (i : Nat) (o : Op) (src : Side) (x : Tensor × Hist) (gone : Side → Bool), s.dev.ops = [(i, o)] →
     o.src? = some src → gone src = true → o.last = none → s.sideHist o.part src = some x →
       let u := s.keepSources o.part gone
       find u.dev.ops i = some { o with last := some x } ∧
       (u.partAt o.part).pins =
         ((s.partAt o.part).pins.filter fun y => y.1 != i) ++ x.2.pageSets.map fun y => (i, y.1, y.2))) ∧
  (∀ (s : State) (p : Pr) (d a b : Fin 32) (t : Tensor) (h : Hist) (pos : Nat), Holds s p →
     Names (herePart s) ((here s).s a) t h →
     (refName ((here s).s a) = 0xFFFF ∧ pos = h.chain.length ∨
       refName ((here s).s a) ≠ 0xFFFF ∧ h.pos (refName ((here s).s a)) = some pos) →
     let k := ((here s).s b).toNat % 2 ^ 8
     find t.hists k = none → (herePart s).canPage (mapPagesOf t.tiles) = true →
     let made (frozen : Bool) : Partition := (herePart s).setHist (refHandle ((here s).s a)) k
       { base := h.base, chain := h.chain.take pos, floor := min h.floor pos, frozen := frozen
         squashed := h.squashed.filter fun x => decide (x.pos ≤ min h.floor pos), mapPages := mapPagesOf t.tiles }
     let ref := refOf (refHandle ((here s).s a)) k 0xFFFF
     exec (.hfork p d a b) s = .next (withResult s (made false) d ref) ∧
     exec (.psnap p d a b) s = .next (withResult s (made true) d ref)) ∧
  (∀ (s : State) (p : Pr) (d a b : Fin 32) (t : Tensor) (h : Hist), Holds s p → Names (herePart s) ((here s).s a) t h →
     let r := (here s).s a
     let item := ((here s).s b).toNat % 16
     let answers (v : DWord) : Prop := exec (.pqry p d a b) s = .next (withResult s (herePart s) d v)
     (item = 0 → answers (.ofNat 64 (h.chain.length + h.floor * 2 ^ 32))) ∧
     (item = 1 → answers (.ofNat 64 (h.opens.length + (if h.frozen then 2 ^ 8 else 0)))) ∧
     (item = 2 ∨ item = 3 → (refName r = 0xFFFF ∨ h.inUse (refName r) = false) →
       answers 0xFFFFFFFFFFFFFFFF#64) ∧
     (∀ o, refName r ≠ 0xFFFF → h.openAt (refName r) = some o →
       (item = 2 → answers (.ofNat 64 ((if o.overwrite then 0 else 2 ^ 32) + 2 ^ 33 + o.core % 256 * 2 ^ 40))) ∧
       (item = 3 → answers (.ofNat 64 o.entries.length))) ∧
     (∀ pos x, refName r ≠ 0xFFFF → h.openAt (refName r) = none → h.pos (refName r) = some pos →
       h.chain[pos - 1]? = some x →
       (item = 2 → answers (.ofNat 64 (pos + (if x.overwrite then 0 else 2 ^ 32) + (if pos ≤ h.floor then 2 ^ 34 else 0)))) ∧
       (item = 3 → answers (.ofNat 64 x.entries.length))) ∧
     (item = 4 → answers (.ofNat 64 (t.tiles + t.ty.code * 2 ^ 32 + t.depth * 2 ^ 40))) ∧
     (4 < item → answers 0))

/-- R124, R304: `popen` under an unused name opens a patch of the core on a history that is not frozen, while the core has
fewer than 8 open and the history fewer than 16. R126, R305: `pseal` of the core's own open patch, none of whose
entries is tentative, appends it at the tip with its prior images where the pool has pages for it, and the gauges that
watch the staging area sample it; while an entry is tentative it waits, issued (R298). R134, R306: `pdrop` discards an
open patch of the core with its entries, tentative ones among them, and takes a sealed patch above the floor out of
the chain, those above it moving down. R130, R311: `pfloor` puts the floor just below the named patch, or at the tip,
where that does not lower it. -/
def Obligations.PatchesOpenSealAndDrop : Prop :=
  ((∀ (s : State) (p : Pr) (a : Fin 32) (t : Tensor) (h : Hist), Holds s p → Names (herePart s) ((here s).s a) t h →
     let r := (here s).s a
     refName r ≠ 0xFFFF → h.inUse (refName r) = false → h.frozen = false →
     (herePart s).opensOf s.core < 8 → h.opens.length < 16 →
       exec (.popenOw p a) s = .next (withPart s (rehist (herePart s) r
         { h with opens := h.opens ++ [⟨s.core, refName r, true, []⟩] })) ∧
       exec (.popenAd p a) s = .next (withPart s (rehist (herePart s) r
         { h with opens := h.opens ++ [⟨s.core, refName r, false, []⟩] }))) ∧
   (∀ (s : State) (p : Pr) (a : Fin 32) (t : Tensor) (h : Hist) (o : OpenPatch) (q : Partition), Holds s p →
     Names (herePart s) ((here s).s a) t h →
     let r := (here s).s a
     refName r ≠ 0xFFFF → h.openAt (refName r) = some o → o.core = s.core →
     (((here s).strW.spec.any fun it => it.tent.any (sameRef r)) = true →
       exec (.pseal p a) s = .next (s.waitIssued s.core .S [r])) ∧
     (((here s).strW.spec.any fun it => it.tent.any (sameRef r)) = false →
     (herePart s).append (refHandle r) (refHist r) t { h with opens := h.opens.filter fun x => x.name != refName r }
       o.name o.overwrite o.entries = some q →
       exec (.pseal p a) s = .next (((sPast s).sampleStaging s.core).setPart (here s).part q)))) ∧
  ((∀ (s : State) (p : Pr) (a : Fin 32) (t : Tensor) (h : Hist), Holds s p → Names (herePart s) ((here s).s a) t h →
     let r := (here s).s a
     let untent (u : State) : State := u.onEng s.core .W fun e => e.dropTentative r
     refName r ≠ 0xFFFF → h.frozen = false →
     (∀ o, h.openAt (refName r) = some o → o.core = s.core →
       exec (.pdrop p a) s = .next (untent (withPart s (rehist (herePart s) r
         { h with opens := h.opens.filter fun x => x.name != refName r })))) ∧
     (∀ pos q, h.openAt (refName r) = none → SealedAt h (refName r) pos q →
       exec (.pdrop p a) s = .next (untent (withPart s (rehist (herePart s) r
         { h with chain := h.chain.take (pos - 1) ++ h.chain.drop pos }))))) ∧
   (∀ (s : State) (p : Pr) (a : Fin 32) (t : Tensor) (h : Hist), Holds s p → Names (herePart s) ((here s).s a) t h →
     let r := (here s).s a
     h.frozen = false →
     (refName r = 0xFFFF → h.floor ≤ h.chain.length →
       exec (.pfloor p a) s = .next (withPart s (rehist (herePart s) r { h with floor := h.chain.length }))) ∧
     (∀ pos, refName r ≠ 0xFFFF → h.pos (refName r) = some pos → h.openAt (refName r) = none → h.floor < pos →
       exec (.pfloor p a) s = .next (withPart s (rehist (herePart s) r { h with floor := pos - 1 })))))

/-- R135, R136, R307: `pinv` and `pinv.x` of a sealed patch above the floor append, under an unused name, the patch of
their inverse entries where the pool has pages for it, and answer its reference; the folds that `pinv.x` reads count
for automatic squash (R132). R137, R309: `pxpl` appends a copy of a sealed patch to another history, each tile at the
same coordinates. R133, R308: `pcomm` exchanges two sealed patches above the floor, the second directly above the
first, that do not clash; `pcomm.loose` also exchanges two additive patches of a floating format. R131, R310: `psq` of
a history that is not frozen folds every patch below the floor into a new base, which takes the pages of its tiles;
the other patches keep their order and the floor is 0. With no patch below the floor it changes nothing. Which tiles
of the new base take new pages is the model's choice (DESIGN CHOICE, log 35). -/
def Obligations.ChainsChangeByTheirAlgebra : Prop :=
  ((∀ (s : State) (p : Pr) (d a b : Fin 32) (t : Tensor) (h : Hist) (pos : Nat) (x : Patch) (q : Partition), Holds s p →
     Names (herePart s) ((here s).s a) t h →
     let r := (here s).s a
     let n := ((here s).s b).toNat % 2 ^ 16
     let ref := refOf (refHandle r) (refHist r) n
     SealedAt h (refName r) pos x → h.frozen = false → n ≠ 0xFFFF → h.inUse n = false →
     ((herePart s).append (refHandle r) (refHist r) t h n x.overwrite (x.entries.map (invEntry false t h pos x))
         ((herePart s).badOf x) = some q → exec (.pinv p d a b) s = .next (withResult s q d ref)) ∧
     ((herePart s).append (refHandle r) (refHist r) t h n true (x.entries.map (invEntry true t h pos x)) [] = some q →
       exec (.pinvX p d a b) s = .next ((withResult s q d ref).noteInverse s.core r))) ∧
   (∀ (s : State) (p : Pr) (a b : Fin 32) (ta tb : Tensor) (h g : Hist) (pos : Nat) (x : Patch) (es : List Entry)
     (q : Partition), Holds s p →
     let ra := (here s).s a
     let rb := (here s).s b
     Names (herePart s) ra ta h → Names (herePart s) rb tb g → SealedAt h (refName ra) pos x →
     refName rb ≠ 0xFFFF → g.inUse (refName rb) = false → g.frozen = false → ta.ty = tb.ty →
     (sortEntries x.entries).mapM (carry ta tb) = .ok es →
     (herePart s).append (refHandle rb) (refHist rb) tb g (refName rb) x.overwrite es
         (((herePart s).badOf x).filterMap fun i => tb.tileAt (ta.coord i)) = some q →
       exec (.pxpl p a b) s = .next (withPart s q))) ∧
  (∀ (s : State) (p : Pr) (a b : Fin 32) (t : Tensor) (h : Hist) (pos : Nat) (x y : Patch), Holds s p →
     let ra := (here s).s a
     let rb := (here s).s b
     Names (herePart s) ra t h → refValid rb = true → refHandle rb = refHandle ra → refHist rb = refHist ra →
     SealedAt h (refName ra) pos x → SealedAt h (refName rb) (pos + 1) y →
     h.openAt (refName ra) = none → h.openAt (refName rb) = none → h.frozen = false →
     let t' := withPart s (rehist (herePart s) ra
       { h with chain := h.chain.take (pos - 1) ++ [y, x] ++ h.chain.drop (pos + 1) })
     (clash t.ty false x y = none → exec (.pcomm p a b) s = .next t') ∧
     (clash t.ty true x y = none → exec (.pcommLoose p a b) s = .next t')) ∧
  (∀ (s : State) (p : Pr) (a : Fin 32) (t : Tensor) (h : Hist), Holds s p → Names (herePart s) ((here s).s a) t h →
     h.frozen = false →
     let r := (here s).s a
     let below := h.chain.take h.floor
     let tiles := (h.base.tiles.map Prod.fst ++ below.flatMap fun x => x.entries.map Entry.tile).eraseDups
     (h.floor = 0 → exec (.psq p a) s = .next (withPart s (herePart s))) ∧
     (h.floor ≠ 0 → (herePart s).canPage (packPages 0 (tiles.map fun _ => tileBytes' t.ty)) = true →
       ∃ (h' : Hist) (q : Partition), exec (.psq p a) s = .next (withPart s q) ∧
         (q.tensors = (rehist (herePart s) r h').tensors) ∧
         h'.chain = h.chain.drop h.floor ∧ h'.floor = 0 ∧ h'.opens = h.opens ∧ h'.frozen = false ∧
         h'.base.uid = (herePart s).nextUid ∧ h'.base.pages = packPages 0 (tiles.map fun _ => tileBytes' t.ty) ∧
         ∀ i, h'.tip t.ty i = h.tip t.ty i))

/-- R136: the patch that `pinv.x` appends restores, in every element of every tile and in the scale, the fold of the chain
without the patch it inverts. R133: a swap of two neighbouring patches that do not clash leaves every element of every
fold as it was, to the bit. -/
def Obligations.ChainsKeepTheirFolds : Prop :=
  (∀ (q q' : Partition) (t : Tensor) (h : Hist) (handle hist pos n : Nat) (x : Patch), 1 ≤ pos →
     h.chain[pos - 1]? = some x →
     q.append handle hist t h n true (x.entries.map (invEntry true t h pos x)) [] = some q' →
     find q.tensors handle = some t → find t.hists hist = some h →
       ∃ (t' : Tensor) (h' : Hist), find q'.tensors handle = some t' ∧ find t'.hists hist = some h' ∧
         ∀ (i e : Nat), e < 1024 →
           elem (width t.ty) (h'.tip t.ty i).data e =
             foldElem t.ty i (h.baseTile i) (h.chain.take (pos - 1) ++ h.chain.drop pos) e ∧
           (h'.tip t.ty i).scale = (foldPatches t.ty i (h.baseTile i) (h.chain.take (pos - 1) ++ h.chain.drop pos)).scale) ∧
  (∀ (ty : Ty) (v : Tile) (below above : List Patch) (x y : Patch) (i e : Nat), NoClash ty x y → e < 1024 →
     foldElem ty i v (below ++ [y, x] ++ above) e = foldElem ty i v (below ++ [x, y] ++ above) e)

/-- R11: the power limit is 2,900 W after reset; a `SET_POWER` of the authority to a value from 1,200 W to 2,900 W in steps of
25 W sets it, and one to any other value is answered BAD_VALUE (8) and leaves it. -/
def Obligations.PowerLimitTakesItsSteps : Prop :=
  State.reset.dev.powerLimit = 2900 ∧
  ∀ (s : State) (m : Msg), AdminTaken s m 0x20 → m.body = [] → opA m = 0 →
    if 1200 ≤ opB m ∧ opB m ≤ 2900 ∧ (opB m - 1200) % 25 = 0 then
      RepliesWith (exec (.setPower m) s) (s.onDev fun d => { d with powerLimit := opB m }) m 0 []
    else RepliesWith (exec (.setPower m) s) s m 8 []

/-! ## S: the Pool group (17_patch_and_pool R313 to R318) -/

/-- R204, R206, R313, R318: `sxnew` with T and LG in range makes an empty context under the lowest free identifier where
the pool has pages for it; `sxload` makes the context that an image without poison describes; `sxfree` frees a
context. While SXPOOL.EN = 0 each traps with POOL_INVALID sub-cause 5. Each is done once its release is complete
(R161). R207, R209, R212, R314 to R316: `sxapp` appends its m tokens in order; `sxqry` writes its 64 words to the
aligned buffer and answers the result word; `sxsave` writes the context's image and answers its size; each once its
release is complete. Their accesses to memory wait at the home as an agent's do (DESIGN CHOICE, log 6). R207, R208: an
append puts its token at position n of the log and adds one to n; every position of the log that it does not overwrite
keeps its token. -/
def Obligations.PoolWordsMakeUseAndFreeContexts : Prop :=
  ((∀ (s u : State) (p : Pr) (d a : Fin 32) (i : Nat), Holds s p → poolOn (herePart s) →
     (sPast s).released s.core .S .part = .ok u →
     let q := herePart s
     let t := regField s a 0 8
     let lg := regField s a 8 8
     8 ≤ t → t ≤ 20 → 10 ≤ lg → lg ≤ 20 → 1 ≤ i → i < 4096 → find q.pools i = none →
     (∀ j, 1 ≤ j → j < i → (find q.pools j).isSome = true) → poolPages t lg ≤ q.sxfree →
       exec (.sxnew p d a) s = .next ((u.setPart (here s).part
         { q with pools := put q.pools i { die := s.core / 36, t := t, lg := lg } }).onCore s.core fun k =>
           k.setS d (.ofNat 64 i))) ∧
   (∀ (s u w : State) (p : Pr) (d b : Fin 32) (h : List Byte) (m : Mem) (bad : List (Nat × Nat)) (x : PoolCtx) (i : Nat),
     Holds s p → poolOn (herePart s) → (sPast s).released s.core .S .part = .ok w → w.calm = u →
     let q := herePart s
     let va := ((here s).s b).toNat
     va % 64 = 0 → u.readFor (here s).part (here s).sup va 16 = .ok h → badHeader h = false →
     u.bulkLoad (fun va => u.xlateFor (here s).part (here s).sup va needRd) va
       (poolBytes (recGet h 4 1) (recGet h 5 1)) = .ok (m, bad) → firstBad bad = none →
     contextOf m (s.core / 36) = some x → 1 ≤ i → i < 4096 → find q.pools i = none →
     (∀ j, 1 ≤ j → j < i → (find q.pools j).isSome = true) → poolPages x.t x.lg ≤ q.sxfree →
       exec (.sxload p d b) s = .next ((u.setPart (here s).part { q with pools := put q.pools i x }).onCore s.core fun k =>
         k.setS d (.ofNat 64 i))) ∧
   (∀ (s u : State) (p : Pr) (a : Fin 32) (x : PoolCtx), Holds s p → poolOn (herePart s) →
     (sPast s).released s.core .S .part = .ok u → find (herePart s).pools (regField s a 0 12) = some x →
       exec (.sxfree p a) s = .next (u.setPart (here s).part
         { herePart s with pools := del (herePart s).pools (regField s a 0 12) })) ∧
   (∀ (s u : State) (p : Pr) (d a b : Fin 32), Holds s p → ¬ poolOn (herePart s) →
     (sPast s).released s.core .S .part = .ok u →
     exec (.sxnew p d a) s = .next (sTrap s 0x20 5 [(here s).s a]) ∧
     exec (.sxapp p a b) s = .next (sTrap s 0x20 5 [(here s).s a, (here s).s b]) ∧
     exec (.sxqry p d a b) s = .next (sTrap s 0x20 5 [(here s).s a, (here s).s b]) ∧
     exec (.sxsave p d a b) s = .next (sTrap s 0x20 5 [(here s).s a, (here s).s b]) ∧
     exec (.sxload p d b) s = .next (sTrap s 0x20 5 [(here s).s b]) ∧
     exec (.sxfree p a) s = .next (sTrap s 0x20 5 [(here s).s a]))) ∧
  ((∀ (s u w : State) (p : Pr) (a b : Fin 32) (x : PoolCtx) (bs : List Byte), Holds s p → poolOn (herePart s) →
     (sPast s).released s.core .S .part = .ok w → w.calm = u →
     let q := herePart s
     let m := regField s a 16 7
     let va := ((here s).s b).toNat
     find q.pools (regField s a 0 12) = some x → 1 ≤ m → m ≤ 64 → va % 4 = 0 →
     (∀ e ∈ pages va (4 * m), ∃ pa, u.xlateFor (here s).part (here s).sup (e.1 % 2 ^ 64) needRd = .ok pa) →
     u.readFor (here s).part (here s).sup va m = .ok bs →
     (∀ t ∈ unpackElems 32 m (leNat bs), t ≤ 0xFFFFE) → x.n + m ≤ 0xFFFFFFFF →
       exec (.sxapp p a b) s = .next (u.setPart (here s).part { q with
         pools := put q.pools (regField s a 0 12) ((unpackElems 32 m (leNat bs)).foldl PoolCtx.append x) })) ∧
   (∀ (s u v w : State) (p : Pr) (d a b : Fin 32) (x : PoolCtx), Holds s p → poolOn (herePart s) →
     (sPast s).released s.core .S .part = .ok w → w.calm = u →
     let depth := regField s a 16 5
     let nb := regField s a 24 3
     let va := ((here s).s b).toNat
     find (herePart s).pools (regField s a 0 12) = some x → depth ≤ 16 → 1 ≤ nb → nb ≤ 4 → va % 64 = 0 →
     (∀ e ∈ pages va (4 * (x.query depth nb).1.length), ∃ pa,
       u.xlateFor (here s).part (here s).sup (e.1 % 2 ^ 64) needWr = .ok pa) →
     u.writeFor (here s).part (here s).sup va ((x.query depth nb).1.flatMap (toLe 4)) = .ok v →
       exec (.sxqry p d a b) s = .next (v.onCore s.core fun k => k.setS d (.ofNat 64 (x.query depth nb).2))) ∧
   (∀ (s u v w : State) (p : Pr) (d a b : Fin 32) (x : PoolCtx), Holds s p → poolOn (herePart s) →
     (sPast s).released s.core .S .part = .ok w → w.calm = u →
     let va := ((here s).s b).toNat
     find (herePart s).pools (regField s a 0 12) = some x → va % 64 = 0 →
     u.bulkStore (fun va => u.xlateFor (here s).part (here s).sup va needWr) none va
       (poolBytes x.t x.lg) x.image [] = .ok v →
       exec (.sxsave p d a b) s = .next (v.onCore s.core fun k => k.setS d (.ofNat 64 (poolBytes x.t x.lg))))) ∧
  (∀ (x : PoolCtx) (token i : Nat),
     (x.append token).n = x.n + 1 ∧ (x.append token).t = x.t ∧ (x.append token).lg = x.lg ∧
     (x.append token).tok x.n = token ∧ (i % x.cap ≠ x.n % x.cap → (x.append token).tok i = x.tok i))

/-! ## S: the system group, traps (20_system, 11_traps) -/

/-- R358: `csrr` of a register that its level may read answers the register's value; of an unlisted number it traps with
ILLEGAL_CSR_WRITE, and of a supervisor register at job level with PRIVILEGE; tval holds the number. R358, R5: a `csrw`
that may not be made traps and changes nothing, on the first of these checks: an unlisted number, a level too low, a
register that nobody writes; and reserved bits, which at supervisor level only set CSTAT.RSVD_WR. R357, R358: a `csrw`
of a plain register completes and the register reads back what was written, TVEC with its THND bit; every other listed
register of the core and its partition reads as before, and memory is as it was. -/
def Obligations.RegisterAccessesCheckAndReadBack : Prop :=
  (∀ (s : State) (p : Pr) (d : Fin 32) (n : BitVec 12), Holds s p →
     (mayRead (here s).sup n.toNat → exec (.csrr p d n) s = .next ((sPast s).onCore s.core fun k =>
       k.setS d ((sPast s).csrValue s.core n.toNat))) ∧
     (¬ listed n.toNat → exec (.csrr p d n) s = .next (sTrap s 0x04 (.ofNat 64 n.toNat) [])) ∧
     (listed n.toNat → ¬ mayRead (here s).sup n.toNat →
       exec (.csrr p d n) s = .next (sTrap s 0x03 (.ofNat 64 n.toNat) []))) ∧
  (∀ (s : State) (p : Pr) (a : Fin 32) (n : BitVec 12), Holds s p →
     let traps (code : Nat) : Prop :=
       exec (.csrw p a n) s = .next (sTrap s code (.ofNat 64 n.toNat) [(here s).s a])
     (¬ listed n.toNat → traps 0x04) ∧
     (n.toNat ∈ jobReadSupWrite ∨ n.toNat ∈ supReadWrite → (here s).sup = false → traps 0x03) ∧
     (n.toNat ∈ jobReadOnly ∨ n.toNat ∈ supReadOnly → traps 0x04) ∧
     (mayWrite (here s).sup n.toNat → (here s).s a &&& csrReserved n.toNat ≠ 0 →
       ((here s).sup = false → traps 0x04) ∧
       ((here s).sup = true → exec (.csrw p a n) s = .next ((sPast s).onCore s.core fun k => { k with rsvdWr := true })))) ∧
  (∀ (s : State) (p : Pr) (a : Fin 32) (n : BitVec 12), Holds s p → n.toNat ∈ plainRegisters →
     mayWrite (here s).sup n.toNat → (here s).s a &&& csrReserved n.toNat = 0 →
       ∃ t, exec (.csrw p a n) s = .next t ∧
         t.csrValue s.core n.toNat =
           (if n.toNat = 2 then ((here s).s a &&& 0xFFFD#64) ||| (if (here s).thnd then 2#64 else 0#64) else (here s).s a) ∧
         (∀ m, listed m → m ≠ n.toNat → t.csrValue s.core m = s.csrValue s.core m) ∧ t.mem = s.mem)

/-- R67, R96, R115, R118, R141, R206, R359, R361: a `csrw` of a register whose write has an effect of its own has that
effect, and the event of that write has it too, for a core whose level may write it and a value whose reserved bits are
clear; a write that the register refuses traps with ILLEGAL_CSR_WRITE, its number in tval, and a probe whose page does not
translate with the walk's cause. A write of 0 to CLKCTL.EN waits for the fetches in progress. The model's choices: a write of 1
to CLKCTL.EN while a 0 waits leaves the clock enabled (log 12), what COUNT of a domain counts (log 26), every write of SXPOOL is
refused while a context exists (log 40), the event of a write acts and traps as `csrw` does (log 42), and a lookahead pass and a
probe's walk read memory as an agent does (log 6). -/
def Obligations.RegisterWritesTakeEffect : Prop :=
  ∀ (s : State) (v : DWord),
    let c := s.core
    let part := (here s).part
    let q := s.partAt part
    let good (n : Nat) : Prop := mayWrite (here s).sup n ∧ v &&& csrReserved n = 0
    let both (i : Instr) (n : Nat) (t : State → State) : Prop := good n →
      exec i s = .next (t s) ∧
        ∀ (p : Pr) (a : Fin 32), Holds s p → (here s).s a = v → exec (.csrw p a (.ofNat 12 n)) s = .next (t (sPast s))
    let traps (i : Instr) (n code : Nat) (val : DWord) : Prop := good n →
      exec i s = .next (sTrap s code val [v]) ∧
        ∀ (p : Pr) (a : Fin 32), Holds s p → (here s).s a = v →
          exec (.csrw p a (.ofNat 12 n)) s = .next (sTrap s code val [v])
    let refuses (i : Instr) (n : Nat) : Prop := traps i n 0x04 (.ofNat 64 n)
    let on := v.getLsbD 0
    both (.cstatWrite c v) 0x000 (fun u => u.onCore c fun k => { k with rsvdWr := k.rsvdWr && !v.getLsbD 0 }) ∧
    both (.kbaseWrite c v) 0x003 (fun u => u.onCore c fun k => { k with kbase := v }) ∧
    both (.cdelayWrite c v) 0x012 (fun u => u.onCore c fun k => { k with cdelay := v }) ∧
    (v.toNat % 1024 = 0 → both (.lkaheadWrite c v) 0x004 (fun u => u.calm.onCore c fun k =>
      { k with lkahead := v, lkAt := none })) ∧
    (v.toNat % 1024 ≠ 0 → v.toNat % 1024 ≤ 512 → both (.lkaheadWrite c v) 0x004 (fun u =>
      State.lookahead 513 c (u.calm.onCore c fun k => { k with lkahead := v, lkAt := some 0 }))) ∧
    (512 < v.toNat % 1024 → refuses (.lkaheadWrite c v) 0x004) ∧
    (∀ i : Fin 4,
      (v.toNat % 8 ≤ 4 → both (.domWrite c i v) (8 + i) (fun u => u.onCore c fun k =>
        { k with dom := put k.dom i { k.domAt i with level := v.toNat % 8, count := s.unitCount c (v.toNat % 8) } })) ∧
      (4 < v.toNat % 8 → refuses (.domWrite c i v) (8 + i))) ∧
    both (.evbaseWrite c v) 0x100 (fun u => u.writeEvbase part v) ∧
    both (.ptrootWrite c v) 0x102 (fun u => u.onPart part fun q => { q with ptroot := v }) ∧
    both (.capbaseWrite c v) 0x109 (fun u => u.onPart part fun q => { q with capbase := v }) ∧
    (on = true → fld q.clkpool.toNat 44 20 ≠ 0 → poolFits q.clkpool.toNat = true →
      both (.clkctlWrite c v) 0x104 (fun u => u.onPart part fun q =>
        if q.clkEn then { q with clkOff := false } else { q with clkEn := true, clkHand := 0, frames := [] })) ∧
    (on = true → fld q.clkpool.toNat 44 20 = 0 ∨ poolFits q.clkpool.toNat = false → refuses (.clkctlWrite c v) 0x104) ∧
    (on = false → q.fetches = [] →
      both (.clkctlWrite c v) 0x104 (fun u => u.onPart part fun q => { q with clkEn := false, clkOff := false })) ∧
    (on = false → q.fetches ≠ [] → good 0x104 →
      exec (.clkctlWrite c v) s = .next (s.onPart part fun q => { q with clkOff := true }) ∧
      ∀ (p : Pr) (a : Fin 32), Holds s p → (here s).s a = v → exec (.csrw p a 0x104) s = .next (sWaits s 0 [v])) ∧
    (let was := bit q.ppool.toNat 0
     let moved := poolPlace q.ppool.toNat ≠ poolPlace v.toNat
     let bad := was = true ∧ on = true ∧ moved ∨ was = true ∧ on = false ∧ (q.tensors ≠ [] ∨ moved) ∨
       was = false ∧ on = true ∧ (q.tensors ≠ [] ∨ poolFits v.toNat = false)
     (¬ bad → both (.ppoolWrite c v) 0x105 (fun u => u.onPart part fun q =>
       { q with ppool := v, pins := if !was && on then [] else q.pins })) ∧
     (bad → refuses (.ppoolWrite c v) 0x105)) ∧
    (let was := bit q.sxpool.toNat 0
     let bad := was = true ∧ poolPlace q.sxpool.toNat ≠ poolPlace v.toNat ∨ q.pools ≠ [] ∨
       was = false ∧ on = true ∧ poolFits v.toNat = false
     (¬ bad → both (.sxpoolWrite c v) 0x107 (fun u => u.onPart part fun q => { q with sxpool := v })) ∧
     (bad → refuses (.sxpoolWrite c v) 0x107)) ∧
    (∀ pa, (∀ u, u = s ∨ u = sPast s → u.calm.xlateFor part true v.toNat needRd = .ok pa) →
      both (.dpaddrWrite c v) 0x180 (fun u => u.calm.onCore c fun k =>
        { k with dpaddr := v, dpent0 := .ofNat 64 ((u.calm.dirAt (pa / 128)).word % 2 ^ 64)
                 dpent1 := .ofNat 64 ((u.calm.dirAt (pa / 128)).word / 2 ^ 64) })) ∧
    (∀ code, (∀ u, u = s ∨ u = sPast s → u.calm.xlateFor part true v.toNat needRd = .error (.trap code v none)) →
      traps (.dpaddrWrite c v) 0x180 code v)

/-- R156, R161, R163, R356: a `fence.core` finds its core's stores performed and completes. At a wider scope a `fence`
waits until the stores that its core had retired before it have been accepted at their homes, and then until the
core's accepted writes have been performed (`.wing`, `.die`) or every bank has answered its marker, none of its writes
of the partition that were accepted before the marker being left (`.part`, `.dev`, `.sys`); it then completes and
drops the untracked copies. That the banks are the eight cisterns, and that a marker goes to all of them, are the
model's choices (DESIGN CHOICE, log 61). R362: `trap` retires and its trap is then taken, with SOFT_TRAP, its register
in tval and its own address and number; R363: `rte` in a handler finds the handler's stores performed and returns from
it, and outside one it traps with PRIVILEGE. -/
def Obligations.FencesTrapsAndReturnsComplete : Prop :=
  (∀ (s : State) (p : Pr) (sc : Scope), Holds s p →
     let e := s.eng s.core .S
     let d : Drain := e.drain.getD { before := s.nextWrite }
     let m := d.marker.getD s.nextWrite
     let sent := ∀ x ∈ (here s).stores, d.before ≤ x.no
     let answered := ∀ b, b < 8 → b ∈ d.answers ∨
       ∀ x ∈ s.pending, home x.req.line = b → x.req.part = (here s).part → m ≤ x.no
     let performed := ∀ x ∈ s.pending, x.req.core = some s.core → m ≤ x.no
     let finished := sent ∧ (if sc = .part ∨ sc = .dev ∨ sc = .sys then answered else performed)
     let u := if e.drain.isNone then sPast s else (sPast s).onEng s.core .S fun e => { e with drain := none }
     (sc = .core → exec (.fence p sc) s = .next ((sPast s).performOwn s.core)) ∧
     (sc ≠ .core → finished → exec (.fence p sc) s = .next (u.dropUntracked s.core)) ∧
     (sc ≠ .core → ¬ sent → exec (.fence p sc) s = .next (s.stopAt s.core .S [] (.drain d))) ∧
     (sc ≠ .core → sent → ¬ finished →
       exec (.fence p sc) s = .next (s.stopAt s.core .S [] (.drain { d with marker := some m })))) ∧
  ((∀ (s : State) (p : Pr) (a : Fin 32), Holds s p →
     exec (.trap p a) s = .next ((sPast s).takeTrap s.core
       { code := 0x30, val := (here s).s a, ops := [(here s).s a], stream := .S
         pc := (s.eng s.core .S).pc, seq := (s.eng s.core .S).seq })) ∧
   (∀ (s : State) (p : Pr), Holds s p →
     ((here s).thnd = true → exec (.rte p) s = .next (((sPast s).performOwn s.core).returnFromTrap s.core)) ∧
     ((here s).thnd = false → exec (.rte p) s = .next (sTrap s 0x03 (wordValue (.rte p)) []))))

/-- R191, R192: a trap that the handler takes fills the record with its cause and flags, its stream, address, number,
operands and value and the cut of every stream; THND is set, S goes to the address of TVEC, and its cut is kept; the
registers and predicates are as they were, and memory too, unless the trap broke an `evwait`, whose chain then changes
(R66). R192, R193, R200, R363: returning from a handler that the trap entered puts S back at its cut, with its number,
its loop registers and its pending `kwait`, which has the cycles left that it had, and clears THND; the other streams
stand where the trap left them. R24, R192: a trap that no handler takes stops every core of the job, and the job will
end DONE, or FAILED with CORE_RETIRED where the trap is that of the failure that has retired the core, also when the
core meets that trap while it is being pre-empted; a trap in a handler is marked NESTED in tcause. -/
def Obligations.TrapsAreTakenAndReturnedFrom : Prop :=
  (∀ (s : State) (c : Nat) (t : Trap), TakenNow (s.coreAt c) t → Handled s c t →
     let k := (s.coreAt c).discardAll
     let u := s.takeTrap c t
     (u.coreAt c).trapRec.tcause = .ofNat 64 (t.code % 256 + (if t.async then 2 ^ 8 else 0) + (if t.held then 2 ^ 9 else 0)) ∧
     (u.coreAt c).trapRec.tstream = .ofNat 64 (streamNum t.stream) ∧
     (u.coreAt c).trapRec.tpc = .ofNat 64 (t.pc % 2 ^ 16) ∧
     (u.coreAt c).trapRec.tseq = .ofNat 64 (t.seq % 2 ^ 48) ∧
     (u.coreAt c).trapRec.tval = t.val ∧
     (∀ st, find (u.coreAt c).trapRec.tcut (streamNum st) = some (.ofNat 64 (k.eng st).seq)) ∧
     (∀ i, i < 4 → find (u.coreAt c).trapRec.top i = some (t.ops.getD i 0)) ∧
     (u.coreAt c).thnd = true ∧ (u.coreAt c).strS.pc = 4 * ((s.coreAt c).tvecAddr % 2 ^ 14) ∧
     (u.coreAt c).cutPc = k.strS.pc ∧ (u.coreAt c).cutSeq = k.strS.seq ∧ (u.coreAt c).kwait = none ∧
     (u.coreAt c).cutLoop0 = k.strS.loop0 ∧ (u.coreAt c).cutLoop1 = k.strS.loop1 ∧
     (∀ n, (u.coreAt c).s n = (s.coreAt c).s n) ∧ (∀ n, (u.coreAt c).p n = (s.coreAt c).p n) ∧
     ((∀ w ∈ (s.partAt (s.coreAt c).part).waiters, w.who ≠ .stream c) → u.mem = s.mem)) ∧
  (∀ (s : State) (c : Nat) (t : Trap), TakenNow (s.coreAt c) t → Handled s c t →
     let k := (s.coreAt c).discardAll
     let u := (s.takeTrap c t).returnFromTrap c
     (u.coreAt c).thnd = false ∧ (u.coreAt c).strS.pc = k.strS.pc ∧ (u.coreAt c).strS.seq = k.strS.seq ∧
     (u.coreAt c).strS.loop0 = k.strS.loop0 ∧ (u.coreAt c).strS.loop1 = k.strS.loop1 ∧
     (u.coreAt c).kwait = k.kwait.map (fun w => { w with limit := w.limit.map fun l => l - (s.now - w.since), since := s.now }) ∧
     (∀ st, (u.eng c st).pc = (k.eng st).pc ∧ (u.eng c st).seq = (k.eng st).seq) ∧
     ((∀ w ∈ (s.partAt (s.coreAt c).part).waiters, w.who ≠ .stream c) → u.mem = s.mem)) ∧
  ((∀ (s : State) (c : Nat) (t : Trap) (b : Job), TakenNow (s.coreAt c) t →
     ((s.coreAt c).tvecEn = false ∨ (s.coreAt c).thnd = true ∨ (s.coreAt c).ownFailure t = true) →
     s.jobAt (s.coreAt c).part (s.coreAt c).job = some b →
     let u := s.takeTrap c t
     (u.coreAt c).run = .preempting ∧ (u.coreAt c).trapped = true ∧
     (∀ d ∈ b.onCores, (u.coreAt d).run ≠ .running) ∧
     ((u.coreAt c).trapRec.tcause.getLsbD 10 = (s.coreAt c).thnd) ∧
     ∃ b', u.jobAt (s.coreAt c).part (s.coreAt c).job = some b' ∧
       b'.ending = some (if (s.coreAt c).ownFailure t then (7, 4) else (6, 0))) ∧
   (∀ (s : State) (c : Nat) (t : Trap) (b : Job), (s.coreAt c).run = .preempting → (s.coreAt c).ownFailure t = true →
     s.jobAt (s.coreAt c).part (s.coreAt c).job = some b →
     let u := s.takeTrap c t
     (u.coreAt c).run = .preempting ∧ (u.coreAt c).trapped = true ∧ (u.coreAt c).trapRec.tval = t.val ∧
     ∃ b', u.jobAt (s.coreAt c).part (s.coreAt c).job = some b' ∧ b'.ending = some (7, 4)))

/-- R364, R365: in a handler `ctxsv` to an aligned slot whose pages can be written performs the core's stores, evicts its lines
and writes the context as `rte` would resume it, poison with it, and `ctxld` of an aligned slot that keeps the rules, its
core's stores performed, restores it (what it takes beside the slot, and the free cut, are the model's choice, log 16; that a
slot carries poison is DEDUCED, log 34; that both read memory as an agent does, log 6); a slot that breaks one traps with
FORMAT_INVALID and the offset, a poisoned one with DATA_POISON and the address; outside a handler both trap with PRIVILEGE, and
an address that is no multiple of 4096 with MISALIGNED. -/
def Obligations.ContextWordsSaveAndRestore : Prop :=
  (∀ (s u : State) (p : Pr) (a b : Fin 32), Holds s p → (here s).thnd = true → ((here s).s a).toNat % 4096 = 0 →
    let s' := (((sPast s).performOwn s.core).evictAll s.core).calm
    let k := s'.coreAt s.core
    let basin := ((here s).s b).getLsbD 0
    let cut := { k with kwait := none, strS := { k.strS with loop0 := k.cutLoop0, loop1 := k.cutLoop1 } }
    s'.bulkStore (fun x => s'.xlateFor k.part k.sup x needWr) (some s.core) ((here s).s a).toNat
      (slotLen basin) (cut.slot s.now k.graph.toNat basin false false k.cutPc) (k.slotBad basin) = .ok u →
      exec (.ctxsv p a b) s = .next u) ∧
  (∀ (s : State) (p : Pr) (a : Fin 32) (head m : Mem) (bad' bad : List (Nat × Nat)), Holds s p →
    (here s).thnd = true → ((here s).s a).toNat % 4096 = 0 →
    let v := ((sPast s).performOwn s.core).calm
    let tr (x : Nat) : Res Nat := v.xlateFor (here s).part (here s).sup x needRd
    v.bulkLoad tr ((here s).s a).toNat 8 = .ok (head, bad') →
    v.bulkLoad tr ((here s).s a).toNat (slotLen (bit (slotGet head 4 4) 0)) = .ok (m, bad) →
      (∀ imgs, firstBad bad = none → slotFault m true = none → v.coreImages s.core = .ok imgs →
        exec (.ctxld p a) s = .next ((v.draw.2).onCore s.core fun k =>
          k.restore m [] imgs s.now (Config.freeBits s.freeCount 0) none)) ∧
      (∀ off, firstBad bad = none → slotFault m true = some off →
        exec (.ctxld p a) s = .next (sTrap s 0x0A (.ofNat 64 off) [(here s).s a])) ∧
      (∀ off, firstBad bad = some off → exec (.ctxld p a) s =
        .next (sTrap s 0x40 (.ofNat 64 ((((here s).s a).toNat + off) % 2 ^ 64)) [(here s).s a]))) ∧
  (∀ (s : State) (p : Pr) (a b : Fin 32), Holds s p →
    ((here s).thnd = false →
      exec (.ctxsv p a b) s = .next (sTrap s 0x03 (wordValue (.ctxsv p a b)) [(here s).s a, (here s).s b]) ∧
      exec (.ctxld p a) s = .next (sTrap s 0x03 (wordValue (.ctxld p a)) [(here s).s a])) ∧
    ((here s).thnd = true → ((here s).s a).toNat % 4096 ≠ 0 →
      exec (.ctxsv p a b) s = .next (sTrap s 0x05 ((here s).s a) [(here s).s a, (here s).s b]) ∧
      exec (.ctxld p a) s = .next (sTrap s 0x05 ((here s).s a) [(here s).s a])))

/-- R366, R367: `tlbinv` at supervisor level, its release complete, removes the selected translations from every
translation cache of the partition, and waits, issued, for the walks of the partition that are under way then, whose
results enter no cache, and for no later one; that it waits for every such walk, whatever its address, is the model's
reading (DEDUCED, log 60). At job level it traps with PRIVILEGE. `cflush` cleans and `cinv` evicts the lines of a
range of at most 2^40 bytes; a longer range traps with FORMAT_INVALID. R19, R20, R22, R368, R369: `ggrd` stores the
128 bytes of the gauge that its selector names, zeros for one that names none, and retires with them performed;
`ggset` writes the control word of a gauge of the core or its partition, and clears the gauge where SB[32] is set;
with reserved bits set it traps at job level, and at supervisor level leaves the control word; that SB[32] clears the
values all the same is the model's choice (DESIGN CHOICE, log 41). -/
def Obligations.MaintenanceAndGaugeWords : Prop :=
  ((∀ (s u : State) (p : Pr) (a b : Fin 32), Holds s p →
     let part := (here s).part
     let ops := [(here s).s a, (here s).s b]
     let done (v : State) : State := (v.onEng s.core .S fun e => { e with walks := none }).past s.core .S 4
     ((here s).sup = true → (s.eng s.core .S).walks = none → s.released s.core .S .part = .ok u →
       ∃ t, (t.partAt part).misses = (s.partAt part).misses.map (fun m => { m with barred := true }) ∧
       (t.eng s.core .S).walks = some (t.partAt part).misses ∧
       ((s.partAt part).misses = [] → exec (.tlbinv p a b) s = .next (done t)) ∧
       ((s.partAt part).misses ≠ [] → exec (.tlbinv p a b) s = .next (t.waitIssued s.core .S ops)) ∧
       (((here s).s b).getLsbD 0 = true → ∀ c, (find s.cores c).isSome = true → s.partOf c = (here s).part →
         (t.coreAt c).tlbS = [] ∧ (t.coreAt c).tlbLW = []) ∧
       (((here s).s b).getLsbD 0 = false → ∀ c, (find s.cores c).isSome = true → s.partOf c = (here s).part →
         ∀ x ∈ (t.coreAt c).tlbS ++ (t.coreAt c).tlbLW, canonicalVa ((here s).s a).toNat = true →
           ¬ (x.va ≤ ((here s).s a).toNat ∧ ((here s).s a).toNat < x.va + x.size)) ∧ t.mem = s.mem) ∧
     (∀ ms, (here s).sup = true → (s.eng s.core .S).walks = some ms →
       ((∀ m ∈ (s.partAt part).misses, m ∉ ms) → exec (.tlbinv p a b) s = .next (done s)) ∧
       ((∃ m ∈ (s.partAt part).misses, m ∈ ms) → exec (.tlbinv p a b) s = .next (s.waitIssued s.core .S ops))) ∧
     ((here s).sup = false → exec (.tlbinv p a b) s = .next (sTrap s 0x03 (wordValue (.tlbinv p a b)) ops))) ∧
   (∀ (s : State) (p : Pr) (a b : Fin 32), Holds s p →
     (((here s).s b).toNat ≤ 2 ^ 40 →
       let w := (sPast s).calm
       let lines := w.rangeLines s.core ((here s).s a).toNat ((here s).s b).toNat
       exec (.cflush p a b) s = .next (lines.foldl (fun u l => u.cleanLine s.core l) w) ∧
       exec (.cinv p a b) s = .next (lines.foldl (fun u l => u.evict s.core l) w)) ∧
     (2 ^ 40 < ((here s).s b).toNat →
       exec (.cflush p a b) s = .next (sTrap s 0x0A ((here s).s b) [(here s).s a, (here s).s b]) ∧
       exec (.cinv p a b) s = .next (sTrap s 0x0A ((here s).s b) [(here s).s a, (here s).s b])))) ∧
  ((∀ (s u : State) (p : Pr) (a b : Fin 32), Holds s p → ((here s).s b).toNat % 128 = 0 →
     (sPast s).storeWords s.core .S .wt ((here s).s b).toNat
       (gaugeBytes ((sPast s).gaugeAt s.core (((here s).s a).toNat % 256))) = .ok u →
       exec (.ggrd p a b) s = .next (u.performOwn s.core)) ∧
   (∀ (s : State) (p : Pr) (a b : Fin 32), Holds s p →
     (s.gaugeAt s.core (((here s).s a).toNat % 256) = none → exec (.ggset p a b) s = .next (sPast s)) ∧
     (∀ i g, s.gaugeAt s.core (((here s).s a).toNat % 256) = some (i, g) → (here s).s b &&& 0x3F00FF00#64 = 0 →
       exec (.ggset p a b) s = .next ((sPast s).setGauge i
         { (if ((here s).s b).getLsbD 32 then g.clear else g) with
           control := gaugeControl (match i with | .die _ _ => true | .core _ _ => false) g.control
             (((here s).s b).setWidth 32) })) ∧
     (∀ i g, s.gaugeAt s.core (((here s).s a).toNat % 256) = some (i, g) → (here s).s b &&& 0x3F00FF00#64 ≠ 0 →
       ((here s).sup = false → exec (.ggset p a b) s =
         .next (sTrap s 0x04 (.ofNat 64 (((here s).s a).toNat % 256)) [(here s).s a, (here s).s b])) ∧
       ((here s).sup = true → exec (.ggset p a b) s = .next (((sPast s).onCore s.core fun k =>
         { k with rsvdWr := true }).setGauge i (if ((here s).s b).getLsbD 32 then g.clear else g))))))

/-- R203, R358: a system word of the S stream at job level leaves every supervisor register of every partition, and the
level of every core, as they were. -/
def Obligations.JobLevelKeepsSupervisorState : Prop :=
  ∀ (i : Instr) (s t : State), (here s).sup = false →
    (match i with
      | .csrr .. | .csrw .. | .fence .. | .trap .. | .rte .. | .ctxsv .. | .ctxld .. | .tlbinv .. | .cflush .. | .cinv ..
      | .ggrd .. | .ggset .. => True
      | _ => False) →
    exec i s = .next t →
      (∀ q, supervisorRegisters (t.partAt q) = supervisorRegisters (s.partAt q)) ∧
      ∀ c, (t.coreAt c).sup = (s.coreAt c).sup

/-! ## L and W: loads, multicast, copies, collectives, stores (16_transfer R281 to R291) -/

/-- R281, R282, R283, R285: `tld` writes the fold of its tile into the basin, `tld.t` its transpose, an MX tile's scale
with it; `gath` assembles 32 rows, zeros where the index word is 0xFFFF_FFFF; `pld` writes n words of plain memory
into the basin; `mcast` copies a tile into the basin of every named core that runs for the job. The words that read a
tensor count as reads of the tile (R132), and each word's operands advance (R279). Where an independent block load
stands behind a `pld`, that one may be performed first, and the `pld` waits then, as a free value says (R160; DESIGN
CHOICE, log 6). That `mcast` carries the poison of its source with it is the model's reading (DEDUCED, log 34). R83,
R87, R283: `pld.ret` of an aligned block takes its tokens, loads it once, and puts ceil(n / 2) entries of two words
each into L's return queue, the last one of an odd block with zeros above its word. A word that puts into a return
queue retires and gives its tokens where its entries all fit; else it puts those that do, keeps the rest as an issued
word, and waits with code 0x5. That the block is loaded once, and what of it is kept while it waits, is the model's
reading (DEDUCED, log 25). -/
def Obligations.LoadsFillTheBasinOrTheQueue : Prop :=
  (∀ (s : State) (p : EPre) (qa qb qc : Fin 16), GoesE s .L p →
     let b := begun s .L p.tok 4
     let k := b.coreAt s.core
     let qd := qOf s .L qa
     let qs := qOf s .L qb
     let qi := qOf s .L qc
     let after (u : State) (roles : List (Fin 16 × Role)) : State := u.advances s.core .L roles
     let loads (i : Instr) (t : Tensor) (h : Hist) (place : Nat → Nat) : Prop := ∃ bs,
       Holds1024 t.ty bs (fun e => foldAt s t h qs.geomLo (place e)) ∧
       exec i s = doneE s .L p [qa, qb] (after ((b.onCore s.core fun k =>
         k.putTile qd t.ty bs (h.foldFor t.ty s.core qs.geomLo).scale).noteRead s.core qs.base qs.geomLo)
         [(qa, .basin), (qb, .tensor)])
     (∀ t h, TileFits k qd t.ty → TileAt s qs.base qs.geomLo t h →
       loads (.tld p qa qb) t h (fun e => e) ∧ loads (.tldT p qa qb) t h (fun e => e % 32 * 32 + e / 32)) ∧
     (∀ t h, TileFits k qd t.ty → isMx t.ty = false → IndexList k qi → Names (herePart s) qs.base t h → 0 < t.tiles →
       (∀ x ∈ k.indexWords qi.off, x ≠ 0xFFFFFFFF → TileAt s qs.base (x / 32) t h) →
       ∃ bs, Holds1024 t.ty bs (fun e =>
           let x := (k.indexWords qi.off).getD (e / 32) 0
           if x = 0xFFFFFFFF then 0 else foldAt s t h (x / 32) (x % 32 * 32 + e % 32)) ∧
         exec (.gath p qa qb qc) s = doneE s .L p [qa, qb, qc] (after
           (((k.indexWords qi.off).filter (· != 0xFFFFFFFF)).foldl (fun u x => u.noteRead s.core qs.base (x / 32))
             (b.onCore s.core fun k => k.putBasin qd.off bs)) [(qa, .basin), (qb, .tensor), (qc, .basin)])) ∧
     (∀ (pol : Pol) (len : BitVec 8),
       let n := len.toNat + 1
       let o := orderedBlock s qa qb n
       let ends (u : State) (bs : List Byte) : Prop := exec (.pld p qa qb pol false len) s = doneE s .L p [qa, qb]
         (after (u.onCore s.core fun k => k.putBasin qd.off bs) [(qa, .basin), (qb, .plain)])
       (o.1 = true → exec (.pld p qa qb pol false len) s = .next (o.2.waitOn s.core .L 0 (qsrcs s .L [qa, qb]))) ∧
       ((s.eng s.core .L).early = none → s.blockAhead s.core qa qb n = none → o = (false, s)) ∧
       (o.1 = false → qd.off % 4 = 0 → qs.base.toNat % 4 = 0 → k.inScratch qd.off (4 * n) = true →
         (∀ (u : State) (bs : List Byte), (s.eng s.core .L).earlyRead = none →
           (begun o.2 .L p.tok 4).loadBlock s.core pol qs.base n = .ok (u, bs) → ends u bs) ∧
         (∀ bs, (s.eng s.core .L).earlyRead = some bs → ends (b.onEng s.core .L fun e => { e with early := none }) bs))) ∧
     (∀ (f : Ty) (job : Job), tyOf (qs.fmt.toNat % 32) = some f → qd.off % 32 = 0 → qs.off % 32 = 0 →
       k.inScratch qd.off (tileBytes f) = true → k.inScratch qs.off (tileBytes f) = true →
       (isMx f = true → k.inScratch qs.scaleOff 1 = true) → b.jobOf s.core = some job →
       exec (.mcast p qa qb) s = doneE s .L p [qa, qb] (after
         ((b.namedCores job qd.geomLo (qd.geomHi % 2 ^ 16)).foldl (fun u d => u.onCore d fun x =>
           let y := x.copyIn k qd.off qs.off (tileBytes f)
           if isMx f then y.copyIn k qs.scaleOff qs.scaleOff 1 else y) b) [(qa, .multicast), (qb, .basin)]))) ∧
  ((∀ (s : State) (p : EPre) (qa qb : Fin 16) (pol : Pol) (len : BitVec 8),
     guardE s .L p = true → (s.eng s.core .L).spec = [] →
     let n := len.toNat + 1
     let q := qOf s .L qa
     let u := taken s .L p.tok
     let puts (v : State) (r : Returning) : Prop := exec (.pld p qa qb pol true len) s =
       .next (v.returnPut s.core .L p.tok [q.base] (fun w => w.advances s.core .L [(qa, .plain)]) r)
     (∀ r, (s.eng s.core .L).ret = some r → r.issued = true → puts s r) ∧
     ((here s).takeStop .L p.tok = none →
       (∀ r, (s.eng s.core .L).ret = some r → r.issued = false → puts u { left := r.left, issued := true }) ∧
       (∀ (v : State) (bs : List Byte), (s.eng s.core .L).ret = none → q.base.toNat % 4 = 0 →
         u.loadBlock s.core pol q.base n = .ok (v, bs) → bs.length = 4 * n →
         ∃ vs : List DWord, vs.length = (n + 1) / 2 ∧ (∀ i, i < vs.length → (vs.getD i 0).toNat = elem 64 (leNat bs) i) ∧
           puts v { left := vs, issued := true }))) ∧
   (∀ (s : State) (c : Nat) (st : Stream) (tok : Tok) (ops : List DWord) (after : State → State) (r : Returning),
     let e := s.eng c st
     let old := (s.coreAt c).rqAt (returnQueue st)
     let queued (vs : List DWord) : State := s.onCore c fun k => { k with rq := put k.rq (returnQueue st) (old ++ vs) }
     (old.length + r.left.length ≤ 16 → s.returnPut c st tok ops after r =
       (after (((queued r.left).onEng c st fun e => { e with ret := none }).past c st 4)).onCore c
         fun k => k.giveTokens st tok e.pc e.seq ops) ∧
     (r.left ≠ [] → 16 < old.length + r.left.length → s.returnPut c st tok ops after r =
       ((queued (r.left.take (16 - old.length))).onEng c st fun e => { e with ret := some { r with
         left := r.left.drop (16 - old.length), put := r.put + min r.left.length (16 - old.length) } }).noteWait c st 5 ops)))

/-- R286 to R288: `ccopy` and `coll` whose descriptor, sides, channel and completion word pass their checks and whose release
is complete make one operation of the core, with the physical addresses of the completion word and the semaphore captured,
queue its start on the core's die, and move nothing yet. A pending CDELAY for the signalled semaphore is used up, and holds the
copy (R377). A copy that is not held and whose far memory stands behind a link that is down ends LINK_DOWN (2) with a count of
0 (R34). A collective is numbered after those that its rank has issued under its tag, from which those of a tag of which
nothing is in flight are gone, with the ranks of its list on this device, and takes the messages that came before it (DESIGN
CHOICE, log 32); one whose combination R35 does not list completes at once with BAD_FORMAT (6). Both read memory as an agent
does (log 6). -/
def Obligations.CopiesAndCollectivesAreAccepted : Prop :=
  ∀ (s v t : State) (p : EPre) (qa qb : Fin 16) (ch : Fin 64) (d : List Byte) (pa : Nat) (sem : Option Nat), GoesE s .L p →
    let c := s.core
    let b := (begun s .L p.tok 4).calm
    let k := b.coreAt c
    let qd := qOf s .L qa
    let qs := qOf s .L qb
    let i := t.dev.nextOp
    let ops := [qd.base, qs.base]
    let semv := bit (recGet d 1 1) 6
    let start : Instr := .conduitEntryStart (c / 36) (here s).part
    let woken := if t.events.contains start then t.events else t.events ++ [start]
    Descriptor k qd d → qs.base.toNat % 8 = 0 → b.signals c qs.base semv (recGet d 1 1 % 64) = .ok (v, pa, sem) →
    v.released c .L .sys = .ok t → EntriesFree t c →
    (∀ src dst : Side,
      let sk := recGet d 0 1 % 16
      let dk := recGet d 0 1 / 16 % 16
      let len := recGet d 24 8
      b.badCopy c d = none → k.basinSide sk (recGet d 8 8) len = .ok () → k.basinSide dk (recGet d 16 8) len = .ok () →
      b.tensorSide c sk (.ofNat 64 (recGet d 8 8)) (recGet d 32 4) len = .ok () →
      b.sideOf c ch sk true (recGet d 8 8) (recGet d 32 4) len = .ok src →
      b.sideOf c ch dk false (recGet d 16 8) (recGet d 32 4) len = .ok dst →
      let cd := k.cdelay.toNat
      let held := semv && bit cd 63 && cd / 2 ^ 32 % 64 == recGet d 1 1 % 64
      let down := !held && (t.linkLost src || t.linkLost dst)
      let o := madeOp s i (.copy src dst len) ops pa sem (if held then some (cd % 2 ^ 32) else none)
      ∃ u : State, exec (.ccopy p qa qb ch) s = doneE s .L p [qa, qb] (u.advances c .L [(qa, .descriptor), (qb, .plain)]) ∧
        u.dev.nextOp = i + 1 ∧
        (down = false → find u.dev.ops i = some o ∧ u.mem = t.mem ∧ u.events = woken ∧
          u.coreAt c = { t.coreAt c with cdelay := if held then .ofNat 64 (cd % 2 ^ 63) else (t.coreAt c).cdelay }) ∧
        (down = true → .ccopyComplete i [] ∈ u.events ∧
          find u.dev.ops i = some { o with last := t.sideHist (here s).part src, status := some 2, queued := false })) ∧
    (∀ (cap : Cap) (entry : List Byte),
      let rank := recGet d 6 2
      let list := recGet d 32 8
      let x : Coll := ⟨recGet d 0 1 % 16, recGet d 0 1 / 16 % 16, recGet d 2 1 % 32, recGet d 4 2 + 1, rank, recGet d 8 2,
        recGet d 16 8, recGet d 24 8, list, cap.number % 2 ^ 16⟩
      badColl d = none → list % 8 = 0 → b.readFor (here s).part (here s).sup ((list + 8 * rank) % 2 ^ 64) 2 = .ok entry →
      leNat entry % 256 = c → (leNat entry).testBit 15 = true → recGet d 16 8 % 4 = 0 → b.collCap c ch = .ok cap →
      ∃ u : State, exec (.coll p qa qb ch) s = doneE s .L p [qa, qb] (u.advances c .L [(qa, .descriptor), (qb, .plain)]) ∧
        u.dev.nextOp = i + 1 ∧ u.mem = t.mem ∧
        let old := if t.tagBusy (here s).part x.tag i = true then t.dev.rounds
          else t.dev.rounds.filter fun y => y.part != (here s).part || y.tag != x.tag
        let mine (m : CollMsg) : Bool := u.pairOp m == some i
        let o := madeOp s i (.coll x) ops pa sem none
        if collAccepts x.op x.oper (tyOf x.ty) = true then
          u.dev.rounds = old ++ [⟨i, x.tag, (here s).part, rank, c, t.localRanks (here s).part (here s).sup x⟩] ∧
          find u.dev.ops i = some { o with early := (t.dev.chunks.filter mine).map fun m => (m.sender, m.msg) } ∧
          u.dev.chunks = t.dev.chunks.filter (fun m => !mine m) ∧ u.events = woken
        else find u.dev.ops i = some { o with status := some 6, queued := false } ∧ u.events = woken ++ [.collComplete i])

/-- R124, R289 to R291: into an open patch of the core and of its kind, with staging room and clean operands, `tst` and
`tadd` record the masked elements of a basin tile, nothing with an all-zero mask; `scat` records each row that its
index list names, in order; `upd` records the deltas of its stage over the whole tile. A repeated element is replaced
by `tst` and added to by `tadd`. R284: `pst` of an aligned block whose pages are all writable reads its clean source
bytes and stores them as words in ascending address order under its policy. -/
def Obligations.StoresRecordPatchesOrWriteBlocks : Prop :=
  ((∀ (s : State) (p : EPre) (qa qb qc : Fin 16) (mk : Bool) (t : Tensor) (h : Hist) (o : OpenPatch), GoesE s .W p →
     let c := s.core
     let b := begun s .W p.tok 4
     let k := b.coreAt c
     let r := (qOf s .W qa).base
     let tile := (qOf s .W qa).geomLo
     let qs := qOf s .W qb
     let qi := qOf s .W qc
     let w := width t.ty
     let data := leNat (k.getBasin qs.off (tileBytes t.ty))
     let scale := if isMx t.ty then leNat (k.getBasin qs.scaleOff 1) else 0
     let after (e : Option Entry) (roles : List (Fin 16 × Role)) : State :=
       State.advances (match e with
         | some e => b.onPart (here s).part fun q => recorded q r e
         | none => b) c .W roles
     Names (herePart s) r t h → OpenHere s r h o →
     (tile < t.tiles → TileFits k qs t.ty → Clean k qs.off (tileBytes t.ty) →
       (isMx t.ty = true → Clean k qs.scaleOff 1) → ∀ m, MaskIs k t tile mk qi m →
       (m = 0 ∨ b.stageRoom c r t.ty [tile] = true) →
       let roles := [(qa, Role.tensor), (qb, .basin)] ++ if mk then [(qc, Role.basin)] else []
       let qs' := [qa, qb] ++ if mk then [qc] else []
       ∃ v, ValueIs t.ty m v (elem w data) ∧
         let e : Option Entry := if m = 0 then none else some { tile, mask := m, val := ⟨v, scale⟩ }
         (o.overwrite = true → (isMx t.ty = true → m = t.real tile) →
           exec (.tst p qa qb mk qc) s = doneE s .W p qs' (after e roles)) ∧
         (o.overwrite = false → isMx t.ty = false →
           exec (.tadd p qa qb mk qc) s = doneE s .W p qs' (after e roles))) ∧
     (0 < t.tiles → isMx t.ty = false → TileFits k qs t.ty → Clean k qs.off (tileBytes t.ty) → IndexList k qi →
       (∀ x ∈ k.indexWords qi.off, x ≠ 0xFFFFFFFF → x / 32 < t.tiles) →
       let rows := ((k.indexWords qi.off).zipIdx.filter fun x => x.1 != 0xFFFFFFFF)
       ∃ es : List Entry, es.map Entry.tile = rows.map (fun x => x.1 / 32) ∧
         es.map Entry.mask = rows.map (fun x => rowMask (x.1 % 32) &&& t.real (x.1 / 32)) ∧
         (∀ e x, (e, x) ∈ es.zip rows → ValueIs t.ty e.mask e.val.data fun n => elem w data (32 * x.2 + n % 32)) ∧
         (b.stageRoom c r t.ty ((es.filter fun e => e.mask != 0).map Entry.tile) = true →
           exec (.scat p qa qb qc) s = doneE s .W p [qa, qb, qc] (State.advances
             ((es.filter fun e => e.mask != 0).foldl (fun u e => u.onPart (here s).part fun q => recorded q r e) b) c .W
             [(qa, .tensor), (qb, .basin), (qc, .basin)]))) ∧
     (∀ op : Uop, tile < t.tiles → o.overwrite = false → isMx t.ty = false → TileFits k qs .f32 → TileFits k qi .f32 →
       Clean k qs.off 4096 → Clean k qi.off 4128 → b.stageRoom c r t.ty [tile] = true → TileAt s r tile t h →
       t.real tile ≠ 0 →
       ∃ v, ValueIs t.ty (t.real tile) v (fun e => convert t.ty false (valOf .f32 (updDelta op
           (fun i => elem 32 (leNat (k.getBasin qi.off 32)) i) (elem 32 (leNat (k.getBasin qs.off 4096)) e)
           (elem 32 (leNat (k.getBasin (qi.off + 32) 4096)) e)
           (rne32 (valOf t.ty (foldAt s t h tile e)))))) ∧
         exec (.upd p qa qb qc op) s = doneE s .W p [qa, qb, qc]
           (((b.onPart (here s).part fun q => recorded q r { tile, mask := t.real tile, val := ⟨v, 0⟩ }).noteRead c r tile).advances c .W
             [(qa, .tensor), (qb, .basin), (qc, .basin)]))) ∧
   (∀ (ty : Ty) (overwrite : Bool) (es : List Entry) (x e : Entry), es.find? (fun y => y.tile == e.tile) = some x →
     ∃ m, (mergeEntry ty overwrite es e).find? (fun y => y.tile == e.tile) = some m ∧ m.mask = x.mask ||| e.mask ∧
       ∀ i, i < 1024 → elem (width ty) m.val.data i =
         (if e.mask.getLsbD i then
           if overwrite = false ∧ x.mask.getLsbD i = true then addf ty (elem (width ty) x.val.data i) (elem (width ty) e.val.data i)
           else elem (width ty) e.val.data i
         else elem (width ty) x.val.data i) % 2 ^ width ty)) ∧
  ((∀ (s t u : State) (p : EPre) (qa qb : Fin 16) (pol : Pol) (len : BitVec 8), GoesE s .W p →
     let n := 4 * (len.toNat + 1)
     let b := begun s .W p.tok 4
     let k := b.coreAt s.core
     let qd := qOf s .W qa
     let qs := qOf s .W qb
     qd.base.toNat % 4 = 0 → qs.off % 4 = 0 → Clean k qs.off n →
     b.xlateRange s.core .W qd.base.toNat n needWr = .ok t →
     t.storeWords s.core .W pol qd.base.toNat (k.getBasin qs.off n) = .ok u →
       exec (.pst p qa qb pol len) s = doneE s .W p [qa, qb] (u.advances s.core .W [(qa, .plain), (qb, .basin)])) ∧
   (∀ (s t u : State) (c : Nat) (pol : Pol) (va : Nat) (b0 b1 b2 b3 : Byte) (bs : List Byte),
     s.store c .W pol va [b0, b1, b2, b3] = .ok t → t.storeWords c .W pol ((va + 4) % 2 ^ 64) bs = .ok u →
       s.storeWords c .W pol va (b0 :: b1 :: b2 :: b3 :: bs) = .ok u) ∧
   (∀ (s : State) (c : Nat) (pol : Pol) (va : Nat), s.storeWords c .W pol va [] = .ok s))

/-! ## M (18_matrix R319 to R332; 10_numbers R178 to R182) -/

/-- R323 to R325, R182: an `mma` whose operands pass their checks works its steps in order on the accumulator that it
names, and leaves the result there; a clamped I32 sum sets ASAT. One residue mismatch of a step is replayed and
counted, and changes no value; a second one of any step is charged to the core and traps with SDC_MATRIX, and a
poisoned operand of a step stops the word there, the steps before it having been checked and replayed. R179 to R181,
R324: in one step, cell (i, j) of an I32 accumulator becomes itself plus the sum of the products of row i of A and
column j of B, clamped to the range of I32; of an FP32 accumulator, the windowed sum of the products scaled by the two
scales and added with one rounding. Every cell has its row, its column and its block's scales. -/
def Obligations.MatrixStepsAccumulateRowsByColumns : Prop :=
  (∀ (s : State) (p : EPre) (a : Fin 8) (sh : Bool) (qa qb : Fin 8) (rep : BitVec 8) (plan : MmaPlan), GoesE s .M p →
     let n := rep.toNat + 1
     let ra := qOf s .M (mmaA qa)
     let rb := qOf s .M (mmaB qb)
     let ops := qsrcs s .M [mmaA qa, mmaB qb]
     let mismatches (j : Nat) : Nat := (here s).residue.getD j 0
     let met (ran replays : Nat) : State := s.onCore s.core fun k =>
       { k with residue := k.residue.drop ran, replays := min (k.replays + replays) 0xFFFF }
     let replayed (j : Nat) : Nat := ((here s).residue.take j).sum
     let goodStep (j : Nat) : Prop := plan.clean ra rb (here s) j = .ok () ∧ mismatches j ≤ 1
     mmaPlan a sh ra rb n (here s) = .ok plan →
     ((∀ j, j < n → goodStep j) →
       let u := met n (replayed n)
       let r := (here s).mmaSteps ra rb plan.ta plan.tb n 0 ((here s).accAt (if sh then 8 + a else a), false)
       exec (.mma p a sh qa qb rep) s = .next (ended u .M p.tok ops
         (((begun u .M p.tok 4).onCore s.core fun k =>
           { k with acc := put k.acc (if sh then 8 + a.val else a.val) r.1, asat := k.asat || r.2 }).advances s.core .M
           [(mmaA qa, .basin), (mmaB qb, .basin)]))) ∧
     (∀ j, j < n → (∀ i, i < j → goodStep i) →
       (plan.clean ra rb (here s) j = .ok () → 2 ≤ mismatches j →
         exec (.mma p a sh qa qb rep) s =
           engineTrap (taken ((met (j + 1) (replayed j + 1)).charge s.core .matrix) .M p.tok) .M 0x41 0 ops) ∧
       (∀ e, plan.clean ra rb (here s) j = .error e →
         exec (.mma p a sh qa qb rep) s = .next ((taken (met j (replayed j)) .M p.tok).stopAt s.core .M ops e)))) ∧
  (∀ (a : Acc) (ta tb : Ty) (x : StepIn) (i j : Nat) (row col : List Nat), i < 96 → j < 64 → x.rows.length = 96 →
     x.cols.length = 64 → x.rows[i]? = some row → x.cols[j]? = some col →
     let v := (a.step ta tb x).1.cell i j
     (a.i32 = true →
       let z := (List.zipWith (fun y w => signed (width ta) y * signed (width tb) w) row col).foldl (· + ·)
         (signed 32 (a.cell i j))
       signed 32 v = max (-2 ^ 31) (min (2 ^ 31 - 1) z)) ∧
     (a.i32 = false →
       v = fpCell (x.sa.getD (i / 32) 0) (x.sb.getD (j / 32) 0) (a.cell i j) (row.map (valOf ta)) (col.map (valOf tb)) % 2 ^ 32) ∧
     (a.step ta tb x).1.i32 = a.i32)

/-- R327: `mzero` sets every cell of the accumulator that it names to zero, which is +0 under FP32 and 0 under I32, and sets its
mode; it makes no checks and never traps; `mzero.i32` of a twin has no encoding. -/
def Obligations.MzeroClearsAnAccumulator : Prop :=
  (∀ (s : State) (p : EPre) (a : Fin 8) (sh i32 : Bool), GoesE s .M p →
    ∃ x : Acc, x.i32 = i32 ∧ (∀ i j, x.cell i j = 0) ∧
      exec (.mzero p a sh i32) s = doneE s .M p [] ((begun s .M p.tok 4).onCore s.core fun k =>
        { k with acc := put k.acc (if sh then 8 + a.val else a.val) x })) ∧
  valOf .f32 0 = .fin false 0 0 ∧ signed 32 0 = 0 ∧
  (∀ (p : EPre) (a : Fin 8) (ws : List Word), decode .M ws ≠ .ok (.mzero p a true true))

/-- R320, R328 to R331: `mlda` fills one from six tiles; `msta` writes one
as six tiles of a format, and `mret` then clears it; `mcommit` copies the twin to its accumulator and `mdiscard` the
accumulator to its twin; `mchk` writes MSTAT and clears REPLAYS and ASAT. That a copy of an accumulator carries its poison, and
that a write of a whole one cleans it, is the model's reading (DEDUCED, log 34). -/
def Obligations.AccumulatorWordsMoveImages : Prop :=
  ∀ (s : State) (p : EPre) (a : Fin 8) (sh : Bool) (qa : Fin 16), GoesE s .M p →
    let b := begun s .M p.tok 4
    let k := b.coreAt s.core
    let q := qOf s .M qa
    let dest := if sh then 8 + a.val else a.val
    let setAcc (n : Nat) (x : Acc) (u : State) : State := u.onCore s.core fun k => { k with acc := put k.acc n x }
    let done (qs : List (Fin 16)) (u : State) : Out := doneE s .M p qs (u.advances s.core .M (qs.map fun q => (q, .basin)))
    exec (.mcommit p a) s = doneE s .M p [] (setAcc a (k.accAt (8 + a)) b) ∧
    exec (.mdiscard p a) s = doneE s .M p [] (setAcc (8 + a) (k.accAt a) b) ∧
    (∀ f, f = .f32 ∨ f = .i32 → tyOf (q.fmt.toNat % 32) = some f → q.off % 32 = 0 →
      (∀ j, j < 6 → Clean k (q.tileOff 4096 j) 4096 ∧ q.inRing 4096 (q.tileOff 4096 j) = true) →
      ∃ x : Acc, x.i32 = (f == .i32) ∧ x.bad = false ∧
        (∀ i j, i < 96 → j < 64 → x.cell i j =
          leNat (k.getBasin (q.tileOff 4096 (2 * (i / 32) + j / 32) + 4 * (i % 32 * 32 + j % 32)) 4)) ∧
        exec (.mlda p a sh qa) s = done [qa] (setAcc dest x b)) ∧
    (∀ t : Ty, q.off % 32 = 0 → k.tilesCheck q (tileBytes t) 6 (if isMx t then 6 else 0) = .ok () →
      let saved (n : Nat) (u : State) : State := u.onCore s.core fun x => (x.putImage q t (k.accAt n)).accRetired
      ((k.accAt dest).bad = false → exec (.msta p a sh qa t) s = done [qa] (saved dest b)) ∧
      ((k.accAt a).bad = false →
        exec (.mret p a qa t) s = done [qa] (setAcc a { i32 := (k.accAt a).i32 } (saved a b)))) ∧
    (q.off % 8 = 0 → k.inScratch q.off 8 = true → exec (.mchk p qa) s = done [qa] (b.onCore s.core fun k =>
      { k.putBasin q.off (toLe 8 k.mstat) with replays := 0, asat := false }))

/-! ## Control words of L, M and W (16_transfer R292 to R296, R382) and run-ahead (05_streams R89 to R93) -/

/-- R292, R293: `eloop` starts a counted loop at the next word, or skips its body where the count is 0 or its guard false;
`enext` goes back while the count lasts; with `.q`, and for `ebrq`, an outcome word from the stream's scalar queue
decides; a loop that ends so leaves the twins that its run-ahead used with their accumulators' values (R330). `ejmp`
jumps. A target outside the image's addresses traps with FETCH_RANGE on the branching word. R294 to R296, R382: `etok`
moves its tokens only; `ehalt` halts its stream; `qset` and `gset` write a field or a guard from an immediate, and
`qget` and `gget` from the next word of the stream's scalar queue, for which they wait with code 0x4; `efence` at
`.core` performs the core's own stores, and at `.wing` or wider waits until its release is complete and then drops the
core's untracked copies. -/
def Obligations.EngineControlAndLoopWords : Prop :=
  (∀ (s : State) (p : EPre),
     let st := s.stream
     let e := s.eng s.core st
     let b := begun s st p.tok 4
     let at' (u : State) (a : Nat) : State := u.onEng s.core st fun e => { e with pc := a }
     let loop (ln : Fin 2) (n : Word) (a : Nat) : State := b.onEng s.core st fun e => e.setLoop ln ⟨n, a⟩
     (∀ (ln : Fin 2) (len : BitVec 10) (cnt : BitVec 8),
       let skip := e.pc + 4 * (len.toNat + 1)
       let n : Word := if cnt = 0 then (e.loop ln).count else .ofNat 32 cnt.toNat
       (Ready s st p.tok → guardE s st p = false →
         exec (.eloop p ln len cnt) s = doneE s st p [] (at' b skip)) ∧
       (GoesE s st p → (n ≠ 0 → exec (.eloop p ln len cnt) s = doneE s st p [] (loop ln n (e.pc + 4))) ∧
         (n = 0 → skip < 65536 → exec (.eloop p ln len cnt) s = doneE s st p [] (at' (loop ln 0 (e.pc + 4)) skip)))) ∧
     (∀ ln : Fin 2, GoesE s st p →
       let l := e.loop ln
       (l.count = 0 → exec (.enext p ln false) s = doneE s st p [] b) ∧
       (l.count = 1 → exec (.enext p ln false) s = doneE s st p [] (loop ln 0 l.start)) ∧
       (1 < l.count.toNat → l.start < 65536 →
         exec (.enext p ln false) s = doneE s st p [] (at' (loop ln (l.count - 1) l.start) l.start))) ∧
     (∀ (v : DWord) (vs : List DWord) (ln : Fin 2) (disp : BitVec 13), GoesE s st p →
       (here s).sqAt (queueOf st) = v :: vs →
       let took := b.onCore s.core fun k => { k with sq := put k.sq (queueOf st) vs }
       let target : Int := e.pc + 4 * disp.toInt
       (v.toNat % 2 = 0 → exec (.enext p ln true) s = doneE s st p [] (took.endLoop s.core st) ∧
         exec (.ebrq p disp) s = doneE s st p [] took) ∧
       (v.toNat % 2 = 1 →
         ((e.loop ln).start < 65536 → exec (.enext p ln true) s = doneE s st p [] (at' took (e.loop ln).start)) ∧
         (0 ≤ target → target < 65536 → exec (.ebrq p disp) s = doneE s st p [] (at' took target.toNat)))) ∧
     (∀ disp : BitVec 13, GoesE s st p →
       let target : Int := e.pc + 4 * disp.toInt
       (0 ≤ target → target < 65536 → exec (.ejmp p disp) s = doneE s st p [] (at' b target.toNat)) ∧
       ((target < 0 ∨ 65536 ≤ target) → exec (.ejmp p disp) s = engineTrap (taken s st p.tok) st 0x02 (.ofInt 64 target) []))) ∧
  (∀ (s : State) (p : EPre), GoesE s s.stream p →
     let st := s.stream
     let b := begun s st p.tok 4
     let set (u : State) (f : Engine → Engine) : State := u.onEng s.core st f
     exec (.etok p) s = doneE s st p [] b ∧
     exec (.ehalt p) s = doneE s st p [] (set b fun e => { e with halted := true }) ∧
     (∀ (q : Fin 16) (f : Fld) (imm : BitVec 12),
       exec (.qseti p q f imm) s = doneE s st p [] (set b fun e => e.setField q f (.ofNat 64 imm.toNat))) ∧
     (∀ (n : Fin 4) (v : Bool), exec (.gseti p n v) s = doneE s st p [] (set b fun e => e.setG n v)) ∧
     (∀ (v : DWord) (vs : List DWord), (here s).sqAt (queueOf st) = v :: vs →
       let took := b.onCore s.core fun k => { k with sq := put k.sq (queueOf st) vs }
       (∀ (q : Fin 16) (f : Fld), exec (.qget p q f) s = doneE s st p [] (set took fun e => e.setField q f v)) ∧
       (∀ n : Fin 4, exec (.gget p n) s = doneE s st p [] (set took fun e => e.setG n (v.toNat % 2 == 1)))) ∧
     ((here s).sqAt (queueOf st) = [] → ∀ (q : Fin 16) (f : Fld) (n : Fin 4),
       exec (.qget p q f) s = .next ((taken s st p.tok).waitOn s.core st 4 []) ∧
       exec (.gget p n) s = .next ((taken s st p.tok).waitOn s.core st 4 [])) ∧
     exec (.efence p .core) s = doneE s st p [] (b.performOwn s.core) ∧
     (∀ sc : Scope, sc ≠ .core →
       (∀ u, b.released s.core st sc = .ok u → exec (.efence p sc) s = doneE s st p [] (u.dropUntracked s.core)) ∧
       (∀ d, b.released s.core st sc = .error (.drain d) → exec (.efence p sc) s =
         .next (((taken s st p.tok).onEng s.core st fun e => { e with drain := some d }).waitIssued s.core st []))))

/-- R90: a closing word in the queue form whose outcome has not arrived either begins a speculative iteration at its
loop's start, where its rules allow one and the model's free choice takes it, or waits with code 0x4. R91: an outcome
that says stop undoes everything that the unresolved iterations did, and the twin of each accumulator that the loop's
run-ahead used holds its accumulator's value (R330): the stream stands after the closing word with the guards, loops
and registers it had there; the accumulators, tensors, Pool and memory are as they were, and the tokens that the
iterations took are back, but for those of the closing word itself. R91, R92: an outcome that says continue commits
the oldest unresolved iteration, where the FIFOs have room for its gives: its gives are made, its accumulators take
their twins' values, its entries are recorded, and the others stay unresolved; a fault that it holds is then taken,
the tokens of the faulting word returned. Where they have none, the outcome stays in its queue and the commit waits.
That an accumulator takes the poison of its twin (log 34), and which tokens come back with a held fault (log 56), are
the model's readings (DEDUCED). -/
def Obligations.RunAheadIsUndoneOrCommitted : Prop :=
  ((∀ (s : State) (p : EPre) (ln : Fin 2), (here s).takeStop s.stream p.tok = none → guardE s s.stream p = true →
     ((here s).sqAt (queueOf s.stream) = [] ∨ (s.eng s.core s.stream).spec ≠ []) →
     let e := s.eng s.core s.stream
     let start := (e.loop ln).start
     let k : Core := { here s with guesses := (here s).guesses + 1 }
     exec (.enext p ln true) s =
       if e.mayRunAhead s.stream start = true then
         if Config.runsAhead s.core (here s).guesses = true then
           .next (s.setCore s.core (k.predict s.stream p.tok start))
         else .next ((s.setCore s.core k).waitOn s.core s.stream 4 [])
       else .next (s.waitOn s.core s.stream 4 [])) ∧
   (∀ (s : State) (c : Nat) (st : Stream) (it : Iter) (rest : List Iter) (v : DWord) (vs : List DWord), st ≠ .S →
     (s.eng c st).spec = it :: rest → (s.coreAt c).sqAt (queueOf st) = v :: vs → v.toNat % 2 = 0 →
     ∃ u, exec (.outcomeResolve c st) s = .next u ∧
       (u.eng c st).spec = [] ∧ (u.eng c st).pc = it.snap.pc + 4 ∧ (u.eng c st).seq = (it.snap.seq + 1) % 2 ^ 48 ∧
       (u.eng c st).guards = it.snap.guards ∧ (u.eng c st).loop0 = it.snap.loop0 ∧ (u.eng c st).loop1 = it.snap.loop1 ∧
       (u.eng c st).q = it.snap.q ∧ (u.coreAt c).sqAt (queueOf st) = vs ∧
       (u.coreAt c).fwdAt (inPair st) = (s.coreAt c).fwdAt (inPair st) + (s.eng c st).wordF + it.tookF +
         (rest.map fun i => i.tookF + i.wordF).sum ∧
       (u.coreAt c).backAt (outPair st) = (s.coreAt c).backAt (outPair st) + (s.eng c st).wordB + it.tookB +
         (rest.map fun i => i.tookB + i.wordB).sum ∧
       (∀ n, n < 8 → (u.coreAt c).accAt n = (s.coreAt c).accAt n) ∧
       (∀ n, n < 8 → n ∈ (s.eng c st).twins ++ (it :: rest).flatMap Iter.accs → (u.coreAt c).accAt (8 + n) = (s.coreAt c).accAt n) ∧
       (u.coreAt c).asat = (s.coreAt c).asat ∧
       u.parts = s.parts ∧ u.mem = s.mem ∧ u.dev = s.dev ∧ u.events = s.events)) ∧
  (∀ (s : State) (c : Nat) (st : Stream) (it : Iter) (rest : List Iter) (v : DWord) (vs : List DWord), st ≠ .S →
     (s.eng c st).spec = it :: rest → (s.coreAt c).sqAt (queueOf st) = v :: vs → v.toNat % 2 = 1 →
     (∀ a ∈ it.accs, a < 8) →
     let k := s.coreAt c
     let roomF := it.gives.1 = 0 ∨ k.fwdAt (outPair st) + (k.eng (taker (outPair st)).1).held.1 + it.gives.1 ≤ 32
     let roomB := it.gives.2 = 0 ∨ k.backAt (inPair st) + (k.eng (taker (inPair st)).2).held.2 + it.gives.2 ≤ 32
     (roomF → roomB → ∃ u : State,
       ((u.eng c st).spec = rest ∧ (u.coreAt c).sqAt (queueOf st) = vs ∧
         (u.coreAt c).fwdAt (outPair st) = k.fwdAt (outPair st) + it.gives.1 ∧
         (u.coreAt c).backAt (inPair st) = k.backAt (inPair st) + it.gives.2 ∧
         (∀ a, a < 8 → (u.coreAt c).accAt a = k.accAt (if a ∈ it.accs then 8 + a else a)) ∧
         u.partAt k.part = it.tent.foldl Partition.mergeInto (s.partAt k.part) ∧
         u.mem = s.mem ∧ u.dev = s.dev ∧ u.events = s.events) ∧
       (it.fault = none → exec (.outcomeResolve c st) s = .next u) ∧
       (∀ x, it.fault = some x → exec (.outcomeResolve c st) s = .next ((u.onCore c fun k => { k with
         fwd := put k.fwd (inPair st) (k.fwdAt (inPair st) + it.faultF)
         back := put k.back (outPair st) (k.backAt (outPair st) + it.faultB) }).takeTrap c x))) ∧
     (¬ (roomF ∧ roomB) → it.blocked = none → exec (.outcomeResolve c st) s =
       .next (s.onEng c st fun e => { e with spec := { it with blocked := some s.now } :: rest })))

/-! ## X (19_vector R333 to R354, R383; 12_generation R214 to R218) -/

/-- R335, R336, R338 to R340: a word of the floating or of the integer family whose shape is of its kind and whose sources
hold no poison writes its result, rounded or wrapped into the lane, to each active lane of vd. An inactive lane, a bit above
the lanes, every other register and every other byte of the basin keep their values. A poisoned word of SEL traps after every
other check, with the operands recorded (R202, R337). R252: every value of the fields of an F20
word is `vfmai`, which has no guard and no token bits and computes vd × va + imm, rounded once, imm the FP32 value whose bits
[31:12] are the field and whose other bits are zero. The model's readings (DEDUCED): the values of the transcendental words (log
17), and that a scalar of a bitwise word is cut to the lane's low bits under a floating shape (log 39). -/
def Obligations.LaneWordsWriteActiveLanes : Prop :=
  (∀ (s : State) (i : Instr) (r : LaneRow (Val → Val → Val → Val)) (m : Nat) (t : Ty),
    floatLanes (here s) i = some r ∨ fusedLanes (here s) i = some r → GoesX s r.p →
    let b := begun s .X r.p.tok r.bytes
    let k := b.coreAt s.core
    k.shape = .ok (m, t) → isFloat3 t = true → LanesClean k r.a (m * width t) → SourceClean k r.b (m * width t) →
    ((fusedLanes (here s) i).isSome = true → LanesClean k r.d (m * width t)) →
    (r.clean = false → exec i s = engineTrap (taken s .X r.p.tok) .X 0x40 0 r.ops) ∧
    (r.clean = true → ∃ k', exec i s = doneX s r.p r.ops (b.setCore s.core k') ∧
      LanesWritten k k' r.d (width t) m (activeLane k fun n =>
        convert t false (r.f (laneVal k t r.a n) (sourceVal k t r.b n) (laneVal k t r.d n))))) ∧
  (∀ (s : State) (i : Instr) (r : LaneRow (Bool × (Ty → Nat → Nat → Nat))) (m : Nat) (t : Ty),
    intLanes (here s) i = some r → GoesX s r.p →
    let b := begun s .X r.p.tok r.bytes
    let k := b.coreAt s.core
    k.shape = .ok (m, t) → r.f.1 = true ∨ (intSign t).isSome = true → LanesClean k r.a (m * width t) →
    SourceClean k r.b (m * width t) →
    (r.clean = false → exec i s = engineTrap (taken s .X r.p.tok) .X 0x40 0 r.ops) ∧
    (r.clean = true → ∃ k', exec i s = doneX s r.p r.ops (b.setCore s.core k') ∧
      LanesWritten k k' r.d (width t) m (activeLane k fun n =>
        r.f.2 t (laneBits k r.a (width t) n) (sourceBits k t r.b n)))) ∧
  (∀ (d a : Fin 32) (imm : BitVec 20),
    decode .X [.ofNat 32 (3 * 2 ^ 30 + d.val * 2 ^ 25 + a.val * 2 ^ 20 + imm.toNat)] = .ok (.vfmai d a imm))

/-- R341, R342: a comparison pushes onto the mask stack the active lanes that compare true, a full stack losing its bottom
entry; `minv` turns the top entry over within the entry below it, or within the lanes where it is alone, and `mpop`
removes it. R343 to R346: a reduction writes its result to lane 0; `vcvt` rounds each active lane into its format;
`vcvt.sr` rounds FP32 lanes stochastically by the salt that SEL supplies; `vpack` and `vpack.sq` write the codes of
blocks of 32 or of 1,024 lanes to vd and their scales to the register after it, and `vunpk` reads such a pair back. -/
def Obligations.MasksReductionsAndConversions : Prop :=
  ((∀ (s : State) (i : Instr) (r : LaneRow Cond) (m : Nat) (t : Ty), compareLanes (here s) i = some r → GoesX s r.p →
     let b := begun s .X r.p.tok r.bytes
     let k := b.coreAt s.core
     k.shape = .ok (m, t) → (intSign t).isSome = true ∨ isFloat3 t = true ∧ naturalCond r.f = false →
     LanesClean k r.a (m * width t) → SourceClean k r.b (m * width t) → r.clean = true →
     ∃ e : BitVec 8192, (∀ n, n < 8192 → (e.getLsbD n = true ↔
         n < m ∧ k.active n = true ∧ comparesTrue k r.f t r.a r.b n)) ∧
       exec i s = doneX s r.p r.ops (b.setCore s.core { k with masks := (e :: k.masks).take 16 })) ∧
   (∀ (s : State) (p : XPre), GoesX s p →
     let b := begun s .X p.tok 4
     let k := b.coreAt s.core
     let with' (l : List (BitVec 8192)) : State := b.setCore s.core { k with masks := l }
     let ops := (here s).xops none none none
     exec (.mpop p) s = doneX s p ops (with' k.masks.tail) ∧
     (k.masks = [] → exec (.minv p) s = doneX s p ops (with' [])) ∧
     (∀ e, k.masks = [e] → exec (.minv p) s = doneX s p ops (with' [.ofNat 8192 (2 ^ k.lanes - 1) &&& ~~~e])) ∧
     (∀ e f l, k.masks = e :: f :: l → exec (.minv p) s = doneX s p ops (with' ((f &&& ~~~e) :: f :: l))))) ∧
  ((∀ (s : State) (i : Instr) (r : LaneRow (Bool × (Ty → List (Nat × Bool) → Nat))) (m : Nat) (t : Ty),
     reduceLanes (here s) i = some r → GoesX s r.p →
     let b := begun s .X r.p.tok r.bytes
     let k := b.coreAt s.core
     k.shape = .ok (m, t) → (intSign t).isSome = true ∨ isFloat3 t = true → LanesClean k r.a (m * width t) → 4 ≤ k.vlen →
     ∃ k', exec i s = doneX s r.p r.ops (b.setCore s.core k') ∧
       LanesWritten k k' r.d (if r.f.1 then 32 else width t) 1 fun _ =>
         some (r.f.2 t ((List.range m).map fun n => (laneBits k r.a (width t) n, k.active n)))) ∧
   (∀ (s : State) (i : Instr) (r : LaneRow (Ty × Bool)) (m : Nat) (t : Ty),
     convertLanes (here s) i = some r → GoesX s r.p →
     let b := begun s .X r.p.tok r.bytes
     let k := b.coreAt s.core
     k.shape = .ok (m, t) → isMx t = false → m * width r.f.1 ≤ 8 * k.vlen → LanesClean k r.a (m * width t) →
     ∃ k', exec i s = doneX s r.p r.ops (b.setCore s.core k') ∧
       LanesWritten k k' r.d (width r.f.1) m (activeLane k fun n => convert r.f.1 r.f.2 (laneVal k t r.a n))) ∧
   (∀ (s : State) (p : XPre) (dst : SrTo) (d a : Fin 32) (sel : Sel) (m : Nat), GoesX s p →
     let b := begun s .X p.tok (selLen sel)
     let k := b.coreAt s.core
     let f := srDest dst
     k.shape = .ok (m, .f32) → m * width f.1 ≤ 8 * k.vlen → LanesClean k a (m * 32) → (here s).selClean sel = true →
     ∃ k', exec (.vcvtSr p dst d a sel) s =
         doneX s p ((here s).xops (some a) none (some d) ((here s).selWord sel)) (b.setCore s.core k') ∧
       LanesWritten k k' d (width f.1) m (activeLane k fun n =>
         (srAll f.1 f.2.1 f.2.2 (.ofNat 32 ((here s).selWord sel)) ((List.range m).map (laneVal k .f32 a))).getD n 0)) ∧
   (∀ (s : State) (p : XPre) (d a : Fin 32) (ty t : Ty) (m : Nat), GoesX s p →
     let b := begun s .X p.tok 4
     let k := b.coreAt s.core
     let ops := (here s).xops (some a) none (some d)
     k.shape = .ok (m, t) → isFloat3 t = true →
     (∀ sq : Bool,
       let n := if sq then 1024 else 32
       let block (j : Nat) : Nat × List Nat := mxPack ty ((List.range n).map fun e => laneVal k t a (n * j + e))
       m % n = 0 → m * width ty ≤ 8 * k.vlen → LanesClean k a (m * width t) →
       (∀ j, j < m / n → (block j).2.length = n) →
       ∃ k1 k2, LanesWritten k k1 d (width ty) m (fun e => some ((block (e / n)).2.getD (e % n) 0)) ∧
         LanesWritten k1 k2 (d + 1) 8 (m / n) (fun j => some (block j).1) ∧
         exec (if sq then .vpackSq p d a ty else .vpack p d a ty) s = doneX s p ops (b.setCore s.core k2)) ∧
     (LanesClean k a (m * width ty) → LanesClean k (a + 1) (8 * ((m + 31) / 32)) →
       ∃ k', exec (.vunpk p d a ty) s = doneX s p ops (b.setCore s.core k') ∧
         LanesWritten k k' d (width t) m (activeLane k fun n =>
           convert t false (scaled ty (laneBits k a (width ty) n) (laneBits k (a + 1) 8 (n / 32)))))))

/-- R334, R347: `vshape` sets the shape to the word that SEL supplies, and traps with FORMAT_INVALID and that word where
it is no shape. The moves write each active lane: `vmov` from the same lane, `vbcast` from the lane that word 0 of vb
numbers, or from a scalar, `vperm` from the lane that its own lane of vb numbers (0 for a number that is no lane),
`viota` with its number. `vsel` writes every lane, from va where it is active and from vb where not. R348 to R350:
`vld` and `vst` move a whole register from and to the basin at the offset in word 0 of va and a number of register
lengths above it; `vlda` takes a row of an accumulator as 64 words; `vpld` fills the pantry from its entry on. Each
first checks its offset's alignment, its range and poison. -/
def Obligations.VectorMovesAndMemoryWords : Prop :=
  ((∀ (s : State) (p : XPre) (sel : Sel), GoesX s p →
     let b := begun s .X p.tok (selLen sel)
     let v := (here s).selWord sel
     let ops := (here s).xops none none none v
     (∀ ty, tyOf (v % 32) = some ty → ty ≠ .e8m0 → v / 32 % 8 = 0 → v / 2 ^ 22 = 0 → v / 256 ≠ 0 →
       v / 256 * width ty ≤ 8 * (here s).vlen → (here s).selClean sel = true →
         exec (.vshape p sel) s = doneX s p ops (b.onCore s.core fun k => { k with vsh := .ofNat 32 v })) ∧
     ((v / 2 ^ 22 % 1024 ≠ 0 ∨ v / 32 % 8 ≠ 0 ∨ v / 256 % 2 ^ 14 = 0 ∨ tyOf (v % 32) = none ∨
         tyOf (v % 32) = some .e8m0 ∨ ∃ ty, tyOf (v % 32) = some ty ∧ 8 * (here s).vlen < v / 256 % 2 ^ 14 * width ty) →
       exec (.vshape p sel) s = engineTrap (taken s .X p.tok) .X 0x0A (.ofNat 64 v) ops)) ∧
   (∀ (s : State) (p : XPre) (d a b' : Fin 32) (m : Nat) (t : Ty), GoesX s p →
     let b := begun s .X p.tok 4
     let k := b.coreAt s.core
     let w := width t
     let moves (i : Instr) (x y z : Option (Fin 32)) (val : Nat → Option Nat) : Prop :=
       ∃ k', exec i s = doneX s p ((here s).xops x y z) (b.setCore s.core k') ∧ LanesWritten k k' d w m val
     k.shape = .ok (m, t) →
     ((intSign t).isSome = true ∨ isFloat3 t = true → moves (.viota p d) none none d (activeLane k fun n =>
       if (intSign t).isSome then n else convert t false (.fin false n 0))) ∧
     (LanesClean k a (m * w) →
     moves (.vmov p d a) a none d (activeLane k fun n => laneBits k a w n) ∧
     (LanesClean k b' 32 → moves (.vbcast p d a b') a b' d (activeLane k fun _ =>
       if laneBits k b' 32 0 < m then laneBits k a w (laneBits k b' 32 0) else 0)) ∧
     (LanesClean k b' (m * w) →
       moves (.vperm p d a b') a b' d (activeLane k fun n =>
         if laneBits k b' w n < m then laneBits k a w (laneBits k b' w n) else 0) ∧
       moves (.vsel p d a b') a b' d fun n =>
         some (if k.active n then laneBits k a w n else laneBits k b' w n)))) ∧
   (∀ (s : State) (p : XPre) (d : Fin 32) (sel : Sel) (m : Nat) (t : Ty), GoesX s p →
     let b := begun s .X p.tok (selLen sel)
     let k := b.coreAt s.core
     let v := (here s).selWord sel
     k.shape = .ok (m, t) → (here s).selClean sel = true →
     ∃ k', exec (.vbcastVC p d sel) s = doneX s p ((here s).xops none none (some d) v) (b.setCore s.core k') ∧
       LanesWritten k k' d (width t) m (activeLane k fun n =>
         if t = .bf16 ∨ t = .f16 then convert t false (valOf .f32 v) else sourceBits k t (.scalar v) n))) ∧
  (∀ (s : State) (p : XPre) (d a : Fin 32), GoesX s p →
     let b := begun s .X p.tok 4
     let k := b.coreAt s.core
     let word0 := laneBits k a 32 0
     let done (z : Option (Fin 32)) (k' : Core) : Out := doneX s p ((here s).xops (some a) none z) (b.setCore s.core k')
     (∀ n : Fin 64,
       let off := word0 + n.val * k.vlen
       off % 32 = 0 → LanesClean k a 32 →
       (Clean k off k.vlen → exec (.vld p d a n) s = done d (k.putBasin (d.val * k.vlen) (k.getBasin off k.vlen))) ∧
       (k.inScratch off k.vlen = true → LanesClean k d (8 * k.vlen) →
         exec (.vst p d a n) s = done d (k.putBasin off (k.getBasin (d.val * k.vlen) k.vlen)))) ∧
     (∀ (acc : Fin 8) (row : BitVec 7), (k.accAt acc).bad = false → 64 * 32 ≤ 8 * k.vlen →
       ∃ k', exec (.vlda p d acc row) s = doneX s p ((here s).xops none none (some d)) (b.setCore s.core k') ∧
         LanesWritten k k' d 32 64 fun j => some ((k.accAt acc).cell row.toNat j)) ∧
     (∀ n : Fin 63, word0 % 4 = 0 → Clean k word0 (4 * (63 - n.val)) → LanesClean k a 32 →
       ∃ pantry bad, exec (.vpld p n a) s = done none { k with pantry := pantry, pantryBad := bad } ∧
         (∀ j, j ∈ bad ↔ j ∈ k.pantryBad ∧ j < n.val) ∧
         ∀ j, (findD pantry j 0).toNat = if n.val ≤ j ∧ j < 63 then leNat (k.getBasin (word0 + 4 * (j - n.val)) 4)
           else (findD k.pantry j 0).toNat))

/-- R215 to R218, R351: on operands that pass the checks of R351, `vslist` writes the block of its row; `vsmass` the
probabilities of the block's ranks, their running sum, and whether it falls short of the target, or a mass of 0 for an empty
block; `vspick` and `vsfull` the token at the first running sum above u times the total, 0xFFFFF for an empty block. The
probabilities and the mass that `vslist` leaves, and the token of a block whose sums do not reach the draw, are free values
(log 3). -/
def Obligations.SamplersDrawTokens : Prop :=
  ∀ (s : State) (p : XPre) (d a b' : Fin 32), GoesX s p →
    let b := begun s .X p.tok 4
    let k := b.coreAt s.core
    let word (r : Fin 32) (i : Nat) : Nat := laneBits k r 32 i
    let put' (u : State) (off : Nat) (ws : List Nat) : State := u.onCore s.core fun k => k.putBasin off (wordBytes ws)
    let empty (blk : Nat) : Bool := (k.blockWord blk 780).testBit 1
    let draws (i : Instr) (tok : Nat) : Prop := exec i s = doneX s p ((here s).xops a b' d)
      (b.onCore s.core fun k => k.putWords d [tok])
    let drawsFree (i : Instr) : Prop := ∃ tok, exec i s = doneX s p ((here s).xops a b' d)
      (State.onCore { b with freeCount := b.freeCount + 1 } s.core fun k => k.putWords d [tok])
    (k.samplerCheck false (word d 0) (some (word a 0, word a 1)) = .ok () → LanesClean k a 64 → LanesClean k d 32 →
      exec (.vslist p d a) s = doneX s p ((here s).xops a none d) (State.onCore { b with freeCount := b.freeCount + 1 }
        s.core fun x => x.putBasin (word d 0) (blockOf (k.wordsAt (word a 0) (word a 1)) b.freeCount))) ∧
    (k.samplerCheck true (word d 0) none = .ok () → LanesClean k a 32 → LanesClean k d 32 →
      let blk := word d 0
      let ps := k.blockProbs blk
      let mass := ps.foldl add32 0
      (empty blk = true → exec (.vsmass p d a) s = doneX s p ((here s).xops a none d) (put' b (blk + 776) [0])) ∧
      (empty blk = false → exec (.vsmass p d a) s = doneX s p ((here s).xops a none d)
        (put' (put' b (blk + 512) ps) (blk + 776)
          [mass, k.blockWord blk 780 ||| if (fv mass).cmp (fv (word a 0)) = some .lt then 4 else 0]))) ∧
    (k.samplerCheck true (word a 0) none = .ok () → LanesClean k a 32 → LanesClean k b' 128 →
      let blk := word a 0
      (empty blk = true → draws (.vspick p d a b') 0xFFFFF) ∧
      (empty blk = false → match firstAbove ((k.drawVal b').mul (fv (k.blockWord blk 776)))
          (prefixes 0 (k.wordsAt (blk + 512) (k.blockWord blk 784))) with
        | some j => draws (.vspick p d a b') (k.blockWord blk (4 * j))
        | none => drawsFree (.vspick p d a b'))) ∧
    (k.samplerCheck true (word a 0) (some (word a 1, word a 2)) = .ok () → LanesClean k a 96 → LanesClean k b' 128 →
      let cs := prefixes 0 ((k.wordsAt (word a 1) (word a 2)).map (term (k.blockWord (word a 0) 768)))
      (empty (word a 0) = true → draws (.vsfull p d a b') 0xFFFFF) ∧
      (empty (word a 0) = false → match firstAbove ((k.drawVal b').mul (fv (cs.getLastD 0))) cs with
        | some j => draws (.vsfull p d a b') j
        | none => drawsFree (.vsfull p d a b')))

/-- R352 to R354, R383: X's loops, branches, queue words and guards, as R292 to R295 have them for the other streams;
`xjmp` through a register checks the address there; `xbrz` branches where no lane is active; `xqput` puts words 0 and 1 of
a register into X's return queue, which holds 16 entries, and waits, issued, for room (R87; what waits is as of `pld.ret`). -/
def Obligations.VectorControlWords : Prop :=
  ∀ (s : State) (p : XPre),
    let e := s.eng s.core .X
    let b := begun s .X p.tok 4
    let k := b.coreAt s.core
    let set (u : State) (f : Engine → Engine) : State := u.onEng s.core .X f
    let at' (u : State) (a : Nat) : State := set u fun e => { e with pc := a }
    let loop (ln : Fin 2) (n : Word) (a : Nat) : State := set b fun e => e.setLoop ln ⟨n, a⟩
    let none3 := (here s).xops none none none
    (∀ (ln : Fin 2) (cnt : BitVec 7) (len : BitVec 8),
      let skip := e.pc + 4 * (len.toNat + 1)
      let n : Word := if cnt = 0 then (e.loop ln).count else .ofNat 32 cnt.toNat
      (Ready s .X p.tok → guardX s p = false → exec (.xloop p ln cnt len) s = doneX s p [] (at' b skip)) ∧
      (GoesX s p → (n ≠ 0 → exec (.xloop p ln cnt len) s = doneX s p [] (loop ln n (e.pc + 4))) ∧
        (n = 0 → skip < 65536 → exec (.xloop p ln cnt len) s = doneX s p [] (at' (loop ln 0 (e.pc + 4)) skip)))) ∧
    (GoesX s p →
      (∀ ln : Fin 2,
        let l := e.loop ln
        (l.count = 0 → exec (.xnext p ln false) s = doneX s p [] b) ∧
        (l.count = 1 → exec (.xnext p ln false) s = doneX s p [] (loop ln 0 l.start)) ∧
        (1 < l.count.toNat → l.start < 65536 →
          exec (.xnext p ln false) s = doneX s p [] (at' (loop ln (l.count - 1) l.start) l.start))) ∧
      (∀ disp : BitVec 15,
        let target : Int := e.pc + 4 * disp.toInt
        (0 ≤ target → target < 65536 → exec (.xjmp p disp) s = doneX s p [] (at' b target.toNat)) ∧
        ((target < 0 ∨ 65536 ≤ target) → exec (.xjmp p disp) s = engineTrap (taken s .X p.tok) .X 0x02 (.ofInt 64 target) []) ∧
        (k.lanes ≠ 0 → (∀ n, n < k.lanes → k.active n = false) → 0 ≤ target → target < 65536 →
          exec (.xbrz p disp) s = doneX s p none3 (at' b target.toNat)) ∧
        (k.lanes ≠ 0 → (∃ n, n < k.lanes ∧ k.active n = true) → exec (.xbrz p disp) s = doneX s p none3 b)) ∧
      (∀ a : Fin 32,
        let v := laneBits k a 32 0
        let ops := (here s).xops (some a) none none
        (v % 4 = 0 → v < 65536 → LanesClean k a 32 → exec (.xjmpInd p a) s = doneX s p ops (at' b v)) ∧
        (v % 4 ≠ 0 → exec (.xjmpInd p a) s = engineTrap (taken s .X p.tok) .X 0x05 (.ofNat 64 v) ops) ∧
        (∀ r, e.ret = some r → r.issued = true → exec (.xqput p a) s = .next (s.returnPut s.core .X p.tok ops id r)) ∧
        (LanesClean k a 64 → (∀ r, e.ret = some r → r.issued = false) →
          let pair : DWord := .ofNat 64 (v + 2 ^ 32 * laneBits k a 32 1)
          ((k.rqAt 0).length < 16 → exec (.xqput p a) s = doneX s p ops ((b.setCore s.core
            { k with rq := put k.rq 0 (k.rqAt 0 ++ [pair]) }).onEng s.core .X fun e => { e with ret := none })) ∧
          (16 ≤ (k.rqAt 0).length → exec (.xqput p a) s =
            .next ((taken s .X p.tok).returnPut s.core .X p.tok ops id { left := [pair], issued := true })))) ∧
      exec (.xtok p) s = doneX s p [] b ∧
      exec (.xend p) s = doneX s p [] (set b fun e => { e with halted := true }) ∧
      (∀ (n : Fin 8) (v : Bool), exec (.xgseti p n v) s = doneX s p [] (set b fun e => e.setG n v)) ∧
      (∀ (v : DWord) (vs : List DWord) (ln : Fin 2), (here s).sqAt 2 = v :: vs →
        let took := b.onCore s.core fun k => { k with sq := put k.sq 2 vs }
        (∀ n : Fin 8, exec (.xgget p n) s = doneX s p [] (set took fun e => e.setG n (v.toNat % 2 == 1))) ∧
        exec (.xqgetL p ln) s = doneX s p [] (set took fun e => e.setLoop ln ⟨v.setWidth 32, (e.loop ln).start⟩) ∧
        (∀ d : Fin 32, exec (.xqget p d ln) s = doneX s p ((here s).xops none none (some d))
          (took.onCore s.core fun k => k.putWords d [v.toNat % 2 ^ 32, v.toNat / 2 ^ 32])) ∧
        (v.toNat % 2 = 0 → exec (.xnext p ln true) s = doneX s p [] took ∧
          ∀ disp, exec (.xbrq p disp) s = doneX s p [] took) ∧
        (v.toNat % 2 = 1 →
          ((e.loop ln).start < 65536 → exec (.xnext p ln true) s = doneX s p [] (at' took (e.loop ln).start)) ∧
          ∀ disp : BitVec 15,
            let target : Int := e.pc + 4 * disp.toInt
            0 ≤ target → target < 65536 → exec (.xbrq p disp) s = doneX s p [] (at' took target.toNat))))

/-! ## Events of the module, the Hall and the cores (01_package, 02_links, 04_hall, 05_streams, 11_traps) -/

/-- R8 to R26, R31, R34: what the module's own events do. Power-on counts a boot, clears cores, partitions and memory, and
ends READY on the valid slot of the higher version, or in recovery with none; the power duty moves by one step in each
period of 65,536 cycles, between 4 and 16 sixteenths, and stays at 4 while a die is hot; a thermal trip is recorded
and stops the module; a link that goes down or comes up changes its port set; the copies in flight on a lost CXL link
end with LINK_DOWN, and those of a lost connection with PEER_LOST, but for one that CDELAY holds, which stays as it is
(R378). The model's choices: a DUTY_PERIOD that is not due (log 12), what power-on and a trip keep (log 46), when a
link's loss ends a copy and which collectives use a connection (logs 44, 45, 50, 51), no enumeration after start-up
(log 48); what makes a slot valid are free functions, so that no concrete slot is known to be (log 9). R19 to R23,
R38, R108, R182, R202: a gauge that is on counts a sample of its source, of an event that its PART and its owner let
it see, and any other takes none; the sample is taken modulo 2^32, and a source that the machine samples itself takes
none from outside, which are the model's choice (log 41). A correctable error freezes its core for 24 cycles, which no
wait counts; an uncorrectable one poisons the unit that it strikes, one in a basin or an instruction memory being
charged to the core, and one in a matrix array being a residue mismatch of a coming step (DEDUCED, log 13); what the
units of registers, queues and FIFOs are is the model's choice (log 15), and a FREEZE_END that is not due changes
nothing (log 12). -/
def Obligations.ModuleEventsGaugesAndErrors : Prop :=
  ((∀ s : State, ∃ u, exec .powerOn s = .next u ∧ u.dev.boots = (s.dev.boots + 1) % 2 ^ 32 ∧ u.cores = [] ∧ u.parts = [] ∧
     u.mem = [] ∧ u.dev.credential = s.dev.credential ∧ (∀ c ∈ s.dev.retired, c ∈ u.dev.retired) ∧ u.dev.dutyNext = s.now + 65536 ∧
     let b := s.dev.slotB.valid && (!s.dev.slotA.valid || decide (s.dev.slotA.version < s.dev.slotB.version))
     if (s.dev.slotA.valid || s.dev.slotB.valid) = true then
       u.dev.phase = .ready ∧ u.dev.selectedB = b ∧ u.dev.fallback = (b != s.dev.preferB)
     else u.dev.phase = .recovery) ∧
   (∀ (s : State) (w : Nat), s.dev.phase ≠ .off →
     (s.now < s.dev.dutyNext → exec (.dutyPeriod w) s = .next s ∧ s.dutyTurn = s) ∧
     (s.dev.dutyNext ≤ s.now →
       exec (.dutyPeriod w) s = .next (s.onDev fun d => { d with
         dutyNext := d.dutyNext + 65536
         duty := (if d.hotDies ≠ [] then 4
           else if d.powerLimit < w then max 4 (d.duty - 1)
           else if 100 * w < 95 * d.powerLimit then min 16 (d.duty + 1) else d.duty) }) ∧
       exec (.dutyPeriod (Config.measuredPower s.freeCount)) { s with freeCount := s.freeCount + 1 } = .next s.dutyTurn)) ∧
   (∀ (s : State) (die : Nat),
     exec (.junctionThrottlePoint die true) s = .next (s.onDev fun d =>
       { d with hotDies := d.hotDies.filter (· != die) ++ [die], duty := 4 }) ∧
     exec (.junctionThrottlePoint die false) s = .next (s.onDev fun d =>
       { d with hotDies := d.hotDies.filter (· != die) })) ∧
   (∀ s : State, ∃ u, exec .thermalTrip s = .next u ∧ u.dev.trip = true ∧ u.dev.phase = .stopped ∧ u.cores = [] ∧ u.mem = []) ∧
   (∀ (s : State) (p : Nat),
     exec (.linkDown p) s = .next (s.onDev fun d => { d with uePorts := d.uePorts.filter (· != p) }) ∧
     exec (.linkUp (.ue p)) s = .next (s.onDev fun d => { d with uePorts := d.uePorts.filter (· != p) ++ [p] }) ∧
     (s.dev.phase = .recovery → exec (.linkUp (.cxl p)) s = .next s) ∧
     (s.dev.phase ≠ .recovery → ∃ u, exec (.linkUp (.cxl p)) s = .next u ∧ u.dev.cxlPorts = s.dev.cxlPorts.filter (· != p) ++ [p] ∧
       ∀ e ∈ s.dev.far, e.2.port = p → e.2.part = none → .farZeroingComplete e.1 ∈ u.events)) ∧
   (∀ (s : State) (r : Nat) (f : Far), find s.dev.far r = some f → f.part = none → s.dev.cxlPorts.contains f.port = true →
     exec (.farZeroingComplete r) s = .next (s.onDev fun d => { d with far := del d.far r })) ∧
   (∀ (s : State) (p : Nat), OpsApart s → ∃ u, exec (.cxlLinkDown p) s = .next u ∧
     u.dev.cxlPorts = s.dev.cxlPorts.filter (· != p) ∧
     ∀ i o src dst len, find s.dev.ops i = some o → o.kind = .copy src dst len → o.status = none → o.faulted = false →
       u.linkLost src = true ∨ u.linkLost dst = true →
       (o.isHeld = false → (find u.dev.ops i).bind Op.status = some 2) ∧ (o.isHeld = true → find u.dev.ops i = some o)) ∧
   (∀ (s : State) (conn : Nat), OpsApart s → ∃ u, exec (.connectionTimeout conn) s = .next u ∧
     (∀ c, c ∈ u.dev.lost ↔ c = conn ∨ c ∈ s.dev.lost) ∧
     (∀ i o src dst len, find s.dev.ops i = some o → o.kind = .copy src dst len → o.status = none → o.faulted = false →
       u.peerLost src = true ∨ u.peerLost dst = true →
       (o.isHeld = false → (find u.dev.ops i).bind Op.status = some 3) ∧ (o.isHeld = true → find u.dev.ops i = some o)) ∧
     (∀ i o x, s.dev.ops = [(i, o)] → o.kind = .coll x → o.status = none → o.faulted = false →
       s.collUses o x conn = true → (find u.dev.ops i).bind Op.status = some 3))) ∧
  ((∀ (s : State) (i : GaugeId) (w : Nat) (part : Option Nat),
     let g := s.gauge i
     let v := w % 2 ^ 32
     let byte := g.control.toNat / 2 ^ 16 % 256
     let bucket := if v = 0 then 0 else min 15 (Nat.log2 v + 1)
     let sees := match i, part with
       | .core _ _, _ => True
       | .die _ _, none => byte = 0xFF
       | .die _ _, some p => (byte = 0xFF ∨ byte = p) ∧ (g.owner = none ∨ g.owner = some p)
     let takes := g.control.getLsbD 31 = true ∧ sourceFits i (g.control.toNat % 256) = true ∧
       ownSource (g.control.toNat % 256) = false ∧ sees
     (takes → ∃ g', exec (.gaugeSample i ⟨w, part⟩) s = .next (s.setGauge i g') ∧ g'.count = min (g.count + 1) (2 ^ 48 - 1) ∧
       g'.sum = min (g.sum + v) (2 ^ 64 - 1) ∧ g'.mn = (if g.count = 0 then v else min g.mn v) ∧
       g'.mx = (if g.count = 0 then v else max g.mx v) ∧ g'.owner = g.owner ∧
       ∀ b, findD g'.hist b 0 = if b = bucket then min (findD g.hist b 0 + 1) (2 ^ 32 - 1) else findD g.hist b 0) ∧
     (¬ takes → exec (.gaugeSample i ⟨w, part⟩) s = .next s)) ∧
   (∀ (s : State) (c : Nat), (s.coreAt c).freezeEnd = none → exec (.correctableError c) s = .next (s.onCore c fun k =>
     { k with freezeFrom := s.now, freezeEnd := some (s.now + 24) })) ∧
   (∀ (s : State) (c t : Nat), (s.coreAt c).freezeEnd = some t →
     (s.now < t → exec (.freezeEnd c) s = .next s) ∧
     (t ≤ s.now → ∃ u, exec (.freezeEnd c) s = .next u ∧ (u.coreAt c).freezeEnd = none ∧
       let lost := s.now - (s.coreAt c).freezeFrom
       (u.coreAt c).kwait = ((s.coreAt c).kwait.map fun w => { w with since := w.since + lost }) ∧
       ∀ st, ((u.coreAt c).eng st).wait = (((s.coreAt c).eng st).wait.map fun w => { w with since := w.since + lost }))) ∧
   (∀ (s : State) (a : Nat), a < hbmEnd → ∃ u, exec (.uncorrectableError (.hbm a)) s = .next u ∧
     (∀ x, x ∈ u.poison ↔ x = a / 64 ∨ x ∈ s.poison) ∧ u.mem = s.mem ∧ u.cores = s.cores) ∧
   (∀ (s : State) (c off : Nat), off < basinEnd → ∃ u, exec (.uncorrectableError (.basin c off)) s = .next u ∧
     (u.coreAt c).basinPoison off 1 ≠ none ∧ (u.coreAt c).basin = (s.coreAt c).basin ∧
     findD u.dev.failures c [] = findD s.dev.failures c [] ++ [s.now]) ∧
   (∀ (s : State) (c w : Nat) (st : Stream), ∃ u, exec (.uncorrectableError (.imem c st w)) s = .next u ∧
     ((u.eng c st).bad.contains w) = true ∧ findD u.dev.failures c [] = findD s.dev.failures c [] ++ [s.now]) ∧
   (∀ (s : State) (c a : Nat), exec (.uncorrectableError (.acc c a)) s = .next (s.onCore c fun k =>
     { k with acc := put k.acc a { k.accAt a with bad := true } })) ∧
   (∀ (s : State) (c : Nat) (st : Stream) (x : RegUnit), ∃ u, exec (.uncorrectableError (.regs c st x)) s = .next u ∧
     ∀ y, y ∈ (u.coreAt c).badUnits st ↔ y = x ∨ y ∈ (s.coreAt c).badUnits st) ∧
   (∀ (s : State) (c n : Nat), ∃ u, exec (.uncorrectableError (.array c n)) s = .next u ∧
     ∀ m, (u.coreAt c).residue.getD m 0 = (s.coreAt c).residue.getD m 0 + if m = n then 1 else 0))

/-- R62, R68, R69, R73: the Hall reserves cores first-fit for its candidate when enough are free, and loads it; a candidate
that does not fit stays the candidate until it does. Its loading is entries of the conduit queues of its cores' dies; when all
of them have started, and its reads all succeed, it starts on every core and is RUNNING, its first slice begun; one of whose
reads fails ends FAILED with the cause. That the reads are made at LOAD_COMPLETE (log 54), and which cause a job has where
several fail (log 52), are the model's choices, as is that an event that is not due changes nothing or comes again (log 12).
R74 to R76: a slice ends on its cycle and makes the job yield where a READY job may take its place, and else starts again. R76,
R81: a core that has ended or yields leaves once its basin-side copies have completed; one that has not left 2^22 cycles after
its yield is pre-empted, or without a save area its job ends FAILED with OVERRUN. -/
def Obligations.HallEventsMoveJobs : Prop :=
  (∀ (s : State) (p j : Nat) (b : Job), s.candidate p = some (j, b) → s.jobAt p j = some b →
    let free := firstFit b.affinity (s.freeCores p)
    (free.length < b.live.length →
      let u := s.onPart p fun q => { q with chosen := some j }
      exec (.placement p) s = .next u ∧ (b.state = 2 → u.candidate p = some (j, b))) ∧
    (b.live.length ≤ free.length → b.live.Nodup → ∃ u b', exec (.placement p) s = .next u ∧ u.jobAt p j = some b' ∧ b'.state = 3 ∧
      (∀ i c, (i, c) ∈ b.live.zip free → (find b'.idx i).bind JobIdx.core = some c) ∧
      b'.loadFrom = s.dev.nextOp ∧ u.dev.nextOp = s.dev.nextOp + 1 ∧ b'.loadLeft = b'.loads ∧
      (b'.loads = [] → .loadComplete p j ∈ u.events) ∧ ∀ x ∈ b'.loads, .conduitEntryStart x.1 p ∈ u.events)) ∧
  (∀ (s : State) (p j : Nat) (b : Job), s.jobAt p j = some b → b.state = 3 → s.dev.phase ≠ .stopped →
    ((∃ x ∈ b.loadLeft, x.2 ≠ 0) → exec (.loadComplete p j) s = .next s) ∧
    ((∀ x ∈ b.loadLeft, x.2 = 0) → ∀ xs : List (Nat × Nat × Start), s.readStarts p b = .ok xs → (xs.map fun x => x.2.1).Nodup →
      ∃ u b', exec (.loadComplete p j) s = .next u ∧ u.jobAt p j = some b' ∧ b'.state = 4 ∧ b'.sliceStart = s.now ∧
        .sliceEnd p j ∈ u.events ∧ ∀ x ∈ xs, (u.coreAt x.2.1).run = .running ∧ (u.coreAt x.2.1).part = p ∧
          (u.coreAt x.2.1).job = j ∧ (u.coreAt x.2.1).jidx = x.1) ∧
    ((∀ x ∈ b.loadLeft, x.2 = 0) → ∀ cause, s.readStarts p b = .error (.fail cause) →
      exec (.loadComplete p j) s = .next (s.post (.loadFailure p j)) ∧
      exec (.loadFailure p j) s = .next (s.endJob p j 7 cause))) ∧
  (∀ (s : State) (p j : Nat) (b : Job), s.jobAt p j = some b → b.state = 4 → s.events.contains (.sliceEnd p j) = false →
    let q := s.partAt p
    (s.now < b.sliceStart + q.slice → exec (.sliceEnd p j) s = .next (s.post (.sliceEnd p j))) ∧
    (b.sliceStart + q.slice ≤ s.now →
      ((∀ k ∈ q.jobs, k.1 ≠ j → yieldsTo q s.now b k.2 = false) →
        exec (.sliceEnd p j) s = .next ((s.setJob p j { b with sliceStart := s.now }).post (.sliceEnd p j))) ∧
      ((∃ k ∈ q.jobs, k.1 ≠ j ∧ yieldsTo q s.now b k.2 = true) → ∃ u, exec (.sliceEnd p j) s = .next u ∧
        ∀ c ∈ b.onCores, (s.coreAt c).run = .running → (s.coreAt c).yieldAt = none → (u.coreAt c).yieldAt = some s.now))) ∧
  (∀ (s : State) (c : Nat), (s.coreAt c).run = .leaving → s.basinBusy c = false →
    ((s.coreAt c).leaveByJend = true → exec (.coreRelease c) s = .next (s.releaseCore c)) ∧
    ((s.coreAt c).leaveByJend = false → exec (.coreLeave c) s = .next (s.leaveCore c (s.coreAt c).graph))) ∧
  (∀ (s : State) (c : Nat), s.basinBusy c = true → exec (.coreRelease c) s = .next s ∧ exec (.coreLeave c) s = .next s) ∧
  (∀ (s : State) (c t : Nat) (b : Job), (s.coreAt c).yieldAt = some t → (s.coreAt c).run = .running →
    s.jobAt (s.coreAt c).part (s.coreAt c).job = some b →
    (s.now < t + 2 ^ 22 → exec (.yieldDeadline c) s = .next s) ∧
    (t + 2 ^ 22 ≤ s.now → (b.ctxVa = 0 → exec (.yieldDeadline c) s =
        .next (s.stopJob (s.coreAt c).part (s.coreAt c).job 7 3)) ∧
      (b.ctxVa ≠ 0 → ∃ u, exec (.yieldDeadline c) s = .next u ∧ (u.coreAt c).run = .preempting ∧
        (u.coreAt c).preemptAt = s.now ∧ ∀ d, d ≠ c → u.coreAt d = s.coreAt d)))

/-- R78, R98, R196, R202, R237, R253, R267: the traps that no instruction's own checks raise. A word past the image, an X
literal past it, or a poisoned one, and a word that is no instruction, trap on the stream that fetches it; a wait that still
stands and whose count reaches TOKWD's LIMIT traps with TOKEN_STALL and the code that it has then, and a freeze stops its
count; a kept trap is taken by a core that runs outside a handler, the lowest sequence number first; an operation that faulted
traps its core, or waits for an index that is away, and leaves the in-flight table. A `kwait` whose cycle limit is reached is
tested in that cycle, and is done with 0 where its semaphore is below the threshold. The model's choices: a KWAIT_TIMEOUT
before its cycle changes nothing (log 12), tval is 0 for a poisoned instruction word (log 23), and an index that is away keeps
a fault that is its own (log 43). -/
def Obligations.CoreEventsTrap : Prop :=
  (∀ (s : State) (w : Word), exec (.unassignedWord w) s = engineTrap s s.stream 0x01 (w.setWidth 64) []) ∧
  (∀ s : State,
    let e := s.eng s.core s.stream
    let raises (t : Trap) : Prop := exec .fetchRange s = .next (s.raise s.core s.stream t)
    (e.img.length ≤ e.pc / 4 → exec .fetchRange s = engineTrap s s.stream 0x02 (.ofNat 64 e.pc) []) ∧
    (e.pc / 4 < e.img.length →
      (e.bad.contains (e.pc / 4) = true →
        raises { trapOf s.stream e 0x40 0 [] with sites := [.imem s.stream (e.pc / 4)] }) ∧
      (e.bad.contains (e.pc / 4) = false → e.img.length = e.pc / 4 + 1 →
        raises { trapOf s.stream e 0x02 (.ofNat 64 (e.pc + 4)) [] with pc := e.pc + 4 }))) ∧
  (∀ (s : State) (c : Nat) (st : Stream) (w : Wait), (s.eng c st).wait = some w →
    ((s.coreAt c).freezeEnd.isSome = true → exec (.tokenStall c st) s = .next s) ∧
    (w.code ≠ 0 → w.code ≠ 3 → (s.eng c st).spec = [] → (s.coreAt c).freezeEnd = none →
      (s.coreAt c).tokwd.toNat % 2 ^ 32 ≠ 0 →
      (s.waitNow c st w.code = none → exec (.tokenStall c st) s = .next s) ∧
      ∀ code, s.waitNow c st w.code = some code →
        (s.now - w.since < (s.coreAt c).tokwd.toNat % 2 ^ 32 → exec (.tokenStall c st) s =
          .next (s.onEng c st fun e => { e with wait := some { w with code := code } })) ∧
        ((s.coreAt c).tokwd.toNat % 2 ^ 32 ≤ s.now - w.since → exec (.tokenStall c st) s =
          .next (s.takeTrap c (trapOf st (s.eng c st) 0x0D (.ofNat 64 code) w.ops))))) ∧
  (∀ (s : State) (c : Nat) (t : Trap), (s.coreAt c).run = .running → (s.coreAt c).thnd = false →
    (s.coreAt c).freezeEnd = none → (s.coreAt c).stopping = none → t ∈ (s.coreAt c).kept →
    (∀ x ∈ (s.coreAt c).kept, x ≠ t → trapBefore t x = true ∧ trapBefore x t = false) →
      exec (.trapTaken c) s = .next ((s.onCore c fun k => { k with kept := k.kept.erase t }).takeTrap c t)) ∧
  (∀ (s : State) (i code : Nat) (va : DWord) (o : Op) (b : Job) (x : JobIdx), s.opAt i = some o → o.faulted = true →
    s.jobAt o.part o.job = some b → b.state < 6 → find b.idx o.jidx = some x →
    let t : Trap := { code := code, val := va, ops := o.ops, async := true, stream := .L, pc := o.pc, seq := o.seq
                      table := some o.core }
    ∃ u : State, u.cores = s.cores ∧ u.dev.ops = del s.dev.ops i ∧
      (∀ c, x.core = some c → (s.coreAt c).run ≠ .idle → (s.coreAt c).kept = [] →
        exec (.asyncFault i va code) s = .next (u.takeTrap c t)) ∧
      (x.core = none → exec (.asyncFault i va code) s = .next (u.setJob o.part o.job { b with
        idx := put b.idx o.jidx { x with kept := x.kept ++ [t] } }))) ∧
  (∀ (s : State) (c : Nat), (∀ w, (s.coreAt c).kwait = some w → w.expired s.now = false) →
    exec (.kwaitTimeout c) s = .next s) ∧
  (∀ (s : State) (p : Pr) (d a b : Fin 32) (n : Fin 64) (cl : Bool) (c : Nat) (w : KWait),
    let k := s.coreAt c
    let u : State := { s with core := c, stream := .S }
    let back (t : State) : Out := .next { t with core := s.core, stream := s.stream }
    k.run = .running → k.freezeEnd = none → k.stopping = none → k.kwait = some w → w.expired s.now = true → w.k = n.val →
    decodeS ((k.strS.img.getD (k.strS.pc / 4) 0).toNat) = .ok (.kwait p d a b n cl) →
    (∃ t, exec (.kwait p d a b n cl) u = .next t ∧ exec (.kwaitTimeout c) s = back t) ∧
    (∀ (t : State) (pa old : Nat) (y : Copy), Holds u p → semaphoresOn k = true → k.kwaitFor a b n cl s.now = w →
      (sPast (u.setCore c { k with kwait := some { w with pa := u.semPa c n } })).xlate c .S (semaphoreVa k n) needBoth =
        .ok (t, pa) →
      AtomicReads t c pa 4 y old → old < w.thr →
        exec (.kwaitTimeout c) s = back (((withOwnership t c (pa / 128)).dropUntracked c).onCore c fun x =>
          { x.setS d 0 with kwait := none })))

/-! ## Events of operations, walks and homes (02_links, 04_hall, 06_basin, 08_coherence) -/

/-- R34, R40, R73, R378: the arbiter of a die starts the first entry of a partition's queue, once a turn; an entry of a
copy is at most 64 KiB. A held copy begins its hold; a copy from a remote device asks for the next message of its
entry; any other moves the pieces of its entry in turn, and ends OK when all has moved, to a peer once its last bytes
are acknowledged; poison that cannot move on stops it, its count the first poisoned byte. A job's loading takes a turn
for each of its entries. An operation that has ended writes its completion word, adds one to its semaphore, and leaves
the table. Data of a `READ` are written from the count on; a reply that lacks bytes ends the copy. A hold not yet over
(log 12), poison toward a peer (log 36), and pieces, messages, rounds and ends (log 37) are the model's choices. R28,
R31, R36 to R39, R73: a turn of a collective sends its next first chunk, or ends it where it uses a lost connection; a
message of another class than 1 is dropped and counted, and one for a rank that has not started is kept. A chunk takes
a place in the rank's queue, or waits for one. A chunk with its residue is acknowledged and combined with the rank's
own, or written as a result, and goes on; one without it is asked for once more, and a second failure ends the
collective. An acknowledgement frees the sender's chunk. Integer `sum` adds modulo the range, and FP32 `sum` rounds
once. That ranks of the device pair the collectives that they share in order (log 32), what uses a connection (log
50), and that an operation that is gone changes nothing (log 12) are the model's. -/
def Obligations.CopiesAndCollectivesProceed : Prop :=
  ((∀ (s : State) (die p : Nat), (s.headOf die p).filter Head.ready = none → exec (.conduitEntryStart die p) s = .next s) ∧
   (∀ (s : State) (die p : Nat) (h : Head), (s.headOf die p).filter Head.ready = some h →
     let round := s.newRound die
     let goes := round.weight p = 0 ∨ round.credit die p = true
     let v := round.onDev fun d => { d with served := put d.served (16 * die + p) (findD d.served (16 * die + p) 0 + h.size) }
     let turn (u : State) : Prop := exec (.conduitEntryStart die p) s =
       .next (if (u.headOf die p).any Head.ready then u.wake die p else u)
     (round.weight p ≠ 0 → round.credit die p = false → exec (.conduitEntryStart die p) s = .next (round.wake die p)) ∧
     (∀ j b, goes → h = .load j b → turn (v.loadTurn die p j b)) ∧
     (∀ i o src dst len, goes → h = .op i o → o.kind = .copy src dst len →
       (∀ x, o.hold = some x → turn
         ((v.setOp i { o with hold := none, holdUntil := some (v.now + x), queued := false }).post (.cdelayHoldEnd i))) ∧
       let w := (v.fixSource i o src).1
       let o' := { (v.fixSource i o src).2 with
         started := true, begun := if o.done < o.begun then o.begun else min len (o.done + 65536) }
       (∀ port c x a, o.hold = none → src = .device port c x a → w.peerLost src = false →
         turn ((w.send (.devRead port c x (a + o.done) (min 4064 (o'.begun - o.done)) i)).setOp i { o' with awaiting := true })) ∧
       (o.hold = none → (∀ port c x a, src ≠ .device port c x a) → turn (State.copyEntry i src dst len 64 (w.setOp i o'))))) ∧
   (∀ (s : State) (i : Nat) (o : Op) (src dst : Side) (len fuel : Nat), s.opAt i = some o →
     let piece (u : State) : Prop := State.copyEntry i src dst len (fuel + 1) s = State.copyEntry i src dst len fuel u
     (o.live = false ∨ o.awaiting = true ∨ o.begun ≤ o.done ∧ o.done < len → State.copyEntry i src dst len fuel s = s) ∧
     (o.live = true → o.awaiting = false →
       (s.linkLost src = true ∨ s.linkLost dst = true → o.done < o.begun →
         ∃ u y, piece u ∧ find u.dev.ops i = some y ∧ y.status = some 2 ∧ y.done = o.done) ∧
       (s.linkLost src = false → s.linkLost dst = false → s.peerLost src = false → s.peerLost dst = false →
         let n := min (o.begun - o.done) (min (s.reach src o.done) (s.reach dst o.done))
         (len ≤ o.done → piece (if noPoison dst = true then s.setOp i { o with awaiting := true }
           else ((s.setOp i { o with status := some 0, queued := false, awaiting := false }).post (.ccopyComplete i [])).wake
             (o.core / 36) o.part)) ∧
         (o.done < o.begun → o.done < len → n = 0 →
           ∃ u y, piece u ∧ find u.dev.ops i = some y ∧ y.status = some 1 ∧ y.done = o.done) ∧
         (∀ x : Piece, o.done < o.begun → o.done < len → n ≠ 0 → s.readSide o src o.done n = .ok x →
           (∀ t, x.bad = [] → s.writeSide o dst o.done n x = .ok t →
             piece ((t.noteCopied o src o.done n).setOp i { o with done := o.done + n })) ∧
           (∀ b t, (isFar src = true ∨ noPoison dst = true) → firstBad x.bad = some b →
             s.writeSide o dst o.done b (x.below b) = .ok t →
             ∃ u y, piece u ∧ find u.dev.ops i = some y ∧ y.status = some 4 ∧ y.done = o.done + b))))) ∧
   (∀ (s : State) (i t : Nat) (o : Op), s.opAt i = some o → o.holdUntil = some t →
     (s.now < t → exec (.cdelayHoldEnd i) s = .next (s.post (.cdelayHoldEnd i))) ∧
     (t ≤ s.now → exec (.cdelayHoldEnd i) s = .next ((s.setOp i { o with holdUntil := none }).wake (o.core / 36) o.part))) ∧
   (∀ (s : State) (i : Nat) (o : Op), s.opAt i = some o →
     let ends (s : State) (done st : Nat) : State :=
       let t := s.placeWrite o.complPa (toLe 8 (st * 2 ^ 56 + done % 2 ^ 48))
       let u : State := match o.semPa with
         | some place => t.placeRed place 4 fun v => (v + 1) % 2 ^ 32
         | none => t
       u.dropOp i
     (∀ st, o.status = some st →
       (∀ src dst len data, o.kind = .copy src dst len → exec (.ccopyComplete i data) s = .next (ends s o.done st)) ∧
       (∀ x, o.kind = .coll x → exec (.collComplete i) s = .next (ends s o.done st)) ∧
       find (ends s o.done st).dev.ops i = none) ∧
     (∀ src dst len data, o.kind = .copy src dst len → o.status = none → o.faulted = false → o.awaiting = true →
       (noPoison src = false → exec (.ccopyComplete i data) s = .next (ends s o.done 0)) ∧
       (∀ t at', noPoison src = true →
         let n := min 4064 (o.begun - o.done)
         let o' := { o with done := at', awaiting := false }
         let answers (u : State) : Prop := exec (.ccopyComplete i data) s = .next u
         s.deliverData o dst (data.take n) o.done = (t, at', none) →
         (len ≤ at' → answers (ends t at' 0)) ∧
         (at' < len → data.length < n → answers (t.endCopy i o' src dst len 3)) ∧
         (at' < len → n ≤ data.length → at' < o.begun → answers (t.goOnCopy i o' src dst len)) ∧
         (at' < len → n ≤ data.length → o.begun ≤ at' → answers ((t.setOp i o').wake (o.core / 36) o.part)))))) ∧
  ((∀ (s : State) (die p i : Nat) (o : Op) (x : Coll), (s.headOf die p).filter Head.ready = some (.op i o) → o.kind = .coll x →
     let round := s.newRound die
     let v := round.onDev fun d => { d with
       served := put d.served (16 * die + p) (findD d.served (16 * die + p) 0 + (Head.op i o).size) }
     let u := v.collTurn i o x
     round.weight p = 0 ∨ round.credit die p = true →
       exec (.conduitEntryStart die p) s = .next (if (u.headOf die p).any Head.ready then u.wake die p else u)) ∧
   (∀ (s : State) (i : Nat) (o : Op) (x : Coll),
     ((∃ n ∈ s.dev.lost, s.collUses o x n = true) → (find (s.collTurn i o x).dev.ops i).bind Op.status = some 3) ∧
     (∀ c data t, s.dev.lost = [] → x.firstChunks[o.sentFirst]? = some c →
       let o1 := if o.started then o else { o with started := true, done := x.aloneBytes, early := [] }
       let o2 := { o1 with sentFirst := o.sentFirst + 1, queued := decide (o.sentFirst + 1 < x.firstChunks.length) }
       let m := HopMsg.data (decide (3 ≤ x.op)) c data (residueOf data)
       s.readChunk o1 x c = .ok data → s.sendMsg o2 x x.next m = .ok (some t) → s.collTurn i o x =
         (o.early.foldl (fun t m => t.post (.collHop i m.1 none m.2)) t).afterTurn i { o2 with kept := o.kept ++ [(x.next, m)] } x)) ∧
   (∀ (s : State) (i rank port tc : Nat) (m : HopMsg), tc ≠ 1 →
     exec (.collHop i rank (some (port, tc)) m) s = .next (s.dropPacket port)) ∧
   (∀ (s : State) (i rank : Nat) (via : Option (Nat × Nat)) (o : Op) (x : Coll), s.opAt i = some o → o.kind = .coll x →
     o.status = none → o.faulted = false → (∀ y, via = some y → y.2 = 1) →
     let arrives (m : HopMsg) (u : State) : Prop := exec (.collHop i rank via m) s = .next u
     let die := o.core / 36
     (∀ m, o.started = false → arrives m (s.setOp i { o with early := o.early ++ [(rank, m)] })) ∧
     (o.started = true →
       arrives .fail (s.endColl i o 5) ∧
       (∀ b c, arrives (.ack b c) (s.afterTurn i { o with kept := o.kept.filter fun y => !isChunk rank b c y } x)) ∧
       (∀ b c y t, o.kept.find? (isChunk rank b c) = some y → s.sendMsg o x rank y.2 = .ok (some t) →
         arrives (.again b c) (t.afterTurn i o x)) ∧
       (∀ b c data residue, let m := HopMsg.data b c data residue
         (64 ≤ s.queueUsed die o.part → arrives m (s.post (.collHop i rank via m))) ∧
         (s.queueUsed die o.part < 64 → arrives m ((s.onDev fun d => { d with
           hops := d.hops ++ [⟨d.nextOp, i, rank, m⟩], nextOp := d.nextOp + 1 }).wake die o.part))))) ∧
   (∀ (s : State) (die p : Nat) (h : QueuedHop) (o : Op) (x : Coll), s.opAt h.op = some o → o.kind = .coll x →
     let t := s.onDev fun d => { d with hops := d.hops.erase h }
     let does (u : State) : Prop := s.headTurn die p (.hop h) = u
     (∀ b c data residue, h.msg = .data b c data residue → residueOf data ≠ residue →
       (o.retried.contains c = true → does (t.residueFail h.op o x)) ∧
       (∀ u, o.retried.contains c = false → t.sendMsg o x h.sender (.again b c) = .ok (some u) →
         does (u.afterTurn h.op { o with retried := o.retried ++ [c] } x))) ∧
     (∀ c data u v o', h.msg = .data false c data (residueOf data) → t.sendMsg o x h.sender (.ack false c) = .ok (some u) →
       o.seen.contains c = false → u.reduceHop o x c data = .ok (some (v, o', .on)) → does (v.afterTurn h.op o' x)) ∧
     (∀ c data u v o', h.msg = .data true c data (residueOf data) → t.sendMsg o x h.sender (.ack true c) = .ok (some u) →
       o.gathered.contains c = false → u.gatherHop o x c data (residueOf data) = .ok (some (v, o', .on)) →
       does (v.afterTurn h.op o' x))) ∧
   (∀ (s : State) (o : Op) (x : Coll) (t : Nat) (m : HopMsg) (e : List Byte),
     s.readFor o.part o.sup ((x.list + 8 * t) % 2 ^ 64) 2 = .ok e → (leNat e).testBit 15 = true →
     let core := leNat e % 256
     let shared (rank core : Nat) (mate : Nat × Nat) (y : Round) : Bool := y.links o.part x.tag rank core mate
     let no := ((s.dev.rounds.takeWhile fun y => y.op != o.key).filter (shared x.rank o.core (t, core))).length
     (∀ y, (s.dev.rounds.filter (shared t core (x.rank, o.core)))[no]? = some y →
       s.sendMsg o x t m = .ok (some (if (s.opAt y.op).any Op.live then s.post (.collHop y.op x.rank none m) else s))) ∧
     ((s.dev.rounds.filter (shared t core (x.rank, o.core)))[no]? = none →
       s.sendMsg o x t m = .ok (some (s.onDev fun d => { d with chunks := d.chunks ++
         [{ part := o.part, tag := x.tag, rank := t, core, sender := x.rank, senderCore := o.core, no, msg := m }] })))) ∧
   (∀ (t : Ty) (h : Nat) (a b : List Nat) (i : Nat), i < a.length → i < b.length →
     (t = .i32 ∨ t = .i64 → (hopAdd t 0 h a b)[i]? = some ((a.getD i 0 + b.getD i 0) % 2 ^ width t)) ∧
     (hopAdd .f32 0 h a b)[i]? = some (rne32 ((valOf .f32 (a.getD i 0)).add (valOf .f32 (b.getD i 0))))))

/-- R114, R116, R366: a walk that completes answers every miss that its leaf covers, one that a `tlbinv` has barred by serving
the waiting access alone, and one that faults those of its page; a fetched page is copied from its slot into the frame that is
free for it, its entry made resident, and its walk resumed. -/
def Obligations.WalksAnswerTheirMisses : Prop :=
  (∀ (s : State) (p va : Nat) (x : Xlat) (fr : Option Nat), s.walk p true va ⟨false, false⟩ = .ok x fr →
    ∃ u, exec (.walkComplete p va) s = .next u ∧
      (∀ m, m ∈ (u.partAt p).misses ↔ m ∈ (s.partAt p).misses ∧ ¬ (x.va ≤ m.va ∧ m.va < x.va + x.size)) ∧
      ∀ m ∈ (s.partAt p).misses, x.va ≤ m.va → m.va < x.va + x.size → m.barred = true →
        (x.sup = true → (s.coreAt m.core).sup = true) → x ∈ (u.eng m.core m.stream).got) ∧
  (∀ (s : State) (p va code : Nat), s.walk p true va ⟨false, false⟩ = .fault code →
    exec (.walkComplete p va) s = .next (s.setPart p { s.partAt p with
      misses := (s.partAt p).misses.filter fun m => m.va / 65536 != va / 65536 })) ∧
  (∀ (s t : State) (p entryPa va : Nat) (f : Option Nat) (x : Fetch),
    let q := s.partAt p
    let names (u : State) (e : Nat) : Prop := (u.partAt p).clkEn = true ∧ e.testBit 0 = true ∧ e.testBit 5 = true ∧
      e.testBit 6 = true ∧ e / 256 % 2 ^ 40 < (u.partAt p).cellarGiB * 16384
    let entry (u : State) : Nat := leNat (u.homeRead entryPa 8).1
    q.fetches.find? (fun y => y.entryPa == entryPa) = some x → names s (entry s) → s.frameFor p entryPa = (f, t) →
      (∀ g, f = some g → names t (entry t) → exec (.cellarFetchComplete p entryPa va) s =
        .next ((t.fillFrame p g entryPa (entry t / 256 % 2 ^ 40) x.va).endFetch p x)) ∧
      (f = none → exec (.cellarFetchComplete p entryPa va) s = .next (t.post (.cellarFetchComplete p entryPa va))))

/-- R149 to R151, R156: a request that its home serves. A load of a line that no core owns sends the line and records its
sharer as its policy has it, an `.own` load of an untracked line ownership; a store or update at the home writes there
when there is no sharer, and a store for ownership is granted it; with sharers a round of invalidations begins, and
the entry is BUSY until the last is acknowledged; a line owned by another core is forwarded to its owner. A request
that BUSY or FWD bars waits in order, and a bank whose counter is full accepts no write. R160: a store that its core
still buffers is sent behind the earlier ones of its core to the line, which go in its place, or is on its way still.
The counter of a bank is kept by cistern (log 61), a store may be overtaken by those to other lines (log 6), and a
request sent since changes nothing (log 12), all the model's choices. R149, R151 to R154, R156: the other messages
between cores and homes. A line that arrives is installed and its access performed; an invalidation drops any copy but
an owned one, and is acknowledged; the last acknowledgement of a round ends it; a write-back writes the dirty words
and ends the ownership, and its acknowledgement frees the buffer, behind the updates that were sent to it; an eviction
notice removes a sharer; a recalled owner gives its line up and a downgraded one keeps a tracked copy, their dirty
words written home, and the home then gives the line to the request for which it was BUSY; a read that an owner
answers is passed on, and the reply to an update writes its word at the home. A cistern answers a release's marker
when it holds no write of the partition that it accepted before. The markers asked of cisterns are log 61, and a
message that nothing awaits changes nothing by log 12, both the model's. -/
def Obligations.HomesAndCachesExchangeMessages : Prop :=
  (∀ (s : State) (r : HomeReq) (c : Nat), r.core = some c →
     (∀ b, s.buffered r = some b →
       let u := { s with freeCount := s.freeCount + 1 }
       exec (.homeRequest r) s = .next (if Config.overtaken s.freeCount = true ∨ s.bankFull r = true
         then u.post (.homeRequest r) else if (s.coreAt b.1).firstStore b.2 = b.2 then u.sendStore b.1 b.2
         else (u.sendStore b.1 ((s.coreAt b.1).firstStore b.2)).post (.homeRequest r))) ∧
     (s.buffered r = none → r.no = 0 →
       let a := s.accepted r
       let l := r.line
       let d := s.dirAt l
       let does (P : State → Prop) : Prop := ∃ u, exec (.homeRequest r) s = .next u ∧ P u
       let granted (m : DirMode) : Prop := does fun u => (u.dirAt l).mode = m ∧
         r ∈ (u.coreAt c).granted ∧ .lineData c l ∈ u.events ∧ u.mem = s.mem
       (s.bankFull r = true → exec (.homeRequest r) s = .next (s.post (.homeRequest r))) ∧
       (s.bankFull r = false → a.mustWait r = true → does fun u => (u.dirAt l).waiting = d.waiting ++ [r] ∧
         u.mem = s.mem ∧ u.cores = s.cores) ∧
       (Served s r → (∀ o, d.mode ≠ .owned o) →
         (r.kind = .ldSi → granted d.mode) ∧
         (r.kind = .ldWi → granted (track d.mode c)) ∧
         (r.kind = .ldOwn → granted (if d.mode = .none then .owned c else track d.mode c)) ∧
         (writes r.kind = true → d.mode = .none → obtains r.kind = true → granted (.owned c)) ∧
         (∀ bs, writes r.kind = true → d.mode = .none → obtains r.kind = false →
           let w := a.landWords l (touches r.kind)
           newBytes r.kind (Mem.readN w.mem (128 * l) 128) = some bs →
           does fun u => u.mem = Mem.write w.mem (128 * l + (span r.kind).1) bs ∧ (u.dirAt l).mode = .none) ∧
         (writes r.kind = true → d.mode ≠ .none → s.targets d.mode (some c) ≠ [] →
           does fun u => (u.dirAt l).busy = some r ∧ (u.dirAt l).awaits = s.targets d.mode (some c) ∧ u.mem = s.mem ∧
             ∀ e ∈ s.targets d.mode (some c), .invalidation e l ∈ u.events)) ∧
       (∀ o, Served s r → d.mode = .owned o → o ≠ c →
         (r.kind = .ldSi ∨ (∃ w w64, r.kind = .ldWt w w64) → does fun u => (u.dirAt l).reads = d.reads ++ [(o, r)] ∧
           .forwardedRequest o l .read ∈ u.events) ∧
         (r.kind = .ldWi ∨ r.kind = .ldOwn → does fun u => (u.dirAt l).busy = some r ∧
           .forwardedRequest o l .downgrade ∈ u.events) ∧
         (obtains r.kind = true → does fun u => (u.dirAt l).busy = some r ∧ .forwardedRequest o l .recall ∈ u.events) ∧
         (writes r.kind = true → obtains r.kind = false → does fun u => (u.dirAt l).updates = d.updates ++ [(o, r)] ∧
           .forwardedRequest o l (.update ((span r.kind).1 / 4)) ∈ u.events)))) ∧
  ((∀ (s : State) (c l : Nat) (r : HomeReq), (s.coreAt c).granted.find? (fun r => r.line == l) = some r →
     s.ownCopy c l = none → writes r.kind = false →
     ∃ u k, exec (.lineData c l) s = .next u ∧ find (u.coreAt c).copies l = some k ∧
       (u.coreAt c).granted = (s.coreAt c).granted.erase r ∧
       k.kind = (if (s.dirAt l).mode = .owned c then .owned else copyKindOf r.kind) ∧
       ((s.dirAt l).mode ≠ .owned c → k.data = (s.lineNow l).1)) ∧
   (∀ (s : State) (c l : Nat),
     (∃ u, exec (.invalidation c l) s = .next u ∧ .invalidationAck c l ∈ u.events ∧
       ∀ k, find (u.coreAt c).copies l = some k → k.kind = .owned) ∧
     (let v := s.dropAt l c
      let left := (v.dirAt l).awaits.erase c
      let w := v.setDir l { v.dirAt l with awaits := left }
      ((s.dirAt l).awaits.contains c = false → exec (.invalidationAck c l) s = .next s) ∧
      ((s.dirAt l).awaits.contains c = true →
       (left ≠ [] → exec (.invalidationAck c l) s = .next w) ∧
       (left = [] → exec (.invalidationAck c l) s = .next ((w.finishBusy l).drainHome l)))) ∧
     ((s.dirAt l).updates.filter (fun u => u.1 == c) = [] →
       exec (.writeBackAck c l) s = .next (s.onCore c fun k => { k with evicting := del k.evicting l })) ∧
     (∀ cs, (s.dirAt l).mode = .ptr cs → find (s.coreAt c).copies l = none →
       (s.coreAt c).granted.filter (fun r => r.line == l) = [] → exec (.evictionNotice c l) s =
       .next (s.setDir l { s.dirAt l with
         mode := if cs.filter (· != c) = [] then .none else .ptr (cs.filter (· != c)) }))) ∧
   (∀ (s : State) (c l : Nat) (k : Copy), ((s.makeRoom l).dirAt l).mode = .owned c → (s.makeRoom l).ownCopy c l = some k →
     k.data.length = 128 → ∃ u : State, exec (.writeBack c l) s = .next (u.drainHome l) ∧ (u.dirAt l).mode = .none ∧
       find (u.coreAt c).evicting l = some k ∧ find (u.coreAt c).copies l = none ∧ .writeBackAck c l ∈ u.events ∧
       ∀ i, i < 128 → k.dirty.getLsbD (i / 4) = true → some (Mem.read u.mem (128 * l + i)) = k.data[i]?) ∧
   (∀ (s : State) (o l : Nat), (s.coreAt o).granted.filter (fun r => r.line == l) = [] →
     (∀ r rs, (s.dirAt l).reads = r :: rs → exec (.forwardedRequest o l .read) s = .next (s.post (.forwardReply o l .read)) ∧
       ∀ c, r.2.core = some c → r.2.kind = .ldSi →
         exec (.forwardReply o l .read) s = .next ((s.setDir l { s.dirAt l with reads := rs }).grant c r.2)) ∧
     (∀ w x, (s.dirAt l).replies.find? (fun y => y.1 == w) = some x → (s.dirAt l).waiting = [] →
       ∃ u, exec (.forwardReply o l (.update w)) s = .next u ∧ (u.dirAt l).replies = (s.dirAt l).replies.erase x ∧
         u.mem = Mem.write s.mem (128 * l + 4 * (w % 32)) (toLe 4 x.2.toNat)) ∧
     (∀ r k, (s.dirAt l).busy = some r → r.line = l → (s.dirAt l).awaits = [] → (s.dirAt l).mode = .owned o → (s.dirAt l).updates = [] →
       (s.ownCopy o l = some k → k.data.length = 128 → ∀ keep : Bool, ∃ u,
         exec (.forwardedRequest o l (if keep then .downgrade else .recall)) s = .next u ∧
         .forwardReply o l (if keep then .downgrade else .recall) ∈ u.events ∧ (u.dirAt l).mode = .owned o ∧
         find (u.coreAt o).copies l = (if keep then some { k with kind := .tracked, dirty := 0 } else none) ∧
         ∀ i, i < 128 → k.dirty.getLsbD (i / 4) = true → some (Mem.read u.mem (128 * l + i)) = k.data[i]?) ∧
       (∀ c, r.core = some c → c ≠ o → (s.dirAt l).waiting = [] →
         (obtains r.kind = true → ∃ u, exec (.forwardReply o l .recall) s = .next u ∧ (u.dirAt l).busy = none ∧
           (u.dirAt l).mode = .owned c ∧ r ∈ (u.coreAt c).granted ∧ .lineData c l ∈ u.events) ∧
         (writes r.kind = false → ∃ u, exec (.forwardReply o l .downgrade) s = .next u ∧ (u.dirAt l).busy = none ∧
           ((u.dirAt l).mode = .ptr [o, c] ∨ (u.dirAt l).mode = .ptr [c]) ∧ r ∈ (u.coreAt c).granted ∧
           .lineData c l ∈ u.events)))) ∧
   (∀ (s : State) (cistern c m : Nat) (st : Stream) (d : Drain), (s.eng c st).drain = some d → d.marker = some m →
     let earlier := ∃ x ∈ s.pending, home x.req.line = cistern ∧ x.req.part = (s.coreAt c).part ∧ x.no < m
     ∃ u, exec (.fenceMarker cistern c) s = .next u ∧ u.mem = s.mem ∧ u.pending = s.pending ∧
       (¬ earlier → cistern ∉ d.answers → (u.eng c st).drain = some { d with answers := d.answers ++ [cistern] }) ∧
       (earlier → (u.eng c st).drain = some d)))

/-! ## Messages at a partition's endpoint (03_vestibule R42 to R51) and attestation (01_package R17, R18) -/

/-- R42: a message's header is 32 bytes, with the type, the version, the body's length, the tag and three eight-byte
fields. R29, R43 to R51: a message whose header, window, pages and control block are good has its effect and is
answered OK: a `WRITE` stores its body at the window's address and answers its length once the words are visible; a
`READ` answers the bytes there; a `CMD` deposits its body in the inbox entry of PI, advances PI, signals its event and
answers PI; a `CANCEL` sets the bit of its slot, in one indivisible step, and signals its event. A packet that no
endpoint takes is dropped and counted; an unknown type is answered BAD_TYPE. The pages of a control block and of an
entry that lie in the cellar are asked for (R116, log 27). An acknowledged `NOTIFY` returns its unit. The value of a
reply for which no rule states one is free (log 3); the reply type of a message of no listed type, `.badType`'s own,
is log 47, the model's reading. R44: the first check that fails is the one answered, and nothing else is done: the
version (BAD_TYPE, 1), the length (BAD_LENGTH, 2), the arguments and the reserved word (BAD_VALUE, 8), then the window
(3) and the pages (4), or a control block that is not configured (7). A message of a partition's types in the wrong
class is dropped and counted. -/
def Obligations.PartitionMessagesAreCheckedAndServed : Prop :=
  ((∀ m : Msg, m.body.length < 2 ^ 16 →
     let h := headerBytes m
     let field (off n : Nat) : Nat := leNat ((h.drop off).take n)
     h.length = 32 ∧ field 0 1 = m.typ.toNat ∧ field 1 1 = m.version.toNat ∧ field 2 2 = m.body.length ∧
       field 4 4 = m.tag.toNat ∧ field 8 8 = m.argA.toNat ∧ field 16 8 = m.argB.toNat ∧ field 24 8 = m.reserved.toNat) ∧
   (∀ (s t : State) (m : Msg) (p : Nat), Taken s m 1 2 p → Header m → m.argB = 0 →
     let q := s.partAt p
     let n := m.body.length
     4 ≤ n → n ≤ 4064 → n % 4 = 0 → offsetOf m % 4 = 0 → q.windowOk m n true = true → s.rangeOk p (q.windowVa m) n needWr = true →
     (s.noteRange p false (q.windowVa m) n).writeVia p false (q.windowVa m) m.body = .ok t →
     let u := t.onDev fun d => { d with writesDone := d.writesDone ++ [m] }
     exec (.write m) s = .next (u.post (.writeReply m))) ∧
   (∀ (s : State) (m : Msg), m ∈ s.dev.writesDone → exec (.writeReply m) s =
     .next (replied (s.onDev fun d => { d with writesDone := d.writesDone.erase m }) m 0 (.ofNat 64 m.body.length) [])) ∧
   (∀ (s : State) (m : Msg) (p : Nat) (bs : List Byte), Taken s m 2 2 p → Header m → m.body = [] →
     let q := s.partAt p
     let n := m.argB.toNat
     4 ≤ n → n ≤ 4064 → n % 4 = 0 → offsetOf m % 4 = 0 → q.windowOk m n false = true →
     s.rangeOk p (q.windowVa m) n needRd = true → s.readVia p false needRd (q.windowVa m) (n / 4) = .ok bs →
     RepliesWith (exec (.read m) s) (s.askPages p false needRd (q.windowVa m) n) m 0 bs) ∧
   (∀ (s t : State) (m : Msg) (p pi ci : Nat) (place : Nat × Option Nat), Taken s m 3 0 p → Header m → m.mode = .rod → m.body.length = 64 →
     m.argA.toNat < 2 ^ 16 → m.argB = 0 →
     let q := s.partAt p
     let base := q.vcbVa
     let entry := (base + 4096 + 64 * (pi % 2 ^ q.ilog)) % 2 ^ 64
     let v := s.askPages p true needWr base 8
     let u := v.askPages p true needWr entry 64
     let w := (u.noteRange p true entry 64).noteRange p true base 8
     q.configured = true → v.pageOk p true base needWr = true → u.pageOk p true entry needWr = true →
     v.vcbWord p base = some pi → u.vcbWord p (base + 128) = some ci → (pi + 2 ^ 64 - ci) % 2 ^ 64 < 2 ^ q.ilog →
     w.placeFor p true base needWr = .ok place → w.writeVia p true entry m.body = .ok t →
       exec (.cmd m) s = .next (replied ((t.placeWrite place.1 (toLe 8 (pi + 1))).addEvent p m.argA.toNat 1)
         m 0 (.ofNat 64 pi) [])) ∧
   (∀ (s t : State) (m : Msg) (p : Nat), Taken s m 4 0 p → Header m → m.mode = .rod → m.body = [] →
     m.argA.toNat < 2 ^ 12 → m.argB.toNat < 2 ^ 16 →
     let q := s.partAt p
     let slot := m.argA.toNat
     let va := q.vcbVa + 512 + 4 * (slot / 32)
     let v := s.askPages p true needWr q.vcbVa 8
     q.configured = true → v.pageOk p true q.vcbVa needWr = true →
     (v.noteRange p true va 4).redVia p true va 4 (fun n => n ||| 2 ^ (slot % 32)) = .ok t →
       RepliesWith (exec (.cancel m) s) (t.addEvent p m.argB.toNat 1) m 0 []) ∧
   (∀ (s : State) (port : Nat), exec (.packetDrop port) s = .next (s.onDev fun d =>
     { d with portErrors := put d.portErrors port (findD d.portErrors port 0 + 1) })) ∧
   (∀ (s : State) (m : Msg) (p : Nat), s.dev.phase ≠ .off → m.endpoint = some p → s.endpointAt m = true →
     m.typ = 0 ∨ 6 < m.typ.toNat → RepliesWith (exec (.badType m) s) s m 1 []) ∧
   (∀ (s : State) (pa : Nat), findD s.dev.unitsOut pa 0 ≠ 0 →
     exec (.notifyAck pa) s = .next (s.setUnits pa (findD s.dev.unitsOut pa 0 - 1)))) ∧
  (∀ (s : State) (m : Msg) (p : Nat),
     let q := s.partAt p
     let n := m.body.length
     (Taken s m 1 2 p →
       let lengthOk := 4 ≤ n ∧ n ≤ 4064 ∧ n % 4 = 0 ∧ offsetOf m % 4 = 0
       let argsOk := m.argB = 0 ∧ m.reserved = 0
       let windowOk := q.windowOk m n true = true
       (m.version ≠ 1 → RepliesWith (exec (.write m) s) s m 1 []) ∧
       (m.version = 1 → ¬ lengthOk → RepliesWith (exec (.write m) s) s m 2 []) ∧
       (m.version = 1 → lengthOk → ¬ argsOk → RepliesWith (exec (.write m) s) s m 8 []) ∧
       (m.version = 1 → lengthOk → argsOk → ¬ windowOk → RepliesWith (exec (.write m) s) s m 3 []) ∧
       (m.version = 1 → lengthOk → argsOk → windowOk → s.rangeOk p (q.windowVa m) n needWr = false →
         RepliesWith (exec (.write m) s) s m 4 [])) ∧
     (Taken s m 3 0 p → m.mode = .rod →
       let argsOk := m.argA.toNat < 2 ^ 16 ∧ m.argB = 0 ∧ m.reserved = 0
       (m.version ≠ 1 → RepliesWith (exec (.cmd m) s) s m 1 []) ∧
       (m.version = 1 → n ≠ 64 → RepliesWith (exec (.cmd m) s) s m 2 []) ∧
       (m.version = 1 → n = 64 → ¬ argsOk → RepliesWith (exec (.cmd m) s) s m 8 []) ∧
       (m.version = 1 → n = 64 → argsOk → q.configured = false → RepliesWith (exec (.cmd m) s) s m 7 [])) ∧
     (m.typ = 1 → s.dev.phase ≠ .off → m.tc ≠ 2 → exec (.write m) s = exec (.packetDrop m.port) s))

/-- R17, R18: an `ATTEST` that is good and finds fewer than eight held joins the queue with the quote of the state as it
arrives, its nonce among it; the Keystone answers the oldest with the quote and its signature, once. A ninth is
answered BUSY (9). That `ATTEST` is taken at any endpoint is log 47, and that one reply carries a quote longer than a
packet log 20, both the model's. R12, R15, R17, R23, R52: what the management operations on the module do. `HEALTH`
and `IDKEY` answer the health word and the identity key; `CLEAR_HEALTH` clears the record; `SET_AUTHORITY` replaces
the credential; `FW_PREFER` chooses the preferred slot; a last `FW_UPDATE` chunk that verifies makes the other slot
the preferred one, and one that does not is answered BAD_VALUE (8); `RESET` restarts the module. An unlisted operation
is answered BAD_VALUE. What `RESET` keeps is log 46, the length of a credential log 58, and what a valid image is log
9, all the model's. -/
def Obligations.AttestationAndModuleOperations : Prop :=
  ((∀ (s : State) (m : Msg), m.typ = 5 → s.dev.phase ≠ .off → s.dev.phase ≠ .recovery → s.endpointAt m = true → m.tc = 0 →
     m.mode = .rod → Header m → m.argA = 0 → m.argB = 0 → m.body.length = 32 →
     (8 ≤ s.dev.attests → RepliesWith (exec (.attest m) s) s m 9 []) ∧
     (s.dev.attests < 8 → s.dev.destroying = none → exec (.attest m) s =
       .next ((s.onDev fun d => { d with quotes := d.quotes ++ [(m, s.quoteBody m.body)] }).post .quote)) ∧
     (s.dev.attests < 8 → s.dev.destroying ≠ none → exec (.attest m) s =
       .next (s.onDev fun d => { d with keyQueue := d.keyQueue ++ [m] }))) ∧
   (∀ (s : State) (m : Msg) (b : List Byte) (rest : List (Msg × List Byte)), s.dev.quotes = (m, b) :: rest →
     RepliesWith (exec .quote s) (s.onDev fun d => { d with quotes := rest }) m 0
       (b ++ toLe 17088 (Config.signature Config.identitySeed b).toNat)) ∧
   (∀ (s : State) (nonce : List Byte), nonce.length = 32 → (∀ i, i < 16 → (s.dev.measAt i).length = 32) →
     (s.quoteBody nonce).length = 592 ∧ ((s.quoteBody nonce).drop 24).take 32 = nonce ∧
       (signedQuote (s.quoteBody nonce)).length = 592 + 17088)) ∧
  (∀ (s : State) (m : Msg),
     (AdminTaken s m 0x01 → m.body = [] → opA m = 0 → opB m = 0 →
       exec (.health m) s = .next (replied s m 0 (.ofNat 64 s.health) [])) ∧
     (AdminTaken s m 0x02 → m.body = [] → opA m = 0 → opB m = 0 → RepliesWith (exec (.idkey m) s) s m 0
       (toLe 32 (Config.publicKey Config.identitySeed).toNat)) ∧
     (AdminTaken s m 0x31 → m.body = [] → opA m = 0 → opB m = 0 → ∃ u, RepliesWith (exec (.clearHealth m) s) u m 0 [] ∧
       u.dev.failures = [] ∧ u.dev.retired = [] ∧ u.dev.trip = false ∧ u.parts = s.parts ∧ u.cores = s.cores) ∧
     (AdminTaken s m 0x33 → opA m = 0 → opB m = 0 →
       RepliesWith (exec (.setAuthority m) s) (s.onDev fun d => { d with credential := m.body }) m 0 []) ∧
     (AdminTaken s m 0x34 → m.body = [] → opA m = 0 → opB m < 2 → (if opB m = 1 then s.dev.slotB else s.dev.slotA).valid = true →
       RepliesWith (exec (.fwPrefer m) s) (s.onDev fun d => { d with preferB := opB m == 1 }) m 0 []) ∧
     (AdminTaken s m 0x32 → m.body = [] → opA m = 0 → opB m = 0 → ∃ u v, exec (.reset m) s = .next u ∧ u.cores = [] ∧
       u.parts = [] ∧ u.mem = [] ∧ u.dev.boots = s.dev.boots ∧
       u.dev.sent = s.dev.sent ++ [.reply m.conn m.tc m.tag.toNat 0 (m.typ ||| 0x80) v []]) ∧
     (AdminTaken s m 0x30 → opA m = 0 → opB m = 2 ^ 63 → 4 ≤ m.body.length → m.body.length ≤ 4064 → m.body.length % 4 = 0 →
       let x := slotOf m.body
       let d (y : Slot) : State := s.onDev fun d =>
         if d.selectedB then { d with fwPart := none, slotA := y } else { d with fwPart := none, slotB := y }
       (x.valid = true → exec (.fwUpdate m) s = .next (replied ((d x).onDev fun d => { d with preferB := !d.selectedB }) m 0
         (.ofNat 64 m.body.length) [])) ∧
       (x.valid = false → RepliesWith (exec (.fwUpdate m) s) (d .erased) m 8 [])) ∧
     (AdminTaken s m (opOf m) → listedOp (opOf m) = false → RepliesWith (exec (.unlistedOperation m) s) s m 8 []))

/-! ## The Keystone's operations (03_vestibule R52 to R55; 01_package R15, R23) -/

/-- R29, R33, R52 to R54: what the management operations on partitions and resources do. `PART_CREATE` gives a new partition
free wings; `SET_PORTS`, `SET_WEIGHT`, `SET_SLUICE`, `SET_CELLAR`, `SET_FAR` and `SET_GAUGE` set its ports, weights, sluice
slots, cellar share, far regions and gauges; a `LOAD_DISP` chunk that ends its image starts the dispatcher (its job number and
bounds: log 18); `PART_DESTROY` stops its jobs at once, so that no core of its wings runs, and is answered when its last copy
has completed and the messages accepted before it are answered. Each answers OK. That a new partition's registers are all zero
is log 4, and what the measurements extend log 28, both the model's. -/
def Obligations.PartitionOperationsTakeEffect : Prop :=
  (∀ (s : State) (m : Msg), AdminTaken s m 0x10 → m.body = [] →
    let p := opA m
    let wings := opB m
    p < 12 → s.dev.hasPart p = false → wings ≠ 0 → wings < 4096 →
    (∀ w, w < 12 → wings.testBit w = true → findD s.dev.wings w 0xFF = 0xFF) →
    ∃ u, RepliesWith (exec (.partCreate m) s) u m 0 [] ∧ u.partAt p = {} ∧ u.mem = s.mem ∧
      (∀ w, w < 12 → findD u.dev.wings w 0xFF = if wings.testBit w then p else findD s.dev.wings w 0xFF) ∧
      u.dev.measAt (4 + p) = List.replicate 32 0 ∧
      u.dev.measAt 3 = sha256 (s.dev.measAt 3 ++ sha256 u.dev.wingTable)) ∧
  (∀ (s : State) (m : Msg) (p : Nat), p < 12 → s.dev.hasPart p = true →
    (AdminTaken s m 0x12 → m.body.length = 192 → opA m < 2 ^ 16 → opA m % 16 = p → opA m / 16 ≠ 0 → opB m = 0 →
      s.addrTaken p (opA m / 16) m = false → RepliesWith (exec (.setPorts m) s) (s.onPart p fun q => { q with
        ports := opA m / 16
        addrs := (setBits 12 (opA m / 16)).foldl (fun x k => put x k ((m.body.drop (16 * k)).take 16)) [] }) m 0 []) ∧
    (AdminTaken s m 0x13 → m.body = [] → opA m < 192 → opA m % 16 = p → 1 ≤ opB m → opB m ≤ 255 →
      RepliesWith (exec (.setWeight m) s)
        (s.onPart p fun q => { q with weights := put q.weights (opA m / 16) (opB m) }) m 0 []) ∧
    (AdminTaken s m 0x14 → m.body.length = 128 → opA m = p → opB m = 0 →
      (∀ i, i < 1024 → (leNat m.body).testBit i = true → findD s.dev.sluice i p = p) →
      ∃ u, RepliesWith (exec (.setSluice m) s) u m 0 [] ∧ u.parts = s.parts ∧
        ∀ i, i < 1024 → (find u.dev.sluice i = some p ↔ (leNat m.body).testBit i = true)) ∧
    (AdminTaken s m 0x15 → m.body = [] → opA m = p → (s.partAt p).clkEn = false → s.cellarUsed p + opB m ≤ cellarMax →
      RepliesWith (exec (.setCellar m) s)
        (s.onPart p fun q => { q with cellarGiB := opB m, cellar := [], cellarBad := [] }) m 0 []) ∧
    (AdminTaken s m 0x16 → m.body = [] → opA m < 2 ^ 28 → opA m % 16 = p → opA m / 32 % 2 ^ 11 = 0 → opB m % 65536 = 0 →
      let r := opA m / 2 ^ 16 % 2 ^ 12
      (find s.dev.far r = none → opB m ≠ 0 → RepliesWith (exec (.setFar m) s) (s.onDev fun d => { d with
        far := put d.far r { port := opA m / 16 % 2, part := some p, size := opB m } }) m 0 []) ∧
      (∀ f, find s.dev.far r = some f → f.part = some p → opB m = 0 →
        RepliesWith (exec (.setFar m) s) (s.onDev fun d => { d with far := del d.far r }) m 0 [])) ∧
    (AdminTaken s m 0x17 → m.body = [] → opA m < 2 ^ 7 → opB m = p → RepliesWith (exec (.setGauge m) s) (s.onDev fun d =>
      { d with gauges := put d.gauges (opA m) { findD d.gauges (opA m) {} with owner := some p } }) m 0 []) ∧
    (AdminTaken s m 0x18 → opA m = p → 4 ≤ m.body.length → m.body.length ≤ 4064 → m.body.length % 4 = 0 →
      (opB m = 0 → exec (.loadDisp m) s = .next (replied (s.onPart p fun q => { q with disp := some ⟨m.body⟩ }) m 0
        (.ofNat 64 m.body.length) [])) ∧
      (opB m = 2 ^ 63 → ∃ u j b, exec (.loadDisp m) s = .next (replied u m 0 (.ofNat 64 m.body.length) []) ∧
        u.jobAt p j = some b ∧ b.state = 2 ∧ b.sup = true ∧ b.n = 1 ∧ b.disp = wordsOf m.body ∧
        u.dev.measAt (4 + p) = sha256 (s.dev.measAt (4 + p) ++ sha256 m.body))) ∧
    (AdminTaken s m 0x11 → m.body = [] → opA m = p → opB m = 0 →
      exec (.partDestroy m) s = .next (s.beginDestroy p m) ∧ (s.beginDestroy p m).dev.destroying = some m ∧
      ((s.beginDestroy p m).partAt p).jobs = [] ∧ ((s.beginDestroy p m).partAt p).ports = 0 ∧
      (∀ c, c < 144 → s.partOf c = p → ((s.beginDestroy p m).coreAt c).run = .idle)) ∧
    (m.typ = 6 → opOf m = 0x11 → s.dev.phase ≠ .off → s.endpointAt m = true → m.tc = 0 → m.mode = .rod →
      s.dev.destroying ≠ none → exec (.partDestroy m) s =
      .next (s.onDev fun d => { d with keyQueue := d.keyQueue ++ [m] }))) ∧
  (∀ (s : State) (m : Msg), s.dev.destroying = some m →
    let p := opA m % 16
    (s.destroyWaits p = true → s.goOnDestroy m = s) ∧
    (s.dev.ops.any (fun o => o.2.part == p) = false → (∀ w ∈ s.dev.writesDone, w.endpoint ≠ some p) →
      (∀ x ∈ s.dev.quotes, x.1.endpoint ≠ some p) → s.dev.keyQueue = [] →
      let t := s.goOnDestroy m
      t.dev.destroying = none ∧ find t.parts p = none ∧ (∀ w, w < 12 → findD t.dev.wings w 0xFF ≠ p) ∧
        ∃ v, t.dev.sent = s.dev.sent ++ [.reply m.conn m.tc m.tag.toNat 0 (m.typ ||| 0x80) v []]))
end

