-- ==== Sys2Proof/Laws/State.lean ====
section
/-! SUPPORT. One lemma per field per update of `State`, `Core` and `Engine`: what an accessor's update changes and
what it leaves. -/

namespace Sys2Proof.Machine

/-! ## Keyed stores -/

@[simp] theorem find_put_self {α : Type} (m : Store α) (k : Nat) (x : α) : find (put m k x) k = some x := by
  induction m with
  | nil => simp [put, find]
  | cons e m ih =>
    obtain ⟨a, y⟩ := e
    simp only [put]
    split
    · simp [find]
    · split
      · simp [find]
      · simp [find, *]

theorem find_put_ne {α : Type} (m : Store α) {k j : Nat} (x : α) (h : j ≠ k) : find (put m k x) j = find m j := by
  induction m with
  | nil => simp [put, find, h.symm]
  | cons e m ih =>
    obtain ⟨a, y⟩ := e
    simp only [put]
    split
    · subst_vars; simp [find, h.symm]
    · split
      · simp [find, h.symm]
      · simp [find, ih]

@[simp] theorem findD_put_self {α : Type} (m : Store α) (k : Nat) (x d : α) : findD (put m k x) k d = x := by
  simp [findD]

theorem findD_put_ne {α : Type} (m : Store α) {k j : Nat} (x d : α) (h : j ≠ k) :
    findD (put m k x) j d = findD m j d := by
  simp [findD, find_put_ne m x h]

/-! ## Updates of the state -/

@[simp] theorem State.setCore_now (s : State) (c : Nat) (k : Core) : (s.setCore c k).now = s.now := rfl
@[simp] theorem State.setCore_dev (s : State) (c : Nat) (k : Core) : (s.setCore c k).dev = s.dev := rfl
@[simp] theorem State.setCore_parts (s : State) (c : Nat) (k : Core) : (s.setCore c k).parts = s.parts := rfl
@[simp] theorem State.setCore_mem (s : State) (c : Nat) (k : Core) : (s.setCore c k).mem = s.mem := rfl
@[simp] theorem State.setCore_poison (s : State) (c : Nat) (k : Core) : (s.setCore c k).poison = s.poison := rfl
@[simp] theorem State.setCore_dir (s : State) (c : Nat) (k : Core) : (s.setCore c k).dir = s.dir := rfl
@[simp] theorem State.setCore_pending (s : State) (c : Nat) (k : Core) : (s.setCore c k).pending = s.pending := rfl
@[simp] theorem State.setCore_nextWrite (s : State) (c : Nat) (k : Core) : (s.setCore c k).nextWrite = s.nextWrite := rfl
@[simp] theorem State.setCore_events (s : State) (c : Nat) (k : Core) : (s.setCore c k).events = s.events := rfl
@[simp] theorem State.setCore_evTurn (s : State) (c : Nat) (k : Core) : (s.setCore c k).evTurn = s.evTurn := rfl
@[simp] theorem State.setCore_core (s : State) (c : Nat) (k : Core) : (s.setCore c k).core = s.core := rfl
@[simp] theorem State.setCore_stream (s : State) (c : Nat) (k : Core) : (s.setCore c k).stream = s.stream := rfl
@[simp] theorem State.setCore_freeCount (s : State) (c : Nat) (k : Core) : (s.setCore c k).freeCount = s.freeCount := rfl

@[simp] theorem State.onCore_now (s : State) (c : Nat) (f : Core → Core) : (s.onCore c f).now = s.now := rfl
@[simp] theorem State.onCore_dev (s : State) (c : Nat) (f : Core → Core) : (s.onCore c f).dev = s.dev := rfl
@[simp] theorem State.onCore_parts (s : State) (c : Nat) (f : Core → Core) : (s.onCore c f).parts = s.parts := rfl
@[simp] theorem State.onCore_mem (s : State) (c : Nat) (f : Core → Core) : (s.onCore c f).mem = s.mem := rfl
@[simp] theorem State.onCore_poison (s : State) (c : Nat) (f : Core → Core) : (s.onCore c f).poison = s.poison := rfl
@[simp] theorem State.onCore_dir (s : State) (c : Nat) (f : Core → Core) : (s.onCore c f).dir = s.dir := rfl
@[simp] theorem State.onCore_pending (s : State) (c : Nat) (f : Core → Core) : (s.onCore c f).pending = s.pending := rfl
@[simp] theorem State.onCore_nextWrite (s : State) (c : Nat) (f : Core → Core) : (s.onCore c f).nextWrite = s.nextWrite := rfl
@[simp] theorem State.onCore_events (s : State) (c : Nat) (f : Core → Core) : (s.onCore c f).events = s.events := rfl
@[simp] theorem State.onCore_evTurn (s : State) (c : Nat) (f : Core → Core) : (s.onCore c f).evTurn = s.evTurn := rfl
@[simp] theorem State.onCore_core (s : State) (c : Nat) (f : Core → Core) : (s.onCore c f).core = s.core := rfl
@[simp] theorem State.onCore_stream (s : State) (c : Nat) (f : Core → Core) : (s.onCore c f).stream = s.stream := rfl
@[simp] theorem State.onCore_freeCount (s : State) (c : Nat) (f : Core → Core) : (s.onCore c f).freeCount = s.freeCount := rfl

@[simp] theorem State.setPart_now (s : State) (p : Nat) (x : Partition) : (s.setPart p x).now = s.now := rfl
@[simp] theorem State.setPart_dev (s : State) (p : Nat) (x : Partition) : (s.setPart p x).dev = s.dev := rfl
@[simp] theorem State.setPart_cores (s : State) (p : Nat) (x : Partition) : (s.setPart p x).cores = s.cores := rfl
@[simp] theorem State.setPart_mem (s : State) (p : Nat) (x : Partition) : (s.setPart p x).mem = s.mem := rfl
@[simp] theorem State.setPart_poison (s : State) (p : Nat) (x : Partition) : (s.setPart p x).poison = s.poison := rfl
@[simp] theorem State.setPart_dir (s : State) (p : Nat) (x : Partition) : (s.setPart p x).dir = s.dir := rfl
@[simp] theorem State.setPart_pending (s : State) (p : Nat) (x : Partition) : (s.setPart p x).pending = s.pending := rfl
@[simp] theorem State.setPart_nextWrite (s : State) (p : Nat) (x : Partition) : (s.setPart p x).nextWrite = s.nextWrite := rfl
@[simp] theorem State.setPart_events (s : State) (p : Nat) (x : Partition) : (s.setPart p x).events = s.events := rfl
@[simp] theorem State.setPart_evTurn (s : State) (p : Nat) (x : Partition) : (s.setPart p x).evTurn = s.evTurn := rfl
@[simp] theorem State.setPart_core (s : State) (p : Nat) (x : Partition) : (s.setPart p x).core = s.core := rfl
@[simp] theorem State.setPart_stream (s : State) (p : Nat) (x : Partition) : (s.setPart p x).stream = s.stream := rfl
@[simp] theorem State.setPart_freeCount (s : State) (p : Nat) (x : Partition) : (s.setPart p x).freeCount = s.freeCount := rfl

@[simp] theorem State.onPart_now (s : State) (p : Nat) (f : Partition → Partition) : (s.onPart p f).now = s.now := rfl
@[simp] theorem State.onPart_dev (s : State) (p : Nat) (f : Partition → Partition) : (s.onPart p f).dev = s.dev := rfl
@[simp] theorem State.onPart_cores (s : State) (p : Nat) (f : Partition → Partition) : (s.onPart p f).cores = s.cores := rfl
@[simp] theorem State.onPart_mem (s : State) (p : Nat) (f : Partition → Partition) : (s.onPart p f).mem = s.mem := rfl
@[simp] theorem State.onPart_poison (s : State) (p : Nat) (f : Partition → Partition) : (s.onPart p f).poison = s.poison := rfl
@[simp] theorem State.onPart_dir (s : State) (p : Nat) (f : Partition → Partition) : (s.onPart p f).dir = s.dir := rfl
@[simp] theorem State.onPart_pending (s : State) (p : Nat) (f : Partition → Partition) : (s.onPart p f).pending = s.pending := rfl
@[simp] theorem State.onPart_nextWrite (s : State) (p : Nat) (f : Partition → Partition) : (s.onPart p f).nextWrite = s.nextWrite := rfl
@[simp] theorem State.onPart_events (s : State) (p : Nat) (f : Partition → Partition) : (s.onPart p f).events = s.events := rfl
@[simp] theorem State.onPart_evTurn (s : State) (p : Nat) (f : Partition → Partition) : (s.onPart p f).evTurn = s.evTurn := rfl
@[simp] theorem State.onPart_core (s : State) (p : Nat) (f : Partition → Partition) : (s.onPart p f).core = s.core := rfl
@[simp] theorem State.onPart_stream (s : State) (p : Nat) (f : Partition → Partition) : (s.onPart p f).stream = s.stream := rfl
@[simp] theorem State.onPart_freeCount (s : State) (p : Nat) (f : Partition → Partition) : (s.onPart p f).freeCount = s.freeCount := rfl

@[simp] theorem State.onDev_now (s : State) (f : Device → Device) : (s.onDev f).now = s.now := rfl
@[simp] theorem State.onDev_cores (s : State) (f : Device → Device) : (s.onDev f).cores = s.cores := rfl
@[simp] theorem State.onDev_parts (s : State) (f : Device → Device) : (s.onDev f).parts = s.parts := rfl
@[simp] theorem State.onDev_mem (s : State) (f : Device → Device) : (s.onDev f).mem = s.mem := rfl
@[simp] theorem State.onDev_poison (s : State) (f : Device → Device) : (s.onDev f).poison = s.poison := rfl
@[simp] theorem State.onDev_dir (s : State) (f : Device → Device) : (s.onDev f).dir = s.dir := rfl
@[simp] theorem State.onDev_pending (s : State) (f : Device → Device) : (s.onDev f).pending = s.pending := rfl
@[simp] theorem State.onDev_nextWrite (s : State) (f : Device → Device) : (s.onDev f).nextWrite = s.nextWrite := rfl
@[simp] theorem State.onDev_events (s : State) (f : Device → Device) : (s.onDev f).events = s.events := rfl
@[simp] theorem State.onDev_evTurn (s : State) (f : Device → Device) : (s.onDev f).evTurn = s.evTurn := rfl
@[simp] theorem State.onDev_core (s : State) (f : Device → Device) : (s.onDev f).core = s.core := rfl
@[simp] theorem State.onDev_stream (s : State) (f : Device → Device) : (s.onDev f).stream = s.stream := rfl
@[simp] theorem State.onDev_freeCount (s : State) (f : Device → Device) : (s.onDev f).freeCount = s.freeCount := rfl

@[simp] theorem State.setJob_now (s : State) (p j : Nat) (x : Job) : (s.setJob p j x).now = s.now := rfl
@[simp] theorem State.setJob_dev (s : State) (p j : Nat) (x : Job) : (s.setJob p j x).dev = s.dev := rfl
@[simp] theorem State.setJob_cores (s : State) (p j : Nat) (x : Job) : (s.setJob p j x).cores = s.cores := rfl
@[simp] theorem State.setJob_mem (s : State) (p j : Nat) (x : Job) : (s.setJob p j x).mem = s.mem := rfl
@[simp] theorem State.setJob_poison (s : State) (p j : Nat) (x : Job) : (s.setJob p j x).poison = s.poison := rfl
@[simp] theorem State.setJob_dir (s : State) (p j : Nat) (x : Job) : (s.setJob p j x).dir = s.dir := rfl
@[simp] theorem State.setJob_pending (s : State) (p j : Nat) (x : Job) : (s.setJob p j x).pending = s.pending := rfl
@[simp] theorem State.setJob_nextWrite (s : State) (p j : Nat) (x : Job) : (s.setJob p j x).nextWrite = s.nextWrite := rfl
@[simp] theorem State.setJob_events (s : State) (p j : Nat) (x : Job) : (s.setJob p j x).events = s.events := rfl
@[simp] theorem State.setJob_evTurn (s : State) (p j : Nat) (x : Job) : (s.setJob p j x).evTurn = s.evTurn := rfl
@[simp] theorem State.setJob_core (s : State) (p j : Nat) (x : Job) : (s.setJob p j x).core = s.core := rfl
@[simp] theorem State.setJob_stream (s : State) (p j : Nat) (x : Job) : (s.setJob p j x).stream = s.stream := rfl
@[simp] theorem State.setJob_freeCount (s : State) (p j : Nat) (x : Job) : (s.setJob p j x).freeCount = s.freeCount := rfl

@[simp] theorem State.post_now (s : State) (e : Instr) : (s.post e).now = s.now := rfl
@[simp] theorem State.post_dev (s : State) (e : Instr) : (s.post e).dev = s.dev := rfl
@[simp] theorem State.post_cores (s : State) (e : Instr) : (s.post e).cores = s.cores := rfl
@[simp] theorem State.post_parts (s : State) (e : Instr) : (s.post e).parts = s.parts := rfl
@[simp] theorem State.post_mem (s : State) (e : Instr) : (s.post e).mem = s.mem := rfl
@[simp] theorem State.post_poison (s : State) (e : Instr) : (s.post e).poison = s.poison := rfl
@[simp] theorem State.post_dir (s : State) (e : Instr) : (s.post e).dir = s.dir := rfl
@[simp] theorem State.post_pending (s : State) (e : Instr) : (s.post e).pending = s.pending := rfl
@[simp] theorem State.post_nextWrite (s : State) (e : Instr) : (s.post e).nextWrite = s.nextWrite := rfl
@[simp] theorem State.post_evTurn (s : State) (e : Instr) : (s.post e).evTurn = s.evTurn := rfl
@[simp] theorem State.post_core (s : State) (e : Instr) : (s.post e).core = s.core := rfl
@[simp] theorem State.post_stream (s : State) (e : Instr) : (s.post e).stream = s.stream := rfl
@[simp] theorem State.post_freeCount (s : State) (e : Instr) : (s.post e).freeCount = s.freeCount := rfl

@[simp] theorem State.send_now (s : State) (m : Sent) : (s.send m).now = s.now := rfl
@[simp] theorem State.send_cores (s : State) (m : Sent) : (s.send m).cores = s.cores := rfl
@[simp] theorem State.send_parts (s : State) (m : Sent) : (s.send m).parts = s.parts := rfl
@[simp] theorem State.send_mem (s : State) (m : Sent) : (s.send m).mem = s.mem := rfl
@[simp] theorem State.send_poison (s : State) (m : Sent) : (s.send m).poison = s.poison := rfl
@[simp] theorem State.send_dir (s : State) (m : Sent) : (s.send m).dir = s.dir := rfl
@[simp] theorem State.send_pending (s : State) (m : Sent) : (s.send m).pending = s.pending := rfl
@[simp] theorem State.send_nextWrite (s : State) (m : Sent) : (s.send m).nextWrite = s.nextWrite := rfl
@[simp] theorem State.send_events (s : State) (m : Sent) : (s.send m).events = s.events := rfl
@[simp] theorem State.send_evTurn (s : State) (m : Sent) : (s.send m).evTurn = s.evTurn := rfl
@[simp] theorem State.send_core (s : State) (m : Sent) : (s.send m).core = s.core := rfl
@[simp] theorem State.send_stream (s : State) (m : Sent) : (s.send m).stream = s.stream := rfl
@[simp] theorem State.send_freeCount (s : State) (m : Sent) : (s.send m).freeCount = s.freeCount := rfl


@[simp] theorem State.onEng_now (s : State) (c : Nat) (st : Stream) (f : Engine → Engine) : (s.onEng c st f).now = s.now := rfl
@[simp] theorem State.onEng_dev (s : State) (c : Nat) (st : Stream) (f : Engine → Engine) : (s.onEng c st f).dev = s.dev := rfl
@[simp] theorem State.onEng_parts (s : State) (c : Nat) (st : Stream) (f : Engine → Engine) : (s.onEng c st f).parts = s.parts := rfl
@[simp] theorem State.onEng_mem (s : State) (c : Nat) (st : Stream) (f : Engine → Engine) : (s.onEng c st f).mem = s.mem := rfl
@[simp] theorem State.onEng_poison (s : State) (c : Nat) (st : Stream) (f : Engine → Engine) : (s.onEng c st f).poison = s.poison := rfl
@[simp] theorem State.onEng_dir (s : State) (c : Nat) (st : Stream) (f : Engine → Engine) : (s.onEng c st f).dir = s.dir := rfl
@[simp] theorem State.onEng_pending (s : State) (c : Nat) (st : Stream) (f : Engine → Engine) : (s.onEng c st f).pending = s.pending := rfl
@[simp] theorem State.onEng_nextWrite (s : State) (c : Nat) (st : Stream) (f : Engine → Engine) : (s.onEng c st f).nextWrite = s.nextWrite := rfl
@[simp] theorem State.onEng_events (s : State) (c : Nat) (st : Stream) (f : Engine → Engine) : (s.onEng c st f).events = s.events := rfl
@[simp] theorem State.onEng_evTurn (s : State) (c : Nat) (st : Stream) (f : Engine → Engine) : (s.onEng c st f).evTurn = s.evTurn := rfl
@[simp] theorem State.onEng_core (s : State) (c : Nat) (st : Stream) (f : Engine → Engine) : (s.onEng c st f).core = s.core := rfl
@[simp] theorem State.onEng_stream (s : State) (c : Nat) (st : Stream) (f : Engine → Engine) : (s.onEng c st f).stream = s.stream := rfl
@[simp] theorem State.onEng_freeCount (s : State) (c : Nat) (st : Stream) (f : Engine → Engine) : (s.onEng c st f).freeCount = s.freeCount := rfl

@[simp] theorem State.past_now (s : State) (c : Nat) (st : Stream) (n : Nat) : (s.past c st n).now = s.now := rfl
@[simp] theorem State.past_dev (s : State) (c : Nat) (st : Stream) (n : Nat) : (s.past c st n).dev = s.dev := rfl
@[simp] theorem State.past_parts (s : State) (c : Nat) (st : Stream) (n : Nat) : (s.past c st n).parts = s.parts := rfl
@[simp] theorem State.past_mem (s : State) (c : Nat) (st : Stream) (n : Nat) : (s.past c st n).mem = s.mem := rfl
@[simp] theorem State.past_poison (s : State) (c : Nat) (st : Stream) (n : Nat) : (s.past c st n).poison = s.poison := rfl
@[simp] theorem State.past_dir (s : State) (c : Nat) (st : Stream) (n : Nat) : (s.past c st n).dir = s.dir := rfl
@[simp] theorem State.past_pending (s : State) (c : Nat) (st : Stream) (n : Nat) : (s.past c st n).pending = s.pending := rfl
@[simp] theorem State.past_nextWrite (s : State) (c : Nat) (st : Stream) (n : Nat) : (s.past c st n).nextWrite = s.nextWrite := rfl
@[simp] theorem State.past_events (s : State) (c : Nat) (st : Stream) (n : Nat) : (s.past c st n).events = s.events := rfl
@[simp] theorem State.past_evTurn (s : State) (c : Nat) (st : Stream) (n : Nat) : (s.past c st n).evTurn = s.evTurn := rfl
@[simp] theorem State.past_core (s : State) (c : Nat) (st : Stream) (n : Nat) : (s.past c st n).core = s.core := rfl
@[simp] theorem State.past_stream (s : State) (c : Nat) (st : Stream) (n : Nat) : (s.past c st n).stream = s.stream := rfl
@[simp] theorem State.past_freeCount (s : State) (c : Nat) (st : Stream) (n : Nat) : (s.past c st n).freeCount = s.freeCount := rfl

/-! ## A cycle -/

/-- A cycle in which no core waits on a semaphore, no period of the duty ends and nothing is sampled only counts itself. -/
theorem State.tick_quiet (s : State)
    (hk : State.waitingCores { s with now := s.now + 1 } = [])
    (hd : s.dev.phase = .off ∨ s.now + 1 < s.dev.dutyNext) (hg : (s.now + 1) % 256 ≠ 0) :
    s.tick = { s with now := s.now + 1 } := by
  have h1 : State.dueWaits { s with now := s.now + 1 } = { s with now := s.now + 1 } := by
    unfold State.dueWaits
    rw [hk]
    rfl
  have h2 : State.dutyTurn { s with now := s.now + 1 } = { s with now := s.now + 1 } := by
    unfold State.dutyTurn
    rcases hd with h | h <;> simp [h]
  have h3 : (s.now + 1) % 4096 ≠ 0 := by omega
  have h4 : (s.now + 1) % 65536 ≠ 0 := by omega
  unfold State.tick
  rw [h1, h2]
  simp [State.sampleQueues, State.sampleMisses, State.sampleJunction, hg, h3, h4]

/-! ## Cores -/

@[simp] theorem State.coreAt_setCore (s : State) (c : Nat) (k : Core) : (s.setCore c k).coreAt c = k := by
  simp [State.coreAt, State.setCore]

theorem State.coreAt_setCore_ne (s : State) {c d : Nat} (k : Core) (h : d ≠ c) :
    (s.setCore c k).coreAt d = s.coreAt d := by
  simp [State.coreAt, State.setCore, findD_put_ne _ _ _ h]

@[simp] theorem State.coreAt_onCore (s : State) (c : Nat) (f : Core → Core) :
    (s.onCore c f).coreAt c = f (s.coreAt c) := by
  simp [State.onCore]

theorem State.coreAt_onCore_ne (s : State) {c d : Nat} (f : Core → Core) (h : d ≠ c) :
    (s.onCore c f).coreAt d = s.coreAt d := s.coreAt_setCore_ne _ h

@[simp] theorem State.coreAt_onEng (s : State) (c : Nat) (st : Stream) (f : Engine → Engine) :
    (s.onEng c st f).coreAt c = (s.coreAt c).onEng st f := by
  simp [State.onEng]

@[simp] theorem State.eng_onEng (s : State) (c : Nat) (st : Stream) (f : Engine → Engine) :
    (s.onEng c st f).eng c st = f (s.eng c st) := by
  cases st <;> simp [State.eng, Core.onEng, Core.setEng, Core.eng]

@[simp] theorem State.partAt_setPart (s : State) (p : Nat) (x : Partition) : (s.setPart p x).partAt p = x := by
  simp [State.partAt, State.setPart]

@[simp] theorem State.partAt_onPart (s : State) (p : Nat) (f : Partition → Partition) :
    (s.onPart p f).partAt p = f (s.partAt p) := by
  simp [State.onPart]

@[simp] theorem State.coreAt_onPart (s : State) (p : Nat) (f : Partition → Partition) (c : Nat) :
    (s.onPart p f).coreAt c = s.coreAt c := rfl

@[simp] theorem State.coreAt_onDev (s : State) (f : Device → Device) (c : Nat) : (s.onDev f).coreAt c = s.coreAt c := rfl

@[simp] theorem State.partAt_onCore (s : State) (c p : Nat) (f : Core → Core) : (s.onCore c f).partAt p = s.partAt p := rfl

/-! ## Engines and registers of a core -/

@[simp] theorem Core.eng_setEng (k : Core) (st : Stream) (e : Engine) : (k.setEng st e).eng st = e := by
  cases st <;> rfl

theorem Core.eng_setEng_ne (k : Core) {st st' : Stream} (e : Engine) (h : st' ≠ st) : (k.setEng st e).eng st' = k.eng st' := by
  cases st <;> cases st' <;> first | rfl | exact absurd rfl h

@[simp] theorem Core.setEng_run (k : Core) (st : Stream) (e : Engine) : (k.setEng st e).run = k.run := by cases st <;> rfl
@[simp] theorem Core.setEng_part (k : Core) (st : Stream) (e : Engine) : (k.setEng st e).part = k.part := by cases st <;> rfl
@[simp] theorem Core.setEng_job (k : Core) (st : Stream) (e : Engine) : (k.setEng st e).job = k.job := by cases st <;> rfl
@[simp] theorem Core.setEng_jidx (k : Core) (st : Stream) (e : Engine) : (k.setEng st e).jidx = k.jidx := by cases st <;> rfl
@[simp] theorem Core.setEng_sup (k : Core) (st : Stream) (e : Engine) : (k.setEng st e).sup = k.sup := by cases st <;> rfl
@[simp] theorem Core.setEng_graph (k : Core) (st : Stream) (e : Engine) : (k.setEng st e).graph = k.graph := by cases st <;> rfl
@[simp] theorem Core.setEng_yieldAt (k : Core) (st : Stream) (e : Engine) : (k.setEng st e).yieldAt = k.yieldAt := by cases st <;> rfl
@[simp] theorem Core.setEng_leaveByJend (k : Core) (st : Stream) (e : Engine) : (k.setEng st e).leaveByJend = k.leaveByJend := by cases st <;> rfl
@[simp] theorem Core.setEng_preemptAt (k : Core) (st : Stream) (e : Engine) : (k.setEng st e).preemptAt = k.preemptAt := by cases st <;> rfl
@[simp] theorem Core.setEng_mStop (k : Core) (st : Stream) (e : Engine) : (k.setEng st e).mStop = k.mStop := by cases st <;> rfl
@[simp] theorem Core.setEng_trapped (k : Core) (st : Stream) (e : Engine) : (k.setEng st e).trapped = k.trapped := by cases st <;> rfl
@[simp] theorem Core.setEng_bndV (k : Core) (st : Stream) (e : Engine) : (k.setEng st e).bndV = k.bndV := by cases st <;> rfl
@[simp] theorem Core.setEng_bndS (k : Core) (st : Stream) (e : Engine) : (k.setEng st e).bndS = k.bndS := by cases st <;> rfl
@[simp] theorem Core.setEng_bndP (k : Core) (st : Stream) (e : Engine) : (k.setEng st e).bndP = k.bndP := by cases st <;> rfl
@[simp] theorem Core.setEng_basin (k : Core) (st : Stream) (e : Engine) : (k.setEng st e).basin = k.basin := by cases st <;> rfl
@[simp] theorem Core.setEng_basinBad (k : Core) (st : Stream) (e : Engine) : (k.setEng st e).basinBad = k.basinBad := by cases st <;> rfl
@[simp] theorem Core.setEng_sreg (k : Core) (st : Stream) (e : Engine) : (k.setEng st e).sreg = k.sreg := by cases st <;> rfl
@[simp] theorem Core.setEng_sregBad (k : Core) (st : Stream) (e : Engine) : (k.setEng st e).sregBad = k.sregBad := by cases st <;> rfl
@[simp] theorem Core.setEng_pantryBad (k : Core) (st : Stream) (e : Engine) : (k.setEng st e).pantryBad = k.pantryBad := by cases st <;> rfl
@[simp] theorem Core.setEng_preds (k : Core) (st : Stream) (e : Engine) : (k.setEng st e).preds = k.preds := by cases st <;> rfl
@[simp] theorem Core.setEng_fwd (k : Core) (st : Stream) (e : Engine) : (k.setEng st e).fwd = k.fwd := by cases st <;> rfl
@[simp] theorem Core.setEng_back (k : Core) (st : Stream) (e : Engine) : (k.setEng st e).back = k.back := by cases st <;> rfl
@[simp] theorem Core.setEng_sq (k : Core) (st : Stream) (e : Engine) : (k.setEng st e).sq = k.sq := by cases st <;> rfl
@[simp] theorem Core.setEng_rq (k : Core) (st : Stream) (e : Engine) : (k.setEng st e).rq = k.rq := by cases st <;> rfl
@[simp] theorem Core.setEng_mail (k : Core) (st : Stream) (e : Engine) : (k.setEng st e).mail = k.mail := by cases st <;> rfl
@[simp] theorem Core.setEng_acc (k : Core) (st : Stream) (e : Engine) : (k.setEng st e).acc = k.acc := by cases st <;> rfl
@[simp] theorem Core.setEng_replays (k : Core) (st : Stream) (e : Engine) : (k.setEng st e).replays = k.replays := by cases st <;> rfl
@[simp] theorem Core.setEng_asat (k : Core) (st : Stream) (e : Engine) : (k.setEng st e).asat = k.asat := by cases st <;> rfl
@[simp] theorem Core.setEng_pantry (k : Core) (st : Stream) (e : Engine) : (k.setEng st e).pantry = k.pantry := by cases st <;> rfl
@[simp] theorem Core.setEng_vsh (k : Core) (st : Stream) (e : Engine) : (k.setEng st e).vsh = k.vsh := by cases st <;> rfl
@[simp] theorem Core.setEng_masks (k : Core) (st : Stream) (e : Engine) : (k.setEng st e).masks = k.masks := by cases st <;> rfl
@[simp] theorem Core.setEng_rsvdWr (k : Core) (st : Stream) (e : Engine) : (k.setEng st e).rsvdWr = k.rsvdWr := by cases st <;> rfl
@[simp] theorem Core.setEng_tokwd (k : Core) (st : Stream) (e : Engine) : (k.setEng st e).tokwd = k.tokwd := by cases st <;> rfl
@[simp] theorem Core.setEng_tvecAddr (k : Core) (st : Stream) (e : Engine) : (k.setEng st e).tvecAddr = k.tvecAddr := by cases st <;> rfl
@[simp] theorem Core.setEng_tvecEn (k : Core) (st : Stream) (e : Engine) : (k.setEng st e).tvecEn = k.tvecEn := by cases st <;> rfl
@[simp] theorem Core.setEng_thnd (k : Core) (st : Stream) (e : Engine) : (k.setEng st e).thnd = k.thnd := by cases st <;> rfl
@[simp] theorem Core.setEng_kbase (k : Core) (st : Stream) (e : Engine) : (k.setEng st e).kbase = k.kbase := by cases st <;> rfl
@[simp] theorem Core.setEng_lkahead (k : Core) (st : Stream) (e : Engine) : (k.setEng st e).lkahead = k.lkahead := by cases st <;> rfl
@[simp] theorem Core.setEng_lkAt (k : Core) (st : Stream) (e : Engine) : (k.setEng st e).lkAt = k.lkAt := by cases st <;> rfl
@[simp] theorem Core.setEng_dom (k : Core) (st : Stream) (e : Engine) : (k.setEng st e).dom = k.dom := by cases st <;> rfl
@[simp] theorem Core.setEng_cdelay (k : Core) (st : Stream) (e : Engine) : (k.setEng st e).cdelay = k.cdelay := by cases st <;> rfl
@[simp] theorem Core.setEng_trapRec (k : Core) (st : Stream) (e : Engine) : (k.setEng st e).trapRec = k.trapRec := by cases st <;> rfl
@[simp] theorem Core.setEng_cutPc (k : Core) (st : Stream) (e : Engine) : (k.setEng st e).cutPc = k.cutPc := by cases st <;> rfl
@[simp] theorem Core.setEng_cutSeq (k : Core) (st : Stream) (e : Engine) : (k.setEng st e).cutSeq = k.cutSeq := by cases st <;> rfl
@[simp] theorem Core.setEng_cutKwait (k : Core) (st : Stream) (e : Engine) : (k.setEng st e).cutKwait = k.cutKwait := by cases st <;> rfl
@[simp] theorem Core.setEng_cutLoop0 (k : Core) (st : Stream) (e : Engine) : (k.setEng st e).cutLoop0 = k.cutLoop0 := by cases st <;> rfl
@[simp] theorem Core.setEng_cutLoop1 (k : Core) (st : Stream) (e : Engine) : (k.setEng st e).cutLoop1 = k.cutLoop1 := by cases st <;> rfl
@[simp] theorem Core.setEng_stopping (k : Core) (st : Stream) (e : Engine) : (k.setEng st e).stopping = k.stopping := by cases st <;> rfl
@[simp] theorem Core.setEng_kept (k : Core) (st : Stream) (e : Engine) : (k.setEng st e).kept = k.kept := by cases st <;> rfl
@[simp] theorem Core.setEng_kwait (k : Core) (st : Stream) (e : Engine) : (k.setEng st e).kwait = k.kwait := by cases st <;> rfl
@[simp] theorem Core.setEng_dpaddr (k : Core) (st : Stream) (e : Engine) : (k.setEng st e).dpaddr = k.dpaddr := by cases st <;> rfl
@[simp] theorem Core.setEng_dpent0 (k : Core) (st : Stream) (e : Engine) : (k.setEng st e).dpent0 = k.dpent0 := by cases st <;> rfl
@[simp] theorem Core.setEng_dpent1 (k : Core) (st : Stream) (e : Engine) : (k.setEng st e).dpent1 = k.dpent1 := by cases st <;> rfl
@[simp] theorem Core.setEng_probing (k : Core) (st : Stream) (e : Engine) : (k.setEng st e).probing = k.probing := by cases st <;> rfl
@[simp] theorem Core.setEng_gauges (k : Core) (st : Stream) (e : Engine) : (k.setEng st e).gauges = k.gauges := by cases st <;> rfl
@[simp] theorem Core.setEng_freezeFrom (k : Core) (st : Stream) (e : Engine) : (k.setEng st e).freezeFrom = k.freezeFrom := by cases st <;> rfl
@[simp] theorem Core.setEng_freezeEnd (k : Core) (st : Stream) (e : Engine) : (k.setEng st e).freezeEnd = k.freezeEnd := by cases st <;> rfl
@[simp] theorem Core.setEng_residue (k : Core) (st : Stream) (e : Engine) : (k.setEng st e).residue = k.residue := by cases st <;> rfl
@[simp] theorem Core.setEng_fatal (k : Core) (st : Stream) (e : Engine) : (k.setEng st e).fatal = k.fatal := by cases st <;> rfl
@[simp] theorem Core.setEng_guesses (k : Core) (st : Stream) (e : Engine) : (k.setEng st e).guesses = k.guesses := by cases st <;> rfl
@[simp] theorem Core.setEng_misses (k : Core) (st : Stream) (e : Engine) : (k.setEng st e).misses = k.misses := by cases st <;> rfl
@[simp] theorem Core.setEng_copies (k : Core) (st : Stream) (e : Engine) : (k.setEng st e).copies = k.copies := by cases st <;> rfl
@[simp] theorem Core.setEng_evicting (k : Core) (st : Stream) (e : Engine) : (k.setEng st e).evicting = k.evicting := by cases st <;> rfl
@[simp] theorem Core.setEng_stores (k : Core) (st : Stream) (e : Engine) : (k.setEng st e).stores = k.stores := by cases st <;> rfl
@[simp] theorem Core.setEng_granted (k : Core) (st : Stream) (e : Engine) : (k.setEng st e).granted = k.granted := by cases st <;> rfl
@[simp] theorem Core.setEng_tlbLW (k : Core) (st : Stream) (e : Engine) : (k.setEng st e).tlbLW = k.tlbLW := by cases st <;> rfl
@[simp] theorem Core.setEng_tlbS (k : Core) (st : Stream) (e : Engine) : (k.setEng st e).tlbS = k.tlbS := by cases st <;> rfl

@[simp] theorem Core.onEng_s (k : Core) (st : Stream) (f : Engine → Engine) (n : Fin 32) : (k.onEng st f).s n = k.s n := by
  cases st <;> rfl

@[simp] theorem Core.onEng_p (k : Core) (st : Stream) (f : Engine → Engine) (n : Fin 8) : (k.onEng st f).p n = k.p n := by
  cases st <;> rfl

@[simp] theorem Core.s_zero (k : Core) : k.s 0 = 0 := rfl

@[simp] theorem Core.setS_zero (k : Core) (v : DWord) : k.setS 0 v = k := rfl

theorem Core.s_setS (k : Core) {n : Fin 32} (v : DWord) (h : n ≠ 0) : (k.setS n v).s n = v := by
  simp [Core.s, Core.setS, h]

theorem Core.s_setS_ne (k : Core) {n m : Fin 32} (v : DWord) (h : m ≠ n) : (k.setS n v).s m = k.s m := by
  unfold Core.s Core.setS
  split
  · rfl
  · split
    · rfl
    · exact findD_put_ne _ _ _ (by simpa [Fin.ext_iff] using h)

@[simp] theorem Core.p_zero (k : Core) : k.p 0 = true := rfl

@[simp] theorem Core.setP_zero (k : Core) (b : Bool) : k.setP 0 b = k := rfl

@[simp] theorem Engine.g_zero (e : Engine) : e.g 0 = true := rfl

@[simp] theorem Engine.past_pc (e : Engine) (n : Nat) : (e.past n).pc = e.pc + n := rfl

@[simp] theorem Engine.past_seq (e : Engine) (n : Nat) : (e.past n).seq = (e.seq + 1) % 2 ^ 48 := rfl

@[simp] theorem Engine.past_img (e : Engine) (n : Nat) : (e.past n).img = e.img := rfl
@[simp] theorem Engine.past_bad (e : Engine) (n : Nat) : (e.past n).bad = e.bad := rfl
@[simp] theorem Engine.past_halted (e : Engine) (n : Nat) : (e.past n).halted = e.halted := rfl
@[simp] theorem Engine.past_ret (e : Engine) (n : Nat) : (e.past n).ret = e.ret := rfl
@[simp] theorem Engine.past_regsBad (e : Engine) (n : Nat) : (e.past n).regsBad = e.regsBad := rfl
@[simp] theorem Engine.past_drain (e : Engine) (n : Nat) : (e.past n).drain = e.drain := rfl
@[simp] theorem Engine.past_walks (e : Engine) (n : Nat) : (e.past n).walks = e.walks := rfl
@[simp] theorem Engine.past_early (e : Engine) (n : Nat) : (e.past n).early = e.early := rfl
@[simp] theorem Engine.past_twins (e : Engine) (n : Nat) : (e.past n).twins = e.twins := rfl
@[simp] theorem Engine.past_gs (e : Engine) (n : Nat) : (e.past n).gs = e.gs := rfl
@[simp] theorem Engine.past_gp (e : Engine) (n : Nat) : (e.past n).gp = e.gp := rfl
@[simp] theorem Engine.past_givePc (e : Engine) (n : Nat) : (e.past n).givePc = e.givePc := rfl
@[simp] theorem Engine.past_giveSeq (e : Engine) (n : Nat) : (e.past n).giveSeq = e.giveSeq := rfl
@[simp] theorem Engine.past_giveOps (e : Engine) (n : Nat) : (e.past n).giveOps = e.giveOps := rfl
@[simp] theorem Engine.past_guards (e : Engine) (n : Nat) : (e.past n).guards = e.guards := rfl
@[simp] theorem Engine.past_loop0 (e : Engine) (n : Nat) : (e.past n).loop0 = e.loop0 := rfl
@[simp] theorem Engine.past_loop1 (e : Engine) (n : Nat) : (e.past n).loop1 = e.loop1 := rfl
@[simp] theorem Engine.past_q (e : Engine) (n : Nat) : (e.past n).q = e.q := rfl
@[simp] theorem Engine.past_wait (e : Engine) (n : Nat) : (e.past n).wait = none := rfl
@[simp] theorem Engine.past_issued (e : Engine) (n : Nat) : (e.past n).issued = false := rfl
@[simp] theorem Engine.past_wordF (e : Engine) (n : Nat) : (e.past n).wordF = 0 := rfl
@[simp] theorem Engine.past_wordB (e : Engine) (n : Nat) : (e.past n).wordB = 0 := rfl
@[simp] theorem Engine.past_got (e : Engine) (n : Nat) : (e.past n).got = [] := rfl

end Sys2Proof.Machine
end

