-- ==== Sys2Proof/Laws/Ops.lean ====
section
/-! SUPPORT. What the shared operations can do, said once each: passing a word, the frames `runS` and `runToken` in which
words run, branches, queues, and taking a trap. -/

namespace Sys2Proof.Machine

/-! ## Composition of updates -/

theorem put_put {α : Type} (m : Store α) (k : Nat) (x y : α) : put (put m k x) k y = put m k y := by
  induction m with
  | nil => simp [put]
  | cons e m ih =>
    obtain ⟨a, z⟩ := e
    by_cases h : a = k
    · simp [put, h]
    · by_cases g : k < a
      · simp [put, h, g]
      · simp [put, h, g, ih]

@[simp] theorem State.setCore_setCore (s : State) (c : Nat) (k l : Core) : (s.setCore c k).setCore c l = s.setCore c l := by
  simp [State.setCore, put_put]

@[simp] theorem State.onCore_setCore (s : State) (c : Nat) (k : Core) (f : Core → Core) :
    (s.setCore c k).onCore c f = s.setCore c (f k) := by
  simp [State.onCore]

@[simp] theorem State.onCore_onCore (s : State) (c : Nat) (f g : Core → Core) :
    (s.onCore c f).onCore c g = s.onCore c fun k => g (f k) := by
  simp [State.onCore]

theorem State.onEng_eq (s : State) (c : Nat) (st : Stream) (f : Engine → Engine) :
    s.onEng c st f = s.onCore c fun k => k.onEng st f := rfl

@[simp] theorem Core.setEng_setEng (k : Core) (st : Stream) (e e' : Engine) : (k.setEng st e).setEng st e' = k.setEng st e' := by
  cases st <;> rfl

@[simp] theorem Core.onEng_onEng (k : Core) (st : Stream) (f g : Engine → Engine) :
    (k.onEng st f).onEng st g = k.onEng st fun e => g (f e) := by
  cases st <;> rfl

@[simp] theorem Core.eng_onEng (k : Core) (st : Stream) (f : Engine → Engine) : (k.onEng st f).eng st = f (k.eng st) := by
  cases st <;> rfl

/-! ## Passing a word (R193, R236) -/

@[simp] theorem State.coreAt_past (s : State) (c : Nat) (st : Stream) (n : Nat) :
    (s.past c st n).coreAt c = (s.coreAt c).onEng st fun e => e.past n := by
  simp [State.past]

theorem State.coreAt_past_ne (s : State) {c d : Nat} (st : Stream) (n : Nat) (h : d ≠ c) :
    (s.past c st n).coreAt d = s.coreAt d := State.coreAt_onCore_ne s _ h

@[simp] theorem State.eng_past (s : State) (c : Nat) (st : Stream) (n : Nat) :
    (s.past c st n).eng c st = (s.eng c st).past n := by
  simp [State.past]

@[simp] theorem State.wordPc_past (s : State) (c : Nat) (st : Stream) : (s.past c st 4).wordPc c st = (s.eng c st).pc := by
  simp [State.wordPc]

/-! ## S words (R95) -/

@[simp] theorem finish_ok (s : State) (c : Nat) (st : Stream) (ops : List DWord) (t : State) :
    finish s c st ops (.ok t) = .next t := rfl

@[simp] theorem finish_error (s : State) (c : Nat) (st : Stream) (ops : List DWord) (x : Stop) :
    finish s c st ops (.error x) = .next (s.stopAt c st ops x) := rfl

theorem runS_holds {p : Pr} {ops : Core → List DWord} {body : Nat → State → Res State} {s : State}
    (h : (s.coreAt s.core).p p.r ≠ p.neg) :
    runS p ops body s = finish s s.core .S (ops (s.coreAt s.core)) (body s.core (s.past s.core .S 4)) := by
  simp [runS, h]

theorem runS_false {p : Pr} {ops : Core → List DWord} {body : Nat → State → Res State} {s : State}
    (h : ¬ (s.coreAt s.core).p p.r ≠ p.neg) : runS p ops body s = .next (s.past s.core .S 4) := by
  simp only [ne_eq, Decidable.not_not] at h
  simp [runS, h]

/-- Everything an S word can do: pass without effect, retire with its body's state, or stop. -/
theorem runS_cases {p : Pr} {ops : Core → List DWord} {body : Nat → State → Res State} {s t : State}
    (h : runS p ops body s = .next t) :
    ((s.coreAt s.core).p p.r = p.neg ∧ t = s.past s.core .S 4) ∨
    ((s.coreAt s.core).p p.r ≠ p.neg ∧ body s.core (s.past s.core .S 4) = .ok t) ∨
    ∃ x, (s.coreAt s.core).p p.r ≠ p.neg ∧ body s.core (s.past s.core .S 4) = .error x ∧
      t = s.stopAt s.core .S (ops (s.coreAt s.core)) x := by
  by_cases g : (s.coreAt s.core).p p.r = p.neg
  · rw [runS_false (by simpa using g)] at h
    cases h
    exact .inl ⟨g, rfl⟩
  · rw [runS_holds g] at h
    cases hb : body s.core (s.past s.core .S 4) with
    | ok u => rw [hb] at h; cases h; exact .inr (.inl ⟨g, rfl⟩)
    | error x => rw [hb] at h; cases h; exact .inr (.inr ⟨x, g, rfl, rfl⟩)

/-- An S word always answers a next state. -/
theorem runS_next (p : Pr) (ops : Core → List DWord) (body : Nat → State → Res State) (s : State) :
    ∃ t, runS p ops body s = .next t := by
  by_cases g : (s.coreAt s.core).p p.r ≠ p.neg
  · rw [runS_holds g]
    cases body s.core (s.past s.core .S 4) <;> exact ⟨_, rfl⟩
  · exact ⟨_, runS_false g⟩

/-! ## Words of the engine streams (R84, R90, R94) -/

/-- A word whose tokens are there, in FIFOs that no error has struck, takes them. -/
theorem Core.takeStop_none {k : Core} {st : Stream} {t : Tok} (h : k.tokenStop st t = none)
    (hf : RegUnit.fifos ∉ (k.eng st).regsBad) : k.takeStop st t = none := by
  unfold Core.takeStop
  split
  · rfl
  · simp [h, hf]

theorem Core.takeStop_issued {k : Core} {st : Stream} (t : Tok) (h : (k.eng st).issued = true) : k.takeStop st t = none := by
  simp [Core.takeStop, h]

/-- A stop while the word is to take its tokens leaves them where they are. -/
theorem runToken_stops {st : Stream} {t : Tok} {guard : Bool} {n : Nat} {ahead : Option Nat} {ops : List DWord}
    {body : Nat → State → Res State} {s : State} {x : Stop} (h : (s.coreAt s.core).takeStop st t = some x) :
    runToken st t guard n ahead ops body s = .next (s.stopAt s.core st ops x) := by
  simp [runToken, h]

theorem runToken_false {st : Stream} {t : Tok} {n : Nat} {ahead : Option Nat} {ops : List DWord}
    {body : Nat → State → Res State} {s : State} (h : (s.coreAt s.core).takeStop st t = none)
    (hs : (s.eng s.core st).spec = []) :
    runToken st t false n ahead ops body s =
      .next (((s.setCore s.core ((s.coreAt s.core).takeTokens st t)).past s.core st n).onCore s.core fun k =>
        k.giveTokens st t (s.eng s.core st).pc (s.eng s.core st).seq ops) := by
  simp only [State.eng] at hs
  simp [runToken, h, hs, Engine.aheadStop, State.eng]

theorem runToken_ok {st : Stream} {t : Tok} {n : Nat} {ahead : Option Nat} {ops : List DWord}
    {body : Nat → State → Res State} {s u : State} (h : (s.coreAt s.core).takeStop st t = none)
    (hs : (s.eng s.core st).spec = [])
    (hb : body s.core ((s.setCore s.core ((s.coreAt s.core).takeTokens st t)).past s.core st n) = .ok u) :
    runToken st t true n ahead ops body s =
      .next (u.onCore s.core fun k => k.giveTokens st t (s.eng s.core st).pc (s.eng s.core st).seq ops) := by
  simp only [State.eng] at hs
  simp [runToken, h, hs, hb, Engine.aheadStop, State.eng]

/-- A stop of its body stops a word that has taken its tokens. -/
theorem runToken_error {st : Stream} {t : Tok} {n : Nat} {ahead : Option Nat} {ops : List DWord}
    {body : Nat → State → Res State} {s : State} {x : Stop} (h : (s.coreAt s.core).takeStop st t = none)
    (hs : (s.eng s.core st).spec = [])
    (hb : body s.core ((s.setCore s.core ((s.coreAt s.core).takeTokens st t)).past s.core st n) = .error x) :
    runToken st t true n ahead ops body s =
      .next ((s.setCore s.core ((s.coreAt s.core).takeTokens st t)).stopAt s.core st ops x) := by
  simp only [State.eng] at hs
  simp [runToken, h, hs, hb, Engine.aheadStop]

/-- A word of an engine stream always answers a next state. -/
theorem runToken_next (st : Stream) (t : Tok) (guard : Bool) (n : Nat) (ahead : Option Nat) (ops : List DWord)
    (body : Nat → State → Res State) (s : State) : ∃ u, runToken st t guard n ahead ops body s = .next u := by
  simp only [runToken]
  split
  · exact ⟨_, rfl⟩
  · split
    · exact ⟨_, rfl⟩
    · split
      · split <;> exact ⟨_, rfl⟩
      · exact ⟨_, rfl⟩

/-! ## Branches (R236) -/

theorem branchTo_ok {c : Nat} {st : Stream} {z : Int} {s : State} (h0 : 0 ≤ z) (h1 : z < 65536) :
    branchTo c st z s = .ok (s.onEng c st fun e => { e with pc := z.toNat }) := by
  simp [branchTo, h0, h1]

theorem branchTo_out {c : Nat} {st : Stream} {z : Int} {s : State} (h : z < 0 ∨ 65536 ≤ z) :
    branchTo c st z s = trap cFetch (BitVec.ofInt 64 z) := by
  simp only [branchTo]
  rw [if_neg]
  simp only [Bool.and_eq_true, decide_eq_true_eq]
  omega

/-! ## Checks and queues -/

@[simp] theorem check_true (code : Nat) (val : DWord) : check true code val = .ok () := rfl

@[simp] theorem check_false (code : Nat) (val : DWord) : check false code val = trap code val := rfl

/-- A scalar queue takes an entry while it holds fewer than 64 (R86). -/
theorem State.putScalar_ok {s : State} {c i : Nat} {v : DWord} (h : ((s.coreAt c).sqAt i).length < 64) :
    s.putScalar c i v = .ok (s.setCore c { s.coreAt c with sq := put (s.coreAt c).sq i ((s.coreAt c).sqAt i ++ [v]) }) := by
  simp only [State.putScalar]
  rw [if_neg (by omega)]

theorem State.takeScalar_ok {s : State} {c : Nat} {st : Stream} {v : DWord} {vs : List DWord}
    (h : (s.coreAt c).sqAt (queueOf st) = v :: vs) (hq : RegUnit.queues ∉ ((s.coreAt c).eng st).regsBad) :
    s.takeScalar c st = .ok (s.setCore c { s.coreAt c with sq := put (s.coreAt c).sq (queueOf st) vs }, v) := by
  have e : check (!((s.coreAt c).eng st).regsBad.contains .queues) cPoison 0 = .ok () := by simp [hq]
  simp only [State.takeScalar, h, Core.queueClean, e]
  rfl

theorem State.takeScalar_empty {s : State} {c : Nat} {st : Stream} (h : (s.coreAt c).sqAt (queueOf st) = []) :
    s.takeScalar c st = .error (.wait 4) := by
  simp [State.takeScalar, h]

end Sys2Proof.Machine
end

