-- ==== Sys2Proof/Laws/Directory.lean ====
section
/-! SUPPORT. What the directory's operations leave alone, said once: whatever arrives about lines changes the lines of plain
memory, the copies, buffers and grants of cores, what is pending and what is in flight, and nothing else. -/

namespace Sys2Proof.Machine

/-- A core that differs from another only in its lines: its copies, its buffered stores, its grants and its buffers. -/
def Core.SameBut (k l : Core) : Prop :=
  l = { k with copies := l.copies, stores := l.stores, granted := l.granted, evicting := l.evicting }

theorem Core.SameBut.refl (k : Core) : k.SameBut k := rfl

theorem Core.SameBut.trans {k l m : Core} (h : k.SameBut l) (g : l.SameBut m) : k.SameBut m := by
  unfold Core.SameBut at *
  exact g.trans (by rw [h])

/-- A state that differs from another only in what concerns lines: memory and its poison, the directory, the lines of its
cores, the NOTIFY numbers that stores clear, what is pending and what is in flight. -/
structure State.LinesOnly (s t : State) : Prop where
  now : t.now = s.now
  parts : t.parts = s.parts
  turn : t.evTurn = s.evTurn ∧ t.core = s.core ∧ t.stream = s.stream
  freeCount : t.freeCount = s.freeCount
  dev : t.dev = { s.dev with notifySeq := t.dev.notifySeq }
  cores : ∀ c, (s.coreAt c).SameBut (t.coreAt c)

namespace State.LinesOnly

theorem refl (s : State) : s.LinesOnly s := ⟨rfl, rfl, ⟨rfl, rfl, rfl⟩, rfl, rfl, fun _ => rfl⟩

theorem trans {s t u : State} (h : s.LinesOnly t) (g : t.LinesOnly u) : s.LinesOnly u where
  now := g.now.trans h.now
  parts := g.parts.trans h.parts
  turn := ⟨g.turn.1.trans h.turn.1, g.turn.2.1.trans h.turn.2.1, g.turn.2.2.trans h.turn.2.2⟩
  freeCount := g.freeCount.trans h.freeCount
  dev := g.dev.trans (by rw [h.dev])
  cores c := (h.cores c).trans (g.cores c)

theorem onCore (s : State) (c : Nat) {f : Core → Core} (h : ∀ k : Core, k.SameBut (f k)) : s.LinesOnly (s.onCore c f) where
  now := rfl
  parts := rfl
  turn := ⟨rfl, rfl, rfl⟩
  freeCount := rfl
  dev := rfl
  cores d := by
    by_cases e : d = c
    · subst e; simpa using h _
    · rw [State.coreAt_onCore_ne s f e]; exact Core.SameBut.refl _

theorem setDir (s : State) (l : Nat) (d : DirEntry) : s.LinesOnly (s.setDir l d) :=
  ⟨rfl, rfl, ⟨rfl, rfl, rfl⟩, rfl, rfl, fun _ => rfl⟩

theorem setMode (s : State) (l : Nat) (m : DirMode) : s.LinesOnly (s.setMode l m) := setDir _ _ _

theorem post (s : State) (e : Instr) : s.LinesOnly (s.post e) :=
  ⟨rfl, rfl, ⟨rfl, rfl, rfl⟩, rfl, rfl, fun _ => rfl⟩

theorem withMem (s : State) (m : Mem) : s.LinesOnly { s with mem := m } :=
  ⟨rfl, rfl, ⟨rfl, rfl, rfl⟩, rfl, rfl, fun _ => rfl⟩

theorem accepted (s : State) (r : HomeReq) : s.LinesOnly (s.accepted r) := by
  unfold State.accepted
  split <;> exact ⟨rfl, rfl, ⟨rfl, rfl, rfl⟩, rfl, rfl, fun _ => rfl⟩

theorem performed (s : State) (r : HomeReq) : s.LinesOnly (s.performed r) := by
  unfold State.performed
  split <;> exact ⟨rfl, rfl, ⟨rfl, rfl, rfl⟩, rfl, rfl, fun _ => rfl⟩

theorem noteStore (s : State) (pa n : Nat) : s.LinesOnly (s.noteStore pa n) :=
  ⟨rfl, rfl, ⟨rfl, rfl, rfl⟩, rfl, rfl, fun _ => rfl⟩

theorem mergeAtHome (s : State) (l : Nat) (k : Copy) : s.LinesOnly (s.mergeAtHome l k) :=
  ⟨rfl, rfl, ⟨rfl, rfl, rfl⟩, rfl, rfl, fun _ => rfl⟩

theorem foldl {α : Type} {f : State → α → State} (h : ∀ (s : State) (a : α), s.LinesOnly (f s a)) (l : List α) (s : State) :
    s.LinesOnly (l.foldl f s) := by
  induction l generalizing s with
  | nil => exact refl s
  | cons a l ih => exact (h s a).trans (ih _)

theorem install (s : State) (c l : Nat) (k : CopyKind) : s.LinesOnly (s.install c l k) := by
  unfold State.install
  exact onCore _ _ fun _ => by exact rfl

theorem landWords (s : State) (l : Nat) (m : BitVec 32) : s.LinesOnly (s.landWords l m) := by
  unfold State.landWords
  simp only
  split
  · exact refl s
  · exact ⟨rfl, rfl, ⟨rfl, rfl, rfl⟩, rfl, rfl, fun _ => rfl⟩

theorem landReplies (s : State) (l : Nat) : s.LinesOnly (s.landReplies l) := landWords _ _ _

theorem disown (s : State) (l d : Nat) (keep : Bool) : s.LinesOnly (s.disown l d keep) := by
  unfold State.disown
  simp only
  refine (landReplies s l).trans ?_
  split
  · exact ((mergeAtHome _ _ _).trans (onCore _ _ fun _ => by exact rfl)).trans (setMode _ _ _)
  · exact setMode _ _ _

theorem recalled (s : State) (l d : Nat) : s.LinesOnly (s.recall l d) := disown _ _ _ _

theorem downgrade (s : State) (l d : Nat) : s.LinesOnly (s.downgrade l d) := disown _ _ _ _

theorem recallOwner (s : State) (l : Nat) : s.LinesOnly (s.recallOwner l) := by
  unfold State.recallOwner
  split
  · exact recalled _ _ _
  · exact refl s

theorem downgradeOwner (s : State) (l : Nat) : s.LinesOnly (s.downgradeOwner l) := by
  unfold State.downgradeOwner
  split
  · exact downgrade _ _ _
  · exact refl s

theorem follow (s : State) (r : HomeReq) (bs : List Byte) : s.LinesOnly (s.follow r bs) := by
  unfold State.follow
  split
  · exact refl s
  · exact onCore _ _ fun _ => by exact rfl

theorem noteRequest (s : State) (r : HomeReq) (n : Nat) : s.LinesOnly (s.noteRequest r n) := by
  unfold State.noteRequest
  simp only
  split
  · exact ⟨rfl, rfl, ⟨rfl, rfl, rfl⟩, rfl, rfl, fun _ => rfl⟩
  · exact refl s

theorem writeCopy (s : State) (d l off : Nat) (k : Copy) (bs : List Byte) : s.LinesOnly (s.writeCopy d l off k bs) :=
  onCore _ _ fun _ => by exact rfl

theorem perform (s : State) (r : HomeReq) : s.LinesOnly (s.perform r) := by
  unfold State.perform
  simp only
  refine trans ?_ (performed _ _)
  split
  · split
    · exact refl s
    · exact (writeCopy _ _ _ _ _ _).trans (noteRequest _ _ _)
  · refine (landWords s r.line (touches r.kind)).trans ?_
    split
    · exact refl _
    · exact ((withMem _ _).trans (follow _ _ _)).trans (noteRequest _ _ _)

theorem grant (s : State) (c : Nat) (r : HomeReq) : s.LinesOnly (s.grant c r) := (onCore _ _ fun _ => by exact rfl).trans (post _ _)

theorem deliver (s : State) (c l : Nat) : s.LinesOnly (s.deliver c l) := by
  unfold State.deliver
  split
  · exact refl s
  · rename_i r _
    simp only
    refine (onCore s c (f := fun k => { k with granted := k.granted.erase r }) fun _ => by exact rfl).trans ?_
    split
    · refine trans ?_ (perform _ _)
      split
      · exact refl _
      · split
        · exact (landReplies _ _).trans (install _ _ _ _)
        · exact install _ _ _ _
    · split
      · exact refl _
      · split
        · exact (landReplies _ _).trans (install _ _ _ _)
        · exact install _ _ _ _

theorem deliverTo (s : State) (l c : Nat) : s.LinesOnly (s.deliverTo l c) := foldl (fun _ _ => deliver _ _ _) _ _

theorem dropAt (s : State) (l c : Nat) : s.LinesOnly (s.dropAt l c) := (deliverTo s l c).trans (onCore _ _ fun _ => by exact rfl)

theorem invalidate (s : State) (l : Nat) (req : Option Nat) : s.LinesOnly (s.invalidate l req) :=
  foldl (fun _ _ => dropAt _ _ _) _ _

theorem finishBusy (s : State) (l : Nat) : s.LinesOnly (s.finishBusy l) := by
  unfold State.finishBusy
  split
  · exact refl s
  · simp only
    refine (recallOwner s l).trans ?_
    split
    · split
      · exact ((setDir _ _ _).trans (setMode _ _ _)).trans (grant _ _ _)
      · split
        · exact ((setDir _ _ _).trans (setMode _ _ _)).trans (perform _ _)
        · exact ((setDir _ _ _).trans (setMode _ _ _)).trans (grant _ _ _)
    · split
      · exact ((setDir _ _ _).trans (setMode _ _ _)).trans (perform _ _)
      · exact setDir _ _ _

theorem beginRound (s : State) (r : HomeReq) : s.LinesOnly (s.beginRound r) := by
  unfold State.beginRound
  simp only
  split
  · exact (setDir _ _ _).trans (finishBusy _ _)
  · exact (setDir _ _ _).trans (foldl (fun _ _ => post _ _) _ _)

theorem beginForward (s : State) (r : HomeReq) (d : Nat) (k : FwdKind) : s.LinesOnly (s.beginForward r d k) :=
  (setDir _ _ _).trans (post _ _)

theorem serveAtHome (s : State) (r : HomeReq) : s.LinesOnly (s.serveAtHome r) := by
  unfold State.serveAtHome
  simp only
  split
  · exact grant _ _ _
  · exact (setMode _ _ _).trans (grant _ _ _)
  · exact (setMode _ _ _).trans (grant _ _ _)
  · split
    · exact refl s
    · split
      · exact beginRound _ _
      · split
        · split
          · exact (setMode _ _ _).trans (grant _ _ _)
          · exact perform _ _
        · exact perform _ _

theorem serve (s : State) (r : HomeReq) : s.LinesOnly (s.serve r) := by
  unfold State.serve
  simp only
  split
  · split
    · split
      · exact grant _ _ _
      · split
        · exact perform _ _
        · exact refl s
    · split
      · split
        · exact beginForward _ _ _ _
        · exact (setDir _ _ _).trans (post _ _)
      · split
        · exact beginForward _ _ _ _
        · exact (setDir _ _ _).trans (post _ _)
  · exact serveAtHome _ _

theorem offer (s : State) (r : HomeReq) : s.LinesOnly (s.offer r) := by
  unfold State.offer
  split
  · exact setDir _ _ _
  · exact serve _ _

theorem drainHome (s : State) (l : Nat) : s.LinesOnly (s.drainHome l) :=
  trans (setDir _ _ _) (foldl (fun _ _ => offer _ _) _ _)

theorem putUpdate (s : State) (d l off : Nat) (bs : List Byte) : s.LinesOnly (s.putUpdate d l off bs) := by
  unfold State.putUpdate
  split
  · exact writeCopy _ _ _ _ _ _
  · exact onCore _ _ fun _ => by exact rfl

theorem replyWords (s : State) (d l off : Nat) (bs : List Byte) : s.LinesOnly (s.replyWords d l off bs) :=
  trans (setDir _ _ _) (foldl (fun _ _ => post _ _) _ _)

theorem mergeUpdate (s : State) (u : Nat × HomeReq) : s.LinesOnly (s.mergeUpdate u) := by
  unfold State.mergeUpdate
  simp only
  refine trans ?_ (performed _ _)
  split
  · exact setDir _ _ _
  · exact ((((setDir _ _ _).trans (putUpdate _ _ _ _ _)).trans (noteRequest _ _ _)).trans (follow _ _ _)).trans
      (replyWords _ _ _ _ _)

theorem landUpdates (s : State) (l : Nat) : s.LinesOnly (s.landUpdates l) := foldl (fun _ _ => mergeUpdate _ _) _ _

theorem landRead (s : State) (l : Nat) : s.LinesOnly (s.landRead l) := by
  unfold State.landRead
  simp only
  split
  · exact refl s
  · split
    · exact (setDir _ _ _).trans (grant _ _ _)
    · exact setDir _ _ _

theorem landBusy (s : State) (l : Nat) : s.LinesOnly (s.landBusy l) := by
  unfold State.landBusy
  simp only
  split
  · exact refl s
  · refine trans ?_ (finishBusy _ _)
    split
    · exact foldl (fun _ _ => dropAt _ _ _) _ _
    · split
      · split
        · exact recalled _ _ _
        · exact downgrade _ _ _
      · exact refl s

theorem landGrants (s : State) (l : Nat) : s.LinesOnly (s.landGrants l) := foldl (fun _ _ => deliverTo _ _ _) _ _

theorem find_mapVals {α : Type} (m : Store α) (f : Nat → α → α) (k : Nat) : find (mapVals m f) k = (find m k).map (f k) := by
  induction m with
  | nil => rfl
  | cons e m ih =>
    obtain ⟨a, x⟩ := e
    by_cases h : a = k
    · subst h; simp [mapVals, find]
    · simpa [mapVals, find, h] using ih

theorem onCores (s : State) {f : Nat → Core → Core} (h : ∀ (c : Nat) (k : Core), k.SameBut (f c k)) :
    s.LinesOnly { s with cores := mapVals s.cores f } where
  now := rfl
  parts := rfl
  turn := ⟨rfl, rfl, rfl⟩
  freeCount := rfl
  dev := rfl
  cores c := by
    simp only [State.coreAt, findD, find_mapVals]
    cases find s.cores c with
    | none => exact Core.SameBut.refl _
    | some k => exact h c k

theorem land (s : State) (l : Nat) : s.LinesOnly (s.land l) := by
  unfold State.land
  simp only
  refine trans ?_ (onCores _ fun _ _ => by exact rfl)
  exact (((((((landGrants s l).trans (landUpdates _ l)).trans (landReplies _ l)).trans
    (foldl (fun u (_ : Nat × HomeReq) => landRead u l) _ _)).trans (landGrants _ l)).trans (landBusy _ l)).trans
    (landGrants _ l))

theorem settle (s : State) (l : Nat) : s.LinesOnly (s.settle l) := by
  unfold State.settle
  split
  · exact refl s
  · refine (land s l).trans ((setDir _ l _).trans (foldl (fun u r => ?_) _ _))
    exact (serve u r).trans (land _ _)

/-- What holds a line comes to its end (R150). -/
theorem calm (s : State) : s.LinesOnly s.calm := foldl (fun _ _ => settle _ _) _ _

theorem makeRoomAt (s : State) (b : Nat) : s.LinesOnly (s.makeRoomAt b) := by
  unfold State.makeRoomAt
  refine foldl (fun u p => ?_) _ _
  split
  · exact refl u
  · split
    · exact refl u
    · exact settle _ _

theorem makeRoom (s : State) (l : Nat) : s.LinesOnly (s.makeRoom l) := makeRoomAt _ _

theorem sendStore (s : State) (c : Nat) (x : Buffered) : s.LinesOnly (s.sendStore c x) :=
  (((makeRoom s _).trans (onCore _ c (f := fun k => { k with stores := k.stores.erase x }) fun _ => by exact rfl)).trans
    (accepted _ _)).trans (offer _ _)

theorem sendStores (s : State) (c l : Nat) (sel : Stream → Bool) : s.LinesOnly (s.sendStores c l sel) :=
  foldl (fun _ _ => sendStore _ _ _) _ _

theorem flush (s : State) (c l : Nat) (sel : Stream → Bool) : s.LinesOnly (s.flush c l sel) :=
  (sendStores _ _ _ _).trans (settle _ _)

/-- Every store of a core is performed, and nothing else is touched (R161). -/
theorem performOwn (s : State) (c : Nat) : s.LinesOnly (s.performOwn c) := foldl (fun _ _ => flush _ _ _ _) _ _

theorem acquire (s : State) (c l : Nat) : s.LinesOnly (s.acquire c l) := by
  unfold State.acquire
  split
  · exact refl s
  · exact ((((recallOwner s l).trans (invalidate _ _ _)).trans (landReplies _ _)).trans (install _ _ _ _)).trans
      (setMode _ _ _)

theorem buffer_parts (s : State) (c : Nat) (st : Stream) (l : Nat) (k : ReqKind) :
    s.LinesOnly (s.buffer c st l k) := by
  refine trans (t := { (s.onCore c fun k' => { k' with stores := k'.stores ++ [_] }) with nextWrite := s.nextWrite + 1 }) ?_
    (post _ _)
  exact ⟨rfl, rfl, ⟨rfl, rfl, rfl⟩, rfl, rfl,
    (onCore s c (f := fun k' => { k' with stores := k'.stores ++ [_] }) fun _ => rfl).cores⟩

theorem fetchCopy (s : State) (c : Nat) (pol : Pol) (l : Nat) : s.LinesOnly (s.fetchCopy c pol l) := by
  unfold State.fetchCopy
  split
  · exact refl s
  · exact install _ _ _ _
  · simp only
    refine (downgradeOwner s l).trans ?_
    split
    · exact ((landReplies _ _).trans (install _ _ _ _)).trans (setMode _ _ _)
    · exact (install _ _ _ _).trans (setMode _ _ _)

theorem refresh (s : State) (c : Nat) (pol : Pol) (l : Nat) : s.LinesOnly (s.refresh c pol l) := by
  unfold State.refresh
  simp only
  split
  · split
    · exact (flush _ _ _ _).trans (install _ _ _ _)
    · exact flush _ _ _ _
  · exact refl s

/-- A load changes nothing but lines. -/
theorem coreLoad (s : State) (c : Nat) (st : Stream) (pol : Pol) (pa n : Nat) :
    s.LinesOnly (s.coreLoad c st pol pa n).1 := by
  unfold State.coreLoad
  simp only
  have first (u : State) : u.LinesOnly (if u.hits c pol (pa / 128) then
      (if u.writing c (pa / 128) then u.flush c (pa / 128) fun _ => true else u)
      else u.flush c (pa / 128) (seenBy st)) := by
    split
    · split
      · exact flush _ _ _ _
      · exact refl u
    · exact flush _ _ _ _
  have second (u : State) : u.LinesOnly (if u.hits c pol (pa / 128) then u else u.fetchCopy c pol (pa / 128)) := by
    split
    · exact refl u
    · exact fetchCopy _ _ _ _
  have refreshed := refresh s c pol (pa / 128)
  split <;> exact (refreshed.trans (first _)).trans (second _)

/-- The owner's earlier stores to a line come first (R147). -/
theorem ownFirst (s : State) (c l : Nat) : s.LinesOnly (s.ownFirst c l) := by
  unfold State.ownFirst
  split
  · exact flush _ _ _ _
  · exact refl s

theorem writeOwn (s : State) (c pa : Nat) (bs : List Byte) : s.LinesOnly (s.writeOwn c pa bs) :=
  (onCore _ _ fun _ => by exact rfl).trans (noteStore _ _ _)

/-- A store changes nothing but lines. -/
theorem coreStore (s : State) (c : Nat) (st : Stream) (pol : Pol) (pa : Nat) (bs : List Byte) :
    s.LinesOnly (s.coreStore c st pol pa bs) := by
  unfold State.coreStore
  simp only
  refine (ownFirst s c (pa / 128)).trans ?_
  split
  · exact writeOwn _ _ _ _
  · exact buffer_parts _ _ _ _ _

theorem dropUntracked (s : State) (c : Nat) : s.LinesOnly (s.dropUntracked c) := onCore _ _ fun _ => by exact rfl

theorem evict (s : State) (c l : Nat) : s.LinesOnly (s.evict c l) := by
  unfold State.evict
  simp only
  refine ((flush s c l fun _ => true).trans (makeRoom _ l)).trans ?_
  split
  · exact refl _
  · split
    · exact recalled _ _ _
    · refine (onCore _ c (f := fun x => x.dropCopy l) fun _ => rfl).trans ?_
      split
      · exact setMode _ _ _
      · exact refl _
    · exact onCore _ _ fun _ => by exact rfl

end State.LinesOnly

/-! ## Releases -/

/-- Everything a release that is complete can do: the lines of its core's writes are performed at `.core`, and at a wider
scope its stream's marker is put away (R156, R161). -/
theorem State.released_ok {s t : State} {c : Nat} {st : Stream} {sc : Scope} (h : s.released c st sc = .ok t) :
    (sc = .core ∧ t = s.performOwn c) ∨ (sc ≠ .core ∧ (t = s ∨ t = s.onEng c st fun e => { e with drain := none })) := by
  unfold State.released at h
  by_cases e : sc = .core
  · rw [if_pos e] at h
    cases h
    exact .inl ⟨e, rfl⟩
  · rw [if_neg e] at h
    simp only at h
    refine .inr ⟨e, ?_⟩
    split at h
    · cases h
    · split at h
      · cases h
        split
        · exact .inl rfl
        · exact .inr rfl
      · cases h

end Sys2Proof.Machine
end

