-- ==== Sys2Proof/Laws/Memory.lean ====
section
/-! SUPPORT. Sparse bytes: every write keeps the canonical form, and a read after a write. -/

namespace Sys2Proof.Machine

/-- The canonical form as a relation on neighbours and cells. -/
theorem Mem.wf_iff (m : Mem) :
    Mem.wf m = true ↔ m.Pairwise (fun a b => a.1 < b.1) ∧ ∀ c ∈ m, c.2 ≠ unlisted := by
  induction m with
  | nil => simp [Mem.wf]
  | cons c m ih =>
    cases m with
    | nil => simp [Mem.wf]
    | cons d m =>
      simp only [Mem.wf, Bool.and_eq_true, decide_eq_true_eq, bne_iff_ne, ih, List.pairwise_cons, List.mem_cons,
        forall_eq_or_imp]
      constructor
      · rintro ⟨⟨h1, h2⟩, ⟨h3, h4⟩, h5⟩
        exact ⟨⟨⟨h2, fun x hx => Nat.lt_trans h2 (h3 x hx)⟩, h3, h4⟩, h1, h5⟩
      · rintro ⟨⟨⟨h2, -⟩, h3, h4⟩, h1, h5⟩
        exact ⟨⟨h1, h2⟩, ⟨h3, h4⟩, h5⟩

theorem Mem.mem_cells {a : Nat} {bs : List Byte} {c : Host.Cell} (h : c ∈ cells a bs) :
    a ≤ c.1 ∧ c.1 < a + bs.length ∧ c.2 ≠ unlisted := by
  induction bs generalizing a with
  | nil => simp [cells] at h
  | cons b bs ih =>
    simp only [cells] at h
    split at h
    · obtain ⟨h1, h2, h3⟩ := ih h
      exact ⟨by omega, by simp only [List.length_cons]; omega, h3⟩
    · rcases List.mem_cons.1 h with rfl | h
      · simpa using ‹_›
      · obtain ⟨h1, h2, h3⟩ := ih h
        exact ⟨by omega, by simp only [List.length_cons]; omega, h3⟩

theorem Mem.pairwise_cells (a : Nat) (bs : List Byte) : (cells a bs).Pairwise (fun a b => a.1 < b.1) := by
  induction bs generalizing a with
  | nil => simp [cells]
  | cons b bs ih =>
    simp only [cells]
    split
    · exact ih _
    · refine List.pairwise_cons.2 ⟨fun c hc => ?_, ih _⟩
      have := (Mem.mem_cells hc).1
      simp; omega

/-- A write keeps the canonical form. -/
theorem Mem.wf_write {m : Mem} (h : Mem.wf m = true) (a : Nat) (bs : List Byte) : Mem.wf (Mem.write m a bs) = true := by
  rw [Mem.wf_iff] at h ⊢
  obtain ⟨hp, hn⟩ := h
  unfold Mem.write
  refine ⟨?_, ?_⟩
  · refine List.pairwise_append.2 ⟨hp.filter _, List.pairwise_append.2 ⟨Mem.pairwise_cells _ _, hp.filter _, ?_⟩, ?_⟩
    · intro c hc d hd
      have := Mem.mem_cells hc
      simp only [List.mem_filter, decide_eq_true_eq] at hd
      omega
    · intro c hc d hd
      simp only [List.mem_filter, decide_eq_true_eq] at hc
      rcases List.mem_append.1 hd with hd | hd
      · have := Mem.mem_cells hd; omega
      · simp only [List.mem_filter, decide_eq_true_eq] at hd; omega
  · intro c hc
    rcases List.mem_append.1 hc with hc | hc
    · exact hn c (List.mem_filter.1 hc |>.1)
    · rcases List.mem_append.1 hc with hc | hc
      · exact (Mem.mem_cells hc).2.2
      · exact hn c (List.mem_filter.1 hc |>.1)

theorem Mem.mem_rising {lo : Nat} {m : Mem} {c : Host.Cell} (h : c ∈ rising lo m) :
    c ∈ m ∧ lo ≤ c.1 ∧ c.2 ≠ unlisted := by
  induction m generalizing lo with
  | nil => simp [rising] at h
  | cons d m ih =>
    simp only [rising] at h
    split at h
    · rename_i hd
      rcases List.mem_cons.1 h with rfl | h
      · exact ⟨List.mem_cons_self, hd⟩
      · obtain ⟨h1, h2, h3⟩ := ih h
        exact ⟨List.mem_cons_of_mem _ h1, by omega, h3⟩
    · obtain ⟨h1, h2, h3⟩ := ih h
      exact ⟨List.mem_cons_of_mem _ h1, h2, h3⟩

/-- What `rising` keeps has the canonical form. -/
theorem Mem.wf_rising (lo : Nat) (m : Mem) : Mem.wf (rising lo m) = true := by
  rw [Mem.wf_iff]
  refine ⟨?_, fun c hc => (Mem.mem_rising hc).2.2⟩
  induction m generalizing lo with
  | nil => simp [rising]
  | cons d m ih =>
    simp only [rising]
    split
    · refine List.pairwise_cons.2 ⟨fun c hc => ?_, ih _⟩
      have := (Mem.mem_rising hc).2.1
      omega
    · exact ih _

/-- A block moved into a memory keeps the canonical form, whatever cells the block holds. -/
theorem Mem.wf_blit {m : Mem} (h : Mem.wf m = true) (lo n : Nat) (src : Mem) : Mem.wf (blit m lo n src) = true := by
  have hr := (Mem.wf_iff _).1 (Mem.wf_rising lo ((src.filter fun c => c.1 < n).map fun c => (c.1 + lo, c.2)))
  have hm : ∀ c ∈ rising lo ((src.filter fun c => c.1 < n).map fun c => (c.1 + lo, c.2)), lo ≤ c.1 ∧ c.1 < lo + n := by
    intro c hc
    obtain ⟨h1, h2, -⟩ := Mem.mem_rising hc
    obtain ⟨d, hd, rfl⟩ := List.mem_map.1 h1
    have := (List.mem_filter.1 hd).2
    simp only [decide_eq_true_eq] at this
    exact ⟨h2, by simp; omega⟩
  rw [Mem.wf_iff] at h ⊢
  obtain ⟨hp, hn⟩ := h
  refine ⟨List.pairwise_append.2 ⟨hp.filter _, List.pairwise_append.2 ⟨hr.1, hp.filter _, ?_⟩, ?_⟩, ?_⟩
  · intro c hc d hd
    have := hm c hc
    simp only [List.mem_filter, decide_eq_true_eq] at hd
    omega
  · intro c hc d hd
    simp only [List.mem_filter, decide_eq_true_eq] at hc
    rcases List.mem_append.1 hd with hd | hd
    · have := hm d hd; omega
    · simp only [List.mem_filter, decide_eq_true_eq] at hd; omega
  · intro c hc
    rcases List.mem_append.1 hc with hc | hc
    · exact hn c (List.mem_filter.1 hc).1
    · rcases List.mem_append.1 hc with hc | hc
      · exact hr.2 c hc
      · exact hn c (List.mem_filter.1 hc).1

/-! ## Reading after a write -/

theorem find_append {α : Type} (m n : Store α) (k : Nat) : find (m ++ n) k = (find m k).or (find n k) := by
  induction m with
  | nil => simp [find]
  | cons e m ih =>
    obtain ⟨a, x⟩ := e
    by_cases h : a = k <;> simp [find, h, ih]

theorem find_filter {α : Type} (m : Store α) (p : Nat → Bool) (k : Nat) :
    find (m.filter fun e => p e.1) k = if p k then find m k else none := by
  induction m with
  | nil => simp [find]
  | cons e m ih =>
    obtain ⟨a, x⟩ := e
    by_cases hp : p a = true <;> by_cases h : a = k <;> simp_all [find]

theorem find_cells (a : Nat) (bs : List Byte) (x : Nat) :
    (find (cells a bs) x).getD unlisted = if a ≤ x then bs.getD (x - a) unlisted else unlisted := by
  induction bs generalizing a with
  | nil => simp [cells, find]
  | cons b bs ih =>
    simp only [cells]
    rcases Nat.lt_trichotomy x a with h | h | h
    · have h1 : ¬ a ≤ x := by omega
      have h2 : ¬ a + 1 ≤ x := by omega
      have h3 : a ≠ x := by omega
      split <;> simp [find, ih, h2, h3]
    · subst h
      split
      · have := ih (x + 1); simp_all <;> omega
      · simp [find]
    · have h1 : a ≤ x := by omega
      have h2 : a + 1 ≤ x := by omega
      have h3 : a ≠ x := by omega
      have h4 : x - a = x - (a + 1) + 1 := by omega
      split <;> simp [find, ih, h2, h3, h4]

theorem find_mem {α : Type} {m : Store α} {k : Nat} {x : α} (h : find m k = some x) : (k, x) ∈ m := by
  induction m with
  | nil => simp [find] at h
  | cons e m ih =>
    obtain ⟨b, y⟩ := e
    simp only [find] at h
    split at h
    · subst_vars; cases h; simp
    · exact List.mem_cons_of_mem _ (ih h)

theorem find_cells_none {a x : Nat} {bs : List Byte} (h : ¬(a ≤ x ∧ x < a + bs.length)) :
    find (cells a bs) x = none := by
  cases hf : find (cells a bs) x with
  | none => rfl
  | some v => exact absurd ⟨(Mem.mem_cells (find_mem hf)).1, (Mem.mem_cells (find_mem hf)).2.1⟩ h

/-- What an address reads as after a write: the byte written there, or what it read as before. -/
theorem Mem.read_write (m : Mem) (a : Nat) (bs : List Byte) (x : Nat) :
    Mem.read (Mem.write m a bs) x =
      if a ≤ x ∧ x < a + bs.length then bs.getD (x - a) unlisted else Mem.read m x := by
  have hc := find_cells a bs x
  have h1 := find_filter m (fun i => decide (i < a)) x
  have h2 := find_filter m (fun i => decide (a + bs.length ≤ i)) x
  unfold Mem.read Mem.write findD
  rw [find_append, find_append, h1, h2]
  by_cases h : a ≤ x ∧ x < a + bs.length
  · have e1 : ¬ x < a := by omega
    have e2 : ¬ a + bs.length ≤ x := by omega
    rw [if_pos h.1] at hc
    simp only [e1, e2, decide_false, Bool.false_eq_true, if_false, Option.none_or, Option.or_none, h, and_self,
      if_true, hc]
  · rw [if_neg h, find_cells_none h]
    by_cases e : x < a
    · simp [e]; cases find m x <;> simp <;> omega
    · have : a + bs.length ≤ x := by omega
      simp [e, this]

theorem wf_reset : Mem.wf State.reset.mem = true := rfl

end Sys2Proof.Machine
end

