-- ==== Sys2Proof/Laws/Words.lean ====
section
/-! SUPPORT. How a word of each format runs, in the terms of Safety: an S word whose prefix holds, and an engine word that
goes, each reduced to its body on the state past the word; and what the core then holds. -/

namespace Sys2Proof.Safety

open Sys2Proof Sys2Proof.Machine

/-! ## S -/

theorem runS_of_holds {p : Pr} {ops : Core → List DWord} {body : Nat → State → Res State} {s : State} (h : Holds s p) :
    runS p ops body s = finish s s.core .S (ops (here s)) (body s.core (sPast s)) := runS_holds h

theorem corePast_eq (s : State) : corePast s = (here s).onEng .S fun e => e.past 4 := by
  simp [corePast, sPast, here]

/-! ## Tokens -/

/-- Taking tokens changes the FIFOs, and what the stream's word has taken. -/
theorem takeTokens_begins (k : Core) (st : Stream) (t : Tok) (h : (k.eng st).issued = false) :
    k.takeTokens st t = { k with
      fwd := if t.wp then put k.fwd (inPair st) (k.fwdAt (inPair st) - 1) else k.fwd
      back := if t.ws then put k.back (outPair st) (k.backAt (outPair st) - 1) else k.back }.onEng st
        fun e => { e with wordF := num t.wp, wordB := num t.ws } := by
  obtain ⟨wp, ws, gs, gp⟩ := t
  cases st <;> cases wp <;> cases ws <;>
    simp only [Core.eng] at h <;> simp [Core.takeTokens, Core.onEng, Core.eng, Core.setEng, Core.backAt, h]

/-- The core of an engine word that has issued: its stream past the word, and its tokens taken. -/
theorem begun_core {s : State} {st : Stream} {t : Tok} {n : Nat} (h : Ready s st t) :
    ∃ f b, (begun s st t n).coreAt s.core = { here s with fwd := f, back := b }.onEng st fun e => e.past n := by
  refine ⟨((here s).takeTokens st t).fwd, ((here s).takeTokens st t).back, ?_⟩
  have hr := h.resolved
  simp only [begun, taken, State.coreAt_past, State.coreAt_setCore]
  simp only [State.eng, here] at hr ⊢
  by_cases hi : ((s.coreAt s.core).eng st).issued = true
  · simp [Core.takeTokens, hi]
  · rw [takeTokens_begins _ _ _ (by simpa using hi)]
    cases st <;> simp only [Core.eng] at hr <;>
      simp [Core.onEng, Core.eng, Core.setEng, Engine.past, Engine.keepTokens, hr]

theorem begun_eng {s : State} {st : Stream} {t : Tok} {n : Nat} (h : Ready s st t) :
    (begun s st t n).eng s.core st = (s.eng s.core st).past n := by
  obtain ⟨f, b, e⟩ := begun_core (n := n) h
  simp only [State.eng, e, Core.eng_onEng]
  cases st <;> rfl

@[simp] theorem begun_core_field (s : State) (st : Stream) (t : Tok) (n : Nat) : (begun s st t n).core = s.core := rfl

@[simp] theorem begun_stream (s : State) (st : Stream) (t : Tok) (n : Nat) : (begun s st t n).stream = s.stream := rfl

@[simp] theorem begun_parts (s : State) (st : Stream) (t : Tok) (n : Nat) : (begun s st t n).parts = s.parts := rfl

@[simp] theorem begun_dev (s : State) (st : Stream) (t : Tok) (n : Nat) : (begun s st t n).dev = s.dev := rfl

@[simp] theorem begun_mem (s : State) (st : Stream) (t : Tok) (n : Nat) : (begun s st t n).mem = s.mem := rfl

@[simp] theorem begun_freeCount (s : State) (st : Stream) (t : Tok) (n : Nat) :
    (begun s st t n).freeCount = s.freeCount := rfl

/-! ## Engine words -/

/-- What an engine word that goes answers: it retires in its body's state, or it stops, its tokens taken, with no other
effect. -/
def settles (s : State) (st : Stream) (t : Tok) (ops : List DWord) (r : Res State) : Out :=
  match r with
  | .ok u => .next (ended s st t ops u)
  | .error x => .next ((taken s st t).stopAt s.core st ops x)

@[simp] theorem settles_ok (s : State) (st : Stream) (t : Tok) (ops : List DWord) (u : State) :
    settles s st t ops (.ok u) = .next (ended s st t ops u) := rfl

@[simp] theorem settles_error (s : State) (st : Stream) (t : Tok) (ops : List DWord) (x : Stop) :
    settles s st t ops (.error x) = .next ((taken s st t).stopAt s.core st ops x) := rfl

theorem runToken_ready {s : State} {st : Stream} {t : Tok} {n : Nat} {ahead : Option Nat} {ops : List DWord}
    {body : Nat → State → Res State} (h : Ready s st t) :
    runToken st t true n ahead ops body s = settles s st t ops (body s.core (begun s st t n)) := by
  cases hb : body s.core (begun s st t n) with
  | ok u => exact runToken_ok h.tokens h.resolved hb
  | error x => exact runToken_error h.tokens h.resolved hb

theorem runE_goes {s : State} {st : Stream} {p : EPre} {ahead : Option Nat} {ops : List DWord}
    {body : Nat → State → Res State} (h : GoesE s st p) :
    runE st p ahead ops body s = settles s st p.tok ops (body s.core (begun s st p.tok 4)) := by
  have g : ((s.eng s.core st).g p.g != p.neg) = true := h.2
  rw [runE, g, runToken_ready h.1]

theorem runX_goes {s : State} {p : XPre} {n : Nat} {ops : List DWord} {body : Nat → State → Res State} (h : GoesX s p) :
    runX p n ops body s = settles s .X p.tok ops (body s.core (begun s .X p.tok n)) := by
  have g : ((s.eng s.core .X).g p.g != p.neg) = true := h.2
  rw [runX, g, runToken_ready h.1]

end Sys2Proof.Safety
end

