-- ==== Sys2Proof/Laws/Lanes.lean ====
section
/-! SUPPORT. Bytes as numbers, elements packed and unpacked, and what a write of lanes leaves in the basin. -/

namespace Sys2Proof.Machine

open Sys2Proof.Safety

/-! ## Bytes and numbers (R2) -/

@[simp] theorem length_toLe (n v : Nat) : (toLe n v).length = n := by
  induction n generalizing v with
  | zero => rfl
  | succ n ih => simp [toLe, ih]

theorem leNat_toLe (n v : Nat) : leNat (toLe n v) = v % 256 ^ n := by
  induction n generalizing v with
  | zero => simp [toLe, leNat, Nat.mod_one]
  | succ n ih =>
    simp only [toLe, leNat, ih, BitVec.toNat_ofNat]
    have e : (256 : Nat) ^ (n + 1) = 256 * 256 ^ n := by rw [Nat.pow_succ, Nat.mul_comm]
    rw [e, Nat.mod_mul]

theorem leNat_lt (bs : List Byte) : leNat bs < 256 ^ bs.length := by
  induction bs with
  | nil => simp [leNat]
  | cons b bs ih =>
    have := b.isLt
    simp only [leNat, List.length_cons, Nat.pow_succ]
    omega

theorem Mem.readN_eq (m : Mem) (a n : Nat) : Mem.readN m a n = (List.range n).map fun i => Mem.read m (a + i) := by
  unfold Mem.readN
  apply List.map_congr_left
  intro i hi
  have hi : i < n := List.mem_range.1 hi
  have h := find_filter m (fun x => decide (a ≤ x) && decide (x < a + n)) (a + i)
  simp only [Mem.read, findD]
  rw [h]
  simp [hi]

@[simp] theorem Mem.length_readN (m : Mem) (a n : Nat) : (Mem.readN m a n).length = n := by simp [Mem.readN]

theorem Mem.readN_write (m : Mem) (a : Nat) (bs : List Byte) : Mem.readN (Mem.write m a bs) a bs.length = bs := by
  rw [Mem.readN_eq]
  apply List.ext_getElem (by simp)
  intro i h1 h2
  simp only [List.getElem_map, List.getElem_range, Mem.read_write]
  rw [if_pos ⟨by omega, by omega⟩]
  simp [List.getD_eq_getElem?_getD, h2]

/-! ## Elements (R121) -/

theorem packElems_lt (w : Nat) (xs : List Nat) : packElems w xs < 2 ^ (w * xs.length) := by
  induction xs with
  | nil => simp [packElems]
  | cons x xs ih =>
    simp only [packElems, List.length_cons]
    have h : x % 2 ^ w < 2 ^ w := Nat.mod_lt _ (Nat.two_pow_pos _)
    have e : 2 ^ (w * (xs.length + 1)) = 2 ^ w * 2 ^ (w * xs.length) := by rw [Nat.mul_succ, Nat.pow_add, Nat.mul_comm]
    rw [e]
    calc x % 2 ^ w + 2 ^ w * packElems w xs < 2 ^ w + 2 ^ w * packElems w xs := by omega
      _ = 2 ^ w * (packElems w xs + 1) := by rw [Nat.mul_add, Nat.mul_one, Nat.add_comm]
      _ ≤ 2 ^ w * 2 ^ (w * xs.length) := Nat.mul_le_mul_left _ ih

theorem elem_packElems (w : Nat) (xs : List Nat) (i : Nat) : elem w (packElems w xs) i = xs.getD i 0 % 2 ^ w := by
  induction xs generalizing i with
  | nil => simp [elem, packElems]
  | cons x xs ih =>
    cases i with
    | zero => simp [elem, packElems]
    | succ i =>
      have h : x % 2 ^ w < 2 ^ w := Nat.mod_lt _ (Nat.two_pow_pos _)
      have e : 2 ^ (w * (i + 1)) = 2 ^ w * 2 ^ (w * i) := by rw [Nat.mul_succ, Nat.pow_add, Nat.mul_comm]
      simp only [elem, packElems, List.getD_cons_succ]
      rw [e, ← Nat.div_div_eq_div_mul, Nat.add_mul_div_left _ _ (Nat.two_pow_pos _), Nat.div_eq_of_lt h, Nat.zero_add]
      exact ih i

@[simp] theorem length_unpackElems (w n d : Nat) : (unpackElems w n d).length = n := by
  induction n generalizing d with
  | zero => rfl
  | succ n ih => simp [unpackElems, ih]

theorem getElem_unpackElems (w n d i : Nat) (h : i < (unpackElems w n d).length) : (unpackElems w n d)[i] = elem w d i := by
  induction n generalizing d i with
  | zero => simp at h
  | succ n ih =>
    cases i with
    | zero => simp [unpackElems, elem]
    | succ i =>
      have e : 2 ^ (w * (i + 1)) = 2 ^ w * 2 ^ (w * i) := by rw [Nat.mul_succ, Nat.pow_add, Nat.mul_comm]
      simp only [unpackElems, List.getElem_cons_succ]
      rw [ih]
      simp only [elem, e, Nat.div_div_eq_div_mul]

theorem elem_mod_of_le {w n i d : Nat} (h : w * i + w ≤ n) : elem w (d % 2 ^ n) i = elem w d i := by
  have e : 2 ^ n = 2 ^ (w * i) * 2 ^ (n - w * i) := by rw [← Nat.pow_add]; congr 1; omega
  have e' : 2 ^ (n - w * i) = 2 ^ w * 2 ^ (n - w * i - w) := by rw [← Nat.pow_add]; congr 1; omega
  simp only [elem]
  rw [e, Nat.mod_mul_right_div_self, e', Nat.mod_mul_right_mod]

/-! ## Lanes written (R336) -/

theorem Core.vnum_lt (k : Core) (r : Fin 32) : k.vnum r < 2 ^ (8 * k.vlen) := by
  have h := leNat_lt (k.getBasin (r * k.vlen) k.vlen)
  simp only [Core.getBasin, Mem.length_readN] at h
  rw [Nat.pow_mul]
  exact h

@[simp] theorem Core.putLanes_vlen (k : Core) (r : Fin 32) (w : Nat) (xs : List (Option Nat)) :
    (k.putLanes r w xs).vlen = k.vlen := rfl

theorem Core.putVnum_vnum (k : Core) (r : Fin 32) (v : Nat) (f : Nat → Bool) :
    (k.putVnum r v f).vnum r = v % 2 ^ (8 * k.vlen) := by
  have e : (k.putVnum r v f).vnum r = leNat (Mem.readN (Mem.write k.basin (r * k.vlen) (toLe k.vlen v)) (r * k.vlen)
    (toLe k.vlen v).length) := by rw [length_toLe]; rfl
  rw [e, Mem.readN_write, leNat_toLe, Nat.pow_mul]

/-- A write of lanes leaves every lane that it gives, and everything else as it was. -/
theorem Core.putLanes_written (k : Core) (r : Fin 32) (w : Nat) (xs : List (Option Nat)) (h : xs.length * w ≤ 8 * k.vlen) :
    LanesWritten k (k.putLanes r w xs) r w xs.length fun i => xs.getD i none := by
  let new := (xs.zip (unpackElems w xs.length (k.vnum r))).map fun e => e.1.getD e.2
  have hl : new.length = xs.length := by simp [new]
  have hv := k.vnum_lt r
  have hp := packElems_lt w new
  rw [hl] at hp
  have h' : w * xs.length ≤ 8 * k.vlen := by rw [Nat.mul_comm]; exact h
  have e8 : 2 ^ (8 * k.vlen) = 2 ^ (w * xs.length) * 2 ^ (8 * k.vlen - w * xs.length) := by
    rw [← Nat.pow_add]; congr 1; omega
  have hd : k.vnum r / 2 ^ (w * xs.length) < 2 ^ (8 * k.vlen - w * xs.length) := by
    apply Nat.div_lt_of_lt_mul; rw [← e8]; exact hv
  have hn : (k.putLanes r w xs).vnum r = packElems w new + k.vnum r / 2 ^ (w * xs.length) * 2 ^ (w * xs.length) := by
    have : (k.putLanes r w xs).vnum r =
        (packElems w new + k.vnum r / 2 ^ (w * xs.length) * 2 ^ (w * xs.length)) % 2 ^ (8 * k.vlen) :=
      k.putVnum_vnum r _ _
    rw [this, Nat.mod_eq_of_lt]
    rw [e8]
    calc _ < 2 ^ (w * xs.length) + k.vnum r / 2 ^ (w * xs.length) * 2 ^ (w * xs.length) := by omega
      _ = 2 ^ (w * xs.length) * (k.vnum r / 2 ^ (w * xs.length) + 1) := by
        rw [Nat.mul_add, Nat.mul_one, Nat.add_comm, Nat.mul_comm (k.vnum r / _)]
      _ ≤ _ := Nat.mul_le_mul_left _ hd
  have hm : (k.putLanes r w xs).vnum r % 2 ^ (w * xs.length) = packElems w new := by
    rw [hn, Nat.add_mul_mod_self_right, Nat.mod_eq_of_lt hp]
  refine ⟨?_, ?_, ?_, ?_⟩
  · intro i hi
    have hi' : w * i + w ≤ w * xs.length := by
      calc w * i + w = w * (i + 1) := (Nat.mul_succ w i).symm
        _ ≤ _ := Nat.mul_le_mul_left _ hi
    rw [← elem_mod_of_le hi', hm, elem_packElems]
    have hz : i < (unpackElems w xs.length (k.vnum r)).length := by simpa using hi
    have : new.getD i 0 = (xs[i]).getD (elem w (k.vnum r) i) := by
      simp only [new, List.getD_eq_getElem?_getD]
      rw [List.getElem?_eq_getElem (by simpa using hi)]
      simp [getElem_unpackElems]
    rw [this]
    simp only [List.getD_eq_getElem?_getD, List.getElem?_eq_getElem hi, Option.getD_some]
    cases xs[i] with
    | some v => rfl
    | none => simp [elem]
  · rw [hn, Nat.add_mul_div_right _ _ (Nat.two_pow_pos _), Nat.div_eq_of_lt hp, Nat.zero_add]
  · intro a ha
    have : Mem.read (k.putLanes r w xs).basin a = Mem.read (Mem.write k.basin (r * k.vlen) (toLe k.vlen
      (packElems w new + k.vnum r / 2 ^ (w * xs.length) * 2 ^ (w * xs.length)))) a := rfl
    rw [this, Mem.read_write, if_neg (by simpa using ha)]
  · exact ⟨_, _, rfl⟩

/-- A write of the active lanes of a result. -/
theorem Core.putActive_written (k : Core) (r : Fin 32) (w : Nat) (xs : List Nat) (h : xs.length * w ≤ 8 * k.vlen) :
    LanesWritten k (k.putActive r w xs) r w xs.length (activeLane k fun i => xs.getD i 0) := by
  have g := k.putLanes_written r w (xs.zipIdx.map fun x => if k.active x.2 then some x.1 else none) (by simpa using h)
  simp only [List.length_map, List.length_zipIdx] at g
  refine ⟨fun i hi => ?_, g.above, g.outside, g.rest⟩
  have := g.lanes i hi
  simp only [List.getD_eq_getElem?_getD, List.getElem?_map, List.getElem?_zipIdx, List.getElem?_eq_getElem hi,
    Option.map_some, Option.getD_some, Nat.zero_add] at this
  simp only [activeLane, List.getD_eq_getElem?_getD, List.getElem?_eq_getElem hi, Option.getD_some]
  exact this

end Sys2Proof.Machine
end

