-- ==== Sys2Proof/Tests/Slice0.lean ====
section
/-! SUPPORT. Tests on small states, their expected results from the spec's tables and worked examples, and the witnesses:
for each statement with hypotheses, a state and operands that meet them together. -/

namespace Sys2Proof.Tests

open Sys2Proof Sys2Proof.Machine Sys2Proof.Safety

set_option Elab.async false
set_option maxRecDepth 20000
set_option exponentiation.threshold 9000

/-! ## Small states -/

/-- The state that an outcome goes on with. -/
def after : Out → State
  | .next t => t
  | _ => State.reset

/-- A result that is there and has a property, from the property's evaluation. -/
theorem okOf {ε α : Type} {r : Except ε α} (f : α → Bool) (h : (match r with | .ok a => f a | .error _ => false) = true) :
    ∃ a, r = .ok a ∧ f a = true := by
  cases r with
  | ok a => exact ⟨a, rfl, h⟩
  | error x => cases h

theorem someOf {α : Type} {r : Option α} (f : α → Bool) (h : (match r with | some a => f a | none => false) = true) :
    ∃ a, r = some a ∧ f a = true := by
  cases r with
  | some a => exact ⟨a, rfl, h⟩
  | none => cases h

def p0 : Pr := ⟨0, false⟩
def e0 : EPre := ⟨⟨false, false, false, false⟩, 0, false⟩
def x0 : XPre := ⟨⟨false, false, false, false⟩, 0, false⟩

/-- The first 64 KiB mapped onto HBM at 0, readable and writable. -/
def page0 : Xlat := ⟨0, 65536, 0, true, true, false⟩

/-- Core 0 running job 1 of partition 0, with s1 = 5, s2 = 7, s3 = 256, s4 = −1, s5 = 3 and p1 true. -/
def tCore : Core :=
  { run := .running, job := 1, sreg := [(1, 5), (2, 7), (3, 256), (4, 0xFFFFFFFFFFFFFFFF), (5, 3)], preds := 2
    tlbS := [page0], tlbLW := [page0], strS := { pc := 64, halted := false }, strL := { halted := false }
    strM := { halted := false }, strX := { halted := false }, strW := { halted := false } }

def tPart : Partition := { jobs := [(1, { dispatcherJob [] with sup := false, n := 1, state := 4, disp := [] })] }

/-- The module READY with partition 0 on wing 0 and the core above; the turn is S's. -/
def tState : State :=
  { State.reset with
    dev := { phase := .ready, wings := [(0, 0)], uePorts := List.range 12, cxlPorts := [0, 1], dutyNext := 65536 }, cores := [(0, tCore)]
    parts := [(0, tPart)], events := [], evTurn := false }

theorem tHolds : Holds tState p0 := by unfold Holds; decide

/-! ## Well-formedness refuses (14_formats R237, R239, R243, R246) -/

theorem test_wf_fcmp : (Instr.fcmp p0 1 2 3 .ltn).wf = false := by decide
theorem test_wf_fcvt : (Instr.fcvt p0 1 2 .e8m0 .f32 false).wf = false := by decide
theorem test_wf_fcvt_nsat : (Instr.fcvt p0 1 2 .f16 .f32 true).wf = false := by decide
theorem test_wf_jr : (Instr.jr p0 31).wf = false := by decide
theorem test_wf_loop : (Instr.loop p0 0 1 0).wf = false := by decide
theorem test_wf_red : (Instr.red p0 1 2 .wt false .swap).wf = false := by decide
theorem test_wf_kwait : (Instr.kwait p0 1 2 3 4 false).wf = false := by decide
theorem test_wf_pld : (Instr.pld e0 1 1 .wt true 0).wf = false := by decide
theorem test_wf_mzero : (Instr.mzero e0 1 true true).wf = false := by decide
theorem test_wf_msta : (Instr.msta e0 1 false 2 .e8m0).wf = false := by decide
theorem test_wf_mret : (Instr.mret e0 1 2 .e8m0).wf = false := by decide
theorem test_wf_tst : (Instr.tst e0 1 2 false 3).wf = false := by decide
theorem test_wf_tadd : (Instr.tadd e0 1 2 false 3).wf = false := by decide
theorem test_wf_eloop : (Instr.eloop e0 1 0 0).wf = false := by decide
theorem test_wf_qget : (Instr.qget e0 1 .l0).wf = false := by decide
theorem test_wf_qseti : (Instr.qseti e0 1 .l1 0).wf = false := by decide
theorem test_wf_vcvt : (Instr.vcvt x0 1 2 .mx8).wf = false := by decide
theorem test_wf_vpack : (Instr.vpack x0 31 2 .mx8).wf = false := by decide
theorem test_wf_vpackSq : (Instr.vpackSq x0 1 2 .f32).wf = false := by decide
theorem test_wf_vunpk : (Instr.vunpk x0 1 31 .mx8).wf = false := by decide
theorem test_wf_vcvtNsat : (Instr.vcvtNsat x0 1 2 .f16).wf = false := by decide
theorem test_wf_vlda : (Instr.vlda x0 1 2 96).wf = false := by decide
theorem test_wf_xloop : (Instr.xloop x0 1 0 0).wf = false := by decide
theorem test_wf_linkDown : (Instr.linkDown 12).wf = false := by decide
theorem test_wf_linkUp : (Instr.linkUp (.cxl 2)).wf = false := by decide
theorem test_wf_cxlLinkDown : (Instr.cxlLinkDown 2).wf = false := by decide
theorem test_wf_packetDrop : (Instr.packetDrop 12).wf = false := by decide
theorem test_wf_throttle : (Instr.junctionThrottlePoint 4 true).wf = false := by decide
theorem test_wf_core : (Instr.freezeEnd 144).wf = false ∧ (Instr.correctableError 144).wf = false := by decide
theorem test_wf_core_hall : (Instr.coreRelease 144).wf = false ∧ (Instr.coreLeave 144).wf = false := by decide
theorem test_wf_core_trap : (Instr.trapTaken 144).wf = false ∧ (Instr.yieldDeadline 144).wf = false := by decide
theorem test_wf_kwaitTimeout : (Instr.kwaitTimeout 144).wf = false := by decide
theorem test_wf_placement : (Instr.placement 12).wf = false := by decide
theorem test_wf_conduit : (Instr.conduitEntryStart 4 0).wf = false ∧ (Instr.conduitEntryStart 0 12).wf = false := by decide
/-! ## Words of the spec's tables and examples, bit by bit (14_formats to 20_system) -/

theorem test_decode_addi : decode .S [0x004A0005] = .ok (.addi p0 5 0 5) := rfl
theorem test_decode_loop : decode .S [0x05405004] = .ok (.loop p0 0 5 4) := rfl
theorem test_decode_ld : decode .S [0x05CE1500] = .ok (.ld p0 7 1 .wt .i32 0) := rfl
theorem test_decode_st : decode .S [0x060A1180] = .ok (.st p0 5 1 .own .i64 0) := rfl
theorem test_decode_amo : decode .S [0x064A1320] = .ok (.amo p0 5 1 6 .wt false .add) := rfl
theorem test_decode_plog : decode .S [0x030A6008] = .ok (.plog p0 1 2 3 8) := rfl
theorem test_decode_launch : decode .S [0x088C2000] = .ok (.launch p0 6 2 0) := rfl
theorem test_decode_dbar : decode .S [0x09800023] = .ok (.dbar p0 1 false .part) := rfl
theorem test_decode_jend : decode .S [0x0A000000] = .ok (.jend p0) := rfl
theorem test_decode_mbsend : decode .S [0x0A405382] = .ok (.mbsend p0 5 7 2) := rfl
theorem test_decode_tdef : decode .S [0x0B0A1000] = .ok (.tdef p0 5 1) := rfl
theorem test_decode_pinvX : decode .S [0x0B103389] = .ok (.pinvX p0 8 3 7) := rfl
theorem test_decode_pcomm : decode .S [0x0B00530A] = .ok (.pcomm p0 5 6) := rfl
theorem test_decode_pqry : decode .S [0x0B123210] = .ok (.pqry p0 9 3 4) := rfl
theorem test_decode_sxqry : decode .S [0x0B52A582] = .ok (.sxqry p0 9 10 11) := rfl
theorem test_decode_sxload : decode .S [0x0B520584] = .ok (.sxload p0 9 11) := rfl
theorem test_decode_nop : decode .S [0x0C00000A] = .ok .nop := rfl
theorem test_decode_zero : decode .S [0] = .ok (.add p0 0 0 0) := rfl
theorem test_decode_tld : decode .L [0x6000C000] = .ok (.tld ⟨⟨false, true, true, false⟩, 0, false⟩ 1 8) := rfl
theorem test_decode_tldT : decode .L [0x60114800] = .ok (.tldT ⟨⟨false, true, true, false⟩, 0, false⟩ 2 9) := rfl
theorem test_decode_pldRet : decode .L [0x00228501] = .ok (.pld e0 5 0 .si true 1) := rfl
theorem test_decode_mcast : decode .L [0x80431000] = .ok (.mcast ⟨⟨true, false, false, false⟩, 0, false⟩ 6 2) := rfl
theorem test_decode_ccopy : decode .L [0x00526060] = .ok (.ccopy e0 4 12 3) := rfl
theorem test_decode_coll : decode .L [0x006268A0] = .ok (.coll e0 4 13 5) := rfl
theorem test_decode_mma :
    decode .M [0x981A1206] = .ok (.mma ⟨⟨true, false, false, true⟩, 2, true⟩ 2 false 1 1 3) := rfl
theorem test_decode_tadd : decode .W [0x04101DC0] = .ok (.tadd ⟨⟨false, false, false, false⟩, 1, false⟩ 0 3 true 7) := rfl
theorem test_decode_pst : decode .W [0x002080FF] = .ok (.pst e0 1 0 .own 255) := rfl
theorem test_decode_ebrq : decode .M [0x03201FFB] = .ok (.ebrq e0 (-5)) := rfl
theorem test_decode_etok : decode .W [0x23400000] = .ok (.etok ⟨⟨false, false, true, false⟩, 0, false⟩) := rfl
theorem test_decode_ehalt : decode .L [0x03500000] = .ok (.ehalt e0) := rfl
theorem test_decode_vaddVC : decode .X [0x4000107F, 0x3DCCCCCD] = .ok (.vaddVC x0 2 1 (.lit 0x3DCCCCCD)) := rfl
theorem test_decode_vfmai : decode .X [0xC203DCCC] = .ok (.vfmai 1 0 0x3DCCC) := rfl
theorem test_decode_xjmpInd : decode .X [0x80138100] = .ok (.xjmpInd x0 4) := rfl
theorem test_decode_literal_is_no_word : decode .X [0x3DCCCCCD] = .error .unassignedOpcode := rfl

/-! ## The machine as a whole -/

theorem witness_EncodedInstructionsDecode : (Instr.addi p0 5 0 5).wf = true ∧ (Instr.addi p0 5 0 5).isWord = true ∧
    (Instr.addi p0 5 0 5).on .S = true := by decide

theorem witness_DecodedWordsEncode : decode .S [0x004A0005] = .ok (.addi p0 5 0 5) := rfl

/-- A stream that goes, at the words given; the literal of X among them. -/
def atWords (st : Stream) (ws : List Word) : State := { tState.withFetchWord 32 0 with
  stream := st, cores := [(0, tCore.withWords st ws)] }

theorem tick_atWords (ws : List Word) : (atWords .S ws).tick = { atWords .S ws with now := (atWords .S ws).now + 1 } :=
  State.tick_quiet _ rfl (.inr (show 0 + 1 < 65536 by decide)) (show (0 + 1) % 256 ≠ 0 by decide)

theorem goes_S (ws : List Word) : StreamGoes (atWords .S ws).tick := tick_atWords ws ▸ {
  turn := rfl
  running := rfl
  going := rfl
  thawed := rfl
  noTrap := .inl rfl
  noDeadline := fun _ h => by cases h
  handler := fun h => by cases h
  given := ⟨rfl, rfl⟩
  noOutcome := .inl rfl
  noFault := fun _ h => by cases h
  awake := .inl rfl }

theorem witness_StepRunsTheDecodedInstruction_words : StreamGoes (atWords .S [0x004A0005]).tick ∧
    wordsAt ((atWords .S [0x004A0005]).tick.eng 0 .S) [0x004A0005] ∧ decode .S [0x004A0005] = .ok (.addi p0 5 0 5) ∧
    (here (atWords .S [0x004A0005]).tick).readsBad .S (.addi p0 5 0 5) = none ∧
    ∃ u, exec (.addi p0 5 0 5) (atWords .S [0x004A0005]).tick = .next u := by
  refine ⟨goes_S _, fun k w h => ?_, rfl, by decide, _, rfl⟩
  match k with
  | 0 => cases h; decide
  | k + 1 => simp at h

/-- A word that reads s1, which is poisoned. -/
def badWords : State := (atWords .S [0x00501005]).onCore 0 fun k => { k with sregBad := [1] }

theorem goes_bad : StreamGoes badWords.tick where
  turn := rfl
  running := rfl
  going := rfl
  thawed := rfl
  noTrap := .inl rfl
  noDeadline _ h := by cases h
  handler h := by cases h
  given := ⟨rfl, rfl⟩
  noOutcome := .inl rfl
  noFault _ h := by cases h
  awake := .inl rfl

theorem witness_StepRunsTheDecodedInstruction_poison : StreamGoes badWords.tick ∧
    wordsAt (badWords.tick.eng 0 .S) [0x00501005] ∧ decode .S [0x00501005] = .ok (.addi p0 8 1 5) ∧
    (here badWords.tick).readsBad .S (.addi p0 8 1 5) = some [5] := by
  refine ⟨goes_bad, fun k w h => ?_, rfl, by decide⟩
  match k with
  | 0 => cases h; decide
  | k + 1 => simp at h

theorem witness_StepRunsTheDecodedInstruction_unassigned : StreamGoes (atWords .S [0xFFFFFFFF]).tick ∧
    decode .S [0xFFFFFFFF] = .error .unassignedOpcode := ⟨goes_S _, rfl⟩

theorem witness_StepRunsTheDecodedInstruction_fetch : StreamGoes (atWords .S []).tick ∧
    ∀ w, ¬ wordsAt ((atWords .S []).tick.eng 0 .S) [w] := by
  refine ⟨goes_S _, fun w h => ?_⟩
  have h2 := (h 0 w rfl).2
  revert h2
  show ((atWords .S []).tick.eng 0 .S).img[16]? ≠ some w
  rw [show ((atWords .S []).tick.eng 0 .S).img[16]? = none from by decide]
  simp

/-- A management message of operation `op` on port 0. -/
def admin (op a b : Nat) : Msg :=
  { conn := 0, port := 0, endpoint := none, tc := 0, mode := .rod, auth := true, typ := 6, version := 1
    tag := 0, argA := dw (op + 65536 * a), argB := dw b, reserved := 0, body := [] }

/-- A destruction of partition 0, under way. -/
def destroyState : State := State.reset.onDev fun d => { d with destroying := some (admin 0x02 0 0) }

theorem witness_StepRunsTheDecodedInstruction_event : State.reset.tick.evTurn = true ∧
    State.reset.tick.dev.destroying = none ∧ State.reset.tick.events = [.powerOn] ∧ destroyState.tick.evTurn = true ∧
    destroyState.tick.dev.destroying = some (admin 0x02 0 0) ∧
    destroyState.tick.destroyWaits (forPart (admin 0x02 0 0)) = false := by decide

theorem witness_StepRunsTheDecodedInstruction_tick :
    (∀ c k w, (c, k) ∈ State.reset.cores → k.kwait = some w →
      State.waitEnds { State.reset with now := State.reset.now + 1 } w = false) ∧
    State.reset.dev.phase = .off ∧ (State.reset.now + 1) % 256 ≠ 0 :=
  ⟨fun _ _ _ h => (nomatch h), rfl, by decide⟩

/-- A line with a sharer, about which nothing is under way, keeps a state calm. -/
theorem witness_StepRunsTheDecodedInstruction_calm :
    ∀ e ∈ ({ tState with dir := [(64, { mode := .ptr [1] })] } : State).tick.dir, e.2.busy = none ∧ e.2.fwd = 0 := by decide

theorem taken20 (b : Nat) : AdminTaken tState (admin 0x20 0 b) 0x20 :=
  ⟨rfl, rfl, rfl, ⟨(by decide : 0 < 12), rfl⟩, (by decide : 0 ≤ 4064), rfl, rfl, rfl, rfl, ⟨rfl, rfl⟩, rfl⟩

theorem witness_PowerLimitTakesItsSteps : AdminTaken tState (admin 0x20 0 1200) 0x20 ∧ opB (admin 0x20 0 1200) = 1200 ∧
    AdminTaken tState (admin 0x20 0 2925) 0x20 ∧ opB (admin 0x20 0 2925) = 2925 ∧
    AdminTaken tState (admin 0x20 0 1201) 0x20 ∧ opB (admin 0x20 0 1201) = 1201 ∧ opA (admin 0x20 0 1200) = 0 :=
  ⟨taken20 _, rfl, taken20 _, rfl, taken20 _, rfl, rfl⟩

theorem test_setPower : (after (exec (.setPower (admin 0x20 0 1225)) tState)).dev.powerLimit = 1225 := by decide
theorem test_setPower_refused : (after (exec (.setPower (admin 0x20 0 1201)) tState)).dev.powerLimit = 2900 := by decide

theorem witness_StepsKeepMemoryCanonical : MemoryOk tState ∧ ∃ t, step tState = .next t := ⟨rfl, _, rfl⟩

/-! ## S: registers, comparison, branches (15_sequencer) -/

def s3 (i : Instr) : DWord := ((after (exec i tState)).coreAt 0).s 8

theorem test_add : s3 (.add p0 8 1 2) = 12 := by decide
theorem test_sub_wraps : s3 (.sub p0 8 1 2) = 0xFFFFFFFFFFFFFFFE := by decide
theorem test_mulh : s3 (.mulh p0 8 4 2) = 0xFFFFFFFFFFFFFFFF := by decide
theorem test_mulhN : s3 (.mulhN p0 8 4 2) = 6 := by decide
theorem test_div_by_zero : s3 (.div p0 8 1 9) = 0xFFFFFFFFFFFFFFFF := by decide
theorem test_rem_by_zero : s3 (.rem p0 8 1 9) = 5 := by decide
theorem test_shl_modulo : s3 (.shl p0 8 5 4) = 0x8000000000000000 := by decide
theorem test_sra : s3 (.sra p0 8 4 5) = 0xFFFFFFFFFFFFFFFF := by decide
theorem test_min_signed : s3 (.min p0 8 4 1) = 0xFFFFFFFFFFFFFFFF := by decide
theorem test_minN_natural : s3 (.minN p0 8 4 1) = 5 := by decide
theorem test_clz_zero : s3 (.clz p0 8 9) = 64 := by decide
theorem test_popc : s3 (.popc p0 8 2) = 3 := by decide
theorem test_addi_negative : s3 (.addi p0 8 1 0xFFF) = 4 := by decide
theorem test_andi_zero_extends : s3 (.andi p0 8 4 0xFFF) = 0xFFF := by decide
theorem test_lui : s3 (.lui p0 8 1025) = 0x00401000 := by decide
theorem test_add_to_s0 : ((after (exec (.add p0 0 1 2) tState)).coreAt 0).s 0 = 0 := by decide
theorem test_cmp : ((after (exec (.cmp p0 3 4 1 .lt) tState)).coreAt 0).p 3 = true := by decide
theorem test_cmp_natural : ((after (exec (.cmp p0 3 4 1 .ltn) tState)).coreAt 0).p 3 = false := by decide
theorem test_plog_and : ((after (exec (.plog p0 3 1 2 8) tState)).coreAt 0).p 3 = false := by decide
theorem test_sel : s3 (.sel p0 8 1 2 1) = 5 := by decide

theorem witness_IntegerAndPredicateWordsWriteTheirRow : Holds tState p0 ∧
    integerRow (here tState).s (.add p0 8 1 2) = some (p0, 8, .ofInt 64 (5 + 7)) ∧
    predicateRow (here tState) (.cmp p0 3 4 1 .lt) = some (p0, 3, conditionHolds .lt 0xFFFFFFFFFFFFFFFF 5) :=
  ⟨tHolds, rfl, rfl⟩

/-- 1.0 in s1, 2^−24 in s2, a NaN in s3. -/
def fState : State := tState.onCore 0 fun k => { k with sreg := [(1, 0x3F800000), (2, 0x33800000), (3, 0x7FC00001)] }

theorem fHolds : Holds fState p0 := by unfold Holds; decide

theorem test_fadd_tie_to_even : ((after (exec (.fadd p0 8 1 2) fState)).coreAt 0).s 8 = 0x3F800000 := by decide
theorem test_fmul : ((after (exec (.fmul p0 8 1 2) fState)).coreAt 0).s 8 = 0x33800000 := by decide
theorem test_fmax_nan : ((after (exec (.fmax p0 8 1 3) fState)).coreAt 0).s 8 = 0x7FC00000 := by decide
theorem test_fmin_nan : ((after (exec (.fmin p0 8 1 3) fState)).coreAt 0).s 8 = 0x3F800000 := by decide
theorem test_fcvt_i32 : ((after (exec (.fcvt p0 8 1 .i32 .f32 false) fState)).coreAt 0).s 8 = 1 := by decide
theorem test_fcmp_nan : ((after (exec (.fcmp p0 3 3 3 .ne) fState)).coreAt 0).p 3 = true := by decide

theorem witness_FloatWordsWriteTheirRow : Holds fState p0 ∧ (Instr.fadd p0 8 1 2).wf = true ∧
    (∃ v, floatRow (here fState).s (.fadd p0 8 1 2) = some (p0, 8, v)) ∧ Cond.ne.floating = true :=
  ⟨fHolds, rfl, ⟨_, rfl⟩, rfl⟩

theorem witness_SumsAreExactAndRoundToNearestEven :
    (∃ x, rational (.fin false 3 (-1)) = some x) ∧ (∃ x, rational (.fin true 1 200) = some x) := ⟨⟨_, rfl⟩, _, rfl⟩

theorem witness_BranchesReachTheirTargetOrTrap_reach : Holds tState p0 ∧ branchTarget tState (16 : BitVec 22) = 128 ∧
    branchTarget tState ((-16) : BitVec 22) = 0 ∧ conditionHolds .lt ((here tState).s 4) 0 ∧
    ¬ conditionHolds .eq ((here tState).s 4) 0 ∧ ((here tState).s 3).toNat = 256 := by
  refine ⟨tHolds, by decide, by decide, ?_, ?_, by decide⟩
  · show (BitVec.toInt _) < _; decide
  · show ¬ (_ = _); decide

theorem witness_BranchesReachTheirTargetOrTrap_trap : Holds tState p0 ∧
    branchTarget tState ((-17) : BitVec 22) = -4 ∧ branchTarget tState (16368 : BitVec 22) = 65536 ∧
    ((here tState).s 1).toNat % 4 ≠ 0 ∧
    ((here (tState.onCore 0 fun k => k.setS 3 0x10000)).s 3).toNat = 65536 :=
  ⟨tHolds, by decide, by decide, by decide, by decide⟩

theorem test_b : ((after (exec (.b p0 16) tState)).eng 0 .S).pc = 128 := by decide
theorem test_b_out : ((after (exec (.b p0 (-17)) tState)).eng 0 .S).pc = 64 := by decide
theorem test_call : ((after (exec (.call p0 16) tState)).coreAt 0).s 31 = 68 := by decide
theorem test_loop_zero : ((after (exec (.loop p0 0 9 4) tState)).eng 0 .S).pc = 84 := by decide

/-- The S stream with lc0 = 2 from address 4 and lc1 = 1. -/
def loopState : State := tState.onEng 0 .S fun e => (e.setLoop 0 ⟨2, 4⟩).setLoop 1 ⟨1, 8⟩

theorem test_lend_again : ((after (exec (.lend p0 0) loopState)).eng 0 .S).pc = 4 := by decide
theorem test_lend_ends : ((after (exec (.lend p0 1) loopState)).eng 0 .S).pc = 68 := by decide

theorem witness_LoopsCountDown : Holds loopState p0 ∧ ((here loopState).s 9).setWidth 32 = 0#32 ∧
    ((here loopState).s 1).setWidth 32 = 5#32 ∧ ((loopState.eng 0 .S).loop 0).count = 2 ∧
    ((loopState.eng 0 .S).loop 1).count = 1 ∧ ((tState.eng 0 .S).loop 0).count = 0 :=
  ⟨by unfold Holds; decide, by decide, by decide, by decide, by decide, by decide⟩

/-- A word of L that takes a token from M, which is not there, and one whose guard g1 is false. -/
def eWp : EPre := ⟨⟨true, false, false, false⟩, 0, false⟩
def eG1 : EPre := ⟨⟨false, false, false, false⟩, 1, false⟩
def xWp : XPre := ⟨⟨true, false, false, false⟩, 0, false⟩
def xG1 : XPre := ⟨⟨false, false, false, false⟩, 1, false⟩
def eWs : EPre := ⟨⟨false, true, false, false⟩, 0, false⟩

/-- L has issued a return form of `pld`, whose token is taken and whose one entry is still to be put. -/
def issuedState : State := tState.onEng 0 .L fun e => { e with issued := true, ret := some { left := [1], issued := true } }

theorem ready0 (st : Stream) : Ready tState st e0.tok := ⟨by cases st <;> decide, by cases st <;> rfl⟩

theorem witness_WordsThatHaveNoEffect :
    (prefixS (.rdv ⟨1, true⟩) = some ⟨1, true⟩ ∧ ¬ Holds tState ⟨1, true⟩) ∧
    (prefixE .S (.tld eG1 1 2) = some (.L, eG1) ∧ Ready tState .L eG1.tok ∧ guardE tState .L eG1 = false) ∧
    (prefixX (.xtok xG1) = some xG1 ∧ Ready tState .X xG1.tok ∧ guardX tState xG1 = false) ∧
    ({ tState with stream := .L : State }.stream ≠ .S ∧ Ready { tState with stream := .L } .L eG1.tok ∧
      guardE { tState with stream := .L } .L eG1 = false) ∧
    (prefixE .S (.tld eWp 1 2) = some (.L, eWp) ∧ (tState.eng 0 .L).issued = false ∧
      (here tState).tokenStop .L eWp.tok = some 1) ∧
    (prefixE .L (.enext eWs 0 true) = some (.L, eWs) ∧ (here tState).tokenStop .L eWs.tok = some 2) ∧
    (prefixE .S (.pld eWp 1 2 .wt true 0) = some (.L, eWp) ∧ (here tState).strL.ret.filter Returning.issued = none) ∧
    (prefixX (.xtok xWp) = some xWp ∧ (tState.eng 0 .X).issued = false ∧ (here tState).tokenStop .X xWp.tok = some 1) ∧
    ((here tState).strX.ret.filter Returning.issued = none ∧ ((here issuedState).eng .L).issued = true) := by
  refine ⟨⟨rfl, ?_⟩, ⟨rfl, ready0 .L, by decide⟩, ⟨rfl, ready0 .X, by decide⟩, ⟨by decide, ⟨rfl, rfl⟩, by decide⟩,
    ⟨rfl, rfl, by decide⟩, ⟨rfl, by decide⟩, ⟨rfl, rfl⟩, ⟨rfl, rfl, by decide⟩, rfl, rfl⟩
  unfold Holds; decide

theorem test_enext_waits : ((after (exec (.enext eWs 0 true) { tState with stream := .L })).eng 0 .L).wait.map (·.code) = some 2 := by
  decide

theorem test_pld_issued_goes_on : ((after (exec (.pld eWp 1 2 .wt true 0) { issuedState with stream := .L })).coreAt 0).rqAt 1 = [1] := by
  decide

theorem witness_RegistersKeepWhatIsNotWritten : computes (.add p0 8 1 2) = true ∧
    (∃ t, exec (.add p0 8 1 2) tState = .next t) ∧ registerOf (.add p0 8 1 2) ≠ some 9 :=
  ⟨by decide, ⟨_, rfl⟩, by decide⟩
/-! ## S: plain memory, atomics, semaphores (15_sequencer R263 to R267) -/

/-- The state above with the first GiB mapped by a table at 0 for every agent, semaphores and events in service, and
data at 0x2000. -/
def mCore : Core := { tCore with
  kbase := 0x3001, sreg := [(1, 5), (2, 7), (3, 0x2000), (4, 0x2001), (5, 0x2010), (6, 2 ^ 32), (7, 3)] }
def mPart : Partition := { tPart with ptroot := 1, evbase := 0x10000000001, events := [(5, 7)] }
def mState : State := { tState with
  mem := [(0, 0x01), (1, 0x10), (0x1000, 0x0F), (0x2000, 0xFE), (0x2001, 0xFF), (0x2010, 0x28), (0x3004, 9)]
  cores := [(0, mCore)], parts := [(0, mPart)] }

theorem mHolds : Holds mState p0 := by unfold Holds; decide

theorem test_mState_wf : MemoryOk mState := by unfold MemoryOk; decide

theorem test_ld_sign : ((after (exec (.ld p0 8 3 .wt .i16 0) mState)).coreAt 0).s 8 = 0xFFFFFFFFFFFFFFFE := by decide
theorem test_ld_zero : ((after (exec (.ld p0 8 3 .own .n8 1) mState)).coreAt 0).s 8 = 0xFF := by decide
theorem test_ld_misaligned : ((after (exec (.ld p0 8 4 .own .i16 0) mState)).coreAt 0).s 8 = 0 := by decide

/-- The state after a word, with the core's stores performed (R79, R156). -/
def performed (i : Instr) (s : State) : State := (after (exec i s)).performOwn 0

theorem test_st_wt : Mem.readN (performed (.st p0 1 3 .wt .i32 0) mState).mem 0x2000 4 = [5, 0, 0, 0] := by decide
theorem test_st_wt_retires_first : byteAt (after (exec (.st p0 1 3 .wt .i32 0) mState)) 0x2000 = [0xFE] := by decide
theorem test_st_own_at_home : byteAt (performed (.st p0 1 3 .own .i32 0) mState) 0x2000 = [5] := by decide
theorem test_amo_old : ((after (exec (.amo p0 8 5 1 .wt false .add) mState)).coreAt 0).s 8 = 40 := by decide
theorem test_amo_new : byteAt (after (exec (.amo p0 8 5 1 .wt false .add) mState)) 0x2010 = [45] := by decide
theorem test_red_home : byteAt (performed (.red p0 5 1 .wt false .add) mState) 0x2010 = [45] := by decide
theorem test_cas_fails : byteAt (after (exec (.cas p0 1 5 2 .wt false) mState)) 0x2010 = [40] := by decide
theorem test_ksig : byteAt (after (exec (.ksig p0 1 1) mState)) 0x3004 = [14] := by decide
theorem test_kset : byteAt (performed (.kset p0 1 1) mState) 0x3004 = [5] := by decide
theorem test_kwait_takes : byteAt (after (exec (.kwait p0 8 1 0 1 false) mState)) 0x3004 = [4] := by decide
theorem test_kwait_one : ((after (exec (.kwait p0 8 1 0 1 false) mState)).coreAt 0).s 8 = 1 := by decide

/-- S stands at a load of the data behind which a load of another word stands, and at one that has been read ahead. -/
def aheadState : State := mState.onEng 0 .S fun e => { e with
  img := List.replicate 17 0 ++ [(encode (.ld p0 9 5 .wt .i32 0)).getD 0 0] }
def earlyState : State := mState.onEng 0 .S fun e => { e with early := some ⟨64, 0, [7, 0]⟩ }

theorem test_ld_early : ((after (exec (.ld p0 8 3 .wt .i16 0) earlyState)).coreAt 0).s 8 = 7 := by decide

/-- Whether a word waits is the free value, where a later load can be performed first. -/
theorem chosen_of {s : State} {c : Nat} {st : Stream} {f : State → Option State} (h : (s.eng c st).earlyRead = none)
    (hf : (f s).isSome = true) : (s.loadOrder c st f).1 = Config.loadsAhead s.freeCount := by
  unfold State.loadOrder
  cases hx : f s with
  | none => simp [hx] at hf
  | some u =>
    simp only [h, Option.isSome_none, Option.isNone_some, Bool.and_false, Bool.or_self, Bool.false_eq_true, if_false]
    cases hc : Config.loadsAhead s.freeCount <;> simp [State.draw, hc]

/-- The later load is there to be performed first, and whether it is, is the free value; whichever it is, one of the first two
clauses says what the earlier one does. -/
theorem witness_LoadsAndStoresComplete : Holds mState p0 ∧ (mState.eng 0 .S).earlyRead = none ∧
    (ordered mState 8 3 .i16 0).1 = false ∧ (accessAddr mState 3 0 2).toNat % 2 = 0 ∧
    (∃ t u pa bs, (sPast (ordered mState 8 3 .i16 0).2).xlate 0 .S 0x2000 needRd = .ok (t, pa) ∧
      t.coreLoad 0 .S .si pa 2 = (u, bs, false)) ∧
    (Holds aheadState p0 ∧ (aheadState.loadAhead 0 8 3 .i16 0).isSome = true ∧
      (ordered aheadState 8 3 .i16 0).1 = Config.loadsAhead aheadState.freeCount) ∧
    ((mState.eng 0 .S).early = none ∧ mState.loadAhead 0 8 3 .i16 0 = none) ∧
    (earlyState.eng 0 .S).earlyRead = some [7, 0] ∧
    ∃ t pa, (sPast mState).xlate 0 .S 0x2000 needWr = .ok (t, pa) :=
  ⟨mHolds, rfl, rfl, by decide, ⟨_, _, _, _, rfl, rfl⟩, ⟨by unfold Holds; decide, by decide, chosen_of rfl (by decide)⟩, ⟨rfl, rfl⟩, by decide, _, _, rfl⟩

/-- The data's unit poisoned. -/
def badState : State := { mState with poison := [0x80] }

theorem witness_PlainAccessesTrapInOrder : Holds badState p0 ∧ (badState.eng 0 .S).earlyRead = none ∧
    (∀ (d b : Fin 32) (wid : Wid) (disp : BitVec 7), ordered badState d b wid disp = (false, badState)) ∧
    (accessAddr badState 4 0 2).toNat % 2 ≠ 0 ∧
    (sPast badState).xlate 0 .S (2 ^ 32) needRd = .error (.trap 0x07 0x100000000 none) ∧
    (sPast badState).xlate 0 .S (2 ^ 32) needWr = .error (.trap 0x07 0x100000000 none) ∧
    (∃ t u pa bs, (sPast badState).xlate 0 .S 0x2000 needRd = .ok (t, pa) ∧
      t.coreLoad 0 .S .wt pa 2 = (u, bs, true)) ∧
    ((here badState).s 4).toNat % atomicWidth false ≠ 0 :=
  ⟨by unfold Holds; decide, rfl, fun _ _ _ _ => rfl, by decide, rfl, rfl, ⟨_, _, _, _, rfl, rfl⟩, by decide⟩

theorem witness_PlainAccessesTrapInOrder_atomics : Holds badState p0 ∧ ((here badState).s 6).toNat % 4 = 0 ∧
    (sPast badState).xlate 0 .S ((here badState).s 6).toNat needBoth = .error (.trap 0x07 0x100000000 none) ∧
    (sPast badState).xlate 0 .S ((here badState).s 6).toNat needWr = .error (.trap 0x07 0x100000000 none) ∧
    ((here badState).s 3).toNat % 4 = 0 ∧
    ∃ t pa old k, (sPast badState).xlate 0 .S ((here badState).s 3).toNat needBoth = .ok (t, pa) ∧
      AtomicFinds t 0 pa 4 k old ∧ unitPoisoned k.poison pa 4 = true :=
  ⟨by unfold Holds; decide, by decide, rfl, rfl, by decide, _, _, _, _, rfl, ⟨.inr (by decide), rfl, rfl⟩, by decide⟩

/-- Semaphores in service over a page that is not mapped, and over a poisoned unit. -/
def farSems : State := badState.onCore 0 fun k => { k with kbase := 0x100000001 }
def badSems : State := { mState with poison := [0xC0] }

/-- The pending wait of a `kwait` on k1 that begins now. -/
def waitHere (s : State) : KWait := { (here s).kwaitFor 1 2 1 false s.now with pa := s.semPa s.core 1 }
def waiting (s : State) : State := s.setCore s.core { here s with kwait := some (waitHere s) }

theorem witness_PlainAccessesTrapInOrder_walks : Holds farSems p0 ∧ semaphoresOn (here farSems) = true ∧
    (sPast farSems).xlate 0 .S (semaphoreVa (here farSems) 1) needWr = .error (.trap 0x07 0x100000004 none) ∧
    (∃ t, (sPast farSems).released 0 .S .part = .ok t ∧
      t.xlate 0 .S (semaphoreVa (here farSems) 1) needBoth = .error (.trap 0x07 0x100000004 none)) ∧
    (sPast (waiting farSems)).xlate 0 .S (semaphoreVa (here farSems) 1) needBoth = .error (.trap 0x07 0x100000004 none) :=
  ⟨by unfold Holds; decide, rfl, rfl, ⟨_, rfl, rfl⟩, rfl⟩

theorem witness_PlainAccessesTrapInOrder_poison : Holds badSems p0 ∧ semaphoresOn (here badSems) = true ∧
    (∃ t u pa old k, (sPast badSems).released 0 .S .part = .ok t ∧
      t.xlate 0 .S (semaphoreVa (here badSems) 1) needBoth = .ok (u, pa) ∧ AtomicFinds u 0 pa 4 k old ∧
      unitPoisoned k.poison pa 4 = true) ∧
    ∃ t pa old k, (sPast (waiting badSems)).xlate 0 .S (semaphoreVa (here badSems) 1) needBoth = .ok (t, pa) ∧
      AtomicFinds t 0 pa 4 k old ∧ unitPoisoned k.poison pa 4 = true :=
  ⟨by unfold Holds; decide, rfl, ⟨_, _, _, _, _, rfl, rfl, ⟨.inr (by decide), rfl, rfl⟩, by decide⟩,
    _, _, _, _, rfl, ⟨.inr (by decide), rfl, rfl⟩, by decide⟩

theorem test_amo_poison : ((after (exec (.amo p0 8 3 1 .wt false .add) badState)).coreAt 0).trapRec.tcause = 0x40 := by
  decide

/-- Core 0 has bought the line of the data with a store of 45, performed. -/
def ownState : State := performed (.st p0 2 5 .own .i32 0) mState

/-- A request of `red` to a line of an owner, and to one of none. -/
def redReq : HomeReq := { core := some 1, part := 0, line := 0x40, kind := .red 4 .add false 1 }

theorem witness_AtomicsReadAndWriteInOneStep : Holds mState p0 ∧ ((here mState).s 5).toNat % 4 = 0 ∧
    (∃ t pa old k, (sPast mState).xlate 0 .S 0x2010 needBoth = .ok (t, pa) ∧ AtomicReads t 0 pa 4 k old) ∧
    (∃ t pa, (sPast mState).xlate 0 .S 0x2010 needWr = .ok (t, pa) ∧
      holds (t.ownFirst 0 (pa / 128)) 0 (pa / 128) = false) ∧ Holds ownState p0 ∧
    (∃ t pa, (sPast ownState).xlate 0 .S 0x2010 needWr = .ok (t, pa) ∧
      holds (t.ownFirst 0 (pa / 128)) 0 (pa / 128) = true) ∧
    mState.owner 0x40 = none ∧ (mState.dirAt 0x40).replies = [] ∧ ∃ d k, ownState.owner 0x40 = some (d, k) :=
  ⟨mHolds, by decide, ⟨_, _, _, _, rfl, ⟨.inr (by decide), rfl, rfl⟩, by decide⟩, ⟨_, _, rfl, by decide⟩,
    by unfold Holds; decide, ⟨_, _, rfl, by decide⟩, by decide, by decide, _, _, rfl⟩

theorem test_red_at_owner : byteAt (ownState.perform redReq) 0x2010 = [8] ∧ byteAt (mState.perform redReq) 0x2010 = [41] := by
  decide

theorem coherent_m : Coherent mState := by
  have empty : ∀ c, (mState.coreAt c).copies = [] := by
    intro c
    by_cases e : c = 0
    · subst e; rfl
    · simp [State.coreAt, findD, mState, tState, find, Ne.symm e]
  constructor <;> intro c <;> rw [empty] <;> simp

theorem witness_StoredBytesReadBackAndOthersStay : Coherent mState ∧ Still mState 0 (0x2000 / 128) ∧ 0x2000 % [1, 2].length = 0 :=
  ⟨coherent_m, ⟨fun _ => (by decide : 0 < 65535), by decide, by decide⟩, by decide⟩

theorem witness_StepsKeepCopiesCoherent : Coherent mState ∧ ∃ t, step mState = .next t := ⟨coherent_m, _, rfl⟩

theorem witness_SemaphoresCountAndKwaitTakes_change : Holds mState p0 ∧ semaphoresOn (here mState) = true ∧
    semaphoresOn (here tState) = false ∧ Holds tState p0 ∧ (∃ t, (sPast tState).released 0 .S .part = .ok t) ∧
    (∃ t pa, (sPast mState).xlate 0 .S (semaphoreVa (here mState) 1) needWr = .ok (t, pa)) ∧
    ∃ t u pa old k, (sPast mState).released 0 .S .part = .ok t ∧
      t.xlate 0 .S (semaphoreVa (here mState) 1) needBoth = .ok (u, pa) ∧ AtomicReads u 0 pa 4 k old :=
  ⟨mHolds, by decide, by decide, tHolds, ⟨_, rfl⟩, ⟨_, _, rfl⟩,
    _, _, _, _, _, rfl, rfl, ⟨.inr (by decide), rfl, rfl⟩, by decide⟩

/-- The threshold 9 of s1, met exactly by the counter k1; 10, not met, with a limit of 0 cycles, and of 5. -/
def kState (thr limit : DWord) : State := mState.onCore 0 fun k => { k with sreg := [(1, thr), (2, limit)] }

/-- A `kwait` with a limit on k1 that begins now, and its state. -/
def limited (s : State) : KWait := { (here s).kwaitFor 1 2 1 true s.now with pa := s.semPa s.core 1 }
def limiting (s : State) : State := s.setCore s.core { here s with kwait := some (limited s) }

/-- The test of `kwait` on k1 reads 9. -/
def Reads9 (s : State) : Prop := Holds s p0 ∧ semaphoresOn (here s) = true ∧
  ∃ t pa k, (sPast (limiting s)).xlate 0 .S 0x3004 needBoth = .ok (t, pa) ∧ AtomicReads t 0 pa 4 k 9

theorem witness_SemaphoresCountAndKwaitTakes_wait :
    Reads9 (kState 9 0) ∧ Reads9 (kState 10 0) ∧ Reads9 (kState 10 5) := by
  refine ⟨⟨?_, rfl, _, _, _, rfl, ⟨.inr (by decide), rfl, rfl⟩, by decide⟩, ⟨?_, rfl, _, _, _, rfl, ⟨.inr (by decide), rfl, rfl⟩,
    by decide⟩, ?_, rfl, _, _, _, rfl, ⟨.inr (by decide), rfl, rfl⟩, by decide⟩ <;> (unfold Holds; decide)

theorem witness_SemaphoresCountAndKwaitTakes_cases :
    (limited (kState 9 0)).thr = 9 ∧ (limited (kState 10 0)).thr = 10 ∧ (limited (kState 10 0)).limit = some 0 ∧
    (limited (kState 10 5)).limit = some 5 ∧ ((kState 10 5).cores.map Prod.fst).Pairwise (· < ·) := by decide

/-! ## S: queues, jobs, events, barriers, messages (15_sequencer R268 to R277) -/

/-- Queues: L's full, M's empty; a return entry from X; mailbox 1 full. -/
def qCore : Core := { mCore with
  sq := [(0, List.replicate 64 1)], rq := [(0, [7, 8])], mail := [(1, { word := 9, full := true })], dom := [] }
def qJob : Job := { dispatcherJob [] with
  sup := false, state := 4, n := 3, capbase := 0x4001
  idx := [(0, { core := some 0, st := .running }), (1, { st := .saved }), (2, { st := .ended })] }
def qState : State := { mState with
  cores := [(0, qCore)]
  parts := [(0, { mPart with jobs := [(1, qJob)] })] }

theorem qHolds : Holds qState p0 := by unfold Holds; decide

theorem test_qput_full : (after (exec (.qput p0 1 0) qState)) = sWaits qState 5 [5] := by decide
theorem test_outc : ((after (exec (.outc p0 2 1) qState)).coreAt 0).sqAt 1 = [7] := by decide
theorem test_outc_stop : ((after (exec (.outc p0 9 1) qState)).coreAt 0).sqAt 1 = [0] := by decide
theorem test_qtake : ((after (exec (.qtake p0 8 false) qState)).coreAt 0).s 8 = 7 := by decide
theorem test_mbrecv : ((after (exec (.mbrecv p0 8 1) qState)).coreAt 0).s 8 = 9 := by decide
theorem test_mbsend : (((after (exec (.mbsend p0 1 9 2) qState)).coreAt 0).mbox 2).word = 5 := by decide

theorem witness_QueueMailboxAndNotifyWords_queue : Holds qState p0 ∧ ((here qState).sqAt 0).length = 64 ∧
    ((here qState).sqAt 1).length = 0 ∧ (here qState).rqAt 0 = [7, 8] ∧ (here qState).rqAt 1 = [] :=
  ⟨qHolds, by decide, by decide, by decide, by decide⟩

/-- Job core index that a register of the core names. -/
def toIdx (b : Fin 32) : Nat := ((here qState).s b).toNat % qJob.n

theorem witness_QueueMailboxAndNotifyWords_mail : Holds qState p0 ∧
    (∃ u, (sPast qState).released 0 .S .part = .ok u ∧ u.jobOf 0 = some qJob ∧ u.destOf qJob (toIdx 9) = .core 0 ∧
      ((u.coreAt 0).mbox 2).full = false ∧ ((u.coreAt 0).mbox 1).full = true ∧ u.destOf qJob (toIdx 2) = .away ∧
      u.destOf qJob (toIdx 1) = .ended) ∧
    qJob.nextSender (toIdx 9) 2 = none ∧ ((here qState).mbox 1).full = true ∧ ((here qState).mbox 2).full = false :=
  ⟨qHolds, ⟨_, rfl, by decide, by decide, by decide, by decide, by decide, by decide⟩, by decide, by decide, by decide⟩

/-- Another core's sender waits for mailbox 2 of index 0. -/
def awaited : State := qState.setJob 0 1 { qJob with senders := [(0, 2, 7)] }

theorem witness_QueueMailboxAndNotifyWords_awaited : Holds awaited p0 ∧
    ∃ u j, (sPast awaited).released 0 .S .part = .ok u ∧ u.jobOf 0 = some j ∧ u.destOf j 0 = .core 0 ∧
      ((u.coreAt 0).mbox 2).full = false ∧ ¬ (j.nextSender 0 2 = none ∨ j.nextSender 0 2 = some 0) :=
  ⟨by unfold Holds; decide, _, _, rfl, rfl, by decide, by decide, by decide⟩

/-- Capability entries of the table at 0x4000: 3 of kind 1 with notify and an allowance of one, 4 with none, 5 of kind 2,
6 without notify. -/
def nState : State := { qState with mem := mState.mem ++
  [(0x4060, 0x43), (0x4061, 2), (0x4062, 1), (0x4080, 0x43), (0x40A0, 0x45), (0x40C0, 0x03)] }
theorem witness_QueueMailboxAndNotifyWords_notify : Holds nState p0 ∧
    ∃ v u, (sPast nState).released 0 .S .sys = .ok v ∧ v.calm = u ∧
    (∃ e, u.capAt 0 3 = .ok e ∧ (e.kind == 1 && e.nt && decide (findD u.dev.unitsOut e.pa 0 < e.allow)) = true) ∧
    (∃ e, u.capAt 0 4 = .ok e ∧ (e.kind == 1 && e.nt && decide (e.allow ≤ findD u.dev.unitsOut e.pa 0)) = true) ∧
    (∃ e, u.capAt 0 5 = .ok e ∧ (e.kind != 1) = true) ∧
    ∃ e, u.capAt 0 6 = .ok e ∧ (e.kind == 1 && !e.nt) = true :=
  ⟨by unfold Holds; decide, _, _, rfl, rfl, okOf _ (by decide), okOf _ (by decide), okOf _ (by decide), okOf _ (by decide)⟩

theorem test_hmsg : (after (exec (.hmsg p0 1 3) nState)).dev.sent = [.notify 2 0 5 3 0] := by decide

/-- A launch record at 0x8000 for one core, its image table at 0x9000 with five empty images, and records that fall short:
at 0x8800 for two cores on a partition of one (11 of wing 0 retired), at 0x8400 one of no version. -/
def lState : State := { qState with
  dev := { qState.dev with retired := (List.range 11).map (· + 1) }
  mem := qState.mem ++ [(0x8000, 1), (0x8005, 1), (0x8009, 0x90), (0x8011, 0x20), (0x8015, 0x20), (0x8019, 0x20),
    (0x8405, 1), (0x8800, 1), (0x8805, 2)] }

theorem lState_wf : MemoryOk lState := by unfold MemoryOk; decide

theorem lHolds : Holds lState p0 := by unfold Holds; decide

/-- The record of `launch` at an address is read and its state word can be written, and the record is as `f` says. -/
def RecordRead (s : State) (va : Nat) (f : List Byte → Bool) : Prop :=
  ∃ v u, (sPast s).released 0 .S .part = .ok v ∧ v.calm = u ∧
  (∃ r, u.readFor 0 false va 80 = .ok r ∧ f r = true) ∧
  ∃ pa, u.xlateFor 0 false (va + 48) needWr = .ok pa ∧ (pa == va + 48) = true

theorem test_launch_number :
    ((after (exec (.launch p0 8 9 0) (lState.onCore 0 fun k => k.setS 9 0x8000))).coreAt 0).s 8 = 1 := by decide
theorem test_launch_bad :
    ((after (exec (.launch p0 8 9 0) (lState.onCore 0 fun k => k.setS 9 0x8400))).coreAt 0).s 8 = 2 * 2 ^ 56 := by decide
theorem test_launch_few :
    ((after (exec (.launch p0 8 9 0) (lState.onCore 0 fun k => k.setS 9 0x8800))).coreAt 0).s 8 = 1 * 2 ^ 56 := by decide

theorem witness_LaunchAnswersRefusalOrJob : Holds lState p0 ∧ (accessAddr lState 4 0 64).toNat % 64 ≠ 0 ∧
    (lState.partCores 0).length = 1 ∧
    RecordRead lState 0x8000 (fun r => recGet r 5 1 == 1 && !badRecord (lState.partAt 0) r && recGet r 8 8 == 0x9000) ∧
    (∃ v u, (sPast lState).released 0 .S .part = .ok v ∧ v.calm = u ∧
      ∃ b, u.readFor 0 false 0x9000 16 = .ok b ∧ (imagesIn b).isSome = true) ∧
    RecordRead lState 0x8400 (fun r => recGet r 5 1 == 1 && badRecord (lState.partAt 0) r) ∧
    RecordRead lState 0x8800 (fun r => recGet r 5 1 == 2) :=
  ⟨lHolds, by decide, by decide, ⟨_, _, rfl, rfl, okOf _ (by decide), okOf _ (by decide)⟩, ⟨_, _, rfl, rfl, okOf _ (by decide)⟩,
    ⟨_, _, rfl, rfl, okOf _ (by decide), okOf _ (by decide)⟩, ⟨_, _, rfl, rfl, okOf _ (by decide), okOf _ (by decide)⟩⟩

/-- The threshold 7 of event 5 reached; events out of service; a waiter of the core that has been met. -/
def metState : State := mState.onPart 0 fun q => { q with waiters := [{ ev := 5, thr := 9, who := .stream 0, met := true }] }

theorem test_evsig : (after (exec (.evsig p0 1 2 false) mState)).eventCount 0 5 = 14 := by decide
theorem test_evsig_set : (after (exec (.evsig p0 1 9 true) mState)).eventCount 0 5 = 0 := by decide
theorem test_evsig_saturates :
    (after (exec (.evsig p0 1 2 false) (mState.onPart 0 fun q => { q with events := [(5, 0xFFFFFFFE)] }))).eventCount 0 5 =
      0xFFFFFFFF := by decide

theorem witness_EventWordsSignalWaitAndSaturate : Holds mState p0 ∧ eventsOn mState ∧ ownWaiter mState = none ∧
    eventOf mState 1 = 5 ∧ mState.eventCount 0 5 = 7 ∧ amountOf mState 2 = 7 ∧ amountOf mState 3 = 0x2000 ∧
    (Holds tState p0 ∧ ¬ eventsOn tState ∧ ownWaiter tState = none) ∧
    (Holds metState p0 ∧ ∃ w, ownWaiter metState = some w ∧ w.met = true) ∧ (mState.partAt 0).hasEvents = true :=
  ⟨mHolds, by unfold eventsOn; decide, by decide, by decide, by decide, by decide, by decide,
    ⟨tHolds, by unfold eventsOn; decide, by decide⟩, ⟨by unfold Holds; decide, ⟨_, rfl, rfl⟩⟩, by decide⟩

/-- Engines halted; in a handler; with a yield asked for. -/
def haltedCore : Core := { tCore with
  strL := { img := [0] }, strM := {}, strX := {}, strW := {} }
def haltedState : State := { tState with cores := [(0, haltedCore)] }
def handlerState : State := { tState with cores := [(0, { tCore with thnd := true })] }
def yieldState : State := { tState with cores := [(0, { tCore with yieldAt := some 0 })] }

theorem test_rdv : ((after (exec (.rdv p0) haltedState)).coreAt 0).strL.halted = false := by decide
theorem test_rdv_waits : ((after (exec (.rdv p0) tState)).eng 0 .S).pc = 64 := by decide
theorem test_opb_no_yield : ((after (exec (.opb p0 1) tState)).eng 0 .S).pc = 68 := by decide

theorem witness_JobWordsRestartAndLeave :
    (Holds handlerState p0 ∧ (here handlerState).thnd = true) ∧
    (Holds haltedState p0 ∧ (here haltedState).thnd = false ∧ (here haltedState).enginesHalted = true) ∧
    (Holds tState p0 ∧ (here tState).enginesHalted = false ∧ (here tState).yieldAt = none) ∧
    (Holds yieldState p0 ∧ (here yieldState).yieldAt ≠ none ∧ (here yieldState).thnd = false ∧
      (here yieldState).allRetired = true) := by
  unfold Holds; decide

theorem test_dbar_alone : (after (exec (.dbar p0 1 false .core) tState)).events = [.dbarComplete 0 1] := by decide

/-- Core 0 arrived at register 1, alone in its unit. -/
def arrivedState : State := tState.onPart 0 fun q => { q with arrivals := [⟨1, 0, 0, false, 0, 1⟩] }

/-- A job of cores 0 and 1 on wing 0; core 1 has arrived at the die-wide barrier of the two, core 0 comes to it by wing. -/
def twoJob : Job := { dispatcherJob [] with
  sup := false, n := 2, state := 4, disp := [], idx := [(0, { core := some 0, st := .running }), (1, { core := some 1, st := .running })] }
def metWrong : State := { tState with
  cores := [(0, { tCore with dom := [(1, { level := levelNum .wing, count := 2 })] }), (1, tCore)]
  parts := [(0, { tPart with jobs := [(1, twoJob)], arrivals := [⟨1, 1, levelNum .die, false, 0, 1⟩] })] }

theorem test_dbarComplete : (((after (exec (.dbarComplete 0 1) arrivedState)).coreAt 0).domAt 1).phase = true := by decide
theorem test_dbar_mismatch : ((after (exec (.dbar p0 1 false .wing) metWrong)).coreAt 0).trapRec.tcause = 0x0B := by decide

theorem witness_BarriersArriveAndComplete : Holds tState p0 ∧ (tState.partAt 0).arrivals = [] ∧
    ((here tState).domAt 1).level = levelNum .core ∧ ((here tState).domAt 1).phase = false ∧
    (here tState).allRetired = true ∧ (∃ u, tState.released 0 .S .core = .ok u) ∧
    ((here tState).domAt 1).level ≠ levelNum .wing ∧ (∃ a ∈ (arrivedState.partAt 0).arrivals, a.core = 0) ∧
    (∃ me, (arrivedState.partAt 0).arrivals.find? (fun a => a.core == 0 && a.reg == 1) = some me ∧
      ((arrivedState.coreAt 0).domAt 1).count ≤
        ((arrivedState.partAt 0).arrivals.filter ((arrivedState.partAt 0).sameBarrier me)).length) :=
  ⟨tHolds, by decide, by decide, by decide, by decide, ⟨_, rfl⟩, by decide, by decide, _, rfl, by decide⟩

theorem witness_BarriersArriveAndComplete_mismatch : Holds metWrong p0 ∧
    (∀ a ∈ (metWrong.partAt 0).arrivals, a.core ≠ 0) ∧ ((here metWrong).domAt 1).level = levelNum .wing ∧
    ((here metWrong).domAt 1).phase = false ∧ (here metWrong).allRetired = true ∧
    ∃ u, metWrong.released 0 .S .wing = .ok u ∧ ∃ a ∈ (u.partAt 0).arrivals.filter
      ((u.partAt 0).sameBarrier (arrivalOf metWrong 1 false .wing)), a.level ≠ levelNum .wing :=
  ⟨by unfold Holds; decide, by decide, by decide, by decide, by decide, _, rfl, by decide⟩

/-! ## S: the patch group (17_patch_and_pool) -/

/-- A block at 0x2000 for a BF16 tensor of one tile; tensor 1 of N8 with histories 0 (two sealed patches, 5 and 6, an open one,
7, of core 0), 1 (empty) and 2 (frozen by nothing, a floor of 1). -/
def sealedPatch (n : Nat) (m : BitVec 1024) : Patch := ⟨n, false, [⟨0, m, { data := 3 }, {}⟩], n, 1⟩
def openPatch : OpenPatch := ⟨0, 7, true, [⟨0, 1, { data := 9 }, {}⟩]⟩
def hist0 : Hist := { base := ⟨1, 0, []⟩, chain := [sealedPatch 5 1, sealedPatch 6 2], opens := [openPatch] }
def hist1 : Hist := { base := ⟨2, 0, []⟩ }
def hist2 : Hist := { hist0 with opens := [], floor := 1 }
def tensor1 : Tensor := ⟨.n8, 32, 32, 1, 1, 8, [(0, hist0), (1, hist1), (2, hist2)]⟩
def tensor2 : Tensor := ⟨.n8, 32, 32, 1, 1, 8, [(0, hist1)]⟩
def pPart : Partition := { mPart with ppool := 0x10000000000001, tensors := [(1, tensor1), (2, tensor2)] }
/-- s10 on names the tip of 1:0, patches 5, 6, 7 and the unused 8, then 1:1 by tip and by name 8, 2:0 and 1:2. -/
def pRegs : Store DWord := [(3, 0x2000), (7, 3), (10, refOf 1 0 0xFFFF), (11, refOf 1 0 5), (12, refOf 1 0 6),
  (13, refOf 1 0 7), (14, refOf 1 0 8), (15, refOf 1 1 0xFFFF), (16, refOf 1 1 8), (17, refOf 2 0 0xFFFF),
  (18, refOf 1 2 0xFFFF), (19, refOf 1 2 6), (20, 4), (21, 8)]
def pState : State := { mState with
  mem := [(0, 0x01), (1, 0x10), (0x1000, 0x0F), (0x2000, 1), (0x2001, 4), (0x2008, 32), (0x200C, 32), (0x2010, 1),
    (0x2014, 1)]
  cores := [(0, { mCore with sreg := pRegs })], parts := [(0, pPart)] }

theorem pHolds : Holds pState p0 := by unfold Holds; decide

theorem names0 (n : Nat) (h : n = 0xFFFF ∨ n = 5 ∨ n = 6 ∨ n = 7 ∨ n = 8) :
    Names (herePart pState) (refOf 1 0 n) tensor1 hist0 := by
  rcases h with rfl | rfl | rfl | rfl | rfl <;> exact ⟨by decide, by decide, by decide⟩

theorem names1 : Names (herePart pState) (refOf 1 1 8) tensor1 hist1 := ⟨by decide, by decide, by decide⟩
theorem names2 : Names (herePart pState) (refOf 1 2 6) tensor1 hist2 := ⟨by decide, by decide, by decide⟩

theorem test_tdef : ((after (exec (.tdef p0 8 3) pState)).coreAt 0).s 8 = refOf 3 0 0xFFFF := by decide
theorem test_hfork : ((after (exec (.hfork p0 8 10 7) pState)).coreAt 0).s 8 = refOf 1 3 0xFFFF := by decide
theorem test_pqry_chain : ((after (exec (.pqry p0 8 10 9) pState)).coreAt 0).s 8 = 2 := by decide
theorem test_pqry_tensor : ((after (exec (.pqry p0 8 10 20) pState)).coreAt 0).s 8 = 1 + 14 * 2 ^ 32 + 8 * 2 ^ 40 := by
  decide

theorem witness_TensorsForksAndQueries : Holds pState p0 ∧ ((here pState).s 3).toNat % 32 = 0 ∧
    (∃ r, (sPast pState).load 0 .S .wt 0x2000 32 = .ok r ∧ ((tensorOf r.2).isSome &&
      (find (r.1.partAt 0).tensors 3).isNone && (find (r.1.partAt 0).tensors 2).isSome &&
      (r.1.partAt 0).canPage 2) = true) ∧
    (find (herePart pState).tensors 2 = some tensor2 ∧ ∀ e ∈ tensor2.hists, e.2.opens = []) ∧
    Names (herePart pState) ((here pState).s 15) tensor1 hist1 ∧ hist1.opens = [] ∧
    Names (herePart pState) ((here pState).s 11) tensor1 hist0 ∧ hist0.pos 5 = some 1 ∧
    find tensor1.hists (((here pState).s 7).toNat % 2 ^ 8) = none ∧ (herePart pState).canPage 1 = true ∧
    hist0.openAt 7 = some openPatch ∧ hist0.chain[0]? = some (sealedPatch 5 1) ∧ hist0.inUse 8 = false ∧
    ((here pState).s 21).toNat % 16 = 8 :=
  ⟨pHolds, by decide, okOf _ (by decide), ⟨by decide, by decide⟩, ⟨by decide, by decide, by decide⟩, rfl,
    ⟨by decide, by decide, by decide⟩, by decide, by decide, by decide, by decide, by decide, by decide, by decide⟩

/-- A history of tensor 1. -/
def histOf (s : State) (n : Nat) : Hist :=
  match find (herePart s).tensors 1 with
  | some t => (find t.hists n).getD hist1
  | none => hist1

theorem test_popen : (histOf (after (exec (.popenAd p0 14) pState)) 0).opens.length = 2 := by decide
theorem test_pseal : (histOf (after (exec (.pseal p0 13) pState)) 0).chain.length = 3 := by decide
theorem test_pdrop : (histOf (after (exec (.pdrop p0 11) pState)) 0).chain.length = 1 := by decide

theorem witness_PatchesOpenSealAndDrop : Holds pState p0 ∧ Names (herePart pState) ((here pState).s 14) tensor1 hist0 ∧
    hist0.inUse 8 = false ∧ hist0.frozen = false ∧ (herePart pState).opensOf 0 < 8 ∧ hist0.opens.length < 16 ∧
    Names (herePart pState) ((here pState).s 13) tensor1 hist0 ∧ hist0.openAt 7 = some openPatch ∧ openPatch.core = 0 ∧
    ((here pState).strW.spec.any fun it => it.tent.any (sameRef ((here pState).s 13))) = false ∧
    (∃ q, (herePart pState).append 1 0 tensor1 { hist0 with opens := [] } 7 true openPatch.entries = some q) ∧
    Names (herePart pState) ((here pState).s 11) tensor1 hist0 ∧ hist0.openAt 5 = none ∧
    SealedAt hist0 5 1 (sealedPatch 5 1) ∧ hist0.floor ≤ hist0.chain.length ∧ hist0.floor < 1 :=
  ⟨pHolds, names0 8 (by decide), by decide, by decide, by decide, by decide, names0 7 (by decide), by decide, by decide,
    by decide, ⟨_, rfl⟩, names0 5 (by decide), by decide, ⟨by decide, by decide, by decide, by decide⟩, by decide, by decide⟩

/-- W has recorded tentatively for the open patch of s13. -/
def tentState : State := pState.onEng 0 .W fun e => { e with
  spec := [{ snap := ⟨0, 0, 0, {}, {}, []⟩, tent := [⟨1, 0, 7, ⟨0, 1, { data := 9 }, {}⟩⟩] }] }

theorem witness_PatchesOpenSealAndDrop_tentative : Holds tentState p0 ∧
    Names (herePart tentState) ((here tentState).s 13) tensor1 hist0 ∧ hist0.openAt 7 = some openPatch ∧
    ((here tentState).strW.spec.any fun it => it.tent.any (sameRef ((here tentState).s 13))) = true :=
  ⟨by unfold Holds; decide, ⟨by decide, by decide, by decide⟩, by decide, by decide⟩

theorem test_pcomm : (histOf (after (exec (.pcomm p0 11 12) pState)) 0).pos 5 =
    some 2 := by decide
theorem test_pinv : (histOf (after (exec (.pinv p0 8 11 21) pState)) 0).pos 8 =
    some 3 := by decide
theorem test_psq : (histOf (after (exec (.psq p0 18) pState)) 2).chain.length =
    1 := by decide

theorem witness_ChainsChangeByTheirAlgebra : Holds pState p0 ∧
    Names (herePart pState) ((here pState).s 11) tensor1 hist0 ∧ SealedAt hist0 5 1 (sealedPatch 5 1) ∧
    SealedAt hist0 6 2 (sealedPatch 6 2) ∧ hist0.frozen = false ∧ ((here pState).s 21).toNat % 2 ^ 16 = 8 ∧
    hist0.inUse 8 = false ∧
    (∃ q, (herePart pState).append 1 0 tensor1 hist0 8 false
      ((sealedPatch 5 1).entries.map (invEntry false tensor1 hist0 1 (sealedPatch 5 1)))
      ((herePart pState).badOf (sealedPatch 5 1)) = some q) ∧
    (∃ q, (herePart pState).append 1 0 tensor1 hist0 8 true
      ((sealedPatch 5 1).entries.map (invEntry true tensor1 hist0 1 (sealedPatch 5 1))) [] = some q) ∧
    Names (herePart pState) ((here pState).s 16) tensor1 hist1 ∧ hist1.inUse 8 = false ∧ hist1.frozen = false ∧
    (∃ es, (sortEntries (sealedPatch 5 1).entries).mapM (carry tensor1 tensor1) = .ok es ∧ (es.length == 1) = true) ∧
    refValid ((here pState).s 12) = true ∧ hist0.openAt 5 = none ∧ hist0.openAt 6 = none ∧
    clash .n8 false (sealedPatch 5 1) (sealedPatch 6 2) = none ∧
    Names (herePart pState) ((here pState).s 18) tensor1 hist2 ∧ hist2.frozen = false ∧ hist2.floor ≠ 0 ∧
    (herePart pState).canPage (packPages 0 [tileBytes' .n8]) = true ∧ hist1.floor = 0 :=
  ⟨pHolds, names0 5 (by decide), ⟨by decide, by decide, by decide, by decide⟩,
    ⟨by decide, by decide, by decide, by decide⟩, by decide, by decide, by decide, ⟨_, rfl⟩, ⟨_, rfl⟩, names1, by decide,
    by decide, okOf _ (by decide +kernel), by decide, by decide, by decide, by decide, ⟨by decide, by decide, by decide⟩, by decide,
    by decide,
    by decide, by decide⟩

/-- A copy that is to read history 0 of tensor 1. -/
def srcOp : Op := { kind := .copy (.tiles 1 0 0) (.basin 0) 64, core := 0, part := 0, job := 1, jidx := 0, sup := false, pc := 0, seq := 0
                    ops := [], complPa := 0x3000, semPa := none }
def readState : State := pState.onDev fun d => { d with ops := [(1, srcOp)], nextOp := 2 }

theorem witness_TensorsForksAndQueries_copies : readState.dev.ops = [(1, srcOp)] ∧ srcOp.src? = some (.tiles 1 0 0) ∧
    readsOf 1 none (.tiles 1 0 0) = true ∧ srcOp.last = none ∧ readState.sideHist 0 (.tiles 1 0 0) = some (tensor1, hist0) :=
  ⟨rfl, rfl, by decide, rfl, by decide⟩

theorem witness_ChainsKeepTheirFolds_inverse : hist0.chain[1 - 1]? = some (sealedPatch 5 1) ∧
    (∃ q, pPart.append 1 0 tensor1 hist0 8 true
      ((sealedPatch 5 1).entries.map (invEntry true tensor1 hist0 1 (sealedPatch 5 1))) [] = some q) ∧
    find pPart.tensors 1 = some tensor1 ∧ find tensor1.hists 0 = some hist0 :=
  ⟨by decide, ⟨_, rfl⟩, by decide, by decide⟩

theorem witness_ChainsKeepTheirFolds_exchange : NoClash .n8 (sealedPatch 5 1) (sealedPatch 6 2) := by
  unfold NoClash; decide
/-! ## S: the Pool group (17_patch_and_pool R313 to R318) -/

/-- The Pool in service with one context, T = 8 and LG = 10; s1 asks for T = 8, LG = 10; s2 names context 1 with m = 2,
D = 16 and B = 4; s3 is an address of two tokens, s4 of an image with n = 0. -/
def xPart : Partition := { mPart with sxpool := 0x10000000000001, pools := [(1, { die := 0, t := 8, lg := 10 })] }
def xState : State := { mState with
  mem := [(0, 0x01), (1, 0x10), (0x1000, 0x0F), (0x2000, 3), (0x2004, 4), (0x4000, 1), (0x4004, 8), (0x4005, 10)]
  cores := [(0, { mCore with sreg := [(1, 0x0A08), (2, 0x4020001), (3, 0x2000), (4, 0x4000), (5, 0x4100001)] })]
  parts := [(0, xPart)] }

theorem xHolds : Holds xState p0 := by unfold Holds; decide

theorem test_sxnew : ((after (exec (.sxnew p0 8 1) xState)).coreAt 0).s 8 = 2 := by decide
theorem test_sxapp : (find (herePart (after (exec (.sxapp p0 2 3) xState))).pools 1).map PoolCtx.n = some 2 := by decide
theorem test_sxqry_empty : ((after (exec (.sxqry p0 8 5 4) xState)).coreAt 0).s 8 = 0 := by decide +kernel

theorem witness_PoolWordsMakeUseAndFreeContexts_make : Holds xState p0 ∧ poolOn (herePart xState) ∧
    regField xState 1 0 8 = 8 ∧ regField xState 1 8 8 = 10 ∧ find (herePart xState).pools 2 = none ∧
    (find (herePart xState).pools 1).isSome = true ∧ poolPages 8 10 ≤ (herePart xState).sxfree ∧
    (∃ w u, (sPast xState).released 0 .S .part = .ok w ∧ w.calm = u ∧
      (∃ h, u.readFor 0 false 0x4000 16 = .ok h ∧ (!badHeader h && recGet h 4 1 == 8 && recGet h 5 1 == 10) = true) ∧
      ∃ r, u.bulkLoad (fun va => u.xlateFor 0 false va needRd) 0x4000 (poolBytes 8 10) = .ok r ∧
        (firstBad r.2 == none && (contextOf r.1 0).isSome) = true) ∧
    regField xState 2 0 12 = 1 ∧ (Holds tState p0 ∧ ¬ poolOn (herePart tState) ∧
      ∃ u, (sPast tState).released 0 .S .part = .ok u) :=
  ⟨xHolds, by unfold poolOn; decide, by decide, by decide, by decide, by decide, by decide,
    ⟨_, _, rfl, rfl, okOf _ (by decide), okOf _ (by decide)⟩, by decide, tHolds, by unfold poolOn; decide, _, rfl⟩

theorem witness_PoolWordsMakeUseAndFreeContexts_use : Holds xState p0 ∧ regField xState 2 16 7 = 2 ∧
    ((here xState).s 3).toNat = 0x2000 ∧ pages 0x2000 8 = [(0x2000, 0, 8)] ∧
    regField xState 5 16 5 = 16 ∧ regField xState 5 24 3 = 4 ∧
    pages 0x4000 (4 * (PoolCtx.query { die := 0, t := 8, lg := 10 } 16 4).1.length) = [(0x4000, 0, 256)] ∧
    ∃ w u, (sPast xState).released 0 .S .part = .ok w ∧ w.calm = u ∧
      (∃ pa, u.xlateFor 0 false 0x2000 needRd = .ok pa ∧ (pa == 0x2000) = true) ∧
      (∃ bs, u.readFor 0 false 0x2000 2 = .ok bs ∧
        (unpackElems 32 2 (leNat bs)).all (fun t => decide (t ≤ 0xFFFFE)) = true) ∧
      (∃ pa, u.xlateFor 0 false 0x4000 needWr = .ok pa ∧ (pa == 0x4000) = true) ∧
      (∃ v, u.writeFor 0 false 0x4000 ((PoolCtx.query { die := 0, t := 8, lg := 10 } 16 4).1.flatMap (toLe 4)) = .ok v ∧
        (v.core == 0) = true) ∧
      ∃ v, u.bulkStore (fun va => u.xlateFor 0 false va needWr) none 0x4000 (poolBytes 8 10)
        (PoolCtx.image { die := 0, t := 8, lg := 10 }) [] = .ok v ∧ (v.core == 0) = true :=
  ⟨xHolds, by decide, by decide, by decide, by decide, by decide, by decide, _, _, rfl, rfl, okOf _ (by decide), okOf _ (by decide),
    okOf _ (by decide), okOf _ (by decide +kernel), okOf _ (by decide)⟩

theorem test_pool_append_wraps : ((PoolCtx.mk 0 8 10 1024 [(0, 5)] []).append 9).tok 1024 = 9 := by decide

/-! ## S: the system group, traps (20_system, 11_traps) -/

/-- Core 0 at supervisor level. -/
def supState : State := { mState with cores := [(0, { mCore with sup := true, sreg := mCore.sreg ++ [(12, 0xFFFFF00000000000)] })] }

theorem supHolds : Holds supState p0 := by unfold Holds; decide

theorem test_csrr_tokwd : ((after (exec (.csrr p0 8 1) mState)).coreAt 0).s 8 = 0x1000000 := by decide
theorem test_csrr_sup : ((after (exec (.csrr p0 8 0x101) mState)).coreAt 0).s 8 = 0 := by decide
theorem test_csrw_hslice : (after (exec (.csrw p0 1 0x101) supState)).csrValue 0 0x101 = 5 := by decide
theorem test_csrw_reserved : ((after (exec (.csrw p0 3 0x101) supState)).coreAt 0).rsvdWr = true := by decide

theorem witness_RegisterAccessesCheckAndReadBack : Holds mState p0 ∧ (here mState).sup = false ∧ Holds supState p0 ∧
    (here supState).sup = true ∧ mayRead false 0x001 ∧ mayRead true 0x1F0 ∧ ¬ listed 0x005 ∧ listed 0x100 ∧
    ¬ mayRead false 0x100 ∧ 0x000 ∈ jobReadSupWrite ∧ 0x12F ∈ supReadWrite ∧ 0x02D ∈ jobReadOnly ∧
    mayWrite false 0x012 ∧ (here supState).s 3 &&& csrReserved 0x101 ≠ 0 ∧ mayWrite true 0x101 ∧
    (here mState).s 6 &&& csrReserved 0x001 ≠ 0 ∧ mayWrite false 0x001 := by
  refine ⟨mHolds, rfl, supHolds, rfl, ?_, ?_, ?_, ?_, ?_, ?_, ?_, ?_, ?_, ?_, ?_, ?_, ?_⟩ <;>
    first | decide | (unfold mayRead; decide) | (unfold mayWrite; decide) | (unfold listed; decide)

theorem witness_RegisterAccessesCheckAndReadBack_plain : Holds mState p0 ∧ 0x002 ∈ plainRegisters ∧ mayWrite false 0x002 ∧
    (here mState).s 1 &&& csrReserved 0x002 = 0 ∧ 0x12F ∈ plainRegisters ∧ mayWrite true 0x12F ∧
    (here supState).s 9 &&& csrReserved 0x12F = 0 ∧ listed 0x001 := by
  refine ⟨mHolds, ?_⟩
  unfold mayWrite listed
  decide

/-- No tensor, no context, and a cellar pool of one frame at 64 KiB; one with tensors; one whose fetch is under way. -/
def freshState : State := supState.onPart 0 fun q => { q with clkpool := 0x100000010000 }
def usedState : State := freshState.onPart 0 fun q => { q with ppool := 0x10000000000001, tensors := [(2, tensor2)] }
def fetchingState : State := freshState.onPart 0 fun q => { q with clkEn := true, fetches := [⟨0x100, 0, none⟩] }

theorem witness_RegisterWritesTakeEffect :
    (mayWrite true 0x000 ∧ (1 : DWord) &&& csrReserved 0x000 = 0) ∧ (mayWrite false 0x003 ∧ (0x3001 : DWord) &&& csrReserved 0x003 = 0) ∧
    (mayWrite true 0x100 ∧ (1 : DWord) &&& csrReserved 0x100 = 0) ∧ (0 : DWord).toNat % 1024 = 0 ∧
    (4 : DWord).toNat % 8 ≤ 4 ∧
    ((1 : DWord).getLsbD 0 = true ∧ (freshState.partAt 0).clkEn = false ∧ fld (freshState.partAt 0).clkpool.toNat 44 20 ≠ 0 ∧
      poolFits (freshState.partAt 0).clkpool.toNat = true ∧ (freshState.partAt 0).fetches = []) ∧
    (bit (freshState.partAt 0).ppool.toNat 0 = false ∧ (freshState.partAt 0).tensors = [] ∧
      bit (freshState.partAt 0).sxpool.toNat 0 = false ∧ (freshState.partAt 0).pools = [] ∧
      poolFits (0x100000010001 : DWord).toNat = true) ∧
    (∀ u, u = freshState ∨ u = sPast freshState → u.calm.xlateFor 0 true 0x2000 needRd = .ok 0x2000) ∧ Holds freshState p0 := by
  refine ⟨?_, ?_, ?_, by decide, by decide, by decide, by decide, fun u h => ?_, by unfold Holds; decide⟩
  · unfold mayWrite; decide
  · unfold mayWrite; decide
  · unfold mayWrite; decide
  · rcases h with rfl | rfl <;> rfl

theorem witness_RegisterWritesTakeEffect_refused :
    (mayWrite true 0x004 ∧ (513 : DWord) &&& csrReserved 0x004 = 0 ∧ 512 < (513 : DWord).toNat % 1024) ∧
    (mayWrite true 0x008 ∧ (5 : DWord) &&& csrReserved 0x008 = 0 ∧ 4 < (5 : DWord).toNat % 8) ∧
    (mayWrite true 0x104 ∧ (1 : DWord) &&& csrReserved 0x104 = 0 ∧ fld (supState.partAt 0).clkpool.toNat 44 20 = 0) ∧
    (mayWrite true 0x105 ∧ (0 : DWord) &&& csrReserved 0x105 = 0 ∧ bit (usedState.partAt 0).ppool.toNat 0 = true ∧
      (usedState.partAt 0).tensors ≠ []) ∧
    (mayWrite true 0x107 ∧ (xState.partAt 0).pools ≠ []) ∧
    (mayWrite true 0x104 ∧ (0 : DWord) &&& csrReserved 0x104 = 0 ∧ (fetchingState.partAt 0).fetches ≠ []) ∧
    (mayWrite true 0x180 ∧ ∀ u, u = freshState ∨ u = sPast freshState →
      u.calm.xlateFor 0 true (2 ^ 32) needRd = .error (.trap 0x07 0x100000000 none)) ∧
    Holds usedState p0 ∧ Holds fetchingState p0 := by
  refine ⟨?_, ?_, ?_, ?_, ?_, ?_, ⟨?_, fun u h => ?_⟩, by unfold Holds; decide, by unfold Holds; decide⟩
  all_goals first | (unfold mayWrite; decide) | (rcases h with rfl | rfl <;> rfl)

theorem test_csrw_probe_refused : ((after (exec (.csrw p0 9 0x105) usedState)).coreAt 0).trapRec.tcause = 4 := by decide

/-- A bank holds a write of core 0, of partition 0; core 0 has a store on its way to its home. -/
def pendReq : HomeReq := { core := some 0, part := 0, line := 0x40, kind := .stHome 0 15 5, no := 1 }
def pendingState : State := { mState with pending := [⟨1, pendReq⟩], nextWrite := 2 }
def storedState : State := after (exec (.st p0 1 3 .wt .i32 0) mState)

theorem test_fence_waits : ((after (exec (.fence p0 .part) pendingState)).eng 0 .S).pc = 64 := by decide
theorem test_fence_core : byteAt (after (exec (.fence p0 .core) storedState)) 0x2000 = [5] := by decide
theorem test_trap_unhandled : ((after (exec (.trap p0 1) mState)).coreAt 0).run = .preempting := by decide

theorem witness_FencesTrapsAndReturnsComplete : Holds mState p0 ∧ (here mState).stores = [] ∧ mState.pending = [] ∧
    Holds pendingState p0 ∧ (here pendingState).stores = [] ∧ (pendingState.eng 0 .S).drain = none ∧
    ¬ (∀ x ∈ pendingState.pending, x.req.core = some 0 → pendingState.nextWrite ≤ x.no) ∧
    Holds storedState p0 ∧ ¬ (∀ x ∈ (here storedState).stores, storedState.nextWrite ≤ x.no) ∧
    (here mState).thnd = false ∧ Holds handlerState p0 ∧ (here handlerState).thnd = true := by
  refine ⟨mHolds, by decide, by decide, ?_, by decide, by decide, by decide, ?_, by decide, by decide, ?_, by decide⟩ <;>
    (unfold Holds; decide)

/-- A handler at word 256. -/
def tvecState : State := { mState with cores := [(0, { mCore with tvecEn := true, tvecAddr := 256 })] }
def someTrap : Trap := { code := 0x05, val := 3, stream := .S, pc := 64, seq := 2 }

theorem test_trap_handled : ((tvecState.takeTrap 0 someTrap).eng 0 .S).pc = 1024 := by decide
theorem test_rte : (((tvecState.takeTrap 0 someTrap).returnFromTrap 0).eng 0 .S).pc = 64 := by decide

theorem taken (k : Core) (t : Trap) (h : (k.run == .running && k.stopping == none && !k.discardAll.unretired t &&
    (!t.async || (!k.thnd && k.freezeEnd == none))) = true) : TakenNow k t := by
  simp only [Bool.and_eq_true, Bool.or_eq_true, Bool.not_eq_true', beq_iff_eq] at h
  obtain ⟨⟨⟨h1, h2⟩, h3⟩, h4⟩ := h
  exact ⟨h1, h2, h3, fun ha => h4.resolve_left (by simp [ha])⟩

theorem witness_TrapsAreTakenAndReturnedFrom : TakenNow (tvecState.coreAt 0) someTrap ∧ Handled tvecState 0 someTrap ∧
    TakenNow (tvecState.coreAt 0) { someTrap with async := true } :=
  ⟨taken _ _ (by decide), ⟨by decide, by decide, by decide⟩, taken _ _ (by decide)⟩

/-- Core 0 is charged by a failure in its basin, whose trap this is. -/
def fatalState : State := tvecState.onCore 0 fun k => { k with fatal := some (.basin 3) }
def fatalTrap : Trap := { someTrap with code := 0x40, sites := [.basin 3] }

/-- The same trap met while the core is pre-empted. -/
def fatalLeaving : State := fatalState.onCore 0 fun k => { k with run := .preempting }

theorem witness_TrapsAreTakenAndReturnedFrom_preempting : (fatalLeaving.coreAt 0).run = .preempting ∧
    (fatalLeaving.coreAt 0).ownFailure fatalTrap = true ∧ ∃ b, fatalLeaving.jobAt 0 1 = some b := ⟨rfl, by decide, _, rfl⟩

theorem witness_TrapsAreTakenAndReturnedFrom_unhandled : TakenNow (tState.coreAt 0) someTrap ∧ (tState.coreAt 0).tvecEn = false ∧
    TakenNow (handlerState.coreAt 0) someTrap ∧ (handlerState.coreAt 0).thnd = true ∧
    (∃ b, tState.jobAt 0 1 = some b) ∧ (∃ b, handlerState.jobAt 0 1 = some b) ∧
    TakenNow (fatalState.coreAt 0) fatalTrap ∧ (fatalState.coreAt 0).ownFailure fatalTrap = true ∧
    ∃ b, fatalState.jobAt 0 1 = some b :=
  ⟨taken _ _ (by decide), by decide, taken _ _ (by decide), by decide, ⟨_, rfl⟩, ⟨_, rfl⟩, taken _ _ (by decide), by decide,
    _, rfl⟩

/-- In a handler: a slot at 0x10000 (s5) of version 1, one misaligned (s6), with the first page mapped. -/
def ctxState : State := { mState with
  mem := mState.mem ++ [(0x10000, 1)], cores := [(0, { mCore with
    thnd := true, sreg := [(5, 0x10000), (6, 0x10004)] })], parts := [(0, { mPart with jobs := [(1, qJob)] })] }

/-- The state that `ctxsv` writes its slot from, and its core as the handler's return would leave it. -/
def evictedCtx : State := (((sPast ctxState).performOwn 0).evictAll 0).calm
def cutCtx : Core :=
  let k := evictedCtx.coreAt 0
  { k with kwait := none, strS := { k.strS with loop0 := k.cutLoop0, loop1 := k.cutLoop1 } }

theorem witness_ContextWordsSaveAndRestore_save : Holds ctxState p0 ∧ (here ctxState).thnd = true ∧
    ((here ctxState).s 5).toNat % 4096 = 0 ∧ ((here ctxState).s 6).toNat % 4096 ≠ 0 ∧ (here mState).thnd = false ∧
    ∃ u, evictedCtx.bulkStore (fun x => evictedCtx.xlateFor 0 false x needWr) (some 0) 0x10000 (slotLen false)
      (cutCtx.slot 0 (evictedCtx.coreAt 0).graph.toNat false false false 0) ((evictedCtx.coreAt 0).slotBad false) =
        .ok u ∧ (u.core == 0) = true :=
  ⟨by unfold Holds; decide, by decide, by decide, by decide, by decide, okOf _ (by decide +kernel)⟩

/-- The slot's reserved bytes not 0, and its unit poisoned. -/
def wrongSlot : State := { ctxState with mem := mState.mem ++ [(0x10000, 1), (0x10007, 1)] }
def poisonSlot : State := { ctxState with poison := [0x400] }

/-- The states that `ctxld` reads its slot from. -/
def ctxLoad : State := ((sPast ctxState).performOwn 0).calm
def wrongLoad : State := ((sPast wrongSlot).performOwn 0).calm
def poisonLoad : State := ((sPast poisonSlot).performOwn 0).calm

theorem witness_ContextWordsSaveAndRestore_restore :
    (∃ r, ctxLoad.bulkLoad (fun x => ctxLoad.xlateFor 0 false x needRd) 0x10000 8 = .ok r ∧
      (!bit (slotGet r.1 4 4) 0) = true) ∧
    (∃ r, ctxLoad.bulkLoad (fun x => ctxLoad.xlateFor 0 false x needRd) 0x10000 (slotLen false) = .ok r ∧
      (firstBad r.2 == none && slotFault r.1 true == none) = true) ∧
    ∃ imgs, ctxLoad.coreImages 0 = .ok imgs ∧ (decide (imgs.length < 6)) = true :=
  ⟨okOf _ (by decide), okOf _ (by decide +kernel), okOf _ (by decide +kernel)⟩

theorem witness_ContextWordsSaveAndRestore_faults :
    (∃ r, wrongLoad.bulkLoad (fun x => wrongLoad.xlateFor 0 false x needRd) 0x10000 (slotLen false) = .ok r ∧
      (firstBad r.2 == none && (slotFault r.1 true).isSome) = true) ∧
    ∃ r, poisonLoad.bulkLoad (fun x => poisonLoad.xlateFor 0 false x needRd) 0x10000 (slotLen false) = .ok r ∧
      (firstBad r.2).isSome = true :=
  ⟨okOf _ (by decide +kernel), okOf _ (by decide +kernel)⟩

theorem test_ctxsv_privilege : ((after (exec (.ctxsv p0 5 0) mState)).coreAt 0).trapRec.tcause.toNat % 256 = 3 := by decide

/-- Die gauge 0 of die 0 (selector 0x80) belongs to partition 0; s9 = 0. -/
def gState : State := { supState with dev := { supState.dev with gauges := [(0, { owner := some 0 })] }, cores := [(0, { mCore with
  sup := true, sreg := [(1, 0x80), (2, 0x7F), (3, 0x2000), (4, 2 ^ 32 + 0x10001), (5, 2 ^ 40), (6, 2 ^ 40 + 1)] })] }

theorem gHolds : Holds gState p0 := by unfold Holds; decide

theorem test_tlbinv_all : ((after (exec (.tlbinv p0 3 1) (gState.onCore 0 fun k => k.setS 1 1))).coreAt 0).tlbS = [] := by
  decide
theorem test_ggset_none : (after (exec (.ggset p0 2 4) gState)).dev = gState.dev := by decide

/-- A walk under way, and a `tlbinv` that waits for it, or for one that is over. -/
def walkState : State := gState.onPart 0 fun q => { q with misses := [⟨0, .L, 2 ^ 32, false⟩] }
def awaitWalks (ms : List Miss) : State := walkState.onEng 0 .S fun e => { e with walks := some ms }

theorem witness_MaintenanceAndGaugeWords_walks : Holds walkState p0 ∧ (walkState.partAt 0).misses ≠ [] ∧
    (∃ u, walkState.released 0 .S .part = .ok u) ∧ Holds (awaitWalks [⟨0, .L, 2 ^ 32, false⟩]) p0 ∧
    ((awaitWalks [⟨0, .L, 2 ^ 32, false⟩]).partAt 0).misses = [⟨0, .L, 2 ^ 32, false⟩] ∧
    Holds (awaitWalks [⟨0, .L, 0, true⟩]) p0 ∧ ⟨0, .L, 2 ^ 32, false⟩ ∉ ([⟨0, .L, 0, true⟩] : List Miss) := by
  refine ⟨?_, by decide, ⟨_, rfl⟩, ?_, by decide, ?_, by decide⟩ <;> (unfold Holds; decide)

theorem test_tlbinv_waits : ((after (exec (.tlbinv p0 3 1) walkState)).partAt 0).misses = [⟨0, .L, 2 ^ 32, true⟩] := by decide

theorem witness_MaintenanceAndGaugeWords : Holds gState p0 ∧ (here gState).sup = true ∧
    (∃ u, gState.released 0 .S .part = .ok u) ∧ (gState.partAt 0).misses = [] ∧ (here mState).sup = false ∧ ((here gState).s 5).toNat ≤ 2 ^ 40 ∧ 2 ^ 40 < ((here gState).s 6).toNat ∧
    ((here gState).s 3).toNat % 128 = 0 ∧
    (∃ u, (sPast gState).storeWords 0 .S .wt 0x2000 (gaugeBytes ((sPast gState).gaugeAt 0 0x80)) = .ok u ∧
      (u.core == 0) = true) ∧
    gState.gaugeAt 0 (((here gState).s 2).toNat % 256) = none ∧
    (∃ x, gState.gaugeAt 0 (((here gState).s 1).toNat % 256) = some x ∧ (x.1 == .die 0 0) = true) ∧
    (here gState).s 4 &&& 0x3F00FF00#64 = 0 ∧ ((here gState).s 4).getLsbD 32 = true ∧ canonicalVa 0x2000 = true :=
  ⟨gHolds, by decide, ⟨_, rfl⟩, by decide, by decide, by decide, by decide, by decide, okOf _ (by decide), by decide,
    someOf _ (by decide), by decide, by decide, by decide⟩

theorem witness_JobLevelKeepsSupervisorState : (here mState).sup = false ∧ (∃ t, exec (.csrw p0 1 0x101) mState = .next t) ∧
    ∃ t, exec (.ggset p0 1 1) mState = .next t := ⟨by decide, ⟨_, rfl⟩, _, rfl⟩
/-! ## L and W (16_transfer R281 to R291) -/

/-- Basin operands: tiles of N8 at 8192, of F32 at 12288 and 16384, an index list of zeros at 49152, a descriptor at 32832 of a
copy from plain memory at 0x2000 to the basin at 40960 of 64 bytes, one of a broadcast at 32896. -/
def qTile : QReg := { base := 8192, fmt := 14 }
def qTensor (n tile : Nat) : QReg := { base := refOf 1 0 n, geom := dw tile }
def wQ : Store QReg := [(1, qTile), (2, qTensor 0xFFFF 0), (3, { base := 49152 }), (4, { base := 0x2000 }),
  (5, qTensor 7 0), (6, { base := refOf 1 1 9 }), (7, { base := 12288 }), (8, { base := 16384 }), (9, { base := 32832 }),
  (10, { base := 0x2000 }), (11, { base := 32896 })]
def wPart : Partition := { pPart with
  tensors := [(1, { tensor1 with hists := [(0, hist0), (1, { hist1 with opens := [⟨0, 9, false, []⟩] })] })]
  jobs := [(1, { qJob with capbase := 0x4001 })] }
def wState : State := { pState with
  mem := pState.mem ++ [(0x2018, 0), (0x4060, 0x35)].filter (·.2 != 0) ++ [(0x5001, 0x80)]
  cores := [(0, { mCore with
    bndS := 131072, bndP := 262144, sreg := pRegs, strL := { halted := false, q := wQ }, strW := { halted := false, q := wQ }
    basin := [(8192, 5), (32832, 0x40), (32841, 0x20), (32849, 0xA0), (32856, 64), (32896, 0xF4), (32898, 14),
      (32913, 0x20), (32920, 4), (32929, 0x50)] })]
  parts := [(0, wPart)] }
def wTensor : Tensor := { tensor1 with hists := [(0, hist0), (1, { hist1 with opens := [⟨0, 9, false, []⟩] })] }

theorem wGoes (st : Stream) : GoesE wState st e0 := ⟨⟨by cases st <;> decide, by cases st <;> rfl⟩, by cases st <;> rfl⟩

def wHere : Core := (begun wState .L e0.tok 4).coreAt 0

theorem test_tld : ((after (exec (.tld e0 1 2) wState)).coreAt 0).getBasin 8192 2 = [9, 0] := by decide +kernel
theorem test_pld : ((after (exec (.pld e0 1 4 .wt false 0) wState)).coreAt 0).getBasin 8192 4 = [1, 4, 0, 0] := by
  decide +kernel
theorem test_pldRet : ((after (exec (.pld e0 4 0 .wt true 0) wState)).coreAt 0).rqAt 1 = [0x401] := by decide +kernel
theorem test_tst : ((find wTensor.hists 0).bind fun _ => (find (herePart (after (exec (.tst e0 5 1 false 0) wState))).tensors 1).map
    fun t => (find t.hists 0).map fun h => (h.openAt 7).map fun o => o.entries.map fun e => e.val.data) =
      some (some (some [5])) := by decide +kernel

/-- L stands at a block load that has been read ahead, and at one behind which a load of another word stands, into other
registers. -/
def earlyBlock : State := wState.onEng 0 .L fun e => { e with early := some ⟨0, 0, [1, 2, 3, 4]⟩ }
def aheadBlock : State := wState.onEng 0 .L fun e => { e with
  img := [0, (encode (.pld e0 7 13 .wt false 0)).getD 0 0], q := put wQ 13 { base := 0x2010 } }

theorem test_pld_early : ((after (exec (.pld e0 1 4 .wt false 0) earlyBlock)).coreAt 0).getBasin 8192 4 = [1, 2, 3, 4] := by decide +kernel

/-- Whether the earlier of two loads waits is the free value; whichever it is, one of the clauses says what it does. -/
theorem witness_LoadsFillTheBasinOrTheQueue : GoesE wState .L e0 ∧ TileFits wHere (qOf wState .L 1) .n8 ∧
    TileAt wState (qOf wState .L 2).base 0 wTensor hist0 ∧ IndexList wHere (qOf wState .L 3) ∧ 0 < wTensor.tiles ∧
    wHere.indexWords 49152 = List.replicate 32 0 ∧
    (∃ r, (begun wState .L e0.tok 4).loadBlock 0 .wt (qOf wState .L 4).base 4 = .ok r ∧ (r.2.length == 16) = true) ∧
    wHere.inScratch 8192 1024 = true ∧ (begun wState .L e0.tok 4).jobOf 0 = some { qJob with capbase := 0x4001 } ∧
    ((wState.eng 0 .L).early = none ∧ (wState.eng 0 .L).earlyRead = none ∧ wState.blockAhead 0 1 4 4 = none ∧
      (orderedBlock wState 1 4 4).1 = false) ∧
    (earlyBlock.eng 0 .L).earlyRead = some [1, 2, 3, 4] ∧
    ((aheadBlock.blockAhead 0 1 4 1).isSome = true ∧ (orderedBlock aheadBlock 1 4 1).1 = Config.loadsAhead aheadBlock.freeCount) := by
  refine ⟨wGoes .L, ⟨by decide, by decide, by decide, fun h => absurd h (by decide)⟩,
    ⟨⟨by decide, by decide, by decide⟩, by decide, by decide⟩, ⟨by decide, by decide, by decide⟩, by decide,
    by decide +kernel, okOf _ (by decide +kernel), by decide, by decide, ⟨rfl, rfl, by decide, rfl⟩, by decide, by decide +kernel,
    (chosen_of (f := fun u => u.blockAhead 0 1 4 1) (s := aheadBlock) (c := 0) (st := .L) rfl (by decide +kernel) :)⟩

/-- A return queue with 15 entries and a block of four words: it stands with one entry more put, and one kept, issued. -/
def fullState : State := wState.onCore 0 fun k => { k with rq := [(1, List.replicate 15 0)] }
def keptState : State := after (exec (.pld e0 4 0 .wt true 3) fullState)
/-- What is left of a block that a slot has brought back, and whose word has not issued again. -/
def backState : State := fullState.onEng 0 .L fun e => { e with ret := some { left := [1, 2] } }

theorem test_pldRet_waits : ((keptState.eng 0 .L).ret.map fun r => r.left.length) = some 1 ∧ (keptState.coreAt 0).allRetired = false := by
  decide +kernel

theorem witness_LoadsFillTheBasinOrTheQueue_returns :
    (guardE keptState .L e0 = true ∧ (keptState.eng 0 .L).spec = [] ∧
      ∃ r, (keptState.eng 0 .L).ret = some r ∧ r.issued = true) ∧
    (guardE backState .L e0 = true ∧ (backState.eng 0 .L).spec = [] ∧ (here backState).takeStop .L e0.tok = none ∧
      ∃ r, (backState.eng 0 .L).ret = some r ∧ r.issued = false ∧ 16 < ((backState.coreAt 0).rqAt 1).length + r.left.length) ∧
    (guardE fullState .L e0 = true ∧ (fullState.eng 0 .L).spec = [] ∧ (here fullState).takeStop .L e0.tok = none ∧
      (fullState.eng 0 .L).ret = none ∧ (qOf fullState .L 4).base.toNat % 4 = 0 ∧
      (∃ r, (Safety.taken fullState .L e0.tok).loadBlock 0 .wt (qOf fullState .L 4).base 4 = .ok r ∧ (r.2.length == 16) = true) ∧
      ((fullState.coreAt 0).rqAt 1).length + 1 ≤ 16) :=
  ⟨⟨by decide +kernel, by decide +kernel, someOf _ (by decide +kernel)⟩, ⟨by decide, by decide, by decide, _, rfl, by decide, by decide⟩,
    by decide, by decide, by decide, by decide, by decide, okOf _ (by decide +kernel), by decide⟩

/-- The core at the acceptance of a copy; a copy from far region 0, whose link is down, through entry 4 of the table. -/
def wCalm : Core := (begun wState .L e0.tok 4).calm.coreAt 0
def downState : State := { wState with
  mem := pState.mem ++ [(0x4060, 0x35), (0x4080, 0x17), (0x409A, 1), (0x5001, 0x80)]
  dev := { wState.dev with far := [(0, { port := 0, part := some 0, size := 65536 })], cxlPorts := [1] }
  cores := [(0, { here wState with
    basin := (here wState).basin ++ [(32960, 0x43), (32977, 0xA0), (32984, 64)]
    strL := { halted := false, q := put wQ 12 { base := 32960 } } })] }
def downCore : Core := (begun downState .L e0.tok 4).calm.coreAt 0

theorem downGoes : GoesE downState .L e0 := ⟨⟨by decide, rfl⟩, rfl⟩

theorem test_ccopy_down : (find (after (exec (.ccopy e0 12 10 4) downState)).dev.ops 1).map Op.status = some (some 2) := by decide +kernel

theorem witness_CopiesAndCollectivesAreAccepted : ∃ d d' d'', GoesE wState .L e0 ∧
    Descriptor wCalm (qOf wState .L 9) d ∧ (qOf wState .L 10).base.toNat % 8 = 0 ∧
    (∃ r, (begun wState .L e0.tok 4).calm.signals 0 (qOf wState .L 10).base (bit (recGet d 1 1) 6) (recGet d 1 1 % 64) = .ok r ∧
      (match r.1.released 0 .L .sys with
        | .ok t => decide (t.inFlight 0 < 64) && decide (t.queueUsed 0 0 < 64)
        | .error _ => false) = true) ∧
    (begun wState .L e0.tok 4).calm.badCopy 0 d = none ∧ recGet d 0 1 = 0x40 ∧
    wCalm.basinSide 4 (recGet d 16 8) (recGet d 24 8) = .ok () ∧
    (begun wState .L e0.tok 4).calm.tensorSide 0 4 (.ofNat 64 (recGet d 8 8)) (recGet d 32 4) (recGet d 24 8) = .ok () ∧
    (∃ x, (begun wState .L e0.tok 4).calm.sideOf 0 3 0 true (recGet d 8 8) (recGet d 32 4) (recGet d 24 8) = .ok x ∧
      (x == .plain 0x2000) = true) ∧
    (∃ x, (begun wState .L e0.tok 4).calm.sideOf 0 3 4 false (recGet d 16 8) (recGet d 32 4) (recGet d 24 8) = .ok x ∧
      (x == .basin 40960) = true) ∧
    (wState.linkLost (.plain 0x2000) = false ∧ wState.linkLost (.basin 40960) = false) ∧
    (GoesE downState .L e0 ∧ Descriptor downCore (qOf downState .L 12) d'' ∧
      (∃ x, (begun downState .L e0.tok 4).calm.sideOf 0 4 3 true (recGet d'' 8 8) (recGet d'' 32 4) (recGet d'' 24 8) = .ok x ∧
        (x == .far 0 0) = true) ∧ downState.linkLost (.far 0 0) = true) ∧
    Descriptor wCalm (qOf wState .L 11) d' ∧ badColl d' = none ∧ recGet d' 32 8 = 0x5000 ∧
    (∃ e, (begun wState .L e0.tok 4).calm.readFor 0 false 0x5000 2 = .ok e ∧
      (leNat e % 256 == 0 && (leNat e).testBit 15) = true) ∧
    (∃ cap, (begun wState .L e0.tok 4).calm.collCap 0 3 = .ok cap ∧ (cap.kind == 2) = true) ∧
    collAccepts 4 15 (tyOf 14) = true ∧ collAccepts 0 5 (tyOf 14) = false :=
  ⟨_, _, _, wGoes .L, ⟨by decide, ⟨by decide, by decide⟩, rfl⟩, by decide, okOf _ (by decide +kernel), by decide +kernel,
    by decide +kernel, rfl, rfl, okOf _ (by decide +kernel), okOf _ (by decide +kernel),
    by decide, ⟨downGoes, ⟨by decide, ⟨by decide, by decide⟩, rfl⟩, okOf _ (by decide +kernel), by decide⟩,
    ⟨by decide, ⟨by decide, by decide⟩, rfl⟩, by decide +kernel, by decide +kernel,
    okOf _ (by decide +kernel), okOf _ (by decide +kernel), by decide, by decide⟩

theorem test_ccopy : (after (exec (.ccopy e0 9 10 3) wState)).events = [.conduitEntryStart 0 0] := by decide +kernel

def wBegun : Core := (begun wState .W e0.tok 4).coreAt 0

theorem witness_StoresRecordPatchesOrWriteBlocks : GoesE wState .W e0 ∧
    (Names (herePart wState) (qOf wState .W 5).base wTensor hist0 ∧ OpenHere wState (qOf wState .W 5).base hist0 openPatch ∧
      openPatch.overwrite = true) ∧
    (Names (herePart wState) (qOf wState .W 6).base wTensor { hist1 with opens := [⟨0, 9, false, []⟩] } ∧
      OpenHere wState (qOf wState .W 6).base { hist1 with opens := [⟨0, 9, false, []⟩] } ⟨0, 9, false, []⟩) ∧
    TileFits wBegun (qOf wState .W 1) .n8 ∧ Clean wBegun 8192 1024 ∧
    MaskIs wBegun wTensor 0 false {} (BitVec.allOnes 1024 &&& wTensor.real 0) ∧
    (begun wState .W e0.tok 4).stageRoom 0 (qOf wState .W 6).base .n8 [0] = true ∧
    IndexList wBegun (qOf wState .W 3) ∧ TileFits wBegun (qOf wState .W 7) .f32 ∧ TileFits wBegun (qOf wState .W 8) .f32 ∧
    Clean wBegun 12288 4096 ∧ Clean wBegun 16384 4128 ∧ wTensor.real 0 ≠ 0 ∧
    (∃ t, (begun wState .W e0.tok 4).xlateRange 0 .W 0x2000 8 needWr = .ok t ∧ (t.core == 0) = true) ∧
    (∃ u, (begun wState .W e0.tok 4).storeWords 0 .W .wt 0x2000 (wBegun.getBasin 8192 8) = .ok u ∧ (u.core == 0) = true) ∧
    ∃ x : Entry, openPatch.entries.find? (fun y => y.tile == 0) = some x :=
  ⟨wGoes .W, ⟨⟨by decide, by decide, by decide⟩, ⟨by decide, by decide, by decide⟩, by decide⟩,
    ⟨⟨by decide, by decide, by decide⟩, by decide, by decide, by decide⟩,
    ⟨by decide, by decide, by decide, fun h => absurd h (by decide)⟩, ⟨by decide, by decide +kernel⟩,
    ⟨fun h => absurd h (by decide), fun h => absurd h (by decide), rfl⟩, by decide +kernel,
    ⟨by decide, ⟨by decide, by decide⟩⟩, ⟨by decide, by decide, by decide, fun h => absurd h (by decide)⟩,
    ⟨by decide, by decide, by decide, fun h => absurd h (by decide)⟩, ⟨by decide, by decide +kernel⟩,
    ⟨by decide, by decide +kernel⟩, by decide +kernel, okOf _ (by decide +kernel), okOf _ (by decide +kernel), _, rfl⟩

/-! ## M (18_matrix R319 to R332) -/

/-- A in six tiles and B in four, all zeros, of BF16 (FP32 mode) on q1 and q9; accumulator images on q2. -/
def aState : State := { tState with cores := [(0, { tCore with
  bndS := 131072, bndP := 131072, residue := [1]
  strM := { halted := false, q := [(1, { base := 8192, fmt := 1 }), (2, { base := 32768 }),
    (9, { base := 65536, fmt := 1 })] } })] }

theorem aGoes : GoesE aState .M e0 := ⟨⟨by decide, rfl⟩, rfl⟩

/-- Two mismatches of the second step, and a poisoned row of B. -/
def aFails : State := aState.onCore 0 fun k => { k with residue := [0, 2] }
def aPoisoned : State := aState.onCore 0 fun k => { k with basinBad := [2048] }

/-- The operands of a plan that `mma` of two steps makes are clean, step by step. -/
def cleanTo (s : State) (n : Nat) : Bool :=
  match mmaPlan 0 false (qOf s .M (mmaA 1)) (qOf s .M (mmaB 1)) 2 (here s) with
  | .ok plan => (List.range n).all fun j => match plan.clean (qOf s .M (mmaA 1)) (qOf s .M (mmaB 1)) (here s) j with
    | .ok _ => true
    | .error _ => false
  | .error _ => false

theorem witness_MatrixStepsAccumulateRowsByColumns_mma :
    (GoesE aState .M e0 ∧ cleanTo aState 2 = true ∧ ∀ j, j < 2 → (here aState).residue.getD j 0 ≤ 1) ∧
    (GoesE aFails .M e0 ∧ cleanTo aFails 2 = true ∧ (here aFails).residue.getD 0 0 ≤ 1 ∧ 2 ≤ (here aFails).residue.getD 1 0) ∧
    (GoesE aPoisoned .M e0 ∧ cleanTo aPoisoned 0 = true ∧ cleanTo aPoisoned 1 = false) :=
  ⟨⟨aGoes, by decide +kernel, by decide⟩,
    ⟨⟨⟨by decide, rfl⟩, rfl⟩, by decide +kernel, by decide, by decide⟩, ⟨⟨by decide, rfl⟩, rfl⟩, by decide +kernel, by decide +kernel⟩

theorem test_mma_replays : ((after (exec (.mma e0 0 false 1 1 1) aState)).coreAt 0).replays = 1 := by decide +kernel
theorem test_mma_second_failure : (((after (exec (.mma e0 0 false 1 1 1) aFails)).coreAt 0).trapRec.tcause = 0x41) := by
  decide +kernel

/-- A step with 96 rows of A and 64 columns of B, 2 and 3 everywhere in N = 1. -/
def stepIn : StepIn := { rows := List.replicate 96 [2], cols := List.replicate 64 [3], sa := [], sb := [] }

theorem test_step_i32 : ((({ i32 := true } : Acc).step .mx8 .mx8 stepIn).1).cell 95 63 = 6 := by decide +kernel

theorem witness_MatrixStepsAccumulateRowsByColumns_step : stepIn.rows.length = 96 ∧ stepIn.cols.length = 64 ∧
    stepIn.rows[95]? = some [2] ∧ stepIn.cols[63]? = some [3] ∧ ({ i32 := true } : Acc).i32 = true ∧ ({} : Acc).i32 = false := by
  decide

theorem witness_AccumulatorWordsMoveImages : GoesE aState .M e0 ∧ (qOf aState .M 2).off % 32 = 0 ∧
    tyOf ((qOf aState .M 2).fmt.toNat % 32) = some .f32 ∧
    (∀ j, j < 6 → Clean (here aState) ((qOf aState .M 2).tileOff 4096 j) 4096 ∧
      (qOf aState .M 2).inRing 4096 ((qOf aState .M 2).tileOff 4096 j) = true) ∧
    (here aState).tilesCheck (qOf aState .M 2) (tileBytes .f32) 6 0 = .ok () ∧ ((here aState).accAt 0).bad = false ∧
    (here aState).inScratch (qOf aState .M 2).off 8 = true := by
  refine ⟨aGoes, by decide, by decide, fun j h => ?_, rfl, by decide, by decide⟩
  have : j = 0 ∨ j = 1 ∨ j = 2 ∨ j = 3 ∨ j = 4 ∨ j = 5 := by omega
  rcases this with rfl | rfl | rfl | rfl | rfl | rfl <;> exact ⟨⟨by decide +kernel, by decide +kernel⟩, by decide +kernel⟩

theorem witness_MzeroClearsAnAccumulator : GoesE tState .M e0 := ⟨ready0 .M, by decide⟩

theorem test_mzero : (((after (exec (.mzero e0 3 false true) aState)).coreAt 0).accAt 3).i32 = true := by decide
theorem test_mchk : ((after (exec (.mchk e0 2) (aState.onCore 0 fun k => { k with asat := true }))).coreAt 0).asat = false := by
  decide +kernel

/-! ## Loops, run-ahead and control words of L, M, W (16_transfer R292 to R295; 05_streams R90, R91) -/

/-- L's turn: lc0 = 2 from 4, lc1 = 1 from 8, the closing word at 64. -/
def cState (sq : List DWord) : State :=
  { tState with stream := .L, cores := [(0, { tCore with
      sq := [(0, sq)], strL := { pc := 64, halted := false, loop0 := ⟨2, 4⟩, loop1 := ⟨1, 8⟩ } })] }

theorem cGoes (sq : List DWord) : GoesE (cState sq) .L e0 := ⟨⟨rfl, rfl⟩, rfl⟩

theorem test_enext_again : ((after (exec (.enext e0 0 false) (cState []))).eng 0 .L).pc = 4 := by decide
theorem test_enext_ends : ((after (exec (.enext e0 1 false) (cState []))).eng 0 .L).pc = 68 := by decide
theorem test_ebrq_goes : ((after (exec (.ebrq e0 (-16)) (cState [3]))).eng 0 .L).pc = 0 := by decide
theorem test_ebrq_stays : ((after (exec (.ebrq e0 (-16)) (cState [2]))).eng 0 .L).pc = 68 := by decide
theorem test_eloop_skips : ((after (exec (.eloop eG1 0 4 9) (cState []))).eng 0 .L).pc = 84 := by decide
theorem test_qseti : ((after (exec (.qseti e0 1 .sstride 0xFFF) (cState []))).eng 0 .L).qr 1 = { sstride := 4095 } := by decide
theorem test_gget : ((after (exec (.gget e0 2) (cState [1]))).eng 0 .L).g 2 = true := by decide

/-- A write of partition 0 that its bank has accepted and not performed. -/
def heldBack : State := { cState [] with
  pending := [⟨1, { core := some 0, part := 0, line := 0x40, kind := .stHome 0 15 5, no := 1 }⟩], nextWrite := 2 }

theorem witness_EngineControlAndLoopWords :
    (Ready (cState []) .L eG1.tok ∧ guardE (cState []) .L eG1 = false) ∧ GoesE (cState []) .L e0 ∧
    (((cState []).eng 0 .L).loop 0).count = 2 ∧ (((cState []).eng 0 .L).loop 1).count = 1 ∧
    ((tState.eng 0 .L).loop 0).count = 0 ∧ (GoesE (cState [2]) .L e0 ∧ (here (cState [2])).sqAt (queueOf .L) = [2]) ∧
    (GoesE (cState [3]) .L e0 ∧ (here (cState [3])).sqAt (queueOf .L) = [3]) ∧ (here (cState [])).sqAt (queueOf .L) = [] ∧
    (0 ≤ (64 + 4 * (-16 : BitVec 13).toInt : Int) ∧ (64 + 4 * (-17 : BitVec 13).toInt : Int) < 0) ∧
    (GoesE (cState []) .L e0 ∧ ∃ u, (begun (cState []) .L e0.tok 4).released 0 .L .part = .ok u) ∧
    (GoesE heldBack .L e0 ∧ ∃ d, (begun heldBack .L e0.tok 4).released 0 .L .part = .error (.drain d)) :=
  ⟨⟨⟨rfl, rfl⟩, by decide⟩, cGoes _, by decide, by decide, by decide, ⟨cGoes _, by decide⟩, ⟨cGoes _, by decide⟩, by decide,
    by decide, ⟨cGoes _, _, rfl⟩, ⟨⟨rfl, rfl⟩, rfl⟩, _, rfl⟩

/-- One unresolved iteration of L, which began with lc0 = 5 and stands two words into the body; it holds one give to M. -/
def ranState (v : DWord) : State := (cState [v]).onEng 0 .L fun e => { e with
  pc := 12, spec := [{ snap := ⟨64, 9, 0, ⟨5, 4⟩, {}, []⟩, gs := 1 }] }

theorem test_outcome_stop : ((after (exec (.outcomeResolve 0 .L) (ranState 0))).eng 0 .L).pc = 68 := by decide
theorem test_outcome_go : ((after (exec (.outcomeResolve 0 .L) (ranState 1))).coreAt 0).fwdAt 0 = 1 := by decide

/-- A loop that ran ahead with a2 in its body is left. -/
theorem test_loop_leaves_twin : ((after (exec (.enext e0 0 true) ((cState [0]).onCore 0 fun k =>
    { k with acc := [(2, { i32 := true })], strL := { k.strL with twins := [2] } }))).coreAt 0).accAt 10 = { i32 := true } := by decide

theorem witness_RunAheadIsUndoneOrCommitted :
    ((here (cState [])).takeStop (cState []).stream e0.tok = none ∧ guardE (cState []) (cState []).stream e0 = true ∧
      (here (cState [])).sqAt (queueOf (cState []).stream) = [] ∧ ((cState []).eng 0 .L).mayRunAhead .L 4 = true) ∧
    (∀ v, ∃ it, ((ranState v).eng 0 .L).spec = it :: [] ∧ ((ranState v).coreAt 0).sqAt (queueOf .L) = v :: [] ∧
      ((ranState v).coreAt 0).fwdAt (outPair .L) + (((ranState v).coreAt 0).eng (taker (outPair .L)).1).held.1 +
        it.gives.1 ≤ 32 ∧ it.gives.2 = 0 ∧ (∀ a ∈ it.accs, a < 8) ∧ it.fault = none) :=
  ⟨by decide, fun _ => ⟨_, rfl, rfl, (by decide : 0 + 0 + 1 ≤ 32), rfl, fun _ h => absurd h (List.not_mem_nil), rfl⟩⟩

/-- The iteration holds a fault whose word had taken a token from W; and M's FIFO is full. -/
def faultyState : State := (ranState 1).onEng 0 .L fun e => { e with
  spec := [{ snap := ⟨64, 9, 0, ⟨5, 4⟩, {}, []⟩, gs := 1, fault := some { someTrap with stream := .L, held := true }, faultF := 1 }] }
def fullFifo : State := (ranState 1).onCore 0 fun k => { k with fwd := [(0, 32)] }

theorem test_commit_fault : ((after (exec (.outcomeResolve 0 .L) faultyState)).coreAt 0).fwdAt 3 = 1 := by decide
theorem test_commit_waits : ((after (exec (.outcomeResolve 0 .L) fullFifo)).coreAt 0).sqAt 0 = [1] := by decide

theorem witness_RunAheadIsUndoneOrCommitted_commits :
    (∃ it, (faultyState.eng 0 .L).spec = it :: [] ∧ (faultyState.coreAt 0).sqAt (queueOf .L) = 1 :: [] ∧
      (faultyState.coreAt 0).fwdAt (outPair .L) + ((faultyState.coreAt 0).eng (taker (outPair .L)).1).held.1 +
        it.gives.1 ≤ 32 ∧ it.gives.2 = 0 ∧ it.fault.isSome = true) ∧
    (∃ it, (fullFifo.eng 0 .L).spec = it :: [] ∧ (fullFifo.coreAt 0).sqAt (queueOf .L) = 1 :: [] ∧
      it.gives.1 ≠ 0 ∧ ¬ (fullFifo.coreAt 0).fwdAt (outPair .L) +
        ((fullFifo.coreAt 0).eng (taker (outPair .L)).1).held.1 + it.gives.1 ≤ 32 ∧ it.blocked = none) :=
  ⟨⟨_, rfl, rfl, by decide, rfl, rfl⟩, _, rfl, rfl, by decide, by decide, rfl⟩

/-! ## X (19_vector R333 to R354, R383; 12_generation R214 to R218) -/

/-- X under four lanes of a format: v1 = 1.0, 2.0, −1.0, 0.5 and v2 = 0.5 four times as FP32 words, lane 3 inactive, pantry 0
a scalar. Registers are 256 bytes. -/
def vxState (ty : Nat) : State :=
  { tState with stream := .X, cores := [(0, { tCore with
      vsh := 1024 + .ofNat 32 ty, masks := [0b0111], pantry := [(0, 0x40000000)]
      basin := [(258, 0x80), (259, 0x3F), (263, 0x40), (266, 0x80), (267, 0xBF), (271, 0x3F), (515, 0x3F), (519, 0x3F),
        (523, 0x3F), (527, 0x3F)] })] }

theorem vxGoes (ty : Nat) : GoesX (vxState ty) x0 := ⟨⟨rfl, rfl⟩, rfl⟩

theorem lc {k : Core} {r : Fin 32} {n : Nat} (h : k.basinPoison (r * k.vlen) ((n + 7) / 8) = none) : LanesClean k r n := h

/-- A check that passes. -/
theorem okUnit {r : Res Unit} (h : (match r with | .ok _ => true | .error _ => false) = true) : r = .ok () := by
  cases r with
  | ok _ => rfl
  | error x => cases h

/-- Lane `i` of a register of core 0 as 32 bits. -/
def lane (s : State) (r : Fin 32) (i : Nat) : Nat := laneBits (s.coreAt 0) r 32 i

theorem test_vadd : (List.range 4).map (lane (after (exec (.vadd x0 3 1 2) (vxState 0))) 3) =
    [0x3FC00000, 0x40200000, 0xBF000000, 0] := by decide +kernel
theorem test_vfma : (List.range 3).map (lane (after (exec (.vfma x0 2 1 1) (vxState 0))) 2) =
    [0x3FC00000, 0x40900000, 0x3FC00000] := by decide +kernel
theorem test_vmulVC : (List.range 4).map (lane (after (exec (.vmulVC x0 3 1 (.pantry 0)) (vxState 0))) 3) =
    [0x40000000, 0x40800000, 0xC0000000, 0] := by decide +kernel
theorem test_vfmai : lane (after (exec (.vfmai 2 1 0x3F800) (vxState 0))) 2 0 = 0x3FC00000 := by decide +kernel
theorem test_visub : (List.range 4).map (lane (after (exec (.visub x0 3 0 2) (vxState 12))) 3) =
    [0xC1000000, 0xC1000000, 0xC1000000, 0] := by decide +kernel
theorem test_vsra : lane (after (exec (.vsraVC x0 3 1 (.lit 31)) (vxState 12))) 3 2 = 0xFFFFFFFF := by decide +kernel

/-- Pantry entry 0 struck by an error. -/
def struckPantry : State := (vxState 0).onCore 0 fun k => { k with pantryBad := [0] }

theorem test_sel_poison : ((after (exec (.vmulVC x0 3 1 (.pantry 0)) struckPantry)).coreAt 0).trapRec.tcause = 0x40 := by decide +kernel

theorem witness_LaneWordsWriteActiveLanes :
    (GoesX (vxState 0) x0 ∧ ((begun (vxState 0) .X x0.tok 4).coreAt 0).shape = .ok (4, .f32) ∧
      LanesClean ((begun (vxState 0) .X x0.tok 4).coreAt 0) 1 128 ∧
      SourceClean ((begun (vxState 0) .X x0.tok 4).coreAt 0) (.reg 2) 128 ∧
      (floatLanes (here (vxState 0)) (.vadd x0 3 1 2)).isSome = true ∧
      (fusedLanes (here (vxState 0)) (.vfma x0 3 1 2)).isSome = true) ∧
    GoesX (vxState 12) x0 ∧ ((begun (vxState 12) .X x0.tok 4).coreAt 0).shape = .ok (4, .i32) ∧
    LanesClean ((begun (vxState 12) .X x0.tok 4).coreAt 0) 1 128 ∧
    SourceClean ((begun (vxState 12) .X x0.tok 4).coreAt 0) (.reg 2) 128 ∧ (intSign .i32).isSome = true ∧
    (intLanes (here (vxState 12)) (.viadd x0 3 1 2)).isSome = true ∧
    (floatLanes (here (vxState 0)) (.vmulVC x0 3 1 (.pantry 0))).map LaneRow.clean = some true ∧
    (GoesX struckPantry x0 ∧ (floatLanes (here struckPantry) (.vmulVC x0 3 1 (.pantry 0))).map LaneRow.clean = some false) :=
  ⟨⟨vxGoes _, rfl, rfl, rfl, rfl, rfl⟩, vxGoes _, rfl, rfl, rfl, rfl, rfl, by decide, ⟨⟨rfl, rfl⟩, rfl⟩, by decide⟩

theorem test_vcmp : ((after (exec (.vcmp x0 .lt 1 2) (vxState 0))).coreAt 0).masks = [0b0100, 0b0111] := by decide +kernel
theorem test_minv : ((after (exec (.minv x0) (vxState 0))).coreAt 0).masks = [0b1000] := by decide +kernel
theorem test_vrsum : lane (after (exec (.vrsum x0 3 1) (vxState 0))) 3 0 = 0x40000000 := by decide +kernel
theorem test_vrsum_one_nan : lane (after (exec (.vrsum x0 3 1) ((vxState 0).onCore 0 fun k =>
    { k with vsh := 256, masks := [], basin := [(256, 0x45), (258, 0xC1), (259, 0xFF)] }))) 3 0 = 0x7FC00000 := by decide +kernel
theorem test_vrarg : lane (after (exec (.vrarg x0 3 1) (vxState 0))) 3 0 = 1 := by decide +kernel
theorem test_vcvt : laneBits ((after (exec (.vcvt x0 3 1 .bf16) (vxState 0))).coreAt 0) 3 16 2 = 0xBF80 := by decide +kernel

/-- 32 lanes of BF16, all zeros, and 1,024 of them. -/
def packState (m : Nat) : State := (vxState 0).onCore 0 fun k => { k with vsh := .ofNat 32 (256 * m + 1), masks := [], bndV := 131072 }

theorem test_vpack : laneBits ((after (exec (.vpack x0 4 2 .mx8) (packState 32))).coreAt 0) 4 8 0 = 0 := by decide +kernel

theorem witness_MasksReductionsAndConversions :
    ((compareLanes (here (vxState 0)) (.vcmp x0 .lt 1 2)).isSome = true ∧ GoesX (vxState 0) x0 ∧
      ((begun (vxState 0) .X x0.tok 4).coreAt 0).shape = .ok (4, .f32) ∧ naturalCond .lt = false ∧
      4 ≤ ((begun (vxState 0) .X x0.tok 4).coreAt 0).vlen ∧ ((begun (vxState 0) .X x0.tok 4).coreAt 0).masks = [0b0111] ∧
      (reduceLanes (here (vxState 0)) (.vrsum x0 3 1)).isSome = true ∧
      (convertLanes (here (vxState 0)) (.vcvt x0 3 1 .bf16)).isSome = true) ∧
    (GoesX (packState 32) x0 ∧ ((begun (packState 32) .X x0.tok 4).coreAt 0).shape = .ok (32, .bf16) ∧
      LanesClean ((begun (packState 32) .X x0.tok 4).coreAt 0) 2 512 ∧
      (mxPack .mx8 (List.replicate 32 (.fin false 0 0))).2.length = 32) ∧
    ((begun (packState 1024) .X x0.tok 4).coreAt 0).shape = .ok (1024, .bf16) ∧
    (mxPack .mx8 (List.replicate 1024 (.fin false 0 0))).2.length = 1024 :=
  ⟨⟨rfl, vxGoes _, rfl, rfl, by decide, rfl, rfl, rfl⟩, ⟨⟨⟨rfl, rfl⟩, rfl⟩, rfl, lc (by decide +kernel), by decide +kernel⟩, rfl,
    by decide +kernel⟩

theorem test_vshape : ((after (exec (.vshape x0 (.lit 0x801)) (vxState 0))).coreAt 0).vsh = 0x801 := by decide +kernel
theorem test_vshape_traps : ((after (exec (.vshape x0 (.lit 0x6)) (vxState 0))).eng 0 .X).pc = 0 := by decide +kernel
theorem test_vsel : (List.range 4).map (lane (after (exec (.vsel x0 3 1 2) (vxState 0))) 3) =
    [0x3F800000, 0x40000000, 0xBF800000, 0x3F000000] := by decide +kernel
theorem test_viota : (List.range 4).map (lane (after (exec (.viota x0 3) (vxState 0))) 3) =
    [0, 0x3F800000, 0x40000000, 0] := by decide +kernel
theorem test_vbcastVC : lane (after (exec (.vbcastVC x0 3 (.pantry 0)) (vxState 0))) 3 1 = 0x40000000 := by decide +kernel

/-- An accumulator whose row 5 is numbered, register 1 holding the offset 16,384 in word 0. -/
def memState : State := (vxState 0).onCore 0 fun k => { k with
  bndS := 32768, bndP := 32768, basin := [(257, 0x40), (16384, 7), (16385, 1), (16640, 9)] }

theorem test_vld : lane (after (exec (.vld x0 3 1 1) memState)) 3 0 = 9 := by decide +kernel
theorem test_vst : ((after (exec (.vst x0 1 1 2) memState)).coreAt 0).getBasin 16896 2 = [0, 0x40] := by decide +kernel
theorem test_vpld : (findD ((after (exec (.vpld x0 62 1) memState)).coreAt 0).pantry 62 0).toNat = 0x107 := by decide +kernel

theorem witness_VectorMovesAndMemoryWords :
    GoesX (vxState 0) x0 ∧ tyOf (0x801 % 32) = some .bf16 ∧ 0x801 / 256 * width .bf16 ≤ 8 * (here (vxState 0)).vlen ∧
    tyOf (6 % 32) = some .e8m0 ∧ ((begun (vxState 0) .X x0.tok 4).coreAt 0).shape = .ok (4, .f32) ∧
    LanesClean ((begun (vxState 0) .X x0.tok 4).coreAt 0) 1 128 ∧ GoesX memState x0 ∧
    laneBits ((begun memState .X x0.tok 4).coreAt 0) 1 32 0 = 16384 ∧
    Clean ((begun memState .X x0.tok 4).coreAt 0) 16384 256 ∧ LanesClean ((begun memState .X x0.tok 4).coreAt 0) 1 2048 ∧
    ((begun memState .X x0.tok 4).coreAt 0).inScratch (16384 + 63 * 256) 256 = true ∧
    (((begun memState .X x0.tok 4).coreAt 0).accAt 0).bad = false ∧
    64 * 32 ≤ 8 * ((begun memState .X x0.tok 4).coreAt 0).vlen :=
  ⟨vxGoes _, rfl, by decide, rfl, rfl, rfl, ⟨⟨rfl, rfl⟩, rfl⟩, by decide +kernel, ⟨by decide, by decide +kernel⟩,
    lc (by decide +kernel), by decide, rfl, by decide⟩

/-- A row of two logits, 1.0 and 3.0, at 12,288, and a block at 10,240; v1 names the row and its length, v2 the block and the
row, v3 the block. -/
def rowState : State := (vxState 0).onCore 0 fun k => { k with
  bndS := 32768, bndP := 32768, masks := []
  basin := [(257, 0x30), (260, 2), (513, 0x28), (517, 0x30), (520, 2), (769, 0x28), (12290, 0x80), (12291, 0x3F),
    (12294, 0x40), (12295, 0x40)] }

/-- The same, the block being one of ranks 1 and 0 with probabilities 0.75 and 0.25 and mass 1.0. -/
def blockState : State := rowState.onCore 0 fun k => { k with
  basin := [(257, 0x30), (260, 2), (513, 0x28), (517, 0x30), (520, 2), (769, 0x28), (10240, 1), (10754, 0x40), (10755, 0x3F),
    (10758, 0x80), (10759, 0x3E), (11018, 0x80), (11019, 0x3F), (11024, 2)] }

theorem test_rowMax : rowMax [0x3F800000, 0x40400000, 0x7FC00000] = 0x40400000 := by decide +kernel
theorem test_term : term 0x40400000 0x40400000 = 0x3F800000 := by decide +kernel

theorem witness_SamplersDrawTokens :
    let k := (begun rowState .X x0.tok 4).coreAt 0
    let j := (begun blockState .X x0.tok 4).coreAt 0
    GoesX rowState x0 ∧ GoesX blockState x0 ∧
    k.samplerCheck false (laneBits k 3 32 0) (some (laneBits k 1 32 0, laneBits k 1 32 1)) = .ok () ∧ LanesClean k 1 64 ∧
    LanesClean k 3 32 ∧ LanesClean k 2 128 ∧ k.samplerCheck true (laneBits k 3 32 0) none = .ok () ∧
    k.samplerCheck true (laneBits k 2 32 0) (some (laneBits k 2 32 1, laneBits k 2 32 2)) = .ok () ∧
    (k.blockWord 10240 780).testBit 1 = false ∧
    firstAbove ((j.drawVal 4).mul (fv (j.blockWord 10240 776))) (prefixes 0 (j.wordsAt 10752 2)) = some 0 :=
  ⟨⟨⟨rfl, rfl⟩, rfl⟩, ⟨⟨rfl, rfl⟩, rfl⟩, okUnit (by decide +kernel), lc (by decide +kernel), lc (by decide +kernel),
    lc (by decide +kernel), okUnit (by decide +kernel), okUnit (by decide +kernel), by decide +kernel, by decide +kernel⟩

theorem test_vspick : lane (after (exec (.vspick x0 5 3 4) blockState)) 5 0 = 1 := by decide +kernel

/-- X at 64 with lc0 = 2 from 4, lc1 = 1 from 8, and an entry in its scalar queue. -/
def vcState (v : DWord) : State := (vxState 0).onCore 0 fun k => { k with
  sq := [(2, [v])], strX := { pc := 64, halted := false, loop0 := ⟨2, 4⟩, loop1 := ⟨1, 8⟩ } }

theorem test_xnext : ((after (exec (.xnext x0 0 false) (vcState 0))).eng 0 .X).pc = 4 := by decide
theorem test_xjmp : ((after (exec (.xjmp x0 (-16)) (vcState 0))).eng 0 .X).pc = 0 := by decide
theorem test_xbrz : ((after (exec (.xbrz x0 (-16)) ((vcState 0).onCore 0 fun k => { k with masks := [0] }))).eng 0 .X).pc = 0 := by
  decide
theorem test_xqput : ((after (exec (.xqput x0 1) (vcState 0))).coreAt 0).rqAt 0 = [0x400000003F800000] := by decide +kernel
theorem test_xqget : lane (after (exec (.xqget x0 4 0) (vcState 0x0000000200000005))) 4 1 = 2 := by decide +kernel

/-- X's return queue is full, with a word of two lanes to be put, or one that has issued and is kept. -/
def xFull (r : Option Returning) : State := (vcState 0).onCore 0 fun k =>
  { k with rq := [(0, List.replicate 16 0)], strX := { k.strX with ret := r } }

theorem test_xqput_waits : (after (exec (.xqput x0 1) (xFull none))).eng 0 .X |>.ret.map (·.left) |> (· = some [0x400000003F800000]) := by
  decide +kernel

theorem witness_VectorControlWords :
    (Ready (vcState 0) .X xG1.tok ∧ guardX (vcState 0) xG1 = false) ∧ (∀ v, GoesX (vcState v) x0) ∧
    (((vcState 0).eng 0 .X).loop 0).count = 2 ∧ (((vcState 0).eng 0 .X).loop 1).count = 1 ∧
    (∀ v, (here (vcState v)).sqAt 2 = [v]) ∧ ((begun (vcState 0) .X x0.tok 4).coreAt 0).lanes = 4 ∧
    ((begun (vcState 0) .X x0.tok 4).coreAt 0).active 0 = true ∧
    laneBits ((begun (vcState 0) .X x0.tok 4).coreAt 0) 5 32 0 = 0 ∧
    LanesClean ((begun (vcState 0) .X x0.tok 4).coreAt 0) 1 64 ∧ (((begun (vcState 0) .X x0.tok 4).coreAt 0).rqAt 0).length < 16 ∧
    laneBits ((begun (vcState 0) .X x0.tok 4).coreAt 0) 6 32 0 % 4 = 0 ∧
    (∀ r, ((vcState 0).eng 0 .X).ret = some r → r.issued = false) ∧
    (GoesX (xFull none) x0 ∧ ((xFull none).eng 0 .X).ret = none ∧ 16 ≤ (((begun (xFull none) .X x0.tok 4).coreAt 0).rqAt 0).length ∧
      LanesClean ((begun (xFull none) .X x0.tok 4).coreAt 0) 1 64) ∧
    (GoesX (xFull (some { left := [7], issued := true })) x0 ∧
      ((xFull (some { left := [7], issued := true })).eng 0 .X).ret = some { left := [7], issued := true }) :=
  ⟨⟨⟨rfl, rfl⟩, by decide⟩, fun _ => ⟨⟨rfl, rfl⟩, rfl⟩, by decide, by decide, fun _ => rfl, by decide, by decide, by decide +kernel,
    lc (by decide +kernel), by decide, by decide +kernel, (fun _ h => by cases h),
    ⟨⟨⟨rfl, rfl⟩, rfl⟩, rfl, by decide, lc (by decide +kernel)⟩, ⟨⟨rfl, rfl⟩, rfl⟩, rfl⟩

/-! ## Events of the module, the Hall and the cores -/

/-- Two copies in flight, one over the far region on CXL port 0 and one from connection 3; die 1 hot; gauge 0 of core 0 on. -/
def copyOp (src : Side) : Op :=
  { kind := .copy src (.plain 0x2000) 64, core := 0, part := 0, job := 1, jidx := 0, sup := false, pc := 0, seq := 0, ops := []
    complPa := 0x2000, semPa := none }
def evState : State := { mState with
  cores := [(0, { mCore with freezeEnd := some 24, gauges := [(0, { control := 0x80FF0001 })] })]
  dev := { mState.dev with
    far := [(0, { port := 0, part := some 0, size := 65536 }), (1, { port := 0, part := none, size := 65536 })]
    ops := [(1, copyOp (.far 0 0)), (2, copyOp (.device 0 3 0 0))], hotDies := [1], nextOp := 3, powerLimit := 2000 } }

/-- At the end of a period of the duty; a collective whose rank 0 lies behind connection 0. -/
def dutyState : State := { evState with now := 65536 }
def reachedOp : Op := { copyOp (.plain 0) with kind := .coll ⟨0, 0, 12, 2, 1, 0, 0x2000, 2, 0x3000, 1⟩, capbase := some 0x4001 }
def reachState : State := { evState.onDev fun d => { d with ops := [(1, reachedOp)] } with
  mem := [(0, 0x01), (1, 0x10), (0x1000, 0x0F), (0x3002, 3), (0x4060, 0x35)] }

theorem test_duty_hot : (after (exec (.dutyPeriod 0) dutyState)).dev.duty = 4 := by decide
theorem test_duty_over : (after (exec (.dutyPeriod 2001) (dutyState.onDev fun d => { d with hotDies := [] }))).dev.duty = 15 := by
  decide
theorem test_duty_early : (after (exec (.dutyPeriod 0) evState)).dev.duty = 16 := by decide
theorem test_gauge : (findD (after (exec (.gaugeSample (.core 0 0) ⟨7, none⟩) evState)).cores 0 {}).gauges.map (fun g => g.2.hist) =
    [[(3, 1)]] := by decide
theorem test_cxlLinkDown : (find (after (exec (.cxlLinkDown 0) evState)).dev.ops 1).bind Op.status = some 2 := by decide
theorem test_connectionTimeout : (find (after (exec (.connectionTimeout 3) evState)).dev.ops 2).bind Op.status = some 3 := by
  decide
theorem test_thermalTrip : (after (exec .thermalTrip evState)).dev.phase = .stopped := by decide
theorem test_freezeEnd_early : (after (exec (.freezeEnd 0) evState)).core = 0 ∧
    ((after (exec (.freezeEnd 0) evState)).coreAt 0).freezeEnd = some 24 := by decide
theorem test_errorHbm : (after (exec (.uncorrectableError (.hbm 0x2010)) evState)).poison = [0x80] := by decide

theorem witness_ModuleEventsGaugesAndErrors :
    (OpsApart evState ∧ find evState.dev.ops 1 = some (copyOp (.far 0 0)) ∧
      (after (exec (.cxlLinkDown 0) evState)).linkLost (.far 0 0) = true ∧
      (after (exec (.connectionTimeout 3) evState)).peerLost (.device 0 3 0 0) = true ∧ (copyOp (.far 0 0)).isHeld = false ∧
      { copyOp (.far 0 0) with hold := some 4 }.isHeld = true) ∧
    ((evState.onDev fun d => { d with phase := .recovery }).dev.phase = .recovery ∧ evState.dev.phase ≠ .recovery) ∧
    (OpsApart reachState ∧ reachState.dev.ops = [(1, reachedOp)] ∧ reachState.collUses reachedOp
      ⟨0, 0, 12, 2, 1, 0, 0x2000, 2, 0x3000, 1⟩ 0 = true) ∧
    (evState.dev.phase ≠ .off ∧ evState.now < evState.dev.dutyNext ∧ dutyState.dev.dutyNext ≤ dutyState.now) ∧
    (∃ f, find evState.dev.far 1 = some f ∧ f.part = none ∧ evState.dev.cxlPorts.contains f.port = true) ∧
    ((evState.gauge (.core 0 0)).control.getLsbD 31 = true ∧
      sourceFits (.core 0 0) ((evState.gauge (.core 0 0)).control.toNat % 256) = true ∧
      ownSource ((evState.gauge (.core 0 0)).control.toNat % 256) = false) ∧
    (evState.gauge (.core 0 1)).control.getLsbD 31 = false ∧ (mState.coreAt 0).freezeEnd = none ∧
    ((evState.coreAt 0).freezeEnd = some 24 ∧ evState.now < 24 ∧ 24 ≤ ({ evState with now := 24 } : State).now) :=
  ⟨⟨by unfold OpsApart; decide, rfl, by decide, by decide, rfl, rfl⟩, by decide, ⟨by unfold OpsApart; decide, rfl, by decide +kernel⟩,
    by decide, ⟨_, rfl, rfl, by decide⟩, by decide, by decide, by decide,
    by decide⟩

/-- A job of one core on wing 0: READY as job 4 of partition 0, LOADING as the dispatcher's job 5 on core 2, which reads nothing
but its own image, and RUNNING as job 1. -/
def hJob (st : Nat) : Job := { dispatcherJob [0] with state := st }
def hState : State := { tState with
  cores := [(0, tCore), (3, { tCore with run := .leaving, leaveByJend := true }), (4, { tCore with run := .leaving }),
    (5, { tCore with job := 6, yieldAt := some 0 }), (7, { tCore with job := 7, yieldAt := some 0 })]
  dev := { tState.dev with ops := [(1, { copyOp (.basin 0) with core := 8 })], nextOp := 2 }
  parts := [(0, { tPart with
    jobs := [(1, { hJob 4 with sup := false, disp := [], idx := [(0, { core := some 0, st := .running })] }), (4, hJob 2),
      (5, { hJob 3 with idx := [(0, { core := some 2 })] }),
      (6, { hJob 4 with idx := [(0, { core := some 5, st := .running })] }),
      (7, { hJob 4 with ctxVa := 0x2000, idx := [(0, { core := some 7, st := .running })] }),
      (8, { hJob 3 with disp := [], idx := [(0, { core := some 9 })] })] })] }

theorem test_placement : ((after (exec (.placement 0) hState)).jobAt 0 4).map (fun b => (b.state, b.idx.map fun e => e.2.core)) =
    some (3, [some 1]) := by decide +kernel
theorem test_loadComplete : ((after (exec (.loadComplete 0 5) hState)).coreAt 2).run = .running := by decide +kernel
theorem test_sliceEnd_due : ((after (exec (.sliceEnd 0 1) { hState with now := 2 ^ 20 })).coreAt 0).yieldAt = some (2 ^ 20) := by
  decide +kernel
theorem test_overrun : ((after (exec (.yieldDeadline 5) { hState with now := 2 ^ 22 })).jobAt 0 6).bind (·.ending) = some (7, 3) := by
  decide +kernel

/-- No core is free for job 4; and an entry of the loading of job 5 has still to start. -/
def fullHall : State := hState.onDev fun d => { d with retired := [1, 2, 6, 8, 9, 10, 11] }
def queuedHall : State := hState.setJob 0 5 { hJob 3 with idx := [(0, { core := some 2 })], loadLeft := [(0, 1)] }

theorem test_placement_waits : ((after (exec (.placement 0) fullHall)).partAt 0).chosen = some 4 := by decide +kernel

theorem witness_HallEventsMoveJobs :
    (∃ b, hState.candidate 0 = some (4, b) ∧ hState.jobAt 0 4 = some b ∧ b.live.Nodup ∧
      b.live.length ≤ (firstFit b.affinity (hState.freeCores 0)).length) ∧
    (∃ b, fullHall.candidate 0 = some (4, b) ∧ fullHall.jobAt 0 4 = some b ∧ b.state = 2 ∧
      (firstFit b.affinity (fullHall.freeCores 0)).length < b.live.length) ∧
    (∃ b, hState.jobAt 0 5 = some b ∧ b.state = 3 ∧ hState.dev.phase ≠ .stopped ∧ (∀ x ∈ b.loadLeft, x.2 = 0) ∧
      ∃ xs, hState.readStarts 0 b = .ok xs ∧ (xs.map fun x => x.2.1) = [2]) ∧
    (∃ b, queuedHall.jobAt 0 5 = some b ∧ b.state = 3 ∧ ∃ x ∈ b.loadLeft, x.2 ≠ 0) ∧
    (∃ b, (hState.onDev fun d => { d with retired := [2] }).jobAt 0 5 = some b ∧ b.state = 3 ∧
      (∀ x ∈ b.loadLeft, x.2 = 0) ∧
      (hState.onDev fun d => { d with retired := [2] }).readStarts 0 b = .error (.fail 4)) ∧
    (∃ b, hState.jobAt 0 1 = some b ∧ b.state = 4 ∧ hState.events.contains (.sliceEnd 0 1) = false ∧
      hState.now < b.sliceStart + (hState.partAt 0).slice ∧ b.sliceStart + (hState.partAt 0).slice ≤ 2 ^ 20 ∧
      (∃ k ∈ (hState.partAt 0).jobs, k.1 ≠ 1 ∧ yieldsTo (hState.partAt 0) (2 ^ 20) b k.2 = true) ∧
      (∀ k ∈ (tState.partAt 0).jobs, k.1 ≠ 1 → yieldsTo (tState.partAt 0) (2 ^ 20) b k.2 = false)) ∧
    ((hState.coreAt 3).run = .leaving ∧ hState.basinBusy 3 = false ∧ (hState.coreAt 3).leaveByJend = true ∧
      (hState.coreAt 4).run = .leaving ∧ hState.basinBusy 4 = false ∧ (hState.coreAt 4).leaveByJend = false) ∧
    hState.basinBusy 8 = true ∧
    ((hState.coreAt 5).yieldAt = some 0 ∧ (hState.coreAt 5).run = .running ∧
      (hState.jobAt 0 6).map (·.ctxVa) = some 0 ∧ (hState.coreAt 7).yieldAt = some 0 ∧
      (hState.jobAt 0 7).map (·.ctxVa) = some 0x2000) := by
  refine ⟨⟨_, rfl, rfl, by decide, by decide +kernel⟩, ⟨_, rfl, rfl, rfl, by decide +kernel⟩,
    ⟨_, rfl, rfl, by decide, by decide, _, rfl, rfl⟩, ⟨_, rfl, rfl, by decide⟩, ⟨_, rfl, rfl, by decide, rfl⟩, ⟨_, rfl, rfl, by decide,
    by decide, by decide, ?_, ?_⟩, by decide, by decide, by decide⟩
  · exact ⟨(4, hJob 2), by decide, by decide, by decide +kernel⟩
  · decide

/-- L waits for a token under a limit; a kept trap; an operation that has faulted; a `kwait` at its limit. -/
def trapCore : Core := { mCore with
  kept := [someTrap, { someTrap with seq := 3 }], tokwd := 10
  strL := { halted := false, wait := some { code := 1, since := 0 }, img := [0x83400000] }
  strS := { halted := false, pc := 0, img := [BitVec.ofNat 32 0], bad := [] } }
def ctState : State := { mState with
  now := 10, cores := [(0, trapCore)], dev := { mState.dev with ops := [(1, { copyOp (.basin 0) with faulted := true })] }
  parts := [(0, { mPart with jobs := [(1, { hJob 4 with idx := [(0, { core := some 0, st := .running })] })] })] }

theorem test_tokenStall : ((after (exec (.tokenStall 0 .L) (ctState.onCore 0 fun k => { k with tvecEn := true }))).coreAt 0).thnd =
    true := by decide +kernel
theorem test_unassigned : ((after (exec (.unassignedWord 0xFFFFFFFF) (tState.onCore 0 fun k => { k with tvecEn := true }))).coreAt 0).trapRec.tval =
    0xFFFFFFFF := by decide +kernel

theorem witness_CoreEventsTrap_fetch : ((tState.eng tState.core tState.stream).bad = [] ∧
      (tState.eng tState.core tState.stream).img.length ≤ (tState.eng tState.core tState.stream).pc / 4) ∧
    ((tState.onEng 0 .S fun e => { e with bad := [16] }).eng 0 .S).bad.contains (64 / 4) = true := by decide

theorem witness_CoreEventsTrap_core :
    (∃ w, (ctState.eng 0 .L).wait = some w ∧ ctState.waitNow 0 .L w.code = some 1 ∧
      (ctState.onCore 0 fun k => { k with fwd := [(3, 1)] }).waitNow 0 .L w.code = none ∧ w.code ≠ 0 ∧ w.code ≠ 3 ∧
      (ctState.eng 0 .L).spec = [] ∧
      (ctState.coreAt 0).tokwd.toNat % 2 ^ 32 ≠ 0 ∧ (ctState.coreAt 0).tokwd.toNat % 2 ^ 32 ≤ ctState.now - w.since ∧
      (0 : Nat) - w.since < (ctState.coreAt 0).tokwd.toNat % 2 ^ 32) ∧
    ((ctState.coreAt 0).run = .running ∧ (ctState.coreAt 0).thnd = false ∧ (ctState.coreAt 0).freezeEnd = none ∧
      (ctState.coreAt 0).stopping = none ∧ someTrap ∈ (ctState.coreAt 0).kept ∧ ∀ x ∈ (ctState.coreAt 0).kept, x ≠ someTrap →
        trapBefore someTrap x = true ∧ trapBefore x someTrap = false) :=
  ⟨⟨_, rfl, by decide, by decide, by decide, by decide, rfl, by decide, by decide, by decide⟩, by decide⟩

/-- The operation of an index that runs on core 0, which keeps no trap, and of one that is away. -/
def freeCore : State := ctState.onCore 0 fun k => { k with kept := [] }
def awayState : State := ctState.setJob 0 1 { hJob 4 with idx := [(0, { st := .saved })] }

theorem test_asyncFault_kept : ((after (exec (.asyncFault 1 0x2000 7) awayState)).jobAt 0 1).map
    (fun b => b.idx.map fun e => e.2.kept.length) = some [1] := by decide +kernel

theorem witness_CoreEventsTrap_async :
    (∃ o b x, freeCore.opAt 1 = some o ∧ o.faulted = true ∧ freeCore.jobAt o.part o.job = some b ∧ b.state < 6 ∧
      find b.idx o.jidx = some x ∧ x.core = some 0 ∧ (freeCore.coreAt 0).run ≠ .idle ∧ (freeCore.coreAt 0).kept = []) ∧
    (∃ o b x, awayState.opAt 1 = some o ∧ o.faulted = true ∧ awayState.jobAt o.part o.job = some b ∧ b.state < 6 ∧
      find b.idx o.jidx = some x ∧ x.core = none) :=
  ⟨⟨_, _, _, rfl, rfl, rfl, by decide, rfl, rfl, by decide, by decide⟩, _, _, _, rfl, rfl, rfl, by decide, rfl, rfl⟩

/-- S stands at a `kwait` of k1, which is 9, whose threshold of 256 is out of reach and whose limit of 7 cycles is past. -/
def kwInstr : Instr := .kwait p0 8 5 2 1 true
def kwWait : KWait := { k := 1, thr := 256, limit := some 7, since := 0 }
def kwState : State := { mState with now := 100, stream := .L, cores := [(0, { mCore with
  sreg := [(2, 7), (5, 256)], kwait := some kwWait
  strS := { halted := false, pc := 0, img := [(encode kwInstr).getD 0 0] } })] }

theorem test_kwaitTimeout : ((after (exec (.kwaitTimeout 0) kwState)).coreAt 0).s 8 = 0 ∧
    ((after (exec (.kwaitTimeout 0) kwState)).eng 0 .S).pc = 4 := by decide +kernel

/-- The state in which S's turn tests the counter. -/
def kwTurn : State := { kwState with core := 0, stream := .S }
def kwTest : State := kwTurn.setCore 0 { kwState.coreAt 0 with kwait := some { kwWait with pa := kwTurn.semPa 0 1 } }

theorem witness_CoreEventsTrap_kwait : (kwState.coreAt 0).run = .running ∧ (kwState.coreAt 0).freezeEnd = none ∧ (kwState.coreAt 0).stopping = none ∧
    (kwState.coreAt 0).kwait = some kwWait ∧ kwWait.expired kwState.now = true ∧ kwWait.k = 1 ∧
    decodeS (((kwState.coreAt 0).strS.img.getD ((kwState.coreAt 0).strS.pc / 4) 0).toNat) = .ok kwInstr ∧
    Holds kwTurn p0 ∧ semaphoresOn (kwState.coreAt 0) = true ∧ (kwState.coreAt 0).kwaitFor 5 2 1 true kwState.now = kwWait ∧
    (∃ t pa k, (sPast kwTest).xlate 0 .S (semaphoreVa (kwState.coreAt 0) 1) needBoth = .ok (t, pa) ∧
      AtomicReads t 0 pa 4 k 9 ∧ 9 < kwWait.thr) ∧
    kwWait.expired 0 = false := by
  refine ⟨rfl, rfl, rfl, rfl, by decide, rfl, rfl, ?_, rfl, rfl, ⟨_, _, _, rfl, ⟨⟨.inr (by decide), rfl, rfl⟩, by decide⟩, by decide⟩,
    by decide⟩
  unfold Holds
  decide

/-! ## Events of operations, walks and homes -/

theorem okSome {ε α : Type} {r : Except ε α} (h : (match r with | .ok _ => true | .error _ => false) = true) : ∃ a, r = .ok a := by
  cases r with
  | ok a => exact ⟨a, rfl⟩
  | error x => cases h

theorem walkOk {w : Walk} (h : (match w with | .ok _ _ => true | _ => false) = true) : ∃ x fr, w = .ok x fr := by
  cases w with
  | ok x fr => exact ⟨x, fr, rfl⟩
  | fault _ => cases h
  | cel _ _ => cases h

theorem walkFault {w : Walk} (h : (match w with | .fault _ => true | _ => false) = true) : ∃ x, w = .fault x := by
  cases w with
  | fault x => exact ⟨x, rfl⟩
  | ok _ _ => cases h
  | cel _ _ => cases h

/-- Copy 1 of 64 bytes from 0x2000 to 0x2040, and the same copy held, done, ended, or from connection 3. -/
def cpOp : Op := { copyOp (.plain 0x2000) with kind := .copy (.plain 0x2000) (.plain 0x2040) 64, semPa := some 0x3004 }
def cpState (o : Op) : State := mState.onDev fun d => { d with ops := [(1, o)], nextOp := 2 }

/-- A reduce-scatter and an all-gather of two ranks, on cores 0 and 1, over two I32 elements at 0x2000; rank 0 has started. -/
def ring (op : Nat) : Coll := ⟨op, 0, 12, 2, 0, 0, 0x2000, 2, 0x3000, 1⟩
def collOp (op : Nat) : Op := { cpOp with kind := .coll (ring op), started := true, queued := false }
def collState (o : Op) : State := { cpState o with
  mem := [(0, 0x01), (1, 0x10), (0x1000, 0x0F), (0x2000, 0xFE), (0x2001, 0xFF), (0x3001, 0x80), (0x3004, 9), (0x3008, 1), (0x3009, 0x80)] }

theorem test_copyMoves : Mem.readN (after (exec (.conduitEntryStart 0 0) (cpState cpOp))).mem 0x2040 2 = [0xFE, 0xFF] := by
  decide +kernel
theorem test_copyEnds : (find (after (exec (.conduitEntryStart 0 0) (cpState { cpOp with done := 64 }))).dev.ops 1).bind
    Op.status = some 0 := by decide +kernel
theorem test_ccopyComplete : Mem.readN (after (exec (.ccopyComplete 1 []) (cpState { cpOp with status := some 0, done := 64 }))).mem
    0x3004 1 = [10] := by decide +kernel
/-- Rank 0's chunk from rank 1 at the head of the queue. -/
def hopOf (m : HopMsg) : QueuedHop := ⟨2, 1, 1, m⟩
def hopState (o : Op) (m : HopMsg) : State := (collState o).onDev fun d => { d with hops := [hopOf m], nextOp := 3 }

theorem test_collReduce : Mem.readN (after (exec (.conduitEntryStart 0 0) (hopState (collOp 0) (.data false 0 [1, 0, 0, 0] 1)))).mem
    0x2000 2 = [0xFF, 0xFF] := by decide +kernel
theorem test_collAgain : (find (after (exec (.conduitEntryStart 0 0) (hopState (collOp 0) (.data false 0 [1, 0, 0, 0] 2)))).dev.ops
    1).map Op.retried = some [0] := by decide +kernel

/-- The turn of copy 1's entry has come; the copy is to a peer, from a peer whose data is out, or from far region 0. -/
def cpRun : Op := { cpOp with started := true, begun := 64 }
def toPeer : Op := { cpRun with kind := .copy (.plain 0x2000) (.device 0 3 0 0) 64 }
def fromPeer : Op := { cpOp with kind := .copy (.device 0 3 0 0) (.plain 0x2040) 64 }
def fromFar : Op := { cpRun with kind := .copy (.far 0 0) (.plain 0x2040) 64 }
def farIs (size : Nat) (ports : List Nat) : State := (cpState fromFar).onDev fun d => { d with
  far := [(0, { port := 0, part := some 0, size := size })], cxlPorts := ports }
def badRun : State := { cpState toPeer with poison := [0x80] }

/-- Partition 1 of wing 1 has a copy too, and partition 0 has had its turn in the arbiter's round. -/
def sharedState : State := (cpState cpOp).onDev fun d => { d with
  wings := [(0, 0), (1, 1)], ops := [(1, cpOp), (2, { cpOp with part := 1 })], served := [(0, 1)] }

/-- A job whose loading has two entries to start on die 0. -/
def loadJob : Job := { dispatcherJob [] with state := 3, loadLeft := [(0, 2)], loadFrom := 1 }
def loadState : State := mState.onPart 0 fun q => { q with jobs := [(5, loadJob)] }

theorem test_loadTurn : ((after (exec (.conduitEntryStart 0 0) loadState)).jobAt 0 5).map (·.loadLeft) = some [(0, 1)] := by
  decide +kernel

theorem witness_CopiesAndCollectivesProceed_copies :
    ((cpState cpOp).headOf 1 0).filter Head.ready = none ∧
    ((cpState { fromPeer with awaiting := true }).headOf 0 0).filter Head.ready = none ∧
    (((cpState cpOp).headOf 0 0).filter Head.ready = some (.op 1 cpOp) ∧ cpOp.hold = none ∧
      ((cpState cpOp).newRound 0).credit 0 0 = true) ∧
    ((sharedState.headOf 0 0).filter Head.ready = some (.op 1 cpOp) ∧ (sharedState.newRound 0).weight 0 ≠ 0 ∧
      (sharedState.newRound 0).credit 0 0 = false) ∧
    ((cpState { cpOp with hold := some 5 }).headOf 0 0).filter Head.ready = some (.op 1 { cpOp with hold := some 5 }) ∧
    (((cpState fromPeer).headOf 0 0).filter Head.ready = some (.op 1 fromPeer) ∧
      ((cpState fromPeer).fixSource 1 fromPeer (.device 0 3 0 0)).1.peerLost (.device 0 3 0 0) = false) ∧
    ((loadState.headOf 0 0).filter Head.ready = some (.load 5 loadJob) ∧ (loadState.newRound 0).credit 0 0 = true) :=
  ⟨by decide, by decide, by decide, by decide, by decide, by decide, by decide⟩

theorem witness_CopiesAndCollectivesProceed_pieces :
    ({ cpRun with status := some 0 }.live = false ∧ cpOp.begun ≤ cpOp.done ∧ cpOp.done < 64) ∧
    ((cpState cpRun).opAt 1 = some cpRun ∧ cpRun.live = true ∧ cpRun.awaiting = false ∧ cpRun.done < cpRun.begun ∧
      (cpState cpRun).linkLost (.plain 0x2000) = false ∧ (cpState cpRun).peerLost (.plain 0x2040) = false ∧
      min (64 - 0) (min ((cpState cpRun).reach (.plain 0x2000) 0) ((cpState cpRun).reach (.plain 0x2040) 0)) = 64 ∧
      ∃ x, (cpState cpRun).readSide cpRun (.plain 0x2000) 0 64 = .ok x ∧ (decide (x.bad = []) &&
        (match (cpState cpRun).writeSide cpRun (.plain 0x2040) 0 64 x with | .ok _ => true | .error _ => false)) = true) ∧
    ((farIs 65536 []).opAt 1 = some fromFar ∧ fromFar.live = true ∧ (farIs 65536 []).linkLost (.far 0 0) = true) ∧
    ((farIs 0 [0]).opAt 1 = some fromFar ∧ (farIs 0 [0]).linkLost (.far 0 0) = false ∧
      min 64 (min ((farIs 0 [0]).reach (.far 0 0) 0) ((farIs 0 [0]).reach (.plain 0x2040) 0)) = 0) ∧
    64 ≤ { cpRun with done := 64 }.done ∧
    (badRun.opAt 1 = some toPeer ∧ toPeer.live = true ∧ badRun.peerLost (.device 0 3 0 0) = false ∧
      ∃ x, badRun.readSide toPeer (.plain 0x2000) 0 64 = .ok x ∧
        (noPoison (.device 0 3 0 0) && (match firstBad x.bad with
          | some b => match badRun.writeSide toPeer (.device 0 3 0 0) 0 b (x.below b) with
            | .ok _ => true | .error _ => false
          | none => false)) = true) :=
  ⟨by decide, ⟨by decide, rfl, rfl, by decide, rfl, rfl, by decide, okOf _ (by decide +kernel)⟩, by decide, by decide, by decide,
    by decide, rfl, rfl, okOf _ (by decide +kernel)⟩

/-- A copy of `len` bytes from connection 3 that has begun with `n` of them, and whose data is out. -/
def dataOut (len n : Nat) : Op := { cpOp with kind := .copy (.device 0 3 0 0) (.plain 0x2040) len, awaiting := true, begun := n }

/-- `n` bytes come for it, and are written up to `m`. -/
def Comes (len b n m : Nat) : Prop := ∃ o t, (cpState (dataOut len b)).opAt 1 = some o ∧ o = dataOut len b ∧
  (cpState (dataOut len b)).deliverData o (.plain 0x2040) ((List.replicate n 1).take (min 4064 (o.begun - o.done))) o.done =
    (t, m, none)

theorem witness_CopiesAndCollectivesProceed_ends :
    ((cpState { cpOp with holdUntil := some 9 }).opAt 1).bind (·.holdUntil) = some 9 ∧
    ((cpState { cpOp with status := some 0 }).opAt 1).bind Op.status = some 0 ∧
    (∃ o, (cpState { toPeer with awaiting := true }).opAt 1 = some o ∧ o.status = none ∧ o.faulted = false ∧ o.awaiting = true ∧
      noPoison (.plain 0x2000) = false) ∧
    noPoison (.device 0 3 0 0) = true ∧ Comes 64 64 64 64 ∧ Comes 64 64 8 8 ∧ Comes 128 64 64 64 ∧ Comes 4068 4068 4064 4064 :=
  ⟨by decide, by decide, ⟨_, rfl, rfl, rfl, rfl, rfl⟩, rfl, ⟨_, _, rfl, rfl, rfl⟩, ⟨_, _, rfl, rfl, rfl⟩, ⟨_, _, rfl, rfl, rfl⟩,
    ⟨_, _, rfl, rfl, rfl⟩⟩

/-- A result of a part of a turn that did what it had to. -/
def wentOn : Hop → Bool
  | .ok (some (_, _, .on)) => true
  | _ => false

/-- A state with the collectives given issued, that of rank 0 being operation 1; the one of rank 1 that rank 0's first message
there is for. -/
def paired (rs : List Round) : State := (collState { collOp 0 with key := 1 }).onDev fun d => { d with rounds := rs }
def pairOf (s : State) : Option Nat :=
  ((s.dev.rounds.filter fun y => y.links 0 1 1 1 (0, 0))[((s.dev.rounds.takeWhile fun y => y.op != 1).filter fun y =>
    y.links 0 1 0 0 (1, 1)).length]?).map Round.op

/-- Rank 0's collective has its first chunk to send. -/
def unsentOp : Op := { collOp 0 with started := false, queued := true }
def unsent : State := collState unsentOp

theorem witness_CopiesAndCollectivesProceed_collectives :
    ((collState { collOp 0 with started := false, queued := true }).headOf 0 0).filter Head.ready =
      some (.op 1 { collOp 0 with started := false, queued := true }) ∧
    ((collState (collOp 0)).opAt 1 = some (collOp 0) ∧ (collOp 0).status = none ∧ (collOp 0).faulted = false ∧
      (collOp 0).started = true ∧ (collOp 0).seen.contains 0 = false ∧ residueOf [1, 0, 0, 0] = 1 ∧ residueOf [1, 0, 0, 0] ≠ 2 ∧
      (collOp 0).retried.contains 0 = false ∧ { collOp 0 with retried := [0] }.retried.contains 0 = true ∧
      ∃ r, (collState (collOp 0)).sendMsg (collOp 0) (ring 0) 1 (.ack false 0) = .ok r ∧ (match r with
        | some t => wentOn (t.reduceHop (collOp 0) (ring 0) 0 [1, 0, 0, 0])
        | none => false) = true) ∧
    (∃ r, (collState (collOp 3)).sendMsg (collOp 3) (ring 3) 1 (.ack true 1) = .ok r ∧ (match r with
      | some t => wentOn (t.gatherHop (collOp 3) (ring 3) 1 [1, 0, 0, 0] 1)
      | none => false) = true) ∧
    (∃ r, (collState (collOp 0)).sendMsg (collOp 0) (ring 0) 1 (.again false 0) = .ok r ∧ r.isSome = true) ∧
    { collOp 0 with kept := [(1, .data false 1 [1, 0, 0, 0] 1)] }.kept.find? (isChunk 1 false 1) =
      some (1, .data false 1 [1, 0, 0, 0] 1) ∧
    (collState (collOp 0)).queueUsed 0 0 < 64 ∧
    64 ≤ ((collState (collOp 0)).onDev fun d => { d with hops := List.replicate 64 (hopOf (.ack false 0)) }).queueUsed 0 0 ∧
    (∃ e, (paired [⟨1, 1, 0, 0, 0, [(0, 0), (1, 1)]⟩, ⟨5, 1, 0, 1, 1, [(0, 0), (1, 1)]⟩]).readFor 0 false 0x3008 2 = .ok e ∧
      ((leNat e).testBit 15 && leNat e % 256 == 1) = true) ∧
    (pairOf (paired [⟨1, 1, 0, 0, 0, [(0, 0), (1, 1)]⟩, ⟨5, 1, 0, 1, 1, [(0, 0), (1, 1)]⟩]) = some 5 ∧
      pairOf (paired [⟨1, 1, 0, 0, 0, [(0, 0), (1, 1)]⟩]) = none) ∧
    (reachState.collUses reachedOp ⟨0, 0, 12, 2, 1, 0, 0x2000, 2, 0x3000, 1⟩ 0 = true ∧
      0 ∈ (reachState.onDev fun d => { d with lost := [0] }).dev.lost) ∧
    (unsent.dev.lost = [] ∧ (ring 0).firstChunks[unsentOp.sentFirst]? = some 1 ∧
      ∃ data, unsent.readChunk { unsentOp with started := true, done := (ring 0).aloneBytes, early := [] } (ring 0) 1 = .ok data ∧
        (match unsent.sendMsg { unsentOp with started := true, done := (ring 0).aloneBytes, sentFirst := 1, queued := false } (ring 0)
            (ring 0).next (.data false 1 data (residueOf data)) with
          | .ok (some _) => true
          | _ => false) = true) :=
  ⟨by decide, ⟨by decide, rfl, rfl, rfl, by decide, by decide, by decide, by decide, by decide, okOf _ (by decide +kernel)⟩,
    okOf _ (by decide +kernel), okOf _ (by decide +kernel), by decide, by decide, by decide, okOf _ (by decide +kernel),
    by decide, ⟨by decide +kernel, by decide⟩, rfl, by decide, okOf _ (by decide +kernel)⟩

/-- A fetch of the page at 4 GiB whose entry, at 0x6000, is a resident-in-cellar leaf of slot 0, with two frames free; a miss
on a mapped page and one on no page. -/
def wkState : State := { mState with
  mem := mState.mem ++ [(0x6000, 0x61)]
  parts := [(0, { mPart with
    clkEn := true, clkpool := 2 * 2 ^ 44 + 2 ^ 20, cellarGiB := 1, fetches := [⟨0x6000, 2 ^ 32, none⟩]
    misses := [⟨0, .S, 0x2000, false⟩, ⟨0, .L, 2 ^ 32, false⟩] })] }

/-- A spill under way for another fetch. -/
def noFrame : State := wkState.onPart 0 fun q => { q with spilling := some (0, 0x7000) }

theorem test_walkComplete : ((after (exec (.walkComplete 0 0x2000) wkState)).partAt 0).misses = [⟨0, .L, 2 ^ 32, false⟩] := by
  decide +kernel
theorem test_cellarFetch : ((after (exec (.cellarFetchComplete 0 0x6000 (2 ^ 32)) wkState)).partAt 0).fetches = [] := by
  decide +kernel

/-- A `tlbinv` has barred the miss on the mapped page. -/
def barredState : State := wkState.onPart 0 fun q => { q with misses := [⟨0, .S, 0x2000, true⟩] }

/-- A barred miss lies in the leaf that the walk finds, which is no supervisor's. -/
def answered (s : State) (va : Nat) : Bool := match s.walk 0 true va ⟨false, false⟩ with
  | .ok x _ => (s.partAt 0).misses.any fun m => decide (x.va ≤ m.va) && decide (m.va < x.va + x.size) && m.barred && !x.sup
  | _ => false

theorem test_walk_barred : ((after (exec (.walkComplete 0 0x2000) barredState)).eng 0 .S).got.length = 1 ∧
    ((after (exec (.walkComplete 0 0x2000) barredState)).coreAt 0).tlbS = (barredState.coreAt 0).tlbS := by decide +kernel

theorem witness_WalksAnswerTheirMisses : (∃ x fr, wkState.walk 0 true 0x2000 ⟨false, false⟩ = .ok x fr) ∧
    ((∃ x fr, barredState.walk 0 true 0x2000 ⟨false, false⟩ = .ok x fr) ∧ answered barredState 0x2000 = true) ∧
    (∃ code, wkState.walk 0 true (2 ^ 32) ⟨false, false⟩ = .fault code) ∧
    (∃ x, (wkState.partAt 0).fetches.find? (fun y => y.entryPa == 0x6000) = some x) ∧ (wkState.partAt 0).clkEn = true ∧
    leNat (wkState.homeRead 0x6000 8).1 = 0x61 ∧ (0x61).testBit 0 = true ∧ (0x61).testBit 5 = true ∧ (0x61).testBit 6 = true ∧
    0 < (wkState.partAt 0).cellarGiB * 16384 ∧
    (wkState.frameFor 0 0x6000 = (some 0, wkState)) ∧ (noFrame.frameFor 0 0x6000).1 = none :=
  ⟨walkOk (by decide +kernel), ⟨walkOk (by decide +kernel), by decide +kernel⟩, walkFault (by decide +kernel), ⟨_, rfl⟩, rfl, by decide +kernel, by decide, by decide, by decide, by decide, rfl,
    by decide +kernel⟩

/-- Line 64 (0x2000) in a mode, with a copy of it at core 1 and a line on its way to core 0. -/
def homeReq (k : ReqKind) : HomeReq := { core := some 0, part := 0, line := 64, kind := k }
def homeState (d : DirEntry) : State := { mState with
  dir := [(64, d)], cores := [(0, { mCore with granted := [homeReq .ldWi] }),
    (1, { tCore with copies := [(64, { kind := .owned, data := List.replicate 128 7, dirty := 1 })] })] }

theorem test_loadShares : ((after (exec (.homeRequest (homeReq .ldWi)) (homeState { mode := .ptr [1] }))).dirAt 64).mode =
    .ptr [1, 0] := by decide +kernel
theorem test_storeAtHome : Mem.readN (after (exec (.homeRequest (homeReq (.stHome 0 15 9))) (homeState {}))).mem 0x2000 2 =
    [9, 0] := by decide +kernel
theorem test_storeInvalidates : ((after (exec (.homeRequest (homeReq (.stHome 0 15 9))) (homeState { mode := .ptr [1] }))).dirAt
    64).awaits = [1] := by decide +kernel
theorem test_writeBack : Mem.readN (after (exec (.writeBack 1 64) (homeState { mode := .owned 1 }))).mem 0x2000 5 =
    [7, 7, 7, 7, 0] := by decide +kernel

/-- A store of core 0 to the line in its buffer; and a bank with its 65,535 writes. -/
def sentReq : HomeReq := { homeReq (.stHome 0 15 9) with no := 1 }
def bufState : State := { mState with cores := [(0, { mCore with stores := [⟨1, .S, sentReq⟩] })] }
def twoStores : State := { mState with cores := [(0, { mCore with
  stores := [⟨1, .S, sentReq⟩, ⟨2, .S, { sentReq with no := 2 }⟩] })] }
def fullBank : State := { mState with pending := List.replicate 65535 ⟨1, sentReq⟩ }

theorem test_storeArrives : byteAt (bufState.sendStore 0 ⟨1, .S, sentReq⟩) 0x2000 = [9] := by decide +kernel
theorem test_storeLate (h : Config.overtaken 0 = true) : byteAt (after (exec (.homeRequest sentReq) bufState)) 0x2000 = [0xFE] := by
  have e : exec (.homeRequest sentReq) bufState = .next ((bufState.draw.2).post (.homeRequest sentReq)) := by
    show ite ((Config.overtaken bufState.draw.1 || _) = true) _ _ = _
    rw [show Config.overtaken bufState.draw.1 = true from h]
    rfl
  rw [e]
  decide +kernel

theorem full : fullBank.bankFull (homeReq (.stHome 0 15 9)) = true := by
  have h : fullBank.pendCount (home 64) 0 = 65535 := by
    show (List.filter _ (List.replicate 65535 _)).length = _
    rw [List.filter_replicate, if_pos (by decide), List.length_replicate]
  show (writes _ && decide (65535 ≤ fullBank.pendCount (home 64) 0)) = true
  rw [h]
  rfl

theorem witness_HomesAndCachesExchangeMessages_requests :
    (∀ k, (homeReq k).core = some 0 ∧ (homeReq k).no = 0 ∧ (homeState {}).buffered (homeReq k) = none) ∧
    (∃ b, bufState.buffered sentReq = some b ∧ (bufState.coreAt b.1).firstStore b.2 = b.2) ∧
    (∃ b, twoStores.buffered { sentReq with no := 2 } = some b ∧ (twoStores.coreAt b.1).firstStore b.2 ≠ b.2) ∧
    fullBank.bankFull (homeReq (.stHome 0 15 9)) = true ∧
    (homeState { mode := .none, busy := some (homeReq .ldOwn) }).mustWait (homeReq .ldSi) = true ∧
    (Served (homeState {}) (homeReq (.stHome 0 15 9)) ∧ ((homeState {}).dirAt 64).mode = .none ∧
      ∃ bs, newBytes (.stHome 0 15 9) (Mem.readN (((homeState {}).accepted (homeReq (.stHome 0 15 9))).landWords 64 (touches (.stHome 0 15 9))).mem
        (128 * 64) 128) = some bs) ∧
    (Served (homeState {}) (homeReq .ldOwn) ∧ Served (homeState {}) (homeReq (.stOwn 0 15 9)) ∧ obtains (.stOwn 0 15 9) = true) ∧
    (Served (homeState { mode := .ptr [1] }) (homeReq (.stHome 0 15 9)) ∧
      (homeState { mode := .ptr [1] }).targets (.ptr [1]) (some 0) = [1]) ∧
    (∀ k, k = .ldSi ∨ k = .ldWi ∨ k = .stOwn 0 15 9 ∨ k = .stHome 0 15 9 → Served (homeState { mode := .owned 1 }) (homeReq k)) := by
  refine ⟨fun k => ⟨rfl, rfl, rfl⟩, ⟨_, rfl, by decide⟩, ⟨_, rfl, by decide⟩, full, by decide, ⟨⟨by decide, by decide⟩, by decide, _, rfl⟩,
    ⟨⟨by decide, by decide⟩, ⟨by decide, by decide⟩, by decide⟩, ⟨⟨by decide, by decide⟩, by decide⟩, ?_⟩
  rintro k (rfl | rfl | rfl | rfl) <;> exact ⟨by decide, by decide⟩

/-- The line owned by core 1, whose copy the home asks for: a read to pass on, and a request for ownership. -/
def askedState : State := homeState { mode := .owned 1, reads := [(1, homeReq .ldSi)] }
def busyState (k : ReqKind) : State := homeState { mode := .owned 1, busy := some (homeReq k) }

/-- A marker of core 0, numbered 2, at the banks; a write accepted before it at cistern 0. -/
def markState : State := (homeState {}).onEng 0 .S fun e => { e with drain := some { before := 1, marker := some 2 } }
def markedState : State := { markState with pending := [⟨1, { sentReq with line := 0 }⟩] }

theorem witness_HomesAndCachesExchangeMessages_messages :
    (((homeState {}).coreAt 0).granted.find? (fun r => r.line == 64) = some (homeReq .ldWi) ∧ (homeState {}).ownCopy 0 64 = none ∧
      writes (homeReq .ldWi).kind = false) ∧
    ((((homeState { awaits := [0, 1] }).dirAt 64).awaits.contains 1 = true ∧
        (((homeState { awaits := [0, 1] }).dropAt 64 1).dirAt 64).awaits.erase 1 ≠ []) ∧
      ((homeState { awaits := [1] }).dirAt 64).awaits.contains 1 = true ∧
        (((homeState { awaits := [1] }).dropAt 64 1).dirAt 64).awaits.erase 1 = []) ∧
    ((homeState {}).dirAt 64).updates.filter (fun u => u.1 == 0) = [] ∧
    (((homeState { mode := .ptr [3] }).dirAt 64).mode = .ptr [3] ∧ find ((homeState { mode := .ptr [3] }).coreAt 3).copies 64 = none ∧
      ((homeState { mode := .ptr [3] }).coreAt 3).granted = []) ∧
    (∃ k, (((homeState { mode := .owned 1 }).makeRoom 64).dirAt 64).mode = .owned 1 ∧
      ((homeState { mode := .owned 1 }).makeRoom 64).ownCopy 1 64 = some k ∧ k.data.length = 128) ∧
    (((homeState { replies := [(3, 9)] }).dirAt 64).replies.find? (fun y => y.1 == 3) = some (3, 9) ∧
      ((homeState { replies := [(3, 9)] }).dirAt 64).waiting = []) ∧
    ((askedState.coreAt 1).granted = [] ∧ (askedState.dirAt 64).reads = (1, homeReq .ldSi) :: []) ∧
    (∀ k, k = .stOwn 0 15 9 ∨ k = .ldWi → (busyState k).dirAt 64 = { mode := .owned 1, busy := some (homeReq k) } ∧
      (homeReq k).line = 64 ∧ ∃ x, (busyState k).ownCopy 1 64 = some x ∧ x.data.length = 128) ∧
    ((markState.eng 0 .S).drain = some { before := 1, marker := some 2 } ∧ markState.pending = [] ∧
      (markedState.eng 0 .S).drain = some { before := 1, marker := some 2 } ∧
      ∃ x ∈ markedState.pending, home x.req.line = 0 ∧ x.req.part = (markedState.coreAt 0).part ∧ x.no < 2) := by
  refine ⟨by decide, ⟨by decide, by decide⟩, by decide, by decide, ⟨_, by decide, rfl, by decide⟩, by decide, by decide, ?_, by decide⟩
  rintro k (rfl | rfl) <;> exact ⟨by decide, rfl, _, rfl, by decide⟩

/-! ## Messages and the Keystone (03_vestibule; 01_package) -/

/-- Partition 0 with an endpoint on port 0, window 0 from 0 with 20 offset bits, and a control block at 0x10000. -/
def vState : State := (mState.onPart 0 fun q => { q with
  ports := 1, vwbase := [(0, 0)], vwctl := [(0, 0xE000000000000014)], vcb := 0x10001 })

/-- A message of a type on connection 1 of port 0. -/
def msg (typ : Byte) (ep : Option Nat) (tc : Nat) (a b : DWord) (body : List Byte) : Msg :=
  { port := 0, conn := 1, mode := .rod, tc, endpoint := ep, auth := true, typ, version := 1, tag := 7, argA := a, argB := b
    reserved := 0, body }

def mWrite : Msg := msg 1 (some 0) 2 0x2000 0 [1, 2, 3, 4]
def mRead : Msg := msg 2 (some 0) 2 0x2000 4 []
def mCmd : Msg := msg 3 (some 0) 0 5 0 (List.replicate 64 1)
def mCancel : Msg := msg 4 (some 0) 0 33 5 []

theorem test_write : Mem.readN (after (exec (.write mWrite) vState)).mem 0x2000 4 = [1, 2, 3, 4] := by decide +kernel
theorem test_write_version : (after (exec (.write { mWrite with version := 2 }) vState)).dev.sent.length = 1 := by decide +kernel
theorem test_cmd_pi : Mem.readN (after (exec (.cmd mCmd) vState)).mem 0x10000 1 = [1] := by decide +kernel
theorem test_cmd_event : (after (exec (.cmd mCmd) vState)).eventCount 0 5 = 8 := by decide +kernel
theorem test_cancel : Mem.readN (after (exec (.cancel mCancel) vState)).mem 0x10204 1 = [2] := by decide +kernel

theorem takenV (m : Msg) (typ : Byte) (tc : Nat) (h : m.typ = typ) (e : m.endpoint = some 0) (c : m.tc = tc) (p : m.port = 0)
    (size : m.body.length ≤ bodyLimit := by decide) : Taken vState m typ tc 0 :=
  ⟨h, by decide, e, by simp only [State.endpointAt, e, p, decide_eq_true size]; decide, c⟩

/-- The pages of the control block and of entry 0 have been asked for, and the stores to both noted. -/
def cmdBase : State := vState.askPages 0 true needWr 0x10000 8
def cmdEntry : State := cmdBase.askPages 0 true needWr 0x11000 64
def cmdNoted : State := (cmdEntry.noteRange 0 true 0x11000 64).noteRange 0 true 0x10000 8

theorem witness_PartitionMessagesAreCheckedAndServed :
    (Taken vState mWrite 1 2 0 ∧ Header mWrite ∧ (vState.partAt 0).windowOk mWrite 4 true = true ∧
      vState.rangeOk 0 ((vState.partAt 0).windowVa mWrite) 4 needWr = true ∧
      ∃ t, (vState.noteRange 0 false ((vState.partAt 0).windowVa mWrite) 4).writeVia 0 false ((vState.partAt 0).windowVa mWrite)
        mWrite.body = .ok t) ∧
    (Taken vState mRead 2 2 0 ∧ (vState.partAt 0).windowOk mRead 4 false = true ∧
      vState.rangeOk 0 ((vState.partAt 0).windowVa mRead) 4 needRd = true ∧
      ∃ bs, vState.readVia 0 false needRd ((vState.partAt 0).windowVa mRead) 1 = .ok bs) ∧
    (Taken vState mCmd 3 0 0 ∧ (vState.partAt 0).configured = true ∧ cmdBase.pageOk 0 true 0x10000 needWr = true ∧
      cmdEntry.pageOk 0 true 0x11000 needWr = true ∧ cmdBase.vcbWord 0 0x10000 = some 0 ∧ cmdEntry.vcbWord 0 0x10080 = some 0 ∧
      (∃ place, cmdNoted.placeFor 0 true 0x10000 needWr = .ok place) ∧ ∃ t, cmdNoted.writeVia 0 true 0x11000 mCmd.body = .ok t) ∧
    (Taken vState mCancel 4 0 0 ∧ cmdBase.pageOk 0 true 0x10000 needWr = true ∧
      ∃ t, (cmdBase.noteRange 0 true 0x10204 4).redVia 0 true 0x10204 4 (fun n => n ||| 2 ^ 1) = .ok t) ∧
    (Taken (vState.onPart 0 fun q => { q with vcb := 0 }) mCmd 3 0 0 ∧
      ((vState.onPart 0 fun q => { q with vcb := 0 }).partAt 0).configured = false) ∧
    (vState.partAt 0).windowOk { mWrite with argA := 0xFFFFC } 8 true = false ∧
    vState.rangeOk 0 (2 ^ 32) 4 needWr = false ∧
    findD (vState.onDev fun d => { d with unitsOut := [(0x4000, 2)] }).dev.unitsOut 0x4000 0 ≠ 0 :=
  ⟨⟨takenV _ _ _ rfl rfl rfl rfl, ⟨rfl, rfl⟩, by decide, by decide +kernel, okSome (by decide +kernel)⟩,
    ⟨takenV _ _ _ rfl rfl rfl rfl, by decide, by decide +kernel, okSome (by decide +kernel)⟩,
    ⟨takenV _ _ _ rfl rfl rfl rfl, by decide, by decide +kernel, by decide +kernel, by decide +kernel, by decide +kernel,
      okSome (by decide +kernel), okSome (by decide +kernel)⟩,
    ⟨takenV _ _ _ rfl rfl rfl rfl, by decide +kernel, okSome (by decide +kernel)⟩, ⟨⟨rfl, by decide, rfl, by decide, rfl⟩, by decide⟩, by decide,
    by decide +kernel, by decide⟩

/-- An `ADMIN` message: operation, A and B. -/
def adm (op a b : Nat) (body : List Byte) : Msg := msg 6 none 0 (.ofNat 64 (op + 65536 * a)) (.ofNat 64 b) body

theorem admTaken (op a b : Nat) (body : List Byte) (h : opOf (adm op a b body) = op) (size : body.length ≤ 4064 := by decide) : AdminTaken evState (adm op a b body) op :=
  ⟨rfl, h, by decide, ⟨(by decide : 0 < 12), rfl⟩, size, rfl, rfl, rfl, rfl, ⟨rfl, rfl⟩, by decide⟩

theorem test_health_one : (after (exec (.health (adm 0x01 0 0 [])) evState)).dev.sent.length = 1 := by decide +kernel
theorem test_setAuthority : (after (exec (.setAuthority (adm 0x33 0 0 [1, 2])) evState)).dev.credential = [1, 2] := by
  decide +kernel
theorem test_sha256 : (sha256 []).take 4 = [0xe3, 0xb0, 0xc4, 0x42] := by decide +kernel

/-- Whether a slot is valid rests on the public key and the signature of its image, which are constants of the configuration
(log 9): the clauses of `FW_UPDATE` and `FW_PREFER` with a valid slot say what holds of an image that verifies. -/
theorem witness_AttestationAndModuleOperations :
    (evState.endpointAt (msg 5 none 0 0 0 (List.replicate 32 1)) = true ∧ evState.dev.attests < 8 ∧ evState.dev.destroying = none) ∧
    8 ≤ (evState.onDev fun d => { d with quotes := List.replicate 8 (mWrite, []) }).dev.attests ∧
    (∃ b rest, (evState.onDev fun d => { d with quotes := [(mWrite, [])] }).dev.quotes = (mWrite, b) :: rest) ∧
    (∀ i, i < 16 → (evState.dev.measAt i).length = 32) ∧ AdminTaken evState (adm 0x01 0 0 []) 0x01 ∧
    AdminTaken evState (adm 0x02 0 0 []) 0x02 ∧ AdminTaken evState (adm 0x31 0 0 []) 0x31 ∧
    AdminTaken evState (adm 0x32 0 0 []) 0x32 ∧ AdminTaken evState (adm 0x33 0 0 [1]) 0x33 ∧
    (AdminTaken evState (adm 0x34 0 1 []) 0x34 ∧ opB (adm 0x34 0 1 []) = 1) ∧
    (AdminTaken evState (adm 0x30 0 (2 ^ 63) [1, 2, 3, 4]) 0x30 ∧ opB (adm 0x30 0 (2 ^ 63) [1, 2, 3, 4]) = 2 ^ 63) ∧
    (AdminTaken evState (adm 0x99 0 0 []) 0x99 ∧ listedOp (opOf (adm 0x99 0 0 [])) = false) :=
  ⟨by decide, by decide, ⟨_, _, rfl⟩, by decide +kernel, admTaken _ _ _ _ (by decide), admTaken _ _ _ _ (by decide),
    admTaken _ _ _ _ (by decide), admTaken _ _ _ _ (by decide), admTaken _ _ _ _ (by decide),
    ⟨admTaken _ _ _ _ (by decide), by decide⟩, ⟨admTaken _ _ _ _ (by decide), by decide⟩,
    ⟨admTaken _ _ _ _ (by decide), by decide⟩⟩

theorem test_setWeight : findD ((after (exec (.setWeight (adm 0x13 16 9 [])) evState)).partAt 0).weights 1 0 = 9 := by decide +kernel
theorem test_setFar_releases : find (after (exec (.setFar (adm 0x16 0 0 [])) evState)).dev.far 0 = none := by decide +kernel
theorem test_setSluice : findD (after (exec (.setSluice (adm 0x14 0 0 (1 :: List.replicate 127 0))) evState)).dev.sluice 0 9 = 0 := by
  decide +kernel

theorem witness_PartitionOperationsTakeEffect :
    (AdminTaken evState (adm 0x10 1 2 []) 0x10 ∧ evState.dev.hasPart 1 = false ∧
      ∀ w, w < 12 → (2).testBit w = true → findD evState.dev.wings w 0xFF = 0xFF) ∧
    evState.dev.hasPart 0 = true ∧
    (AdminTaken evState (adm 0x12 16 0 (List.replicate 192 0)) 0x12 ∧
      evState.addrTaken 0 1 (adm 0x12 16 0 (List.replicate 192 0)) = false) ∧
    AdminTaken evState (adm 0x13 16 9 []) 0x13 ∧ AdminTaken evState (adm 0x14 0 0 (List.replicate 128 0)) 0x14 ∧
    (AdminTaken evState (adm 0x15 0 3 []) 0x15 ∧ (evState.partAt 0).clkEn = false ∧ evState.cellarUsed 0 + 3 ≤ cellarMax) ∧
    (AdminTaken evState (adm 0x16 (2 * 2 ^ 16) 65536 []) 0x16 ∧ find evState.dev.far 2 = none) ∧
    (AdminTaken evState (adm 0x16 0 0 []) 0x16 ∧ ∃ f, find evState.dev.far 0 = some f ∧ f.part = some 0) ∧
    AdminTaken evState (adm 0x17 5 0 []) 0x17 ∧ AdminTaken evState (adm 0x18 0 0 [1, 2, 3, 4]) 0x18 ∧
    AdminTaken evState (adm 0x18 0 (2 ^ 63) [1, 2, 3, 4]) 0x18 ∧ AdminTaken evState (adm 0x11 0 0 []) 0x11 ∧
    (evState.onDev fun d => { d with destroying := some (adm 0x11 0 0 []) }).dev.destroying = some (adm 0x11 0 0 []) ∧
    (evState.destroyWaits 0 = true ∧ (mState.dev.ops.any fun o => o.2.part == 0) = false ∧ mState.dev.writesDone = [] ∧
      mState.dev.quotes = [] ∧ mState.dev.keyQueue = []) ∧
    (evState.endpointAt (adm 0x11 0 0 []) = true ∧ opOf (adm 0x11 0 0 []) = 0x11 ∧ evState.dev.phase ≠ .off) ∧
    evState.partOf 0 = 0 :=
  ⟨⟨admTaken _ _ _ _ (by decide), by decide, by decide⟩, by decide, ⟨admTaken _ _ _ _ (by decide), by decide⟩,
    admTaken _ _ _ _ (by decide), admTaken _ _ _ _ (by decide), ⟨admTaken _ _ _ _ (by decide), by decide, by decide⟩,
    ⟨admTaken _ _ _ _ (by decide), by decide⟩, ⟨admTaken _ _ _ _ (by decide), _, rfl, rfl⟩, admTaken _ _ _ _ (by decide),
    admTaken _ _ _ _ (by decide), admTaken _ _ _ _ (by decide), admTaken _ _ _ _ (by decide), rfl, by decide, by decide, by decide⟩

end Sys2Proof.Tests
end

section
/-! Walks that complete and pages that are fetched (06_basin R114, R116; 20_system R366): what answering a miss does, and O56. -/

namespace Sys2Proof.Machine

theorem exec_walkComplete (p va : Nat) (s : State) : exec (.walkComplete p va) s = execWalkComplete p va s := rfl

theorem exec_cellarFetchComplete (p entryPa va : Nat) (s : State) :
    exec (.cellarFetchComplete p entryPa va) s = execCellarFetchComplete p entryPa va s := rfl

/-! ## What the answer to a miss keeps -/

/-- An update of partition `p` that keeps its misses keeps those of every partition. -/
theorem State.misses_onPart_of_eq (s : State) (p r : Nat) {f : Partition → Partition} (h : ∀ q, (f q).misses = q.misses) :
    ((s.onPart p f).partAt r).misses = (s.partAt r).misses := by
  by_cases e : r = p
  · subst e; simp [h]
  · simp [State.onPart, State.setPart, State.partAt, findD_put_ne _ _ _ e]

/-- An update of one core's engine, as its other engines see it. -/
theorem Core.eng_onEng_ne (k : Core) {st st' : Stream} (f : Engine → Engine) (h : st' ≠ st) :
    (k.onEng st f).eng st' = k.eng st' := k.eng_setEng_ne _ h

/-- A core with a leaf entered in the cache of a stream, as `State.enterXlat` enters it (R113). -/
def Core.cacheXlat (k : Core) (st : Stream) (x : Xlat) : Core :=
  if st = .S then { k with tlbS := cacheIn 64 k.tlbS x } else { k with tlbLW := cacheIn 512 k.tlbLW x }

theorem Core.cacheXlat_sup (k : Core) (st : Stream) (x : Xlat) : (k.cacheXlat st x).sup = k.sup := by
  unfold Core.cacheXlat
  split <;> rfl

theorem Core.cacheXlat_eng (k : Core) (st st' : Stream) (x : Xlat) : (k.cacheXlat st x).eng st' = k.eng st' := by
  unfold Core.cacheXlat
  split <;> cases st' <;> simp only [Core.eng]

/-- A partition with the reference bit of a frame set, as `State.enterXlat` sets it (R116). -/
def Partition.refer (q : Partition) (f : Nat) : Partition :=
  { q with frames := mapVals q.frames fun a y => if a = f then { y with ref := true } else y }

/-- The misses of every partition stay, and so do the levels of the cores; the results that walks have kept for waiting accesses
(R366) stay too, and others may join them. -/
structure State.GotGrows (s t : State) : Prop where
  misses : ∀ p, (t.partAt p).misses = (s.partAt p).misses
  sup : ∀ c, (t.coreAt c).sup = (s.coreAt c).sup
  got : ∀ c st, (s.eng c st).got ⊆ (t.eng c st).got

namespace State.GotGrows

theorem refl (s : State) : s.GotGrows s := ⟨fun _ => rfl, fun _ => rfl, fun _ _ => List.Subset.refl _⟩

theorem trans {s t u : State} (h : s.GotGrows t) (g : t.GotGrows u) : s.GotGrows u where
  misses p := (g.misses p).trans (h.misses p)
  sup c := (g.sup c).trans (h.sup c)
  got c st := List.Subset.trans (h.got c st) (g.got c st)

theorem onCore (s : State) (c : Nat) {f : Core → Core} (hs : ∀ k, (f k).sup = k.sup)
    (hg : ∀ k st, (k.eng st).got ⊆ ((f k).eng st).got) : s.GotGrows (s.onCore c f) where
  misses _ := rfl
  sup d := by
    by_cases e : d = c
    · subst e; simp [hs]
    · rw [s.coreAt_onCore_ne f e]
  got d st := by
    unfold State.eng
    by_cases e : d = c
    · subst e; simpa using hg _ st
    · rw [s.coreAt_onCore_ne f e]; exact List.Subset.refl _

theorem onPart (s : State) (p : Nat) {f : Partition → Partition} (h : ∀ q, (f q).misses = q.misses) :
    s.GotGrows (s.onPart p f) where
  misses r := s.misses_onPart_of_eq p r h
  sup _ := rfl
  got _ _ := List.Subset.refl _

theorem enterXlat (s : State) (c : Nat) (st : Stream) (x : Xlat) (fr : Option Nat) : s.GotGrows (s.enterXlat c st x fr) := by
  have cached : s.GotGrows (s.onCore c fun k => k.cacheXlat st x) :=
    onCore s c (fun k => k.cacheXlat_sup st x) fun k st' => by rw [Core.cacheXlat_eng]; exact List.Subset.refl _
  cases fr with
  | none => exact cached
  | some f => exact cached.trans (onPart _ _ (f := fun q => q.refer f) fun _ => rfl)

theorem onEng (s : State) (c : Nat) (st : Stream) {f : Engine → Engine} (h : ∀ e, e.got ⊆ (f e).got) :
    s.GotGrows (s.onEng c st f) := by
  refine onCore s c (fun k => k.setEng_sup st _) fun k st' => ?_
  by_cases e : st' = st
  · subst e; rw [Core.eng_onEng]; exact h _
  · rw [k.eng_onEng_ne f e]; exact List.Subset.refl _

theorem foldl {α : Type} {f : State → α → State} (h : ∀ (s : State) (a : α), s.GotGrows (f s a)) (l : List α) (s : State) :
    s.GotGrows (l.foldl f s) := by
  induction l generalizing s with
  | nil => exact refl s
  | cons a l ih => exact (h s a).trans (ih _)

end State.GotGrows

/-! ## A walk that completes (R114, R366) -/

/-- Whether a completed leaf covers the address of a miss. -/
def Xlat.hits (x : Xlat) (m : Miss) : Bool := x.va ≤ m.va && decide (m.va < x.va + x.size)

theorem Xlat.hits_iff (x : Xlat) (m : Miss) : x.hits m = true ↔ x.va ≤ m.va ∧ m.va < x.va + x.size := by
  simp [Xlat.hits]

/-- The answer of a completed leaf to one miss that it covers. -/
def State.answerMiss (s : State) (x : Xlat) (fr : Option Nat) (m : Miss) : State :=
  if x.sup && !(s.coreAt m.core).sup then s
  else if m.barred then s.onEng m.core m.stream fun e => { e with got := e.got ++ [x] }
  else s.enterXlat m.core m.stream x fr

/-- A walk that reaches a leaf answers the misses that the leaf covers, one by one, and ends them. -/
theorem execWalkComplete_ok {s : State} {p va : Nat} {x : Xlat} {fr : Option Nat}
    (h : s.walk p true va ⟨false, false⟩ = .ok x fr) :
    execWalkComplete p va s = .next ((((s.partAt p).misses.filter x.hits).foldl (fun s m => s.answerMiss x fr m) s).onPart p
      fun q => { q with misses := q.misses.filter fun m => !x.hits m }) := by
  unfold execWalkComplete
  rw [h]
  rfl

theorem execWalkComplete_fault {s : State} {p va code : Nat} (h : s.walk p true va ⟨false, false⟩ = .fault code) :
    execWalkComplete p va s = .next (s.setPart p { s.partAt p with
      misses := (s.partAt p).misses.filter fun m => m.va / 65536 != va / 65536 }) := by
  unfold execWalkComplete
  rw [h]

theorem State.answerMiss_gotGrows (s : State) (x : Xlat) (fr : Option Nat) (m : Miss) : s.GotGrows (s.answerMiss x fr m) := by
  unfold State.answerMiss
  split
  · exact .refl s
  · split
    · exact .onEng _ _ _ fun e => List.subset_append_left _ _
    · exact .enterXlat _ _ _ _ _

/-- A barred miss gets the leaf for its access, where its core may use it (R366). -/
theorem State.mem_got_answerMiss {s : State} {x : Xlat} (fr : Option Nat) {m : Miss} (barred : m.barred = true)
    (level : x.sup = true → (s.coreAt m.core).sup = true) : x ∈ ((s.answerMiss x fr m).eng m.core m.stream).got := by
  have may : (x.sup && !(s.coreAt m.core).sup) = false := by
    cases hx : x.sup with
    | false => rfl
    | true => rw [level hx]; rfl
  simp [State.answerMiss, may, barred]

/-- Of several misses answered in turn, each that is barred gets the leaf for its access. -/
theorem State.mem_got_foldl_answerMiss {s : State} {x : Xlat} (fr : Option Nat) {m : Miss} {ms : List Miss} (mem : m ∈ ms)
    (barred : m.barred = true) (level : x.sup = true → (s.coreAt m.core).sup = true) :
    x ∈ ((ms.foldl (fun s m => s.answerMiss x fr m) s).eng m.core m.stream).got := by
  induction ms generalizing s with
  | nil => cases mem
  | cons a ms ih =>
    rw [List.foldl_cons]
    rcases List.mem_cons.mp mem with rfl | mem
    · have rest := State.GotGrows.foldl (fun s m => s.answerMiss_gotGrows x fr m) ms (s.answerMiss x fr m)
      exact rest.got _ _ (mem_got_answerMiss fr barred level)
    · exact ih mem fun hx => (s.answerMiss_gotGrows x fr a).sup _ |>.trans (level hx)

/-- After a walk that reaches a leaf, the misses left are those that the leaf does not cover, and each barred miss that it
covers has been served. -/
theorem walkComplete_answers {s : State} {p va : Nat} {x : Xlat} {fr : Option Nat}
    (h : s.walk p true va ⟨false, false⟩ = .ok x fr) :
    ∃ u, execWalkComplete p va s = .next u ∧
      (∀ m, m ∈ (u.partAt p).misses ↔ m ∈ (s.partAt p).misses ∧ ¬ x.hits m = true) ∧
      ∀ m ∈ (s.partAt p).misses, x.hits m = true → m.barred = true →
        (x.sup = true → (s.coreAt m.core).sup = true) → x ∈ (u.eng m.core m.stream).got := by
  have kept := State.GotGrows.foldl (fun s m => s.answerMiss_gotGrows x fr m) ((s.partAt p).misses.filter x.hits) s
  refine ⟨_, execWalkComplete_ok h, fun m => ?_, fun m mem hit barred level => ?_⟩
  · rw [State.partAt_onPart, kept.misses p, List.mem_filter, Bool.not_eq_true', Bool.not_eq_true]
  · exact State.mem_got_foldl_answerMiss fr (List.mem_filter.mpr ⟨mem, hit⟩) barred level

/-! ## A fetched page (R116) -/

theorem bit_eq_testBit (e n : Nat) : bit e n = e.testBit n := by
  rw [Nat.testBit_eq_decide_div_mod_eq]
  rfl

theorem State.fetchable_iff (s : State) (p entryPa : Nat) : s.fetchable p entryPa = true ↔
    (s.partAt p).clkEn = true ∧ (leNat (s.homeRead entryPa 8).1).testBit 0 = true ∧
      (leNat (s.homeRead entryPa 8).1).testBit 5 = true ∧ (leNat (s.homeRead entryPa 8).1).testBit 6 = true ∧
      leNat (s.homeRead entryPa 8).1 / 256 % 2 ^ 40 < (s.partAt p).cellarGiB * 16384 := by
  simp only [State.fetchable, bit_eq_testBit, Bool.and_eq_true, decide_eq_true_eq, and_assoc]
  rfl

/-- A fetch that finds its frame copies the page into it, makes its entry resident and resumes its walk. -/
theorem execCellarFetchComplete_frame {s t : State} {p entryPa va g : Nat} {x : Fetch}
    (due : (s.partAt p).fetches.find? (fun y => y.entryPa == entryPa) = some x) (names : s.fetchable p entryPa = true)
    (frame : s.frameFor p entryPa = (some g, t)) (still : t.fetchable p entryPa = true) :
    execCellarFetchComplete p entryPa va s =
      .next ((t.fillFrame p g entryPa (leNat (t.homeRead entryPa 8).1 / 256 % 2 ^ 40) x.va).endFetch p x) := by
  simp [execCellarFetchComplete, due, names, frame, still, fld]

/-- A fetch for which no frame is free yet comes again. -/
theorem execCellarFetchComplete_waits {s t : State} {p entryPa va : Nat} {x : Fetch}
    (due : (s.partAt p).fetches.find? (fun y => y.entryPa == entryPa) = some x) (names : s.fetchable p entryPa = true)
    (noFrame : s.frameFor p entryPa = (none, t)) :
    execCellarFetchComplete p entryPa va s = .next (t.post (.cellarFetchComplete p entryPa va)) := by
  simp [execCellarFetchComplete, due, names, noFrame]

/-- Settles O56: the misses that a leaf covers are answered one after another, and no answer takes from a stream what an
earlier one gave it; a fetch follows the frame that is chosen for it. -/
theorem walksAnswerTheirMisses : Obligations.WalksAnswerTheirMisses := by
  refine ⟨fun s p va x fr leaf => ?_, fun s p va code fault => ?_, fun s t p entryPa va f x => ?_⟩
  · obtain ⟨u, completes, left, served⟩ := walkComplete_answers leaf
    simp only [Xlat.hits_iff] at left served
    exact ⟨u, (exec_walkComplete p va s).trans completes, left, fun m mem lo hi => served m mem ⟨lo, hi⟩⟩
  · exact (exec_walkComplete p va s).trans (execWalkComplete_fault fault)
  · intro q names entry due nameable frame
    have named := (s.fetchable_iff p entryPa).mpr nameable
    rw [exec_cellarFetchComplete]
    constructor
    · rintro g rfl still
      exact execCellarFetchComplete_frame due named frame ((t.fetchable_iff p entryPa).mpr still)
    · rintro rfl
      exact execCellarFetchComplete_waits due named frame

end Sys2Proof.Machine
end
